-- ==== Sys2Proof/Word.lean ====
section
/-! DEFINITION. The word types of the model: bytes, request words and values of the millisecond counter. -/

namespace Sys2Proof

/-- One byte of the exchange window (R180). -/
abbrev Byte := BitVec 8

/-- A 16-bit field of the window. -/
abbrev Half := BitVec 16

/-- A 32-bit register, parameter or result word. -/
abbrev Word := BitVec 32

/-- A value of the part's free-running millisecond counter: 32 bits, wrapping (00_scope.md, section 6, Times). -/
abbrev Time := BitVec 32

end Sys2Proof
end

