-- ==== Sys2Proof/Syntax.lean ====
section
/-! DEFINITION. The commands of the part: one constructor for each row of spec/opcode_table.json, with what its rule
says comes from outside as its operands. -/

namespace Sys2Proof

/-- A tablet write access of 1, 2 or 4 bytes (R180). -/
inductive Access where
  | byte (b : Byte)
  | half (h : Half)
  | word (w : Word)
  deriving DecidableEq, Repr

/-- What the receiver hears on the van's bus (R120). -/
inductive CanKind where
  /-- a data frame received whole and without error -/
  | data
  /-- a remote frame -/
  | remote
  /-- a frame with a bit-stuffing, form or check-sequence error, or cut short -/
  | defective
  /-- an error frame or an overload frame -/
  | errorOrOverload
  deriving DecidableEq, Repr

/-- A frame of the van's bus. `ident` holds the 11 or 29 identifier bits, `dlc` the data length field as sent. -/
structure CanFrame where
  kind     : CanKind
  extended : Bool
  ident    : BitVec 29
  dlc      : BitVec 4
  data     : List Byte
  deriving DecidableEq, Repr

/-- The operations and events of the part. Switch operands are `true` for CLOSED or PRESSED. -/
inductive Instr where
  /-- R179: the supply falls below 6000 mV or RESET is asserted -/
  | powerReset
  /-- R179: the part leaves power reset; the operands are the first readings of the present switch, the latch sense and
  the button (R141) and of the ambient sensor (R171) -/
  | resetRelease (present sense button : Bool) (ambient : BitVec 12)
  /-- R4 -/
  | frameTimerExpiry
  /-- R8: `readings` holds the 8 sense samples taken in each drive slot 0-17 (R2; masked slots are not read),
  `senseActive` says whether a sense line is active with all enabled lines asserted (R11) -/
  | frameBoundary (readings : List Byte) (senseActive : Bool)
  /-- R12 -/
  | senseLineActive
  /-- R33: the frame that brings the decay counter to the setting (log entry 11) -/
  | chatterDecay
  /-- R83 -/
  | attentionTimerExpiry
  /-- R88 -/
  | repeatIntervalExpiry
  /-- R91 -/
  | wakeHoldExpiry
  /-- R93 -/
  | wakeLimitExpiry
  /-- R103 -/
  | flushTimerExpiry
  /-- R108, R180: a tablet write access at a window offset -/
  | ownerMarkWrite (offset : BitVec 16) (access : Access)
  /-- R128 -/
  | canFrameArrival (frame : CanFrame)
  /-- R134: the entry whose stale timer expires -/
  | staleTimerExpiry (entry : Nat)
  /-- R141: one reading of the three latch inputs -/
  | latchInputRead (present sense button : Bool)
  /-- R145 -/
  | presentSwitchChange
  /-- R145 -/
  | latchSenseChange
  /-- R146 -/
  | buttonPress
  /-- R141 -/
  | buttonReleased
  /-- R148 -/
  | askTimerExpiry
  /-- R150 -/
  | releaseWindowExpiry
  /-- R147 -/
  | cooldownExpiry
  /-- R160 -/
  | stripAcknowledge
  /-- R160 -/
  | acknowledgeTimerExpiry
  /-- R161 -/
  | retryTimerExpiry
  /-- R171 -/
  | ambientReading (reading : BitVec 12)
  /-- R173 -/
  | outputUpdate
  /-- R176, R177: one supply sample in millivolts -/
  | supplySample (millivolts : Half)
  /-- R176: the sample that makes the state DIP -/
  | dipStart (millivolts : Half)
  /-- R177: the sample that makes the state NORMAL -/
  | dipEnd (millivolts : Half)
  /-- R181 -/
  | linkUp
  /-- R181 -/
  | linkDown
  /-- R181 -/
  | linkLowPower
  /-- R181 -/
  | linkActive
  /-- R182: a write access at byte `lane` of NOTICE -/
  | noticeWrite (lane : BitVec 2) (access : Access)
  /-- R186 -/
  | sweepTimerExpiry
  /-- R183: a write access at byte `lane` of INT_MASK -/
  | intMaskWrite (lane : BitVec 2) (access : Access)
  /-- R182: a write access at byte `lane` of INT_PENDING -/
  | intPendingWrite (lane : BitVec 2) (access : Access)
  /-- R182: a write access at byte `lane` of ID -/
  | registerWriteDiscarded (lane : BitVec 2) (access : Access)
  /-- R187: execution of a request whose kind is above 27 -/
  | unknownKind
  /-- R187 -/
  | nop
  /-- R6 -/
  | setScan
  /-- R37 -/
  | setFilter
  /-- R38 -/
  | clearQuarantine
  /-- R39 -/
  | resetKeypath
  /-- R50 -/
  | loadKeymap
  /-- R71 -/
  | loadSteering
  /-- R69 -/
  | lockPolicy
  /-- R78 -/
  | armChord
  /-- R82 -/
  | ackAttention
  /-- R84 -/
  | setAttention
  /-- R86 -/
  | setRepeat
  /-- R90 -/
  | setWake
  /-- R105 -/
  | logFlush
  /-- R106 -/
  | setLog
  /-- R190 -/
  | snapshot
  /-- R121 -/
  | setVehicleBus
  /-- R125 -/
  | loadSignals
  /-- R136 -/
  | setMotion
  /-- R149 -/
  | latchAnswer
  /-- R152 -/
  | undockStart
  /-- R153 -/
  | setLatch
  /-- R156 -/
  | loadLegends
  /-- R163 -/
  | setIndicators
  /-- R174 -/
  | setLightLevels
  /-- R175 -/
  | setLightLimits
  /-- R169 -/
  | loadLightTable
  /-- R178 -/
  | setSupply
  /-- R120 -/
  | elevenRecessiveBits
  deriving DecidableEq, Repr

end Sys2Proof
end

