-- ==== Sys2Proof/Machine/Types.lean ====
section
/-! DEFINITION. The state of each block of the part (00_scope.md, Table 1), one structure per block. -/

namespace Sys2Proof.Machine

/-! ### Scanner (chapter 1) -/

/-- The scan states of R4, R11 and R14. -/
inductive ScanMode where
  | scanning
  | watch
  | held
  deriving DecidableEq, Repr

/-- The scan settings of 1.4: slot mask, scan period in ms, watch entry count. -/
structure ScanSettings where
  mask       : BitVec 18
  period     : Nat
  watchEntry : Nat
  deriving DecidableEq, Repr

/-- The scanner (R1 to R17). `pass`: a pass is running. `timer`: next expiry of the frame timer, none while it is
stopped. `change`: the pending scan change of R7. -/
structure Scanner where
  settings : ScanSettings
  change   : Option ScanSettings
  mode     : ScanMode
  pass     : Bool
  timer    : Option Time
  idleRun  : Nat
  skipped  : Nat
  deriving DecidableEq, Repr

/-- One sample of a delivered frame (R3). -/
inductive Sample where
  | downRead
  | upRead
  | notSampled
  deriving DecidableEq, Repr

/-! ### Key table (chapter 2) -/

/-- BASE or FN (R42). -/
inductive Layer where
  | base
  | fn
  deriving DecidableEq, Repr

/-- The latched route (R57): forward, local (`dock`), hold and chord trigger. -/
structure Route where
  forward : Bool
  dock    : Bool
  hold    : Bool
  chord   : Bool
  deriving DecidableEq, Repr

/-- The latched part of an entry (R18, R26). -/
structure Latched where
  code      : Nat
  layer     : Layer
  route     : Route
  orphaned  : Bool
  pressTime : Time
  deriving DecidableEq, Repr

/-- The condition of an entry. The latched part exists exactly while it is DOWN (R18). -/
inductive Condition where
  | up
  | down (latched : Latched)
  | blocked
  | quarantined
  deriving DecidableEq, Repr

/-- An entry of the Key State Table (Table 2-1). -/
structure KeyEntry where
  cond    : Condition
  pressed : Bool
  filter  : Nat
  score   : Nat
  deriving DecidableEq, Repr

/-- The filter settings of Table 2-2. -/
structure FilterSettings where
  press   : Nat
  release : Nat
  limit   : Nat
  decay   : Nat
  deriving DecidableEq, Repr

/-- The key table: 144 entries by position, the filter settings and the chatter decay counter. The held-forward and
quarantined counts are the numbers of entries that R28 and R35 say they are (`KeyTable.heldForward`,
`KeyTable.quarantinedCount`). -/
structure KeyTable where
  entries      : List KeyEntry
  settings     : FilterSettings
  decayCounter : Nat
  deriving DecidableEq, Repr

/-! ### Keymap unit (chapter 3) and steering unit (chapter 4) -/

/-- The two layer maps of 144 codes (R42). -/
structure Keymap where
  base : List Nat
  fn   : List Nat
  deriving DecidableEq, Repr

/-- A segment of the steering table (R55). -/
structure Segment where
  forward : Bool
  dock    : Bool
  hold    : Bool
  deriving DecidableEq, Repr

/-- The steering unit: 32 segments, the policy lock and the three counts of 4.5. -/
structure Steering where
  table             : List Segment
  lock              : Bool
  lockoutWithheld   : Nat
  rolloverWithheld  : Nat
  discarded         : Nat
  deriving DecidableEq, Repr

/-! ### Chord unit, repeat timer, wake unit (chapter 5) -/

/-- An attention in progress (R77): its chord, its started time and the expiry of the attention timer. -/
structure Attention where
  chord   : Nat
  started : Time
  expiry  : Time
  deriving DecidableEq, Repr

/-- The chord unit: 4 entries, each its list of codes (the empty list: disarmed), the attention state, and the timeout
in seconds (R77). -/
structure Chords where
  entries   : List (List Nat)
  attention : Option Attention
  timeout   : Nat
  deriving DecidableEq, Repr

/-- A repeat in progress (R86): `delay` is phase DELAY, otherwise PERIOD. No repeat in progress is phase IDLE. -/
structure Repeating where
  position  : Nat
  pressTime : Time
  delay     : Bool
  expiry    : Time
  deriving DecidableEq, Repr

/-- The repeat timer (R86). -/
structure RepeatTimer where
  enabled : Bool
  delay   : Nat
  period  : Nat
  running : Option Repeating
  count   : Nat
  deriving DecidableEq, Repr

/-- An armed wake-hold timer (R90). -/
structure WakeArm where
  position  : Nat
  pressTime : Time
  expiry    : Time
  deriving DecidableEq, Repr

/-- The wake unit (R90). `line` is the expiry of the wake limit timer while WAKE is asserted and none while it is
released: R92 starts the timer at each assertion and R93 stops it at each release. -/
structure Wake where
  hold  : Nat
  timer : Option WakeArm
  line  : Option Time
  deriving DecidableEq, Repr

/-! ### Event log (chapter 6) -/

inductive ReleaseCause where
  | normal
  | lockout
  | quarantine
  | masked
  | reset
  deriving DecidableEq, Repr

inductive EndCause where
  | ack
  | timeout
  | reset
  deriving DecidableEq, Repr

inductive LatchCause where
  | button
  | key
  | request
  | grant
  | defer
  | timeout
  | motion
  | taken
  | notTaken
  | forced
  | seated
  | refusedMotion
  deriving DecidableEq, Repr

/-- The latch states of 8.2 without their timers. -/
inductive LatchPlace where
  | empty
  | unseated
  | latched
  | asked
  | releasing
  deriving DecidableEq, Repr

inductive MotionState where
  | unknown
  | parked
  | moving
  deriving DecidableEq, Repr

/-- The role of a signal entry (R123). -/
inductive Role where
  | speed
  | park
  | ignition
  | headlamp
  | aux
  deriving DecidableEq, Repr

/-- The record kinds of Table 6-1 with their fields. -/
inductive RecordBody where
  | keyPress (position code : Nat) (layer : Layer)
  | keyRelease (position code : Nat) (cause : ReleaseCause)
  | keyRepeat (position code count : Nat)
  | attentionBegin (chord : Nat)
  | attentionEnd (chord : Nat) (cause : EndCause)
  | keyFault (position score : Nat)
  | signal (entry : Nat) (fresh : Bool) (role : Role) (value : Nat)
  | motion (state : MotionState) (lockout : Bool) (withheld : Nat)
  | latch (cause : LatchCause) (state : LatchPlace)
  | supply (ended : Bool) (minimum : Nat) (duration : Time)
  | dockLocal (code result : Nat)
  | docked (epoch : Half) (lock : Bool) (discarded : Nat)
  | overflow (lost : Nat)
  | resync (codes : List Nat) (more : Bool)
  deriving DecidableEq, Repr

/-- A record with its time stamp (R95). -/
structure Record where
  time : Time
  body : RecordBody
  deriving DecidableEq, Repr

/-- The open page and the number of records placed on it. The part keeps that number itself: it does not read the
page's header back (R94, R100). -/
structure OpenPage where
  index : Nat
  count : Nat
  deriving DecidableEq, Repr

/-- The log's state besides its pages (R97). -/
structure EventLog where
  live       : Bool
  epoch      : Half
  page       : Option OpenPage
  waiting    : Option Nat
  nextSeq    : Half
  queue      : List Record
  inLoss     : Bool
  lost       : Nat
  flush      : Option Time
  flushDelay : Nat
  deriving DecidableEq, Repr

/-! ### Vehicle bus receiver and motion unit (chapter 7) -/

/-- The description of a signal (R123). `extended` is the 29-bit format, `big` the BIG byte order. -/
structure SignalDesc where
  role     : Role
  extended : Bool
  ident    : Word
  mask     : Word
  big      : Bool
  start    : Nat
  length   : Nat
  mult     : Nat
  shift    : Nat
  offset   : Int
  stale    : Nat
  delta    : Nat
  deriving DecidableEq, Repr

inductive SignalStatus where
  | never
  | fresh
  | stale
  deriving DecidableEq, Repr

/-- The value record of an entry (R124). -/
structure ValueRecord where
  value    : Nat
  status   : SignalStatus
  arrival  : Option Time
  timer    : Option Time
  reported : Option Nat
  deriving DecidableEq, Repr

/-- An entry of the signal table with its value record. -/
structure Signal where
  desc : SignalDesc
  val  : ValueRecord
  deriving DecidableEq, Repr

/-- The receiver: bit rate in kbit/s, whether it has seen its 11 recessive bits and takes frames (R120), and the
signal table. -/
structure VehicleBus where
  rate      : Nat
  listening : Bool
  signals   : List Signal
  deriving DecidableEq, Repr

/-- The motion unit's settings (R136). `asParked` is the unknown policy AS_PARKED, `vehicle` the lockout source
VEHICLE. -/
structure MotionSettings where
  moveOn   : Nat
  moveOff  : Nat
  onDwell  : Nat
  offDwell : Nat
  asParked : Bool
  vehicle  : Bool
  deriving DecidableEq, Repr

/-- The motion unit (R137). -/
structure Motion where
  settings : MotionSettings
  state    : MotionState
  run      : Option Time
  lockout  : Bool
  deriving DecidableEq, Repr

/-! ### Latch controller (chapter 8) -/

/-- The latch state with the timer that runs in it: the ask timer in ASKED, the release window timer in RELEASING
(R148, R150). -/
inductive LatchState where
  | empty
  | unseated
  | latched
  | asked (expiry : Time)
  | releasing (expiry : Time)
  deriving DecidableEq, Repr

/-- A filtered latch input (R141): its value (CLOSED or PRESSED is `true`), its run count 0-2, and the time of a change
that its third differing reading has made due and that has not been taken yet (log entry 14). -/
structure InputFilter where
  value : Bool
  run   : Nat
  due   : Option Time
  deriving DecidableEq, Repr

/-- The source of a release request (R142). -/
inductive PressSource where
  | button
  | key
  deriving DecidableEq, Repr

/-- The latch controller (8.2). Timeout and window are in seconds. -/
structure Latch where
  state      : LatchState
  present    : InputFilter
  sense      : InputFilter
  button     : InputFilter
  cooldown   : Option Time
  heldPress  : Option PressSource
  askTimeout : Nat
  window     : Nat
  deriving DecidableEq, Repr

/-! ### Legend driver and indicators (chapter 9) -/

/-- A cell of a legend set: 10 characters and an attribute 0-3 (R155). -/
structure LegendCell where
  chars : List Byte
  attr  : Nat
  deriving DecidableEq, Repr

inductive ShownSet where
  | base
  | fn
  | motion
  | undocked
  deriving DecidableEq, Repr

/-- The transfer state of R159; SENDING holds the expiry of the acknowledge timer. -/
inductive Transfer where
  | idle
  | sending (expiry : Time)
  deriving DecidableEq, Repr

/-- The legend driver (9.4). `message` is the message of the last transfer begun. -/
structure Legend where
  sets     : List (List LegendCell)
  shown    : ShownSet
  transfer : Transfer
  message  : List LegendCell
  again    : Bool
  failures : Nat
  online   : Bool
  retry    : Option Time
  deriving DecidableEq, Repr

inductive Pattern where
  | off
  | on
  | slow
  | fast
  deriving DecidableEq, Repr

/-- The four tablet-owned patterns (R162). -/
structure Indicators where
  caps   : Pattern
  num    : Pattern
  scroll : Pattern
  aux    : Pattern
  deriving DecidableEq, Repr

/-! ### Lighting and supply (chapter 10) -/

/-- A backlight channel: its step and its output duty (R167). Its target is `Lighting.target`. -/
structure Channel where
  step   : Nat
  output : Nat
  deriving DecidableEq, Repr

inductive NightMode where
  | auto
  | night
  | day
  deriving DecidableEq, Repr

/-- The limits of R175. -/
structure LightLimits where
  nightOn  : Nat
  nightOff : Nat
  nightPct : Nat
  minDuty  : Nat
  slew     : Nat
  dipDuty  : Nat
  deriving DecidableEq, Repr

/-- The lighting controller. `night` is the night state NIGHT; `ambient` holds the last 8 readings, oldest first. -/
structure Lighting where
  panel   : Channel
  keys    : Channel
  legend  : Channel
  levels  : List Nat
  mode    : NightMode
  night   : Bool
  ambient : List Nat
  limits  : LightLimits
  deriving DecidableEq, Repr

/-- The dip minimum and the dip start time (R176). -/
structure DipRecord where
  minimum : Nat
  start   : Time
  deriving DecidableEq, Repr

/-- The supply monitor (R176). `lowMin` is the lowest sample of the low run in progress. -/
structure Supply where
  dip     : Bool
  warn    : Nat
  recover : Nat
  lowRun  : Nat
  lowMin  : Nat
  recRun  : Nat
  record  : Option DipRecord
  deriving DecidableEq, Repr

/-! ### Link, request unit, interrupt (chapter 11) -/

inductive LinkState where
  | down
  | active
  | lowPower
  deriving DecidableEq, Repr

/-- The interrupt causes, bits 0, 1 and 2 of INT_MASK and INT_PENDING (R182). -/
inductive Cause where
  | log
  | request
  | status
  deriving DecidableEq, Repr

/-- The interrupt registers, a vector held over LOW_POWER (R183), and the number of vectors sent (log entry 18). -/
structure Interrupts where
  mask    : BitVec 3
  pending : BitVec 3
  held    : Bool
  sent    : Nat
  deriving DecidableEq, Repr

/-- The request in execution (R186). -/
structure Request where
  kind   : Nat
  count  : Nat
  params : List Word
  notify : Bool
  mark   : Bool
  deriving DecidableEq, Repr

/-- The request unit (R186): the last cell taken, the request in execution, the sweep timer's next expiry. -/
structure RequestUnit where
  pointer : Nat
  current : Option Request
  sweep   : Option Time
  deriving DecidableEq, Repr

/-- The result codes of R187. -/
inductive ResultCode where
  | ok
  | okClamped
  | errKind
  | errCount
  | errParam
  | errTable
  | errLocked
  | errState
  | errMotion
  | errBusy
  | errRange
  deriving DecidableEq, Repr

/-- What an owning block answers to a request: the result code and the result words it gives. -/
structure Reply where
  code  : ResultCode
  words : List Nat := []
  deriving DecidableEq, Repr

end Sys2Proof.Machine
end

