-- ==== Sys2Proof/Machine/Reset.lean ====
section
/-! DEFINITION. The values of each block at a power reset, block by block. -/

namespace Sys2Proof.Machine

/-- R17. The frame timer starts and the first pass begins at the release of the reset. -/
def Scanner.reset : Scanner :=
  { settings := { mask := BitVec.allOnes 18, period := 2, watchEntry := 64 }
    change := none, mode := .scanning, pass := false, timer := none, idleRun := 0, skipped := 0 }

/-- An entry after a power reset (R19). -/
def KeyEntry.reset : KeyEntry := { cond := .up, pressed := false, filter := 0, score := 0 }

/-- R19 and Table 2-2. -/
def KeyTable.reset : KeyTable :=
  { entries := List.replicate 144 KeyEntry.reset
    settings := { press := 3, release := 2, limit := 12, decay := 32 }
    decayCounter := 0 }

/-- Table 3-2. -/
def Keymap.reset : Keymap :=
  { base := (List.range 140).map (· + 1) ++ [496, 497, 498, 501]
    fn := List.replicate 144 0 }

/-- R56 and R75. -/
def Steering.reset : Steering :=
  { table := List.replicate 31 { forward := true, dock := false, hold := false }
      ++ [{ forward := false, dock := true, hold := false }]
    lock := false, lockoutWithheld := 0, rolloverWithheld := 0, discarded := 0 }

/-- R77. -/
def Chords.reset : Chords := { entries := List.replicate 4 [], attention := none, timeout := 10 }

/-- R86. -/
def RepeatTimer.reset : RepeatTimer := { enabled := false, delay := 500, period := 100, running := none, count := 0 }

/-- R90. -/
def Wake.reset : Wake := { hold := 250, timer := none, line := none }

/-- R97. -/
def EventLog.reset : EventLog :=
  { live := false, epoch := 0, page := none, waiting := none, nextSeq := 0, queue := [], inLoss := false, lost := 0
    flush := none, flushDelay := 8 }

/-- R121, R124; R120: the receiver waits for 11 recessive bits. -/
def VehicleBus.reset : VehicleBus := { rate := 500, listening := false, signals := [] }

/-- R136, R137. -/
def Motion.reset : Motion :=
  { settings := { moveOn := 80, moveOff := 30, onDwell := 2000, offDwell := 5000, asParked := false, vehicle := false }
    state := .unknown, run := none, lockout := false }

/-- A latch input whose first reading has not been taken (log entry 6). -/
def InputFilter.reset : InputFilter := { value := false, run := 0, due := none }

/-- R153, R154. The state is taken from the switches at the release of the reset; until then EMPTY (log entry 6). -/
def Latch.reset : Latch :=
  { state := .empty, present := .reset, sense := .reset, button := .reset, cooldown := none, heldPress := none
    askTimeout := 5, window := 4 }

/-- A blank legend cell (R155). -/
def LegendCell.reset : LegendCell := { chars := List.replicate 10 32, attr := 3 }

/-- R155, R158, R161. The first transfer begins at the release of the reset. -/
def Legend.reset : Legend :=
  { sets := List.replicate 4 (List.replicate 12 .reset), shown := .undocked, transfer := .idle, message := []
    again := false, failures := 0, online := true, retry := none }

/-- R164. -/
def Indicators.reset : Indicators := { caps := .off, num := .off, scroll := .off, aux := .off }

/-- R167, R169, R170, R175. The ambient readings are taken at the release of the reset; until then 0 (log entry 6). -/
def Lighting.reset : Lighting :=
  { panel := { step := 9, output := 0 }, keys := { step := 5, output := 0 }, legend := { step := 9, output := 0 }
    levels := [0, 20, 40, 60, 90, 120, 160, 200, 260, 330, 410, 500, 600, 720, 850, 1000]
    mode := .auto, night := false, ambient := List.replicate 8 0
    limits := { nightOn := 200, nightOff := 400, nightPct := 40, minDuty := 20, slew := 25, dipDuty := 100 } }

/-- R178, R179. -/
def Supply.reset : Supply :=
  { dip := false, warn := 9000, recover := 10000, lowRun := 0, lowMin := 0, recRun := 0, record := none }

/-- R182, R183. -/
def Interrupts.reset : Interrupts := { mask := 0, pending := 0, held := false, sent := 0 }

/-- R186. The sweep timer starts at the release of the reset. -/
def RequestUnit.reset : RequestUnit := { pointer := 7, current := none, sweep := none }

end Sys2Proof.Machine
end

