-- ==== Sys2Proof/Machine/State.lean ====
section
/-! DEFINITION. The state of the whole part, its reset value, and what can stop a step. -/

namespace Sys2Proof.Machine

/-- Exchange memory (R180): pairs of a window offset and a byte, offsets strictly rising, no byte 0 listed. An unlisted
offset reads 0, which is what a power reset writes into every byte. -/
abbrev Memory := List Host.Cell

/-- The machine state: one field per block of the part, exchange memory, and the queue of waiting commands. -/
structure State where
  /-- held in power reset (R179) -/
  inReset     : Bool
  /-- the millisecond counter (00_scope.md, section 6) -/
  ms          : Time
  /-- chapter 1 -/
  scan        : Scanner
  /-- chapter 2 -/
  keys        : KeyTable
  /-- chapter 3 -/
  keymap      : Keymap
  /-- chapter 4 -/
  steer       : Steering
  /-- chapter 5 -/
  chords      : Chords
  /-- chapter 5 -/
  rep         : RepeatTimer
  /-- chapter 5 -/
  wake        : Wake
  /-- chapter 6 -/
  log         : EventLog
  /-- chapter 7 -/
  bus         : VehicleBus
  /-- chapter 7 -/
  motion      : Motion
  /-- chapter 8 -/
  latch       : Latch
  /-- chapter 9 -/
  legend      : Legend
  /-- chapter 9 -/
  ind         : Indicators
  /-- chapter 10 -/
  light       : Lighting
  /-- chapter 10 -/
  supply      : Supply
  /-- R181 -/
  link        : LinkState
  /-- R182, R183 -/
  irq         : Interrupts
  /-- R186 -/
  req         : RequestUnit
  /-- exchange memory (R180): cells, log pages, staging and snapshot areas -/
  mem         : Memory
  /-- the status block's change count (R184) -/
  changeCount : Word
  /-- the model's own: the event in progress has rewritten a status field (log entry 15) -/
  statusDirty : Bool
  /-- the model's own: the draw counter of the free values (log entry 19) -/
  freeCount   : Nat
  /-- the commands that wait, first in first out -/
  pending     : List Instr
  deriving DecidableEq, Repr

/-- What stops the machine. -/
inductive Fault where
  /-- Raised by the window write commands for an access that runs past offset FFFFh, the last the window has (R180).
  Safe: no such access reaches the part, and nothing is claimed of it (log entry 9). -/
  | outsideWindow
  deriving DecidableEq, Repr

/-- Why a command has no meaning. -/
inductive Refusal where
  /-- Raised by a dispatch arm whose command is not modelled. Safe: nothing can be proved of that command. -/
  | notModelled (mnemonic : String)
  deriving DecidableEq, Repr

/-- The part held in power reset, every block at the values its chapter gives (R179). A run begins with RESET_RELEASE
(log entry 5). -/
def State.reset : State :=
  { inReset := true
    ms := 0
    scan := .reset
    keys := .reset
    keymap := .reset
    steer := .reset
    chords := .reset
    rep := .reset
    wake := .reset
    log := .reset
    bus := .reset
    motion := .reset
    latch := .reset
    legend := .reset
    ind := .reset
    light := .reset
    supply := .reset
    link := .down
    irq := .reset
    req := .reset
    mem := []
    changeCount := 0
    statusDirty := false
    freeCount := 0
    pending := [] }

/-! ### One update per field -/

def State.setInReset (s : State) (x : Bool) : State := { s with inReset := x }
def State.setMs (s : State) (x : Time) : State := { s with ms := x }
def State.setScan (s : State) (x : Scanner) : State := { s with scan := x }
def State.setKeys (s : State) (x : KeyTable) : State := { s with keys := x }
def State.setKeymap (s : State) (x : Keymap) : State := { s with keymap := x }
def State.setSteer (s : State) (x : Steering) : State := { s with steer := x }
def State.setChords (s : State) (x : Chords) : State := { s with chords := x }
def State.setRep (s : State) (x : RepeatTimer) : State := { s with rep := x }
def State.setWake (s : State) (x : Wake) : State := { s with wake := x }
def State.setLog (s : State) (x : EventLog) : State := { s with log := x }
def State.setBus (s : State) (x : VehicleBus) : State := { s with bus := x }
def State.setMotion (s : State) (x : Motion) : State := { s with motion := x }
def State.setLatch (s : State) (x : Latch) : State := { s with latch := x }
def State.setLegend (s : State) (x : Legend) : State := { s with legend := x }
def State.setInd (s : State) (x : Indicators) : State := { s with ind := x }
def State.setLight (s : State) (x : Lighting) : State := { s with light := x }
def State.setSupply (s : State) (x : Supply) : State := { s with supply := x }
def State.setLink (s : State) (x : LinkState) : State := { s with link := x }
def State.setIrq (s : State) (x : Interrupts) : State := { s with irq := x }
def State.setReq (s : State) (x : RequestUnit) : State := { s with req := x }
def State.setMem (s : State) (x : Memory) : State := { s with mem := x }
def State.setChangeCount (s : State) (x : Word) : State := { s with changeCount := x }
def State.setStatusDirty (s : State) (x : Bool) : State := { s with statusDirty := x }
def State.setFreeCount (s : State) (x : Nat) : State := { s with freeCount := x }
def State.setPending (s : State) (x : List Instr) : State := { s with pending := x }

end Sys2Proof.Machine
end

