-- ==== Sys2Proof/Machine/Ops.lean ====
section
/-! DEFINITION. The named operations over exchange memory, little-endian fields, timers and counts. -/

namespace Sys2Proof.Machine

/-! ### Exchange memory (R180) -/

/-- The byte at an offset; an unlisted offset reads 0 (R180: a power reset writes zero into every byte). -/
def Memory.read : Memory → Nat → Byte
  | [], _ => 0
  | (k, v) :: rest, a => if k = a then v else Memory.read rest a

/-- The memory without the bytes at the `n` offsets from `a` on, so that they read 0. -/
def Memory.clear (m : Memory) (a n : Nat) : Memory := m.filter fun c => c.1 < a || a + n ≤ c.1

/-- List a byte at its place in rising order of offsets. -/
def Memory.insert (a : Nat) (v : Byte) : Memory → Memory
  | [] => [(a, v)]
  | (k, w) :: rest => if a < k then (a, v) :: (k, w) :: rest else (k, w) :: Memory.insert a v rest

/-- Write one byte. Writing 0 removes the entry, so that the form stays canonical. -/
def Memory.write (m : Memory) (a : Nat) (v : Byte) : Memory :=
  if v = 0 then m.clear a 1 else Memory.insert a v (m.clear a 1)

/-- Write bytes at successive offsets. -/
def Memory.writeBytes (m : Memory) (a : Nat) : List Byte → Memory
  | [] => m
  | v :: vs => Memory.writeBytes (m.write a v) (a + 1) vs

/-- The `n` bytes from `a` on. -/
def Memory.readBytes (m : Memory) (a n : Nat) : List Byte := (List.range n).map fun i => m.read (a + i)

/-- The canonical form: offsets strictly rising and no byte 0 listed. -/
def Memory.wf (m : Memory) : Bool := m.Pairwise (fun c d => c.1 < d.1) && m.all fun c => c.2 ≠ 0

/-! ### Little-endian fields (R191) -/

/-- A number as `n` bytes, the least significant first. -/
def leBytes : Nat → Nat → List Byte
  | 0, _ => []
  | n + 1, v => BitVec.ofNat 8 v :: leBytes n (v / 256)

/-- The number whose bytes, the least significant first, these are. -/
def leValue : List Byte → Nat
  | [] => 0
  | b :: bs => b.toNat + 256 * leValue bs

/-- The `n`-byte field at an offset. -/
def Memory.readLe (m : Memory) (a n : Nat) : Nat := leValue (m.readBytes a n)

/-! ### Times and counts -/

/-- The counter stands at the expiry or past it (log entry 3). The comparison is modulo 2^32, so that the wrap of the
counter does no harm. -/
def due (expiry now : Time) : Bool := (now - expiry).toNat < 2 ^ 31

/-- A time some milliseconds later, wrapping with the counter. -/
def after (t : Time) (ms : Nat) : Time := t + BitVec.ofNat 32 ms

/-- Milliseconds from an earlier time to a later one, modulo 2^32 (R138). -/
def elapsed (since now : Time) : Nat := (now - since).toNat

/-- A count one higher, stopping at its limit (00_scope.md, Counts). -/
def satSucc (limit n : Nat) : Nat := min (n + 1) limit

/-- A value brought into a range (00_scope.md, Settings). -/
def clamp (low high v : Nat) : Nat := max low (min high v)

/-- A timer expiry as written in a structure: 0 while idle (R191). -/
def expiryWord : Option Time → Nat
  | none => 0
  | some t => t.toNat

def boolBit (b : Bool) : Nat := if b then 1 else 0

/-! ### Fixed times and sizes of the chapters -/

/-- The cooldown period, ms (R143). -/
def cooldownMs : Nat := 10000
/-- The acknowledge timer, ms (R159). -/
def acknowledgeMs : Nat := 20
/-- The OFFLINE retry, ms (R161). -/
def retryMs : Nat := 5000
/-- The wake limit, ms (R92). -/
def wakeLimitMs : Nat := 2000
/-- The sweep period, ms (R186). -/
def sweepMs : Nat := 20
/-- The records a page takes (R94). -/
def pageRecords : Nat := 31
/-- The records the staging queue takes (R110). -/
def queueRecords : Nat := 32
/-- The rollover limit (R28). -/
def rolloverLimit : Nat := 16
/-- The end of a saturating 16-bit count. -/
def countMax : Nat := 65535

/-! ### The key table's entries -/

/-- The entry of a position. -/
def State.entry (s : State) (p : Nat) : KeyEntry := s.keys.entries.getD p KeyEntry.reset

/-- The state with the entry of a position replaced. -/
def State.putEntry (s : State) (p : Nat) (e : KeyEntry) : State :=
  s.setKeys { s.keys with entries := s.keys.entries.set p e }

/-- The latched part of an entry, present while it is DOWN (R18). -/
def KeyEntry.latched? (e : KeyEntry) : Option Latched :=
  match e.cond with
  | .down l => some l
  | _ => none

/-- The latched press is forwarded and still the tablet's (R28). -/
def Latched.owned (l : Latched) : Bool := l.route.forward && !l.orphaned

/-- The entry is DOWN with forward and not orphaned (R28). -/
def KeyEntry.owned (e : KeyEntry) : Bool :=
  match e.cond with
  | .down l => l.owned
  | _ => false

/-- The held-forward count (R28: the number of such entries). -/
def KeyTable.heldForward (k : KeyTable) : Nat := k.entries.countP KeyEntry.owned

/-- The quarantined count (R35: the number of such entries). -/
def KeyTable.quarantinedCount (k : KeyTable) : Nat := k.entries.countP fun e => e.cond == .quarantined

/-- The code FN (Table 3-1). -/
def codeFN : Nat := 496

/-- The entry is a layer key (R44): DOWN with latched code FN and local. -/
def KeyEntry.layerKey (e : KeyEntry) : Bool :=
  match e.cond with
  | .down l => l.code == codeFN && l.route.dock
  | _ => false

/-- The layer in force, worked out afresh from the entries (R44). -/
def KeyTable.layer (k : KeyTable) : Layer := if k.entries.any KeyEntry.layerKey then .fn else .base

/-! ### The latch state -/

def LatchState.place : LatchState → LatchPlace
  | .empty => .empty
  | .unseated => .unseated
  | .latched => .latched
  | .asked _ => .asked
  | .releasing _ => .releasing

/-- The release solenoid is energized in RELEASING and off in every other state (R143). -/
def State.solenoid (s : State) : Bool := s.latch.state.place == .releasing

end Sys2Proof.Machine
end

