-- ==== Sys2Proof/Machine/Flags.lean ====
section
/-! DEFINITION. Interrupt causes (R183), the rewriting of the status block (R184), and what a command is wrapped in. -/

namespace Sys2Proof.Machine

/-- The bit of a cause in INT_MASK and INT_PENDING (R182). -/
def Cause.bit : Cause → Nat
  | .log => 0
  | .request => 1
  | .status => 2

def Cause.mask (c : Cause) : BitVec 3 := 1#3 <<< c.bit

/-- The vector is due (R183): sent while the link is ACTIVE, held once in LOW_POWER, dropped while DOWN. -/
def vectorDue (s : State) : State :=
  match s.link with
  | .active => s.setIrq { s.irq with sent := s.irq.sent + 1 }
  | .lowPower => s.setIrq { s.irq with held := true }
  | .down => s

/-- Raise a cause (R183): its pending bit is set, and if it was clear and the mask lets the cause signal, the vector is
due. -/
def raiseCause (c : Cause) (s : State) : State :=
  if s.irq.pending.getLsbD c.bit then s
  else
    let s' := s.setIrq { s.irq with pending := s.irq.pending ||| c.mask }
    if s.irq.mask.getLsbD c.bit then vectorDue s' else s'

/-- A status block field is rewritten in this event (R184; log entry 15). The block itself is a view of the state. -/
def touchStatus (s : State) : State := s.setStatusDirty true

/-- The fields of an event are rewritten, and STATUS is raised. -/
def touchAndRaise (s : State) : State := raiseCause .status (touchStatus s)

/-- The end of an event: the change count rises by 1 if the event rewrote a field (R184). -/
def endEvent (s : State) : State :=
  if s.statusDirty then (s.setStatusDirty false).setChangeCount (s.changeCount + 1) else s

/-- A command as one event of the part. While the part is held in power reset nothing happens in it (R179). -/
def event (f : State → State) (s : State) : Host.Outcome State Fault Refusal :=
  .next (if s.inReset then s else endEvent (f s))

end Sys2Proof.Machine
end

