-- ==== Sys2Proof/Machine/Legend.lean ====
section
/-! DEFINITION. The legend driver (chapter 9, R155 to R161): the shown set and the strip transfer; its commands
STRIP_ACKNOWLEDGE, ACKNOWLEDGE_TIMER_EXPIRY and RETRY_TIMER_EXPIRY. -/

namespace Sys2Proof.Machine

/-- The number of a legend set (R155). -/
def ShownSet.number : ShownSet → Nat
  | .base => 0
  | .fn => 1
  | .motion => 2
  | .undocked => 3

/-- The shown set that the link state, the lockout flag and the layer in force give (R158). -/
def shownSetOf (s : State) : ShownSet :=
  if s.link = .down then .undocked
  else if s.motion.lockout then .motion
  else if s.keys.layer = .fn then .fn
  else .base

/-- A character as sent to the module (R155): values outside 32-126 are sent as 63. -/
def sentCharacter (c : Byte) : Byte := if 32 ≤ c.toNat && c.toNat ≤ 126 then c else 63

/-- The message of a transfer: the 12 cells of the shown set as they stand (R159). -/
def stripMessage (g : Legend) : List LegendCell :=
  (g.sets.getD g.shown.number []).map fun c => { c with chars := c.chars.map sentCharacter }

/-- A transfer begins (R159). -/
def beginTransfer (t : Time) (s : State) : State :=
  s.setLegend { s.legend with message := stripMessage s.legend, transfer := .sending (after t acknowledgeMs) }

/-- A refresh need (R159): a transfer begins, or the again-flag is set while one is under way. A transfer begun by it
makes the retry timer idle. -/
def refreshNeed (t : Time) (s : State) : State :=
  match s.legend.transfer with
  | .idle => beginTransfer t (s.setLegend { s.legend with retry := none })
  | .sending _ => s.setLegend { s.legend with again := true }

/-- Work the shown set out afresh (R158): where it differs from the one held, it takes the new value and a refresh need
arises. -/
def evalShownSet (t : Time) (s : State) : State :=
  if shownSetOf s = s.legend.shown then s
  else refreshNeed t (s.setLegend { s.legend with shown := shownSetOf s })

/-- The module's acknowledge (R160): the transfer under way succeeds. -/
def stripAcknowledged (s : State) : State :=
  match s.legend.transfer with
  | .idle => s
  | .sending _ =>
    let s1 := s.setLegend { s.legend with transfer := .idle, failures := 0, online := true, again := false, retry := none }
    let s2 := if s.legend.online then s1 else touchStatus s1
    if s.legend.again then beginTransfer s.ms s2 else s2

/-- The transfer under way fails (R160, R161): it is tried again, or at the third failure the strip is OFFLINE. -/
def transferFailed (t : Time) (s : State) : State :=
  let n := min (s.legend.failures + 1) 3
  let s1 := s.setLegend { s.legend with failures := n, again := false }
  if n < 3 then beginTransfer t s1
  else
    let s2 := s1.setLegend { s1.legend with transfer := .idle, retry := some (after t retryMs), online := false }
    if s.legend.online then touchStatus s2 else s2

/-- STRIP_ACKNOWLEDGE (R160). An acknowledge that arrives while IDLE is ignored. -/
def execStripAcknowledge (s : State) : Host.Outcome State Fault Refusal := event stripAcknowledged s

/-- ACKNOWLEDGE_TIMER_EXPIRY (R160). -/
def execAcknowledgeTimerExpiry (s : State) : Host.Outcome State Fault Refusal :=
  event (fun s => match s.legend.transfer with
    | .sending e => if due e s.ms then transferFailed e s else s
    | .idle => s) s

/-- RETRY_TIMER_EXPIRY (R161): a transfer of the shown set begins and the retry timer is idle. -/
def execRetryTimerExpiry (s : State) : Host.Outcome State Fault Refusal :=
  event (fun s => match s.legend.retry with
    | some e => if due e s.ms then beginTransfer e (s.setLegend { s.legend with retry := none }) else s
    | none => s) s

end Sys2Proof.Machine
end

