-- ==== Sys2Proof/Machine/Log.lean ====
section
/-! DEFINITION. The event log (chapter 6): records, pages, handover, the staging queue, loss and its summary. -/

namespace Sys2Proof.Machine

/-! ### Coded values of records (11.6.3) -/

def Layer.code : Layer → Nat
  | .base => 0
  | .fn => 1

def ReleaseCause.code : ReleaseCause → Nat
  | .normal => 0
  | .lockout => 1
  | .quarantine => 2
  | .masked => 3
  | .reset => 4

def EndCause.code : EndCause → Nat
  | .ack => 1
  | .timeout => 2
  | .reset => 3

def LatchCause.code : LatchCause → Nat
  | .button => 0
  | .key => 1
  | .request => 2
  | .grant => 3
  | .defer => 4
  | .timeout => 5
  | .motion => 6
  | .taken => 7
  | .notTaken => 8
  | .forced => 9
  | .seated => 10
  | .refusedMotion => 11

def LatchPlace.code : LatchPlace → Nat
  | .empty => 0
  | .unseated => 1
  | .latched => 2
  | .asked => 3
  | .releasing => 4

def MotionState.code : MotionState → Nat
  | .unknown => 0
  | .parked => 1
  | .moving => 2

def Role.code : Role → Nat
  | .speed => 0
  | .park => 1
  | .ignition => 2
  | .headlamp => 3
  | .aux => 4

/-- The kind of a record. -/
def RecordBody.kind : RecordBody → Nat
  | .keyPress .. => 1
  | .keyRelease .. => 2
  | .keyRepeat .. => 3
  | .attentionBegin .. => 4
  | .attentionEnd .. => 4
  | .keyFault .. => 5
  | .signal .. => 6
  | .motion .. => 7
  | .latch .. => 8
  | .supply .. => 9
  | .dockLocal .. => 10
  | .docked .. => 11
  | .overflow .. => 12
  | .resync .. => 13

/-- The cause or flag byte of a record. -/
def RecordBody.flag : RecordBody → Nat
  | .keyPress _ _ layer => layer.code
  | .keyRelease _ _ cause => cause.code
  | .keyRepeat .. => 0
  | .attentionBegin .. => 0
  | .attentionEnd _ cause => cause.code
  | .keyFault .. => 0
  | .signal _ fresh _ _ => if fresh then 0 else 1
  | .motion _ lockout _ => boolBit lockout
  | .latch cause _ => cause.code
  | .supply ended _ _ => boolBit ended
  | .dockLocal .. => 0
  | .docked _ lock _ => boolBit lock
  | .overflow .. => 0
  | .resync _ more => boolBit more

/-- The index or code of a record (Table 6-1). -/
def RecordBody.index : RecordBody → Nat
  | .keyPress position _ _ => position
  | .keyRelease position _ _ => position
  | .keyRepeat position _ _ => position
  | .attentionBegin chord => chord
  | .attentionEnd chord _ => chord
  | .keyFault position _ => position
  | .signal entry _ _ _ => entry
  | .motion .. => 0
  | .latch .. => 0
  | .supply .. => 0
  | .dockLocal code _ => code
  | .docked epoch _ _ => epoch.toNat
  | .overflow .. => 0
  | .resync codes _ => codes.length

/-- RESYNC's 64-bit number: code k in its bits 9k to 9k + 8. -/
def resyncNumber : List Nat → Nat
  | [] => 0
  | c :: cs => c + 512 * resyncNumber cs

/-- The 8 payload bytes of a record as one little-endian number. -/
def RecordBody.payload : RecordBody → Nat
  | .keyPress _ code _ => code
  | .keyRelease _ code _ => code
  | .keyRepeat _ code count => code + 0x10000 * count
  | .attentionBegin .. => 0
  | .attentionEnd .. => 0
  | .keyFault _ score => score
  | .signal _ _ role value => role.code + 0x10000 * value
  | .motion state _ withheld => state.code + 0x10000 * withheld
  | .latch _ state => state.code
  | .supply _ minimum duration => minimum + 0x100000000 * duration.toNat
  | .dockLocal _ result => result
  | .docked _ _ discarded => discarded
  | .overflow lost => lost
  | .resync codes _ => resyncNumber codes

/-- The 16 bytes of a record (11.6.3). -/
def Record.bytes (r : Record) : List Byte :=
  leBytes 1 r.body.kind ++ leBytes 1 r.body.flag ++ leBytes 2 r.body.index ++ leBytes 4 r.time.toNat ++
    leBytes 8 r.body.payload

/-- The urgent records of R96: ATTENTION BEGIN, and LATCH whose state is ASKED. -/
def RecordBody.urgent : RecordBody → Bool
  | .attentionBegin _ => true
  | .latch _ .asked => true
  | _ => false

def RecordBody.isOverflow : RecordBody → Bool
  | .overflow _ => true
  | _ => false

/-! ### Pages (R94) -/

/-- The offset of a page (R94). -/
def pageBase (i : Nat) : Nat := 0x0800 + 0x200 * i

/-- The owner mark PART or TABLET (11.6.3). -/
def ownerPart : Byte := 1
def ownerTablet : Byte := 2

/-- The bytes of a page header that 11.6.3 does not name, 03h and 08h-0Fh, written 0 (R191). The part writes them with
every field that it writes into the header (log entry 35). -/
def clearUnnamed (i : Nat) (m : Memory) : Memory :=
  (m.write (pageBase i + 3) 0).writeBytes (pageBase i + 8) (List.replicate 8 0)

/-- Open a page (R107): its record count 0, its loss-before no, its epoch the current one; no page is waited for. -/
def openPage (i : Nat) (s : State) : State :=
  let m := (((clearUnnamed i s.mem).write (pageBase i + 1) 0).write (pageBase i + 2) 0).writeBytes (pageBase i + 6)
    (leBytes 2 s.log.epoch.toNat)
  (s.setMem m).setLog { s.log with page := some { index := i, count := 0 }, waiting := none }

/-- Look at a page (R107): it opens if its owner field reads PART, and otherwise becomes the waiting page. -/
def lookAtPage (i : Nat) (s : State) : State :=
  if s.mem.read (pageBase i) = ownerPart then openPage i s
  else s.setLog { s.log with page := none, waiting := some i }

/-- Hand the open page over (R101): its sequence and its owner TABLET are written, the flush timer becomes idle, LOG is
raised, and the next page in ring order is looked at. -/
def handOver (i : Nat) (s : State) : State :=
  let m := ((clearUnnamed i s.mem).writeBytes (pageBase i + 4) (leBytes 2 s.log.nextSeq.toNat)).write (pageBase i) ownerTablet
  let s1 := (s.setMem m).setLog { s.log with nextSeq := s.log.nextSeq + 1, flush := none, page := none }
  lookAtPage ((i + 1) % 16) (raiseCause .log s1)

/-- Place a record on the open page (R100), which is handed over when it is full (R102) or the record is urgent
(R104). -/
def placeOn (p : OpenPage) (r : Record) (s : State) : State :=
  let base := pageBase p.index
  let m := ((clearUnnamed p.index s.mem).writeBytes (base + 0x10 + 0x10 * p.count) r.bytes).write (base + 2)
    (BitVec.ofNat 8 (p.count + 1))
  let m := if r.body.isOverflow then m.write (base + 1) 1 else m
  let flush := if p.count = 0 then some (after s.ms s.log.flushDelay) else s.log.flush
  let s1 := (s.setMem m).setLog { s.log with page := some { p with count := p.count + 1 }, flush := flush }
  if p.count + 1 = pageRecords || r.body.urgent then handOver p.index s1 else s1

/-- A record is lost (R111): the first loss begins the loss state and raises STATUS, each further one is counted. -/
def loseRecord (s : State) : State :=
  if s.log.inLoss then s.setLog { s.log with lost := satSucc countMax s.log.lost }
  else touchAndRaise (s.setLog { s.log with inLoss := true, lost := 1 })

/-- Append a record handed to the log (R98, R99): discarded while DORMANT, else placed, queued or lost. -/
def append (r : Record) (s : State) : State :=
  if s.log.live then
    match s.log.page with
    | some p => placeOn p r s
    | none =>
      if !s.log.inLoss && s.log.queue.length < queueRecords then
        s.setLog { s.log with queue := s.log.queue ++ [r] }
      else loseRecord s
  else s

/-- Append records in order. -/
def appendAll (rs : List Record) (s : State) : State := rs.foldl (fun t r => append r t) s

/-! ### Draining and the loss summary -/

/-- Drain queued records onto open pages in their order (R108); where no page is open, the rest stay queued. -/
def drain : List Record → State → State
  | [], s => s
  | r :: rs, s =>
    match s.log.page with
    | some p => drain rs (placeOn p r s)
    | none => s.setLog { s.log with queue := r :: rs }

/-- The codes of the entries that are DOWN with forward and not orphaned, in position order (R113). -/
def heldCodes (k : KeyTable) : List Nat :=
  k.entries.filterMap fun e =>
    match e.cond with
    | .down l => if l.owned then some l.code else none
    | _ => none

/-- The RESYNC records of a list of codes (R113): five to a record, more-follows on all but the last. `fuel` bounds the
number of records. -/
def resyncBodies : Nat → List Nat → List RecordBody
  | 0, _ => []
  | fuel + 1, codes =>
    if codes.length ≤ 5 then [.resync codes false]
    else .resync (codes.take 5) true :: resyncBodies fuel (codes.drop 5)

/-- The summary of a loss (R112): OVERFLOW with the lost count, then the RESYNC records. -/
def summaryRecords (s : State) : List Record :=
  let codes := heldCodes s.keys
  (.overflow s.log.lost :: resyncBodies (codes.length + 1) codes).map fun b => { time := s.ms, body := b }

/-- Write the summary and end the loss (R112, R114): its records are appended as any records, and the loss does not make
them lost; then STATUS is raised. -/
def writeSummary (s : State) : State :=
  touchAndRaise (appendAll (summaryRecords s) (s.setLog { s.log with inLoss := false, lost := 0 }))

/-- The tablet returns the waiting page (R108): it opens, the queue drains, and a loss is summarised if a page is open
and the queue empty. -/
def pageReturned (i : Nat) (s : State) : State :=
  let s1 := openPage i s
  let s2 := drain s.log.queue (s1.setLog { s1.log with queue := [] })
  if s2.log.inLoss && s2.log.page.isSome && s2.log.queue.isEmpty then writeSummary s2 else s2

/-! ### Epochs -/

/-- The log at link-up (R115, R116): the epoch rises, every page is cleared to PART, page 0 opens, the log is LIVE, and
DOCKED is appended. -/
def logLinkUp (s : State) : State :=
  let m := (List.range 16).foldl (fun m i => m.write (pageBase i) ownerPart) (s.mem.clear 0x0800 0x2000)
  let s1 := (s.setMem m).setLog
    { s.log with live := true, epoch := s.log.epoch + 1, nextSeq := 0, queue := [], inLoss := false, lost := 0, flush := none }
  let s2 := touchStatus (openPage 0 s1)
  append { time := s.ms, body := .docked s2.log.epoch s.steer.lock s.steer.discarded } s2

/-- The log at link DOWN (R117). -/
def logLinkDown (s : State) : State :=
  touchStatus (s.setLog
    { s.log with live := false, page := none, waiting := none, queue := [], inLoss := false, lost := 0, flush := none })

end Sys2Proof.Machine
end

