-- ==== Sys2Proof/Machine/KeyTable.lean ====
section
/-! DEFINITION. Operations on the entries of the Key State Table that other blocks ask for (R27 to R30, R36, R63): stop of
a repeat, orphaning, forced release, leaving DOWN; the chatter decay. -/

namespace Sys2Proof.Machine

/-- Stopping a repeat (R89): the position becomes none, the phase IDLE, the count 0, the timer stopped. -/
def stopRepeat (s : State) : State := s.setRep { s.rep with running := none, count := 0 }

/-- The repeat timer is told that the entry of a position is released or orphaned (R27, R29): a repeat on it stops. -/
def stopRepeatOf (p : Nat) (s : State) : State :=
  match s.rep.running with
  | some r => if r.position = p then stopRepeat s else s
  | none => s

/-- Orphan an entry (R29). Other entries than one DOWN with forward and not orphaned are left alone. -/
def orphan (p : Nat) (s : State) : State :=
  let e := s.entry p
  match e.cond with
  | .down l =>
    if l.owned then stopRepeatOf p (s.putEntry p { e with cond := .down { l with orphaned := true } }) else s
  | _ => s

/-- Forced release of an entry (R30): the KEY_RELEASE record with the cause, then orphaning. -/
def forceRelease (cause : ReleaseCause) (t : Time) (p : Nat) (s : State) : State :=
  match (s.entry p).cond with
  | .down l =>
    if l.owned then orphan p (append { time := t, body := .keyRelease p l.code cause } s) else s
  | _ => s

/-- A DOWN entry takes another condition (R27 steps 2 to 4, R63): its repeat stops, its latched part is dropped, and
the legend driver is told if the layer in force changes. -/
def leaveDown (cond : Condition) (t : Time) (p : Nat) (s : State) : State :=
  evalShownSet t (stopRepeatOf p (s.putEntry p { s.entry p with cond := cond }))

/-- A normal release (R27): a NORMAL record if the press is forwarded and not orphaned, and the entry becomes UP. -/
def releaseEntry (l : Latched) (t : Time) (p : Nat) (s : State) : State :=
  let s1 := if l.owned then append { time := t, body := .keyRelease p l.code .normal } s else s
  leaveDown .up t p s1

/-- Quarantine an entry (R34): a forced release in place of a normal one, the latched part dropped, the KEY_FAULT
record, and the quarantined count rewritten. -/
def quarantine (t : Time) (p : Nat) (s : State) : State :=
  let s1 := leaveDown .quarantined t p (forceRelease .quarantine t p s)
  touchStatus (append { time := t, body := .keyFault p (s.entry p).score } s1)

/-- The positions 0-143 in ascending order. -/
def positions : List Nat := List.range 144

/-- An operation on each position in ascending order. -/
def forPositions (ps : List Nat) (f : Nat → State → State) (s : State) : State := ps.foldl (fun t p => f p t) s

/-- Every entry changed alike. -/
def mapEntries (f : KeyEntry → KeyEntry) (s : State) : State :=
  s.setKeys { s.keys with entries := s.keys.entries.map f }

/-- Every filter count becomes 0 (R36). -/
def zeroFilters (s : State) : State := mapEntries (fun e => { e with filter := 0 }) s

/-- The next delivered frame brings the decay counter to the decay setting or past it (R33). -/
def KeyTable.decaysNext (k : KeyTable) : Bool := k.settings.decay ≤ k.decayCounter + 1

/-- The decay counter counts a delivered frame; where it then reaches or passes the decay setting, every score above 0
loses 1 and the counter becomes 0 (R33). -/
def countFrame (s : State) : State :=
  if s.keys.decaysNext then
    let s1 := mapEntries (fun e => { e with score := e.score - 1 }) s
    s1.setKeys { s1.keys with decayCounter := 0 }
  else s.setKeys { s.keys with decayCounter := s.keys.decayCounter + 1 }

end Sys2Proof.Machine
end

