-- ==== Sys2Proof/WellFormed.lean ====
section
/-! DEFINITION. Which commands a sender can send: the checks on operands that the types do not make. -/

namespace Sys2Proof

/-- The number of bytes of an access (R180: 1, 2 or 4). -/
def Access.size : Access → Nat
  | .byte _ => 1
  | .half _ => 2
  | .word _ => 4

/-- The window offset of a register (R182). -/
def idOffset : Nat := 0xFFF0
def noticeOffset : Nat := 0xFFF4
def intMaskOffset : Nat := 0xFFF8
def intPendingOffset : Nat := 0xFFFC

/-- An access lies in the 64 KiB window (R180). -/
def Access.inWindow (offset : Nat) (a : Access) : Bool := offset + a.size ≤ 65536

/-- A frame a CAN bus can carry (R120): 11 identifier bits in the standard format, and as many data bytes as the length
field gives, a field above 8 taken as 8. -/
def CanFrame.wellFormed (f : CanFrame) : Bool :=
  (f.extended || f.ident.toNat < 2048) && f.data.length == min f.dlc.toNat 8

/-- The sender can send the command. A frame has a sense sample byte for each of the 18 drive slots (R1); the signal
table has at most 6 entries (R123); no supply sample is taken below 6000 mV, where the part is held in power reset
(R179); an access lies in the window (R180). -/
def Instr.wellFormed : Instr → Bool
  | .frameBoundary readings _ => readings.length == 18
  | .canFrameArrival f => f.wellFormed
  | .staleTimerExpiry e => e < 6
  | .supplySample mv => 6000 ≤ mv.toNat
  | .dipStart mv => 6000 ≤ mv.toNat
  | .dipEnd mv => 6000 ≤ mv.toNat
  | .ownerMarkWrite off a => a.inWindow off.toNat
  | .intPendingWrite lane a => a.inWindow (intPendingOffset + lane.toNat)
  | _ => true

end Sys2Proof
end

