-- ==== Sys2Proof/Machine/Operands.lean ====
section
/-! DEFINITION. Operand forms: window accesses, request parameters, staging tables, CAN data, frame samples. -/

namespace Sys2Proof.Machine

/-- The bytes of an access in offset order (R191: little-endian). -/
def accessBytes : Access → List Byte
  | .byte b => leBytes 1 b.toNat
  | .half h => leBytes 2 h.toNat
  | .word w => leBytes 4 w.toNat

/-- The single-byte accesses that an access at an offset is treated as (R180). -/
def accessCells (offset : Nat) (a : Access) : List (Nat × Byte) :=
  ((accessBytes a).zipIdx offset).map fun c => (c.2, c.1)

/-- Parameter `i` of a request, numbered from 1 (00_scope.md, Request parameters), as a number. -/
def param (ps : List Word) (i : Nat) : Nat := (ps.getD (i - 1) 0).toNat

/-- A table of `size` bytes at `offset` lies wholly in the staging area (R50, R71, R125, R156, R169). -/
def inStaging (offset size : Nat) : Bool := 0x4000 ≤ offset && offset + size ≤ 0x8000

/-- `n` fields of `width` bytes each, from `offset` on. -/
def Memory.fields (m : Memory) (offset width n : Nat) : List Nat :=
  (List.range n).map fun i => m.readLe (offset + width * i) width

/-! ### The samples of a frame (R1, R3) -/

/-- The drive slots that a frame pass visits, in its order: the enabled lines, ascending (R2). -/
def passSlots (mask : BitVec 18) : List Nat := (List.range 18).filter fun d => mask.getLsbD d

/-- The end of the slot of drive line `d` (R2): the 8 sense lines are sampled once, for the positions on the line. -/
def sampleSlot (d : Nat) (reading : Byte) (f : List Sample) : List Sample :=
  (List.range 8).foldl (fun f k => f.set (8 * d + k) (if reading.getLsbD k then .downRead else .upRead)) f

/-- The 144 samples of a delivered frame in position order (R3), as the pass takes them slot by slot (R2): a masked line has
no slot, and its positions stay NOT_SAMPLED. `readings` holds what each drive line's slot read. -/
def frameSamples (mask : BitVec 18) (readings : List Byte) : List Sample :=
  (passSlots mask).foldl (fun f d => sampleSlot d (readings.getD d 0) f) (List.replicate 144 .notSampled)

/-- The position of a sample in a frame reads down. -/
def readsDown (f : List Sample) (p : Nat) : Bool := f.getD p .notSampled == .downRead

/-- The ghost check of R24: it passes unless some other drive line and some other sense line make three corners of a
rectangle that all read down. -/
def ghostPasses (f : List Sample) (p : Nat) : Bool :=
  !((List.range 18).any fun d => d != p / 8 && readsDown f (8 * d + p % 8) &&
    (List.range 8).any fun k => k != p % 8 && readsDown f (8 * (p / 8) + k) && readsDown f (8 * d + k))

/-- One round of R1's paths: the sense lines joined to the sense lines `reached` through some drive line's closed
switches. -/
def spreadSense (closed : List Byte) (reached : Byte) : Byte :=
  closed.foldl (fun acc row => if row &&& acc = 0 then acc else acc ||| row) reached

/-- What the matrix reads while drive line `d` alone is asserted, `closed` giving the closed switches of each drive
line (R1): every sense line that a path of closed switches joins to it. Eight rounds reach all eight lines. The sender's
readings come from this; the part does not compute it (log entry 26). -/
def matrixReading (closed : List Byte) (d : Nat) : Byte :=
  (List.range 8).foldl (fun acc _ => spreadSense closed acc) (closed.getD d 0)

/-! ### CAN data (R120, R129 to R131) -/

/-- The number of data bytes a frame carries: its length field, above 8 taken as 8 (R120). -/
def dataBytes (f : CanFrame) : Nat := min f.dlc.toNat 8

/-- Bit `k` of the data field: bit k mod 8 of data byte k div 8 (R129). -/
def dataBit (data : List Byte) (k : Nat) : Nat := boolBit ((data.getD (k / 8) 0).getLsbD (k % 8))

/-- A LITTLE field (R130): the start bit least significant, each following bit the next more significant. -/
def littleField (data : List Byte) : Nat → Nat → Nat
  | _, 0 => 0
  | start, n + 1 => dataBit data start + 2 * littleField data (start + 1) n

/-- The bit taken after bit `k` in BIG order (R131): down to bit 0 of the byte, then bit 7 of the next byte. -/
def bigNext (k : Nat) : Nat := if k % 8 = 0 then k + 15 else k - 1

/-- A BIG field (R131): the start bit most significant; `acc` holds the bits taken so far. -/
def bigField (data : List Byte) : Nat → Nat → Nat → Nat
  | _, 0, acc => acc
  | start, n + 1, acc => bigField data (bigNext start) n (2 * acc + dataBit data start)

/-- The last byte of a field (R130, R131). -/
def lastByte (big : Bool) (start length : Nat) : Nat :=
  if big then
    if length ≤ start % 8 + 1 then start / 8 else start / 8 + (length - (start % 8 + 1) + 7) / 8
  else (start + length - 1) / 8

/-- The raw field of an entry (R129). -/
def rawField (data : List Byte) (big : Bool) (start length : Nat) : Nat :=
  if big then bigField data start length 0 else littleField data start length

/-- Scaling (R132): multiply, shift right, add the signed offset, clamp to 0-65535. -/
def scaled (raw mult shift : Nat) (offset : Int) : Nat :=
  min (((raw * mult / 2 ^ shift : Nat) : Int) + offset).toNat 65535

end Sys2Proof.Machine
end

