-- ==== Sys2Proof/Machine/Requests.lean ====
section
/-! DEFINITION. The request unit (R185 to R187): the cells, the take, execution and completion; its commands
SWEEP_TIMER_EXPIRY, UNKNOWN_KIND and NOP. -/

namespace Sys2Proof.Machine

/-- The offset of a request cell (R180). -/
def cellBase (n : Nat) : Nat := 0x0100 + 0x80 * n

/-- The cell status bytes POSTED, BUSY and DONE (11.6.2). -/
def statusPosted : Byte := 1
def statusBusy : Byte := 2
def statusDone : Byte := 3

/-- The numbers of the result codes (R187). -/
def ResultCode.number : ResultCode → Nat
  | .ok => 0
  | .okClamped => 1
  | .errKind => 2
  | .errCount => 3
  | .errParam => 4
  | .errTable => 5
  | .errLocked => 6
  | .errState => 7
  | .errMotion => 8
  | .errBusy => 9
  | .errRange => 10

/-- OK, or OK_CLAMPED where a value was brought into range (00_scope.md, Settings). -/
def okIf (unaltered : Bool) : ResultCode := if unaltered then .ok else .okClamped

/-- The request that a cell holds (R186): kind, count, the first count parameter words, at most 12, and the notify
flag. -/
def cellRequest (m : Memory) (n : Nat) : Request :=
  let count := (m.read (cellBase n + 4)).toNat
  { kind := m.readLe (cellBase n + 2) 2
    count := count
    params := (m.fields (cellBase n + 0x10) 4 (min count 12)).map (BitVec.ofNat 32)
    notify := m.read (cellBase n + 1) != 0
    mark := false }

/-- Take a cell (R186): BUSY is written, the request copied, the pointer set to the cell. -/
def takeCell (n : Nat) (s : State) : State :=
  (s.setMem (s.mem.write (cellBase n) statusBusy)).setReq
    { s.req with pointer := n, current := some (cellRequest s.mem n) }

/-- The cells in the order of an examination: from the one after the last taken, through all 8 (R186). -/
def searchOrder (pointer : Nat) : List Nat := (List.range 8).map fun k => (pointer + 1 + k) % 8

/-- The first POSTED cell of an examination (R186). -/
def postedCell (s : State) : Option Nat :=
  (searchOrder s.req.pointer).find? fun n => s.mem.read (cellBase n) == statusPosted

/-- Examine the cells (R186): not while a request is in execution or the link is DOWN. -/
def examine (s : State) : State :=
  if s.req.current.isSome || s.link == .down then s
  else match postedCell s with
    | some n => takeCell n s
    | none => s

/-- The bytes of the 4 result words, 0 where the owner gave none (R187). -/
def resultBytes (words : List Nat) : List Byte :=
  leBytes 4 (words.getD 0 0) ++ leBytes 4 (words.getD 1 0) ++ leBytes 4 (words.getD 2 0) ++ leBytes 4 (words.getD 3 0)

/-- The completed cell (R187): result code, result words, then DONE. -/
def writeReply (n : Nat) (r : Reply) (m : Memory) : Memory :=
  ((m.writeBytes (cellBase n + 8) (leBytes 2 r.code.number)).writeBytes (cellBase n + 0x40)
    (resultBytes r.words)).write (cellBase n) statusDone

/-- Completion (R187): the reply goes into the cell and REQUEST is raised if the notify flag was set, both not for a
request with the link-up mark (R189); then nothing is in execution and the cells are examined. The cell of an unmarked
request is the last one taken. -/
def complete (q : Request) (r : Reply) (s : State) : State :=
  let s1 := if q.mark then s else
    let s0 := s.setMem (writeReply s.req.pointer r s.mem)
    if q.notify then raiseCause .request s0 else s0
  examine (s1.setReq { s1.req with current := none })

/-- What an owning block does with the copied parameters: its new state and its reply. -/
abbrev Body := List Word → State → State × Reply

/-- A request that changes nothing (R70, and the refusals of each chapter). -/
def refuse (code : ResultCode) (s : State) : State × Reply := (s, { code := code })

/-- Execution of the request in execution (R187), if its kind is this one: ERR_COUNT for another count than the
catalogue's, else the owning block's answer; then completion. A request of another kind does not execute here (log
entry 20). -/
def request (kind count : Nat) (body : Body) (s : State) : State :=
  match s.req.current with
  | some q =>
    if q.kind = kind then
      if q.count = count then
        let a := body q.params s
        complete q a.2 a.1
      else complete q { code := .errCount } s
    else s
  | none => s

/-- UNKNOWN_KIND (R187): a kind above 27 completes ERR_KIND. -/
def execUnknownKind (s : State) : Host.Outcome State Fault Refusal :=
  event (fun s => match s.req.current with
    | some q => if 27 < q.kind then complete q { code := .errKind } s else s
    | none => s) s

/-- NOP (R187): completes OK. -/
def execNop (s : State) : Host.Outcome State Fault Refusal :=
  event (request 0 0 fun _ s => (s, { code := .ok })) s

/-- SWEEP_TIMER_EXPIRY (R186): the sweep timer starts its next 20 ms and the cells are examined. -/
def execSweepTimerExpiry (s : State) : Host.Outcome State Fault Refusal :=
  event (fun s => match s.req.sweep with
    | some e => if due e s.ms then examine (s.setReq { s.req with sweep := some (after e sweepMs) }) else s
    | none => s) s

end Sys2Proof.Machine
end

