-- ==== Sys2Proof/Machine/Wake.lean ====
section
/-! DEFINITION. The wake unit (R90 to R93) and its commands WAKE_HOLD_EXPIRY and WAKE_LIMIT_EXPIRY. -/

namespace Sys2Proof.Machine

/-- Wake applies while the latch state is not EMPTY and the link is LOW_POWER or DOWN (R90). -/
def wakeApplies (s : State) : Bool := s.latch.state != .empty && s.link != .active

/-- An assertion of WAKE (R92), which starts the wake limit timer. -/
def assertWake (t : Time) (s : State) : State := s.setWake { s.wake with line := some (after t wakeLimitMs) }

/-- An urgent event: WAKE is asserted at once while wake applies (R92). -/
def urgentWake (t : Time) (s : State) : State := if wakeApplies s then assertWake t s else s

/-- The link became ACTIVE or the latch EMPTY (R93): the line is released and both timers are idle. -/
def releaseWake (s : State) : State := s.setWake { s.wake with line := none, timer := none }

/-- The wake notice of a press (R59, R91): a qualifying press arms the wake-hold timer while wake applies. -/
def wakeNotice (p : Nat) (qualifies : Bool) (t : Time) (s : State) : State :=
  if qualifies && wakeApplies s then
    s.setWake { s.wake with timer := some { position := p, pressTime := t, expiry := after t s.wake.hold } }
  else s

/-- The entry at the armed position is still DOWN with the armed press time (R91). -/
def stillHeld (a : WakeArm) (s : State) : Bool :=
  match (s.entry a.position).cond with
  | .down l => l.pressTime == a.pressTime
  | _ => false

/-- WAKE_HOLD_EXPIRY (R91). -/
def execWakeHoldExpiry (s : State) : Host.Outcome State Fault Refusal :=
  event (fun s => match s.wake.timer with
    | some a =>
      if due a.expiry s.ms then
        let s1 := s.setWake { s.wake with timer := none }
        if stillHeld a s && wakeApplies s then assertWake a.expiry s1 else s1
      else s
    | none => s) s

/-- WAKE_LIMIT_EXPIRY (R93): the line is released. -/
def execWakeLimitExpiry (s : State) : Host.Outcome State Fault Refusal :=
  event (fun s => match s.wake.line with
    | some e => if due e s.ms then s.setWake { s.wake with line := none } else s
    | none => s) s

end Sys2Proof.Machine
end

