-- ==== Sys2Proof/Machine/Chords.lean ====
section
/-! DEFINITION. The chord unit and attention (R77 to R85); its commands ATTENTION_TIMER_EXPIRY, ARM_CHORD, ACK_ATTENTION
and SET_ATTENTION. -/

namespace Sys2Proof.Machine

/-- The code is held (R79): some entry is DOWN with it as its latched code. -/
def KeyTable.holdsCode (k : KeyTable) (c : Nat) : Bool :=
  k.entries.any fun e =>
    match e.cond with
    | .down l => l.code == c
    | _ => false

/-- A press of code `c` completes a chord entry (R79): `c` is one of its codes and every other of them is held. -/
def completes (k : KeyTable) (c : Nat) (codes : List Nat) : Bool :=
  codes.contains c && codes.all fun d => d == c || k.holdsCode d

/-- The chord a press completes: the one of lowest index (R79). -/
def completedChord (s : State) (c : Nat) : Option Nat :=
  (List.range 4).find? fun i => completes s.keys c (s.chords.entries.getD i [])

/-- Attention begins with a chord (R80). -/
def beginAttention (chord : Nat) (s : State) : State :=
  let t := s.ms
  let s1 := s.setChords
    { s.chords with
      attention := some { chord := chord, started := t, expiry := after t (1000 * s.chords.timeout) } }
  let s2 := touchAndRaise (append { time := t, body := .attentionBegin chord } s1)
  urgentWake t (stopRepeat s2)

/-- An active attention ends with a cause (R82, R83, R85): the ATTENTION END record, the status field and STATUS. -/
def endAttention (cause : EndCause) (t : Time) (s : State) : State :=
  match s.chords.attention with
  | some a =>
    touchAndRaise (append { time := t, body := .attentionEnd a.chord cause }
      (s.setChords { s.chords with attention := none }))
  | none => s

/-- Attention at link DOWN (R85): it ends without a record and without STATUS. -/
def dropAttention (s : State) : State :=
  if s.chords.attention.isSome then touchStatus (s.setChords { s.chords with attention := none }) else s

/-- ATTENTION_TIMER_EXPIRY (R83). -/
def execAttentionTimerExpiry (s : State) : Host.Outcome State Fault Refusal :=
  event (fun s => match s.chords.attention with
    | some a => if due a.expiry s.ms then endAttention .timeout a.expiry s else s
    | none => s) s

/-- The chord in attention is this one. -/
def attentionIs (i : Nat) (s : State) : Bool :=
  match s.chords.attention with
  | some a => a.chord == i
  | none => false

/-- The codes of an ARM_CHORD are admitted (R78, step 4): each 1-511, no two equal. -/
def chordCodesOk (codes : List Nat) : Bool := codes.all (fun c => 1 ≤ c && c ≤ 511) && codes.Nodup

/-- ARM_CHORD (R78). -/
def armChord : Body := fun ps s =>
  let i := param ps 1
  let n := param ps 2
  let codes := ([3, 4, 5, 6].map (param ps)).take n
  let stored (cs : List Nat) := s.setChords { s.chords with entries := s.chords.entries.set i cs }
  if 3 < i then refuse .errParam s
  else if attentionIs i s then refuse .errState s
  else if n = 0 then (stored [], { code := .ok })
  else if n = 1 ∨ 4 < n then refuse .errParam s
  else if chordCodesOk codes then (stored codes, { code := .ok })
  else refuse .errParam s

def execArmChord (s : State) : Host.Outcome State Fault Refusal := event (request 8 6 armChord) s

/-- ACK_ATTENTION (R82). -/
def ackAttention : Body := fun ps s =>
  if attentionIs (param ps 1) s then (endAttention .ack s.ms s, { code := .ok }) else refuse .errState s

def execAckAttention (s : State) : Host.Outcome State Fault Refusal := event (request 9 1 ackAttention) s

/-- SET_ATTENTION (R84). -/
def setAttention : Body := fun ps s =>
  let v := clamp 1 60 (param ps 1)
  (s.setChords { s.chords with timeout := v }, { code := okIf (v == param ps 1) })

def execSetAttention (s : State) : Host.Outcome State Fault Refusal := event (request 10 1 setAttention) s

end Sys2Proof.Machine
end

