-- ==== Sys2Proof/Machine/Latch.lean ====
section
/-! DEFINITION. The latch controller (chapter 8, R141 to R151): filtered inputs, state changes, release requests; its
commands LATCH_INPUT_READ, PRESENT_SWITCH_CHANGE, LATCH_SENSE_CHANGE, BUTTON_PRESS, BUTTON_RELEASED, ASK_TIMER_EXPIRY,
RELEASE_WINDOW_EXPIRY and COOLDOWN_EXPIRY. -/

namespace Sys2Proof.Machine

/-- The cooldown after a change of state (R143): turning the solenoid off starts it. -/
def cooldownAfter (g : Latch) (st : LatchState) (t : Time) : Option Time :=
  if g.state.place == .releasing && st.place != .releasing then some (after t cooldownMs) else g.cooldown

/-- The held press after a change of state (R145): every change into EMPTY drops it, and so does the change from LATCHED
into UNSEATED. -/
def heldAfter (g : Latch) (st : LatchState) : Option PressSource :=
  if st.place == .empty || (g.state.place == .latched && st.place == .unseated) then none else g.heldPress

/-- The wake unit is told the new latch state (R144): WAKE is asserted at entry into ASKED while wake applies and
released at entry into EMPTY. -/
def wakeToldLatch (st : LatchState) (t : Time) (s : State) : State :=
  match st with
  | .asked _ => urgentWake t s
  | .empty => releaseWake s
  | _ => s

/-- A change of the latch state (R143, R144): the LATCH record, the status field and STATUS, the wake unit. -/
def changeLatch (st : LatchState) (cause : LatchCause) (t : Time) (s : State) : State :=
  let s1 := s.setLatch
    { s.latch with state := st, cooldown := cooldownAfter s.latch st t, heldPress := heldAfter s.latch st }
  wakeToldLatch st t (touchAndRaise (append { time := t, body := .latch cause st.place } s1))

/-- Where a release ends by the latch sense (R150): LATCHED if it is CLOSED, UNSEATED if it is OPEN. -/
def bySense (g : Latch) : LatchState := if g.sense.value then .latched else .unseated

def PressSource.cause : PressSource → LatchCause
  | .button => .button
  | .key => .key

/-- A release request (R146, R147): held in cooldown, refused under lockout, else the state becomes ASKED. Outside
LATCHED it has no effect. -/
def releaseRequest (src : PressSource) (t : Time) (s : State) : State :=
  match s.latch.state with
  | .latched =>
    match s.latch.cooldown with
    | some _ => s.setLatch { s.latch with heldPress := s.latch.heldPress <|> some src }
    | none =>
      if s.motion.lockout then append { time := t, body := .latch .refusedMotion .latched } s
      else changeLatch (.asked (after t (1000 * s.latch.askTimeout))) src.cause t s
  | _ => s

/-- The release begins: the window timer starts one release window after the event (R148, R152). -/
def startRelease (cause : LatchCause) (t : Time) (s : State) : State :=
  changeLatch (.releasing (after t (1000 * s.latch.window))) cause t s

/-- The lockout flag becomes active (R151): ASKED and RELEASING are cancelled. -/
def latchLockout (t : Time) (s : State) : State :=
  match s.latch.state with
  | .asked _ => changeLatch .latched .motion t s
  | .releasing _ => changeLatch (bySense s.latch) .motion t s
  | _ => s

/-! ### Filtered inputs (R141) -/

/-- One reading of an input: an equal reading clears the run, a differing one raises it, and the third makes the change
due. -/
def readInput (reading : Bool) (t : Time) (i : InputFilter) : InputFilter :=
  if reading = i.value then { i with run := 0 }
  else if i.run < 2 then { i with run := i.run + 1 }
  else { i with run := 0, due := some t }

/-- A due change of an input is taken: its filtered value changes. -/
def InputFilter.flip (i : InputFilter) : InputFilter := { value := !i.value, run := 0, due := none }

/-- The present switch changed (R145). -/
def presentMoved (t : Time) (s : State) : State :=
  if s.latch.present.value then
    match s.latch.state with
    | .empty => changeLatch (bySense s.latch) .seated t s
    | _ => s
  else
    match s.latch.state with
    | .empty => s
    | .unseated => changeLatch .empty .taken t s
    | .latched => changeLatch .empty .forced t s
    | .asked _ => changeLatch .empty .forced t s
    | .releasing _ => changeLatch .empty .taken t s

/-- The latch sense changed (R145). -/
def senseMoved (t : Time) (s : State) : State :=
  if s.latch.sense.value then
    match s.latch.state with
    | .unseated => changeLatch .latched .seated t s
    | _ => s
  else
    match s.latch.state with
    | .latched => changeLatch .unseated .forced t s
    | .asked _ => changeLatch .unseated .forced t s
    | _ => s

/-- A due change of the present switch is taken. -/
def takePresentChange (s : State) : State :=
  match s.latch.present.due with
  | some t => presentMoved t (s.setLatch { s.latch with present := s.latch.present.flip })
  | none => s

/-- A due change of the latch sense is taken. -/
def takeSenseChange (s : State) : State :=
  match s.latch.sense.due with
  | some t => senseMoved t (s.setLatch { s.latch with sense := s.latch.sense.flip })
  | none => s

/-- A due change of the button to PRESSED is taken: a release request with source BUTTON (R142). -/
def takeButtonPress (s : State) : State :=
  match s.latch.button.due with
  | some t =>
    if s.latch.button.value then s
    else releaseRequest .button t (s.setLatch { s.latch with button := s.latch.button.flip })
  | none => s

/-- A due change of the button to RELEASED is taken: no event for the latch state (R141). -/
def takeButtonRelease (s : State) : State :=
  match s.latch.button.due with
  | some _ => if s.latch.button.value then s.setLatch { s.latch with button := s.latch.button.flip } else s
  | none => s

/-- Changes that an earlier reading made due and that are still waiting are taken, each as an event of its own. R141 lets
any of them be taken first; the order here (present switch, latch sense, button) is the model's choice, and a sender gets
another by sending the change commands before the reading (log entry 33). -/
def takeDueChanges (s : State) : State :=
  endEvent (takeButtonRelease (endEvent (takeButtonPress (endEvent (takeSenseChange (endEvent (takePresentChange s)))))))

/-- LATCH_INPUT_READ (R141): the three inputs are read into their run counts (log entry 14). -/
def execLatchInputRead (present sense button : Bool) (s : State) : Host.Outcome State Fault Refusal :=
  event (fun s =>
    let s1 := takeDueChanges s
    s1.setLatch { s1.latch with
      present := readInput present s1.ms s1.latch.present
      sense := readInput sense s1.ms s1.latch.sense
      button := readInput button s1.ms s1.latch.button }) s

/-- PRESENT_SWITCH_CHANGE (R145). -/
def execPresentSwitchChange (s : State) : Host.Outcome State Fault Refusal := event takePresentChange s

/-- LATCH_SENSE_CHANGE (R145). -/
def execLatchSenseChange (s : State) : Host.Outcome State Fault Refusal := event takeSenseChange s

/-- BUTTON_PRESS (R141, R142). -/
def execButtonPress (s : State) : Host.Outcome State Fault Refusal := event takeButtonPress s

/-- BUTTON_RELEASED (R141). -/
def execButtonReleased (s : State) : Host.Outcome State Fault Refusal := event takeButtonRelease s

/-- ASK_TIMER_EXPIRY (R148): ASKED becomes RELEASING with cause TIMEOUT. -/
def execAskTimerExpiry (s : State) : Host.Outcome State Fault Refusal :=
  event (fun s => match s.latch.state with
    | .asked e => if due e s.ms then startRelease .timeout e s else s
    | _ => s) s

/-- RELEASE_WINDOW_EXPIRY (R150). -/
def execReleaseWindowExpiry (s : State) : Host.Outcome State Fault Refusal :=
  event (fun s => match s.latch.state with
    | .releasing e => if due e s.ms then changeLatch (bySense s.latch) .notTaken e s else s
    | _ => s) s

/-- The cooldown expires (R147): a held press is served as if it had arrived at the expiry. -/
def cooldownExpired (t : Time) (s : State) : State :=
  let s1 := s.setLatch { s.latch with cooldown := none, heldPress := none }
  match s.latch.heldPress with
  | some src => releaseRequest src t s1
  | none => s1

/-- An expiry of the cooldown that is due is taken (R147). -/
def takeCooldown (s : State) : State :=
  match s.latch.cooldown with
  | some e => if due e s.ms then cooldownExpired e s else s
  | none => s

/-- COOLDOWN_EXPIRY (R147). -/
def execCooldownExpiry (s : State) : Host.Outcome State Fault Refusal := event takeCooldown s

end Sys2Proof.Machine
end

