-- ==== Sys2Proof/Machine/DockRequests.lean ====
section
/-! DEFINITION. The requests of the latch, the legend strip and the indicators: LATCH_ANSWER, UNDOCK_START, SET_LATCH,
LOAD_LEGENDS and SET_INDICATORS; and the indicators as R162 and R165 give them. -/

namespace Sys2Proof.Machine

/-! ### Latch (R149, R152, R153) -/

/-- LATCH_ANSWER (R149). -/
def latchAnswer : Body := fun ps s =>
  if 1 < param ps 1 then refuse .errParam s
  else match s.latch.state with
    | .asked _ =>
      (if param ps 1 = 0 then startRelease .grant s.ms s else changeLatch .latched .defer s.ms s, { code := .ok })
    | _ => refuse .errState s

def execLatchAnswer (s : State) : Host.Outcome State Fault Refusal := event (request 19 1 latchAnswer) s

/-- UNDOCK_START (R152). ERR_BUSY gives the milliseconds left of the cooldown, 1-10000: an expiry of the cooldown that is
due and still waiting is taken first, as an event of its own (log entry 36). -/
def undockStart : Body := fun _ s =>
  let s := endEvent (takeCooldown s)
  match s.latch.state with
  | .latched =>
    if s.motion.lockout then refuse .errMotion s
    else match s.latch.cooldown with
      | some e => (s, { code := .errBusy, words := [min (elapsed s.ms e) cooldownMs] })
      | none => (startRelease .request s.ms s, { code := .ok })
  | _ => refuse .errState s

def execUndockStart (s : State) : Host.Outcome State Fault Refusal := event (request 20 0 undockStart) s

/-- SET_LATCH (R153): a running timer keeps its expiry. -/
def setLatchTimes : Body := fun ps s =>
  let ask := clamp 1 30 (param ps 1)
  let window := clamp 1 10 (param ps 2)
  (s.setLatch { s.latch with askTimeout := ask, window := window },
    { code := okIf (ask == param ps 1 && window == param ps 2) })

def execSetLatch (s : State) : Host.Outcome State Fault Refusal := event (request 21 2 setLatchTimes) s

/-! ### LOAD_LEGENDS (R156, R157) -/

/-- The legend cell staged at an offset: 10 characters and the attribute (11.6.4). -/
def readCell (m : Memory) (a : Nat) : LegendCell := { chars := m.readBytes a 10, attr := m.readLe (a + 10) 1 }

/-- A character outside 32-126 (R157). -/
def unprintable (c : Byte) : Bool := c.toNat < 32 || 126 < c.toNat

def loadLegends : Body := fun ps s =>
  let n := param ps 1
  let off := param ps 2
  let cells := (List.range 12).map fun c => readCell s.mem (off + 11 * c)
  let bad (c : LegendCell) : Bool := 3 < c.attr
  if 3 < n then refuse .errParam s
  else if !inStaging off 132 then refuse .errRange s
  else if cells.any bad then
    let i := cells.findIdx bad
    (s, { code := .errTable, words := [i, (cells.map LegendCell.attr).getD i 0, cells.countP bad] })
  else
    let s1 := s.setLegend { s.legend with sets := s.legend.sets.set n cells }
    (if s.legend.shown.number = n then refreshNeed s.ms s1 else s1,
      { code := .ok, words := [(cells.flatMap LegendCell.chars).countP unprintable] })

def execLoadLegends (s : State) : Host.Outcome State Fault Refusal := event (request 22 2 loadLegends) s

/-! ### Indicators (R162 to R166) -/

/-- The pattern that a parameter codes (R162). -/
def patternOf (v : Nat) : Pattern := if v = 0 then .off else if v = 1 then .on else if v = 2 then .slow else .fast

/-- SET_INDICATORS (R163). -/
def setIndicators : Body := fun ps s =>
  if 3 < param ps 1 ∨ 3 < param ps 2 ∨ 3 < param ps 3 ∨ 3 < param ps 4 then refuse .errParam s
  else if s.link = .down then refuse .errState s
  else
    (s.setInd
      { caps := patternOf (param ps 1), num := patternOf (param ps 2), scroll := patternOf (param ps 3)
        aux := patternOf (param ps 4) }, { code := .ok })

def execSetIndicators (s : State) : Host.Outcome State Fault Refusal := event (request 23 4 setIndicators) s

/-- The SPEED entry is FRESH; NEVER, STALE and absent are not (R165). -/
def speedFresh (b : VehicleBus) : Bool := b.signals.any fun g => g.desc.role == .speed && g.val.status == .fresh

/-- DOCK (R165). -/
def State.dockPattern (s : State) : Pattern :=
  if s.latch.state.place = .asked ∨ s.latch.state.place = .releasing then .fast
  else match s.link with
    | .active => .on
    | .lowPower => .slow
    | .down => .off

/-- MOTION (R165). -/
def State.motionPattern (s : State) : Pattern :=
  if s.motion.lockout then .on
  else if s.motion.settings.vehicle ∧ s.motion.state = .unknown ∧ s.motion.settings.asParked then .slow
  else .off

/-- ATTN (R165). -/
def State.attnPattern (s : State) : Pattern := if s.chords.attention.isSome then .fast else .off

/-- FAULT (R165). -/
def State.faultPattern (s : State) : Pattern :=
  if 0 < s.keys.quarantinedCount ∨ s.legend.online = false then .on
  else if s.motion.settings.vehicle ∧ speedFresh s.bus = false then .slow
  else .off

/-- The pattern of lamp 0-7 (R162). The part-owned ones are views: R166 works them out in the event of each change of
what they read (log entry 21). -/
def State.lampPattern (s : State) (lamp : Nat) : Pattern :=
  match lamp with
  | 0 => s.ind.caps
  | 1 => s.ind.num
  | 2 => s.ind.scroll
  | 3 => s.ind.aux
  | 4 => s.dockPattern
  | 5 => s.motionPattern
  | 6 => s.attnPattern
  | 7 => s.faultPattern
  | _ => .off

/-- A pattern has its lamp lit at a value of the millisecond counter (R162). -/
def Pattern.lit (p : Pattern) (ms : Time) : Bool :=
  match p with
  | .off => false
  | .on => true
  | .slow => ms.toNat % 1000 < 500
  | .fast => ms.toNat % 250 < 125

/-- The duty at which a lamp is driven: the LEGEND output while lit, else 0 (R162). -/
def State.lampDuty (s : State) (lamp : Nat) : Nat :=
  if (s.lampPattern lamp).lit s.ms then s.light.legend.output else 0

end Sys2Proof.Machine
end

