-- ==== Sys2Proof/Machine/Lighting.lean ====
section
/-! DEFINITION. The lighting controller (chapter 10, R167 to R173): targets, night state, dock functions, outputs; its
commands AMBIENT_READING and OUTPUT_UPDATE. -/

namespace Sys2Proof.Machine

/-- The target duty of a channel (R172). It is a view: the rule has it worked out afresh in the event of each change of
what it reads (log entry 21). -/
def targetDuty (l : Lighting) (dip : Bool) (c : Channel) : Nat :=
  let t := l.levels.getD c.step 0 * (if l.night then l.limits.nightPct else 100) / 100
  let t := if 0 < t && t < l.limits.minDuty then l.limits.minDuty else t
  if dip then min t l.limits.dipDuty else t

def State.panelTarget (s : State) : Nat := targetDuty s.light s.supply.dip s.light.panel
def State.keysTarget (s : State) : Nat := targetDuty s.light s.supply.dip s.light.keys
def State.legendTarget (s : State) : Nat := targetDuty s.light s.supply.dip s.light.legend

/-- The ambient average: the floor of the sum of the last 8 readings divided by 8 (R171). -/
def Lighting.average (l : Lighting) : Nat := l.ambient.sum / 8

/-- The HEADLAMP entry's value as it counts for the night (R170): present while FRESH. -/
def headlamp (b : VehicleBus) : Option Bool :=
  (b.signals.find? fun g => g.desc.role == .headlamp && g.val.status == .fresh).map fun g => g.val.value != 0

/-- The night state by the table of R170. -/
def nightState (l : Lighting) (b : VehicleBus) : Bool :=
  match l.mode, headlamp b with
  | .night, _ => true
  | .day, _ => false
  | .auto, some lit => lit
  | .auto, none =>
    if l.average < l.limits.nightOn then true
    else if l.limits.nightOff ≤ l.average then false
    else l.night

/-- Work the night state out afresh (R170); a change rewrites its status field. -/
def evalNight (s : State) : State :=
  let n := nightState s.light s.bus
  if n = s.light.night then s else touchStatus (s.setLight { s.light with night := n })

/-- Set the PANEL step; a change rewrites its status field (R167). -/
def setPanelStep (n : Nat) (s : State) : State :=
  if n = s.light.panel.step then s
  else touchStatus (s.setLight { s.light with panel := { s.light.panel with step := n } })

def setKeysStep (n : Nat) (s : State) : State :=
  if n = s.light.keys.step then s
  else touchStatus (s.setLight { s.light with keys := { s.light.keys with step := n } })

def setLegendStep (n : Nat) (s : State) : State :=
  if n = s.light.legend.step then s
  else touchStatus (s.setLight { s.light with legend := { s.light.legend with step := n } })

/-- Set the night mode; the night state is worked out afresh (R168, R170). -/
def setNightMode (m : NightMode) (s : State) : State := evalNight (s.setLight { s.light with mode := m })

def NightMode.code : NightMode → Nat
  | .auto => 0
  | .night => 1
  | .day => 2

/-- NIGHT_CYCLE (R168): AUTO, NIGHT, DAY and round again. -/
def NightMode.next : NightMode → NightMode
  | .auto => .night
  | .night => .day
  | .day => .auto

/-- KEYLIGHT_CYCLE (R168): the next of 5, 10, 15 above the present step, else 0. -/
def keylightNext (n : Nat) : Nat := if n < 5 then 5 else if n < 10 then 10 else if n < 15 then 15 else 0

/-- An output moves toward its target by at most the slew (R173). -/
def slewed (slew target output : Nat) : Nat :=
  if output ≤ target then min (output + slew) target else max (output - slew) target

/-- The output of each channel set anew; where one changes, its status field is rewritten (R173). -/
def setOutputs (panel keys legend : Nat) (s : State) : State :=
  let l := s.light
  let s1 := s.setLight
    { l with
      panel := { l.panel with output := panel }
      keys := { l.keys with output := keys }
      legend := { l.legend with output := legend } }
  if panel = l.panel.output && keys = l.keys.output && legend = l.legend.output then s1 else touchStatus s1

/-- Every output becomes its target (R173, when the supply state becomes DIP). -/
def outputsToTargets (s : State) : State := setOutputs s.panelTarget s.keysTarget s.legendTarget s

/-- One output update (R173). -/
def updateOutputs (s : State) : State :=
  let k := s.light.limits.slew
  setOutputs (slewed k s.panelTarget s.light.panel.output) (slewed k s.keysTarget s.light.keys.output)
    (slewed k s.legendTarget s.light.legend.output) s

/-- The last 8 readings take a value (R171); a changed average rewrites its field and re-judges the night. -/
def takeAmbient (readings : List Nat) (s : State) : State :=
  let s1 := s.setLight { s.light with ambient := readings }
  if s1.light.average = s.light.average then s1 else evalNight (touchStatus s1)

/-- AMBIENT_READING (R171): the reading replaces the oldest of the 8. -/
def execAmbientReading (reading : BitVec 12) (s : State) : Host.Outcome State Fault Refusal :=
  event (fun s => takeAmbient (s.light.ambient.drop 1 ++ [reading.toNat]) s) s

/-- OUTPUT_UPDATE (R173). -/
def execOutputUpdate (s : State) : Host.Outcome State Fault Refusal := event updateOutputs s

end Sys2Proof.Machine
end

