-- ==== Sys2Proof/Machine/Steering.lean ====
section
/-! DEFINITION. The keymap lookup (R46), the route of a press (R57), what a press and a repeat hand on (R59 to R62), and
REPEAT_INTERVAL_EXPIRY (R88). -/

namespace Sys2Proof.Machine

/-- The keymap lookup of a press (R46): the code and the layer whose map supplied it. -/
def lookup (s : State) (p : Nat) : Nat × Layer :=
  match s.keys.layer with
  | .base => (s.keymap.base.getD p 0, .base)
  | .fn =>
    if s.keymap.fn.getD p 0 = 0 then (s.keymap.base.getD p 0, .base) else (s.keymap.fn.getD p 0, .fn)

/-- Which count a press raises that loses its forward part (R57, steps 6, 7 and 8). -/
inductive Withheld where
  | none
  | lockout
  | rollover
  | undocked
  deriving DecidableEq, Repr

/-- The outcome of the route computation: the route, the count it raises, the chord it completes. -/
structure RouteOutcome where
  route    : Route
  withheld : Withheld
  chord    : Option Nat
  deriving DecidableEq, Repr

/-- SWALLOW with all four parts no (R57). -/
def Route.swallow : Route := { forward := false, dock := false, hold := false, chord := false }

/-- The segment of a code (R55). -/
def segmentOf (s : State) (c : Nat) : Segment :=
  s.steer.table.getD (c / 16) { forward := false, dock := false, hold := false }

/-- Steps 6 to 8 of R57: the one step that removes forward from a press of the segment. -/
def withheldBy (s : State) (g : Segment) : Withheld :=
  if !g.forward then .none
  else if g.hold && s.motion.lockout then .lockout
  else if rolloverLimit ≤ s.keys.heldForward then .rollover
  else if s.link = .down then .undocked
  else .none

/-- Steps 5 to 8 of R57. -/
def segmentRoute (s : State) (g : Segment) : RouteOutcome :=
  let w := withheldBy s g
  { route := { forward := g.forward && w == .none, dock := g.dock, hold := g.hold, chord := false }
    withheld := w
    chord := none }

/-- The route of a press of code `c` (R57). -/
def routeOf (s : State) (c : Nat) : RouteOutcome :=
  let swallowed : RouteOutcome := { route := .swallow, withheld := .none, chord := none }
  if s.chords.attention.isSome then swallowed
  else match (if s.link = .down then none else completedChord s c) with
    | some k => { swallowed with route := { Route.swallow with chord := true }, chord := some k }
    | none => if c = 0 then swallowed else segmentRoute s (segmentOf s c)

/-- The count of a withheld press rises and its status field is rewritten where it changes (4.5). -/
def countWithheld (w : Withheld) (s : State) : State :=
  let g := s.steer
  let g' := match w with
    | .none => g
    | .lockout => { g with lockoutWithheld := satSucc countMax g.lockoutWithheld }
    | .rollover => { g with rolloverWithheld := satSucc countMax g.rolloverWithheld }
    | .undocked => { g with discarded := satSucc countMax g.discarded }
  if g' = g then s else touchStatus (s.setSteer g')

/-- The LOCAL record of a dock function that has acted (R61). -/
def localRecord (code result : Nat) (t : Time) (s : State) : State :=
  append { time := t, body := .dockLocal code result } s

/-- The step action of PANEL_UP or PANEL_DOWN with its LOCAL record (R60, R61, R168). -/
def panelStep (code : Nat) (t : Time) (s : State) : State :=
  let n := if code = 497 then min (s.light.panel.step + 1) 15 else s.light.panel.step - 1
  localRecord code n t (setPanelStep n s)

/-- The dock function of a press latched with local (R60): it acts, and then its LOCAL record is appended. FN and the
codes outside 496-501 dispatch nothing. -/
def dockFunction (code : Nat) (t : Time) (s : State) : State :=
  if code = 497 ∨ code = 498 then panelStep code t s
  else if code = 499 then
    let n := keylightNext s.light.keys.step
    localRecord code n t (setKeysStep n s)
  else if code = 500 then
    let m := s.light.mode.next
    localRecord code m.code t (setNightMode m s)
  else if code = 501 then
    let s1 := releaseRequest .key t s
    localRecord code s1.latch.state.place.code t s1
  else s

/-- The repeat notice of a press (R87): while repeat is enabled, a press whose class is not SWALLOW becomes the
repeating position. -/
def repeatNotice (p : Nat) (r : Route) (t : Time) (s : State) : State :=
  if s.rep.enabled && (r.forward || r.dock) then
    s.setRep { s.rep with
      running := some { position := p, pressTime := t, delay := true, expiry := after t s.rep.delay }
      count := 0 }
  else s

/-- What a latched press hands on (R59): KEY_PRESS, dock function, chord completion, repeat notice, wake notice; then
the legend driver is told if the layer in force changed (R45). -/
def handOnPress (p : Nat) (l : Latched) (o : RouteOutcome) (s : State) : State :=
  let t := l.pressTime
  let s1 := if l.route.forward then append { time := t, body := .keyPress p l.code l.layer } s else s
  let s2 := if l.route.dock then dockFunction l.code t s1 else s1
  let s3 := match o.chord with
    | some k => beginAttention k s2
    | none => s2
  let s4 := repeatNotice p l.route t s3
  evalShownSet t (wakeNotice p (l.route.forward || o.withheld == .undocked) t s4)

/-- Accept a press (R23 steps 2 to 5): lookup, route, latching (R26), records and actions. -/
def acceptPress (p : Nat) (s : State) : State :=
  let found := lookup s p
  let o := routeOf s found.1
  let l : Latched := { code := found.1, layer := found.2, route := o.route, orphaned := false, pressTime := s.ms }
  let s1 := countWithheld o.withheld s
  handOnPress p l o (s1.putEntry p { s1.entry p with cond := .down l })

/-- A repeat handed to the steering unit (R62): by the latched route, KEY_REPEAT and then the step action. -/
def dispatchRepeat (p count : Nat) (t : Time) (s : State) : State :=
  match (s.entry p).cond with
  | .down l =>
    let s1 := if l.owned then append { time := t, body := .keyRepeat p l.code count } s else s
    if l.route.dock && (l.code == 497 || l.code == 498) then panelStep l.code t s1 else s1
  | _ => s

/-- The interval timer expires (R88). -/
def repeatExpired (r : Repeating) (s : State) : State :=
  let n := satSucc countMax s.rep.count
  let s1 := s.setRep { s.rep with
    running := some { r with delay := false, expiry := after r.expiry s.rep.period }
    count := n }
  dispatchRepeat r.position n r.expiry s1

/-- REPEAT_INTERVAL_EXPIRY (R88). -/
def execRepeatIntervalExpiry (s : State) : Host.Outcome State Fault Refusal :=
  event (fun s => match s.rep.running with
    | some r => if due r.expiry s.ms then repeatExpired r s else s
    | none => s) s

end Sys2Proof.Machine
end

