-- ==== Sys2Proof/Machine/Scanner.lean ====
section
/-! DEFINITION. The scanner (chapter 1) and the handling of a frame at the key table (chapter 2, R20 to R35); the commands
FRAME_TIMER_EXPIRY, FRAME_BOUNDARY, CHATTER_DECAY and SENSE_LINE_ACTIVE. -/

namespace Sys2Proof.Machine

/-! ### Frame starts and scan changes -/

/-- A frame start at once (R5); the idle-frame run becomes 0 (R10). -/
def frameStart (s : State) : State :=
  s.setScan { s.scan with mode := .scanning, pass := true, timer := some (after s.ms s.scan.settings.period), idleRun := 0 }

/-- The drive lines that are asserted (R1), `slot` numbering the slot under way of a running pass: that slot's line alone
(R2); in WATCH every enabled line together (R11); in HELD and between passes none. Which slot is under way is timing (log
entry 10). -/
def State.assertedLines (s : State) (slot : Nat) : BitVec 18 :=
  match s.scan.mode with
  | .scanning =>
    match (if s.scan.pass then (passSlots s.scan.settings.mask)[slot]? else none) with
    | some d => BitVec.ofNat 18 (2 ^ d)
    | none => 0
  | .watch => s.scan.settings.mask
  | .held => 0

/-- One position of a newly masked line (R9). -/
def maskPosition (t : Time) (p : Nat) (s : State) : State :=
  let s1 := match (s.entry p).cond with
    | .down _ => leaveDown .up t p (forceRelease .masked t p s)
    | .blocked => s.putEntry p { s.entry p with cond := .up }
    | .up => s
    | .quarantined => s
  s1.putEntry p { s1.entry p with pressed := false, filter := 0 }

/-- The positions of the lines enabled in `old` and masked in `new`, ascending (R9). -/
def newlyMasked (old new : BitVec 18) : List Nat :=
  positions.filter fun p => old.getLsbD (p / 8) && !new.getLsbD (p / 8)

/-- A scan change takes effect (R7, R9): a mask change acts on the entries and sets the idle-frame run to 0. -/
def applyChange (c : ScanSettings) (s : State) : State :=
  let s1 := if c.mask = s.scan.settings.mask then s
    else
      let s0 := forPositions (newlyMasked s.scan.settings.mask c.mask) (maskPosition s.ms) s
      s0.setScan { s0.scan with idleRun := 0 }
  s1.setScan { s1.scan with settings := c, change := none }

/-- A pending scan change, if any, takes effect (R7, R8). -/
def applyPending (s : State) : State :=
  match s.scan.change with
  | some c => applyChange c s
  | none => s

/-! ### One frame at the key table -/

/-- The filter of R21 on an entry: the entry after the sample, and whether a physical transition was accepted. -/
def filterSample (g : FilterSettings) (smp : Sample) (e : KeyEntry) : KeyEntry × Bool :=
  match smp with
  | .notSampled => (e, false)
  | _ =>
    if (smp == .downRead) = e.pressed then ({ e with filter := 0 }, false)
    else if (if e.pressed then g.release else g.press) ≤ e.filter + 1 then
      ({ e with pressed := !e.pressed, filter := 0 }, true)
    else ({ e with filter := e.filter + 1 }, false)

/-- A press is taken (R23): BLOCKED if the ghost check fails, else accepted. -/
def takePress (f : List Sample) (p : Nat) (s : State) : State :=
  if ghostPasses f p then acceptPress p s else s.putEntry p { s.entry p with cond := .blocked }

/-- The condition of an entry at an accepted physical transition (R22, Table 2-3). -/
def atTransition (f : List Sample) (p : Nat) (s : State) : State :=
  let e := s.entry p
  match e.cond with
  | .up => if e.pressed then takePress f p s else s
  | .down l => releaseEntry l s.ms p s
  | .blocked => s.putEntry p { e with cond := .up }
  | .quarantined => s

/-- The condition of an entry at a frame without a transition: a press of an UP entry that is PRESSED and reads down
(R23), and the re-check of a BLOCKED entry (R25). -/
def withoutTransition (f : List Sample) (p : Nat) (s : State) : State :=
  let e := s.entry p
  match e.cond with
  | .up => if e.pressed && readsDown f p then takePress f p s else s
  | .blocked => if e.pressed && readsDown f p && ghostPasses f p then acceptPress p s else s
  | .down _ => s
  | .quarantined => s

/-- One position of a frame (R20): the filter, the chatter score and the quarantine test, the condition. -/
def framePosition (f : List Sample) (p : Nat) (s : State) : State :=
  let x := filterSample s.keys.settings (f.getD p .notSampled) (s.entry p)
  if x.2 then
    let e := { x.1 with score := min (x.1.score + 1) s.keys.settings.limit }
    let s1 := s.putEntry p e
    if e.cond ≠ .quarantined ∧ e.score = s.keys.settings.limit then quarantine s.ms p s1
    else atTransition f p s1
  else withoutTransition f p (s.putEntry p x.1)

/-- A delivered frame at the key table, one event (R20): every position in order, then the chatter decay counter (R33). -/
def deliverFrame (f : List Sample) (s : State) : State :=
  countFrame (forPositions positions (framePosition f) s)

/-- The delivered frame is idle (R10). -/
def frameIdle (f : List Sample) (k : KeyTable) : Bool :=
  f.all (fun x => x != .downRead) && k.entries.all fun e => !e.pressed

/-- The idle test (R8 step 2, R10). -/
def idleTest (f : List Sample) (s : State) : State :=
  s.setScan { s.scan with idleRun := if frameIdle f s.keys then satSucc 1000 s.scan.idleRun else 0 }

/-- The WATCH test (R8 step 4, R11). A sense line already active at the entry leaves WATCH at once. -/
def watchTest (senseActive : Bool) (s : State) : State :=
  if s.scan.settings.watchEntry ≠ 0 ∧ s.scan.settings.watchEntry ≤ s.scan.idleRun then
    if senseActive then frameStart s
    else s.setScan { s.scan with mode := .watch, timer := none, idleRun := 0 }
  else s

/-- The frame boundary (R8): delivery, idle test, pending change, WATCH test. -/
def frameBoundary (f : List Sample) (senseActive : Bool) (s : State) : State :=
  watchTest senseActive (applyPending (idleTest f (deliverFrame f (s.setScan { s.scan with pass := false }))))

/-- The running pass reaches its boundary with the frame `f` (R8). There is a boundary only where a pass is running. -/
def takeFrame (f : List Sample) (senseActive : Bool) (s : State) : State :=
  if s.scan.mode = .scanning ∧ s.scan.pass then frameBoundary f senseActive s else s

/-- FRAME_BOUNDARY (R8), with the chatter decay that its frame brings (R20, R33). -/
def execFrameBoundary (readings : List Byte) (senseActive : Bool) (s : State) : Host.Outcome State Fault Refusal :=
  event (fun s => takeFrame (frameSamples s.scan.settings.mask readings) senseActive s) s

/-- The frame in which every sampled position reads as its physical state stands (log entry 11). -/
def steadyFrame (s : State) : List Sample :=
  positions.map fun p =>
    if s.scan.settings.mask.getLsbD (p / 8) then if (s.entry p).pressed then .downRead else .upRead else .notSampled

/-- CHATTER_DECAY (R33): the boundary whose frame brings the decay counter to the setting. The row carries no sample, and
the frame taken is the steady one: the model's choice. Where the next frame does not bring the counter there, it is none
(log entry 11). -/
def execChatterDecay (s : State) : Host.Outcome State Fault Refusal :=
  event (fun s => if s.keys.decaysNext then takeFrame (steadyFrame s) false s else s) s

/-- The frame timer expires (R4): a pass begins if none is running, and otherwise the expiry is skipped and counted. -/
def frameTimerExpired (e : Time) (s : State) : State :=
  let s1 := s.setScan { s.scan with timer := some (after e s.scan.settings.period) }
  if s.scan.pass then
    let n := satSucc countMax s.scan.skipped
    let s2 := s1.setScan { s1.scan with skipped := n }
    if n = s.scan.skipped then s2 else touchStatus s2
  else s1.setScan { s1.scan with pass := true }

/-- FRAME_TIMER_EXPIRY (R4). The timer runs in SCANNING only. -/
def execFrameTimerExpiry (s : State) : Host.Outcome State Fault Refusal :=
  event (fun s => match s.scan.timer with
    | some e => if s.scan.mode = .scanning ∧ due e s.ms then frameTimerExpired e s else s
    | none => s) s

/-- SENSE_LINE_ACTIVE (R12): WATCH is left with a frame start at once. In the other states the sense lines are read by
passes only, or not watched (1.10). -/
def execSenseLineActive (s : State) : Host.Outcome State Fault Refusal :=
  event (fun s => if s.scan.mode = .watch then frameStart s else s) s

/-! ### Supply dips at the scanner -/

/-- The scanner enters HELD (R14): a running pass is abandoned, the pending change takes effect, and the key table zeroes
its filter counts. -/
def enterHeld (s : State) : State :=
  let s1 := s.setScan { s.scan with mode := .held, pass := false, timer := none, idleRun := 0 }
  zeroFilters (applyPending s1)

/-- The scanner leaves HELD (R15). -/
def leaveHeld (s : State) : State := frameStart s

end Sys2Proof.Machine
end

