-- ==== Sys2Proof/Machine/KeyRequests.lean ====
section
/-! DEFINITION. The requests of the key path: SET_SCAN, SET_FILTER, CLEAR_QUARANTINE, RESET_KEYPATH, LOAD_KEYMAP,
LOAD_STEERING, LOCK_POLICY, SET_REPEAT and SET_WAKE. -/

namespace Sys2Proof.Machine

/-! ### SET_SCAN (R6, R7, R13) -/

/-- The period rounded down to 1, 2, 4 or 8, at least 1 (R6). -/
def roundPeriod (v : Nat) : Nat := if v < 2 then 1 else if v < 4 then 2 else if v < 8 then 4 else 8

/-- Where a scan change goes when SET_SCAN completes (R7): pending in SCANNING; at once in WATCH, which a watch entry of
0 leaves (R13); at once in HELD. -/
def placeChange (c : ScanSettings) (s : State) : State :=
  match s.scan.mode with
  | .scanning => s.setScan { s.scan with change := some c }
  | .watch => if c.watchEntry = 0 then frameStart (applyChange c s) else applyChange c s
  | .held => applyChange c s

def setScan : Body := fun ps s =>
  let mask := param ps 1
  if mask = 0 ∨ 2 ^ 18 ≤ mask then refuse .errParam s
  else
    let c : ScanSettings :=
      { mask := BitVec.ofNat 18 mask, period := roundPeriod (param ps 2), watchEntry := min (param ps 3) 1000 }
    (placeChange c s, { code := okIf (c.period == param ps 2 && c.watchEntry == param ps 3) })

def execSetScan (s : State) : Host.Outcome State Fault Refusal := event (request 1 3 setScan) s

/-! ### Key table requests (R37 to R39) -/

/-- SET_FILTER (R37): the settings clamped, and every score brought down to the limit. -/
def setFilter : Body := fun ps s =>
  let g : FilterSettings :=
    { press := clamp 1 8 (param ps 1), release := clamp 1 8 (param ps 2)
      limit := clamp 4 30 (param ps 3), decay := clamp 8 255 (param ps 4) }
  let s1 := mapEntries (fun e => { e with score := min e.score g.limit }) s
  (s1.setKeys { s1.keys with settings := g },
    { code := okIf (g.press == param ps 1 && g.release == param ps 2 && g.limit == param ps 3 && g.decay == param ps 4) })

def execSetFilter (s : State) : Host.Outcome State Fault Refusal := event (request 2 4 setFilter) s

/-- Clearing an entry (R38): UP, score 0, filter count 0, its physical state kept; others than QUARANTINED are left. -/
def clearEntry (e : KeyEntry) : KeyEntry :=
  if e.cond = .quarantined then { e with cond := .up, score := 0, filter := 0 } else e

/-- CLEAR_QUARANTINE (R38). -/
def clearQuarantine : Body := fun ps s =>
  let p := param ps 1
  let s1 := if p = 255 then mapEntries clearEntry s else s.putEntry p (clearEntry (s.entry p))
  if p < 144 ∨ p = 255 then
    (touchStatus s1, { code := .ok, words := [s.keys.quarantinedCount - s1.keys.quarantinedCount] })
  else refuse .errParam s

def execClearQuarantine (s : State) : Host.Outcome State Fault Refusal := event (request 3 1 clearQuarantine) s

/-- An entry after RESET_KEYPATH (R39, step 5): UP with counts 0, its physical state kept. -/
def KeyEntry.cleared (e : KeyEntry) : KeyEntry := { e with cond := .up, filter := 0, score := 0 }

/-- The scanner's part of RESET_KEYPATH (R16). -/
def scannerReset (s : State) : State :=
  match s.scan.mode with
  | .scanning => frameStart (applyPending (s.setScan { s.scan with pass := false }))
  | .watch => frameStart s
  | .held => s

/-- RESET_KEYPATH (R39): forced releases, attention, repeat, every entry UP and cleared, the counts, the scanner. -/
def resetKeypath (s : State) : State :=
  let s1 := forPositions positions (forceRelease .reset s.ms) s
  let s2 := stopRepeat (endAttention .reset s.ms s1)
  let s3 := evalShownSet s.ms (mapEntries KeyEntry.cleared s2)
  let s4 := touchStatus (s3.setKeys { s3.keys with decayCounter := 0 })
  scannerReset s4

def execResetKeypath (s : State) : Host.Outcome State Fault Refusal :=
  event (request 4 0 fun _ s => (resetKeypath s, { code := .ok })) s

/-! ### LOAD_KEYMAP (R50 to R52) -/

/-- The answer to a staging table with bad fields (R51, R72): the lowest bad index, its value, how many are bad. -/
def tableFault (bad : Nat → Bool) (fields : List Nat) : Reply :=
  let i := fields.findIdx bad
  { code := .errTable, words := [i, fields.getD i 0, fields.countP bad] }

def loadKeymap : Body := fun ps s =>
  let layer := param ps 1
  let fields := s.mem.fields (param ps 2) 2 144
  let bad (v : Nat) : Bool := 511 < v
  if 1 < layer then refuse .errParam s
  else if !inStaging (param ps 2) 288 then refuse .errRange s
  else if fields.any bad then (s, tableFault bad fields)
  else
    (s.setKeymap (if layer = 0 then { s.keymap with base := fields } else { s.keymap with fn := fields }),
      { code := .ok, words := [fields.countP fun v => v != 0] })

def execLoadKeymap (s : State) : Host.Outcome State Fault Refusal := event (request 5 2 loadKeymap) s

/-! ### LOAD_STEERING and LOCK_POLICY (R69 to R72) -/

/-- A segment value that is bad (R72): above 7, or HOLD without forward. -/
def badSegment (v : Nat) : Bool := 7 < v || v == 4 || v == 6

/-- The attributes that a segment value codes (R72). -/
def segmentOfValue (v : Nat) : Segment :=
  { forward := v % 2 == 1, dock := v / 2 % 2 == 1, hold := v / 4 % 2 == 1 }

def loadSteering : Body := fun ps s =>
  let fields := s.mem.fields (param ps 1) 1 32
  if s.steer.lock then refuse .errLocked s
  else if !inStaging (param ps 1) 32 then refuse .errRange s
  else if fields.any badSegment then (s, tableFault badSegment fields)
  else
    let table := fields.map segmentOfValue
    (s.setSteer { s.steer with table := table }, { code := .ok, words := [table.countP Segment.hold] })

def execLoadSteering (s : State) : Host.Outcome State Fault Refusal := event (request 6 1 loadSteering) s

/-- LOCK_POLICY (R69). -/
def lockPolicy : Body := fun _ s =>
  (if s.steer.lock then s else touchStatus (s.setSteer { s.steer with lock := true }), { code := .ok })

def execLockPolicy (s : State) : Host.Outcome State Fault Refusal := event (request 7 0 lockPolicy) s

/-! ### SET_REPEAT and SET_WAKE (R86, R90) -/

/-- SET_REPEAT (R86): an enable of 0 stops a running repeat; a running interval keeps its expiry. -/
def setRepeat : Body := fun ps s =>
  let delay := clamp 250 1000 (param ps 2)
  let period := clamp 33 500 (param ps 3)
  if 1 < param ps 1 then refuse .errParam s
  else
    let s1 := s.setRep { s.rep with enabled := param ps 1 == 1, delay := delay, period := period }
    (if param ps 1 = 0 then stopRepeat s1 else s1, { code := okIf (delay == param ps 2 && period == param ps 3) })

def execSetRepeat (s : State) : Host.Outcome State Fault Refusal := event (request 11 3 setRepeat) s

/-- SET_WAKE (R90): an armed timer keeps its expiry. -/
def setWakeHold : Body := fun ps s =>
  let v := clamp 50 2000 (param ps 1)
  (s.setWake { s.wake with hold := v }, { code := okIf (v == param ps 1) })

def execSetWake (s : State) : Host.Outcome State Fault Refusal := event (request 12 1 setWakeHold) s

end Sys2Proof.Machine
end

