-- ==== Sys2Proof/Machine/Link.lean ====
section
/-! DEFINITION. The link (R181, R183, R188, R189) and its commands LINK_UP, LINK_DOWN, LINK_LOW_POWER and LINK_ACTIVE. -/

namespace Sys2Proof.Machine

/-- A vector held over LOW_POWER is sent once when the link is ACTIVE again (R183). -/
def sendHeldVector (s : State) : State :=
  if s.irq.held then s.setIrq { s.irq with held := false, sent := s.irq.sent + 1 } else s

/-- LOW_POWER to ACTIVE (R181): the wake unit releases WAKE (R93), and a held vector is sent. -/
def bringActive (s : State) : State := sendHeldVector (releaseWake (s.setLink .active))

/-- The tablet-owned patterns are all OFF (R164). -/
def Indicators.allOff : Indicators := { caps := .off, num := .off, scroll := .off, aux := .off }

/-- The link-up mark is set on a request in execution (R189). -/
def markCurrent (s : State) : State :=
  s.setReq { s.req with current := s.req.current.map fun q => { q with mark := true } }

/-- The discarded-while-undocked count becomes 0 once DOCKED has carried it (R65, R116). -/
def clearDiscarded (s : State) : State := s.setSteer { s.steer with discarded := 0 }

/-- The request unit and the interrupt registers at link-up (R189): the cells zeroed, the pointer 7, a request in
execution marked, INT_MASK and INT_PENDING 0. -/
def linkUpRequests (s : State) : State :=
  let s1 := markCurrent (s.setMem (s.mem.clear 0x0100 0x0400))
  (s1.setReq { s1.req with pointer := 7 }).setIrq { s1.irq with mask := 0, pending := 0 }

/-- DOWN to ACTIVE, the link-up, in the order of R181: event log, steering unit, request unit and interrupt registers,
status block, wake unit, legend driver, sweep of the cells. -/
def goUp (s : State) : State :=
  let s1 := clearDiscarded (logLinkUp (s.setLink .active))
  examine (evalShownSet s.ms (releaseWake (touchStatus (linkUpRequests s1))))

/-- The link is lost (R181), in its order: event log, every entry DOWN with forward and not orphaned orphaned, chord
unit, repeat timer, tablet-owned indicators, legend driver; a held vector is dropped (R183). The wake unit and the
request unit keep what they hold (R188). -/
def goDown (s : State) : State :=
  let s1 := forPositions positions orphan (logLinkDown (s.setLink .down))
  let s2 := stopRepeat (dropAttention s1)
  let s3 := evalShownSet s.ms (s2.setInd .allOff)
  s3.setIrq { s3.irq with held := false }

/-- LINK_UP (R181): it arises only from DOWN. -/
def execLinkUp (s : State) : Host.Outcome State Fault Refusal :=
  event (fun s => if s.link = .down then goUp s else s) s

/-- LINK_DOWN (R181): it arises only from ACTIVE or LOW_POWER. -/
def execLinkDown (s : State) : Host.Outcome State Fault Refusal :=
  event (fun s => if s.link = .down then s else goDown s) s

/-- LINK_LOW_POWER (R181): it arises only from ACTIVE. -/
def execLinkLowPower (s : State) : Host.Outcome State Fault Refusal :=
  event (fun s => if s.link = .active then s.setLink .lowPower else s) s

/-- LINK_ACTIVE (R181): it arises only from LOW_POWER. -/
def execLinkActive (s : State) : Host.Outcome State Fault Refusal :=
  event (fun s => if s.link = .lowPower then bringActive s else s) s

end Sys2Proof.Machine
end

