-- ==== Sys2Proof/Machine/LogCommands.lean ====
section
/-! DEFINITION. The commands of the event log: FLUSH_TIMER_EXPIRY, LOG_FLUSH and SET_LOG. -/

namespace Sys2Proof.Machine

/-- FLUSH_TIMER_EXPIRY (R103): the open page, which holds at least one record, is handed over. -/
def execFlushTimerExpiry (s : State) : Host.Outcome State Fault Refusal :=
  event (fun s => match s.log.flush, s.log.page with
    | some e, some p => if due e s.ms && 0 < p.count then handOver p.index s else s
    | _, _ => s) s

/-- LOG_FLUSH (R105). -/
def logFlush : Body := fun _ s =>
  match s.log.page with
  | some p => if s.log.live && 0 < p.count then (handOver p.index s, { code := .ok, words := [1] }) else (s, { code := .ok })
  | none => (s, { code := .ok })

def execLogFlush (s : State) : Host.Outcome State Fault Refusal := event (request 13 0 logFlush) s

/-- SET_LOG (R106): a running flush timer keeps its expiry. -/
def setFlushDelay : Body := fun ps s =>
  let v := clamp 1 50 (param ps 1)
  (s.setLog { s.log with flushDelay := v }, { code := okIf (v == param ps 1) })

def execSetLog (s : State) : Host.Outcome State Fault Refusal := event (request 14 1 setFlushDelay) s

end Sys2Proof.Machine
end

