-- ==== Sys2Proof/Config.lean ====
section
/-! DEFINITION. What the spec leaves open: the free values of the model. -/

namespace Sys2Proof

/-- A free value (log entry 19): what a SNAPSHOT writes in a field whose subject is absent and for which the spec
states no value (the start of a run where there is none, the arrival time of an entry never served, ...). The first
argument is the model's draw counter (`State.freeCount`), the second tells the fields of one snapshot apart. It has
no body, so no proof can rest on its value. -/
opaque Config.absentField : Nat → Nat → Word

end Sys2Proof
end

