-- ==== Sys2Proof/Machine/Window.lean ====
section
/-! DEFINITION. The exchange window (R180, R182, R184): the status block, what the tablet reads, and its writes; the
commands OWNER_MARK_WRITE, NOTICE_WRITE, INT_MASK_WRITE, INT_PENDING_WRITE and REGISTER_WRITE_DISCARDED. -/

namespace Sys2Proof.Machine

/-! ### Layouts -/

/-- A structure of the window: fields in rising offset as pairs of a width in bytes and a value, each little-endian
(R191). A byte that the tables do not name is a field of value 0. -/
def layout (fields : List (Nat × Nat)) : List Byte := fields.flatMap fun f => leBytes f.1 f.2

/-- The ID word: part number 612, revision 1 (R182). -/
def idWord : Nat := 0x00010264

def SignalStatus.code : SignalStatus → Nat
  | .never => 0
  | .fresh => 1
  | .stale => 2

/-- The strip state as written: 0 ONLINE, 1 OFFLINE. -/
def Legend.stripBit (g : Legend) : Nat := boolBit (!g.online)

/-- A signal entry's place in the status block: value and status, 0 beyond the table (R124). -/
def signalPlace (g : Option Signal) : List (Nat × Nat) :=
  match g with
  | some g => [(2, g.val.value), (1, g.val.status.code), (1, 0)]
  | none => [(4, 0)]

/-- The fields of the status block (11.6.1). The block is a view of the state (log entry 15). -/
def statusFields (s : State) : List (Nat × Nat) :=
  [(4, idWord), (4, s.changeCount.toNat), (2, s.log.epoch.toNat), (1, boolBit s.log.live), (1, boolBit s.log.inLoss),
   (1, s.motion.state.code), (1, boolBit s.motion.lockout), (1, s.latch.state.place.code),
   (1, boolBit s.chords.attention.isSome), (1, (s.chords.attention.map Attention.chord).getD 0),
   (1, boolBit s.supply.dip), (1, boolBit s.steer.lock), (1, s.legend.stripBit), (2, s.keys.quarantinedCount),
   (2, s.scan.skipped), (2, s.steer.lockoutWithheld), (2, s.steer.rolloverWithheld), (2, s.steer.discarded),
   (1, boolBit s.light.night), (1, 0), (1, s.light.panel.step), (1, s.light.keys.step), (1, s.light.legend.step), (1, 0),
   (2, s.light.panel.output), (2, s.light.keys.output), (2, s.light.legend.output), (2, s.light.average), (4, 0)]
  ++ (List.range 6).flatMap (fun e => signalPlace s.bus.signals[e]?) ++ [(184, 0)]

/-- The 256 bytes of the status block. -/
def statusBytes (s : State) : List Byte := layout (statusFields s)

/-- The four registers as read (R182): ID, NOTICE, INT_MASK, INT_PENDING. -/
def registerBytes (s : State) : List Byte :=
  layout [(4, idWord), (4, 0), (4, s.irq.mask.toNat), (4, s.irq.pending.toNat)]

/-- The offset is exchange memory that the tablet and the part share (R180). -/
def inMemory (a : Nat) : Bool :=
  (0x0100 ≤ a && a < 0x0500) || (0x0800 ≤ a && a < 0x2800) || (0x4000 ≤ a && a < 0xC000)

/-- What the window holds at an offset (R180). -/
def State.windowByte (s : State) (a : Nat) : Byte :=
  if a < 0x0100 then (statusBytes s).getD a 0
  else if inMemory a then s.mem.read a
  else if 0xFFF0 ≤ a then (registerBytes s).getD (a - 0xFFF0) 0
  else 0

/-! ### Reads -/

/-- A tablet access meets the link (R181): none is carried while DOWN; one begun in LOW_POWER first returns the link to
ACTIVE. The state in which the access is carried. -/
def accessed (s : State) : Option State :=
  match s.link with
  | .down => none
  | .active => some s
  | .lowPower => some (bringActive s)

/-- A tablet read access (R180, R181): what it returns, if it is carried, and the state after it. R180 carries accesses of
1, 2 and 4 bytes and says nothing of another size; that the operation answers the bytes of any size `n` in the same way is
the model's choice (DESIGN CHOICE, log entry 29). The table has no row for a read (log entry 29); nothing is carried in
power reset (log entry 5) or past offset FFFFh (log entry 9). -/
def State.tabletRead (s : State) (a n : Nat) : Option (List Byte) × State :=
  if s.inReset || 0x10000 < a + n then (none, s)
  else match accessed s with
    | some t => (some ((List.range n).map fun i => t.windowByte (a + i)), endEvent t)
    | none => (none, s)

/-! ### Writes -/

/-- The offset is the owner field of the open page, where a tablet write is discarded (R100). -/
def isOpenOwner (s : State) (a : Nat) : Bool :=
  match s.log.page with
  | some p => a == pageBase p.index
  | none => false

/-- A tablet write to this byte is stored (R180). -/
def stores (s : State) (a : Nat) : Bool := inMemory a && !isOpenOwner s a

/-- Store one byte of an access, where it is stored. -/
def storeCell (c : Nat × Byte) (s : State) : State := if stores s c.1 then s.setMem (s.mem.write c.1 c.2) else s

/-- The bytes of an access stored in rising order of offsets. -/
def storeCells (cs : List (Nat × Byte)) (s : State) : State := cs.foldl (fun t c => storeCell c t) s

/-- The offset is the owner field of the waiting page (R108). -/
def waitingOwner (s : State) (a : Nat) : Option Nat :=
  match s.log.waiting with
  | some i => if a = pageBase i then some i else none
  | none => none

/-- A write to INT_MASK (R182, R183): the mask is stored, and the vector is due if the mask bit of a pending cause became
1 by it (log entry 17). -/
def writeMask (b : Byte) (s : State) : State :=
  let m := b.setWidth 3
  let s1 := s.setIrq { s.irq with mask := m }
  if m &&& ~~~s.irq.mask &&& s.irq.pending ≠ 0 then vectorDue s1 else s1

/-- A write to INT_PENDING (R182): the causes written 1 are cleared. -/
def clearCauses (b : Byte) (s : State) : State :=
  s.setIrq { s.irq with pending := s.irq.pending &&& ~~~b.setWidth 3 }

/-- What the byte of an access at an offset sets off (R108, R182): the return of the waiting page, a new mask, cleared
causes. Bytes 1 to 3 of a register hold no bit. -/
def cellEvent (c : Nat × Byte) (s : State) : State :=
  match waitingOwner s c.1 with
  | some i => if c.2 = ownerPart then pageReturned i s else s
  | none =>
    if c.1 = intMaskOffset then writeMask c.2 s
    else if c.1 = intPendingOffset then clearCauses c.2 s
    else s

/-- The access covers a byte of NOTICE (R182). -/
def coversNotice (cs : List (Nat × Byte)) : Bool := cs.any fun c => noticeOffset ≤ c.1 && c.1 < noticeOffset + 4

/-- What an access sets off: one NOTICE event if it covers NOTICE (R182, R186), and each byte's own event in rising order
(log entry 8). -/
def accessEvents (cs : List (Nat × Byte)) (s : State) : State :=
  cs.foldl (fun t c => cellEvent c t) (if coversNotice cs then examine s else s)

/-- A tablet write access while the link is ACTIVE (R180): its bytes are stored, and what they set off follows. -/
def tabletWrite (offset : Nat) (a : Access) (s : State) : State :=
  let cs := accessCells offset a
  accessEvents cs (storeCells cs s)

/-- The offset is the owner field of a page (R94). -/
def isOwnerField (a : Nat) : Bool := 0x0800 ≤ a && a < 0x2800 && a % 0x200 == 0

/-- A write access taken while the link is DOWN and the log DORMANT: it stores the owner fields that it covers and raises
no event (R108, R118), and nothing else of it is carried (R181; log entry 34). -/
def dormantWrite (offset : Nat) (a : Access) (s : State) : State :=
  storeCells ((accessCells offset a).filter fun c => isOwnerField c.1) s

/-- A write access as it meets the link (R181). -/
def carriedWrite (offset : Nat) (a : Access) (s : State) : State :=
  match accessed s with
  | some t => tabletWrite offset a t
  | none => dormantWrite offset a s

/-- A window write command: an access that runs past the window's last offset faults (log entry 9). -/
def windowWrite (offset : Nat) (a : Access) (s : State) : Host.Outcome State Fault Refusal :=
  if a.inWindow offset then event (carriedWrite offset a) s else .fault .outsideWindow

/-- OWNER_MARK_WRITE (R108, R180): a write access at any window offset (log entry 7). -/
def execOwnerMarkWrite (offset : BitVec 16) (a : Access) (s : State) : Host.Outcome State Fault Refusal :=
  windowWrite offset.toNat a s

/-- NOTICE_WRITE (R182, R186). -/
def execNoticeWrite (lane : BitVec 2) (a : Access) (s : State) : Host.Outcome State Fault Refusal :=
  windowWrite (noticeOffset + lane.toNat) a s

/-- INT_MASK_WRITE (R182, R183). -/
def execIntMaskWrite (lane : BitVec 2) (a : Access) (s : State) : Host.Outcome State Fault Refusal :=
  windowWrite (intMaskOffset + lane.toNat) a s

/-- INT_PENDING_WRITE (R182). -/
def execIntPendingWrite (lane : BitVec 2) (a : Access) (s : State) : Host.Outcome State Fault Refusal :=
  windowWrite (intPendingOffset + lane.toNat) a s

/-- REGISTER_WRITE_DISCARDED (R182): a write to ID. -/
def execRegisterWriteDiscarded (lane : BitVec 2) (a : Access) (s : State) : Host.Outcome State Fault Refusal :=
  windowWrite (idOffset + lane.toNat) a s

end Sys2Proof.Machine
end

