-- ==== Sys2Proof/Machine/Snapshot.lean ====
section
/-! DEFINITION. SNAPSHOT (R190) and its layout (11.6.5). -/

namespace Sys2Proof.Machine

/-- The value of a snapshot field whose subject is absent: a free value (log entry 19). -/
def absentField (s : State) (offset : Nat) : Nat := (Config.absentField s.freeCount offset).toNat

/-- The field of a subject that may be absent. -/
def fieldOr (s : State) (offset : Nat) (v : Option Nat) : Nat := v.getD (absentField s offset)

def Condition.code : Condition → Nat
  | .up => 0
  | .down _ => 1
  | .blocked => 2
  | .quarantined => 3

/-- The latched route as written: the sum of 1 forward, 2 local, 4 hold, 8 chord trigger and 16 orphaned. -/
def Latched.routeSum (l : Latched) : Nat :=
  boolBit l.route.forward + 2 * boolBit l.route.dock + 4 * boolBit l.route.hold + 8 * boolBit l.route.chord
    + 16 * boolBit l.orphaned

/-- A key entry: 12 bytes. The latched fields and the press time are 0 unless it is DOWN. -/
def keyFields (e : KeyEntry) : List (Nat × Nat) :=
  [(1, e.cond.code), (1, boolBit e.pressed), (1, e.filter), (1, e.score)]
  ++ match e.cond with
    | .down l => [(2, l.code), (1, l.layer.code), (1, l.routeSum), (4, l.pressTime.toNat)]
    | _ => [(2, 0), (1, 0), (1, 0), (4, 0)]

/-- A chord entry: 12 bytes. -/
def chordFields (codes : List Nat) : List (Nat × Nat) :=
  [(1, codes.length), (1, 0), (2, codes.getD 0 0), (2, codes.getD 1 0), (2, codes.getD 2 0), (2, codes.getD 3 0), (2, 0)]

/-- Attention: 12 bytes at 06F4h of the snapshot. -/
def attentionFields (s : State) : List (Nat × Nat) :=
  let a := s.chords.attention
  [(1, boolBit a.isSome), (1, fieldOr s 0x6F5 (a.map Attention.chord)), (2, s.chords.timeout),
   (4, fieldOr s 0x6F8 (a.map fun x => x.started.toNat)), (4, expiryWord (a.map Attention.expiry))]

/-- A signal entry: 40 bytes, `offset` its place in the snapshot; a place beyond the count is 0. -/
def signalFields (s : State) (offset : Nat) (g : Option Signal) : List (Nat × Nat) :=
  match g with
  | some g =>
    [(1, g.desc.role.code), (1, boolBit g.desc.extended), (1, boolBit g.desc.big), (1, g.desc.start), (1, g.desc.length),
     (1, g.desc.shift), (2, 0), (4, g.desc.ident.toNat), (4, g.desc.mask.toNat), (2, g.desc.mult),
     (2, (BitVec.ofInt 16 g.desc.offset).toNat), (2, g.desc.stale), (2, g.desc.delta), (2, g.val.value),
     (1, g.val.status.code), (1, boolBit g.val.reported.isSome), (2, fieldOr s (offset + 0x1C) g.val.reported), (2, 0),
     (4, fieldOr s (offset + 0x20) (g.val.arrival.map BitVec.toNat)), (4, expiryWord g.val.timer)]
  | none => [(40, 0)]

/-- Bit rate and signal entries: 244 bytes at 0700h. -/
def busFields (s : State) : List (Nat × Nat) :=
  [(2, s.bus.rate), (1, s.bus.signals.length), (1, 0)]
  ++ (List.range 6).flatMap fun e => signalFields s (0x704 + 40 * e) s.bus.signals[e]?

/-- Motion: 20 bytes at 07F4h. -/
def motionFields (s : State) : List (Nat × Nat) :=
  let m := s.motion
  [(2, m.settings.moveOn), (2, m.settings.moveOff), (2, m.settings.onDwell), (2, m.settings.offDwell),
   (1, boolBit m.settings.asParked), (1, boolBit m.settings.vehicle), (1, m.state.code), (1, boolBit m.lockout),
   (1, boolBit m.run.isSome), (3, 0), (4, fieldOr s 0x804 (m.run.map BitVec.toNat))]

def heldPressCode : Option PressSource → Nat
  | none => 0
  | some .button => 1
  | some .key => 2

/-- The ask timer's expiry, while ASKED. -/
def LatchState.askExpiry : LatchState → Option Time
  | .asked e => some e
  | _ => none

/-- The release window timer's expiry, while RELEASING. -/
def LatchState.windowExpiry : LatchState → Option Time
  | .releasing e => some e
  | _ => none

/-- Latch: 20 bytes at 0808h. -/
def latchFields (s : State) : List (Nat × Nat) :=
  let g := s.latch
  [(1, g.state.place.code), (1, boolBit g.present.value), (1, boolBit g.sense.value), (1, boolBit g.button.value),
   (1, heldPressCode g.heldPress), (1, boolBit g.cooldown.isSome), (1, g.askTimeout), (1, g.window),
   (4, expiryWord g.state.askExpiry), (4, expiryWord g.state.windowExpiry), (4, expiryWord g.cooldown)]

/-- Lighting and supply: 76 bytes at 081Ch. -/
def lightFields (s : State) : List (Nat × Nat) :=
  let l := s.light
  let d := s.supply.record
  [(1, l.panel.step), (1, l.keys.step), (1, l.legend.step), (1, l.mode.code), (1, boolBit l.night),
   (1, boolBit s.supply.dip), (2, l.average), (2, s.panelTarget), (2, s.keysTarget), (2, s.legendTarget),
   (2, l.panel.output), (2, l.keys.output), (2, l.legend.output)]
  ++ (List.range 16).map (fun i => (2, l.levels.getD i 0))
  ++ [(2, l.limits.nightOn), (2, l.limits.nightOff), (2, l.limits.nightPct), (2, l.limits.minDuty), (2, l.limits.slew),
      (2, l.limits.dipDuty), (2, s.supply.warn), (2, s.supply.recover), (2, fieldOr s 0x860 (d.map DipRecord.minimum)),
      (1, boolBit d.isSome), (1, 0), (4, fieldOr s 0x864 (d.map fun x => x.start.toNat))]

/-- Log: 12 bytes at 0868h. -/
def logFields (s : State) : List (Nat × Nat) :=
  [(1, boolBit s.log.live), (1, (s.log.page.map OpenPage.index).getD 0xFF), (1, s.log.queue.length),
   (1, boolBit s.log.inLoss), (2, s.log.lost), (2, s.log.epoch.toNat), (1, s.log.flushDelay), (3, 0)]

def ScanMode.code : ScanMode → Nat
  | .scanning => 0
  | .watch => 1
  | .held => 2

def LinkState.code : LinkState → Nat
  | .down => 0
  | .active => 1
  | .lowPower => 2

/-- Counters and settings: 36 bytes at 0874h. -/
def counterFields (s : State) : List (Nat × Nat) :=
  [(2, s.steer.lockoutWithheld), (2, s.steer.rolloverWithheld), (2, s.steer.discarded), (2, s.scan.skipped),
   (1, s.keys.heldForward), (1, s.keys.quarantinedCount), (1, s.scan.mode.code), (1, s.scan.settings.period),
   (4, s.scan.settings.mask.toNat), (2, s.scan.settings.watchEntry), (1, s.keys.settings.press),
   (1, s.keys.settings.release), (1, s.keys.settings.limit), (1, s.keys.settings.decay), (1, boolBit s.rep.enabled),
   (1, s.legend.stripBit), (2, s.rep.delay), (2, s.rep.period), (2, s.wake.hold), (1, boolBit s.steer.lock),
   (1, s.link.code), (4, s.ms.toNat)]

/-- The fields of a snapshot: the section count and the 8 sections. -/
def snapshotFields (s : State) : List (Nat × Nat) :=
  [(4, 8)] ++ (List.range 144).flatMap (fun p => keyFields (s.entry p))
  ++ (List.range 4).flatMap (fun i => chordFields (s.chords.entries.getD i [])) ++ attentionFields s ++ busFields s
  ++ motionFields s ++ latchFields s ++ lightFields s ++ logFields s ++ counterFields s

/-- The size of a snapshot (R190). -/
def snapshotSize : Nat := 2200

/-- The bytes of a snapshot. -/
def snapshotBytes (s : State) : List Byte := layout (snapshotFields s)

/-- SNAPSHOT (R190): it lies wholly in the snapshot area or is refused with ERR_RANGE. The draw counter of the free
values moves on. -/
def takeSnapshot : Body := fun ps s =>
  let a := param ps 1
  if 0x8000 ≤ a ∧ a + snapshotSize ≤ 0xC000 then
    ((s.setMem (s.mem.writeBytes a (snapshotBytes s))).setFreeCount (s.freeCount + 1),
      { code := .ok, words := [snapshotSize, s.ms.toNat] })
  else refuse .errRange s

def execSnapshot (s : State) : Host.Outcome State Fault Refusal := event (request 15 1 takeSnapshot) s

end Sys2Proof.Machine
end

