-- ==== Sys2Proof/Machine/Supply.lean ====
section
/-! DEFINITION. Power reset (R179), the supply monitor (R176, R177) and the requests of chapter 10; the commands
POWER_RESET, RESET_RELEASE, SUPPLY_SAMPLE, DIP_START, DIP_END, SET_LIGHT_LEVELS, SET_LIGHT_LIMITS, LOAD_LIGHT_TABLE and
SET_SUPPLY. -/

namespace Sys2Proof.Machine

/-! ### Power reset (R179) -/

/-- Every block at its reset values, held in power reset. The commands that wait stay waiting (log entry 31). -/
def powerReset (s : State) : State := State.reset.setPending s.pending

/-- POWER_RESET (R179). -/
def execPowerReset (s : State) : Host.Outcome State Fault Refusal := .next (powerReset s)

/-- The latch state taken from the switches (R154). -/
def latchFromSwitches (present sense : Bool) : LatchState :=
  if present then (if sense then .latched else .unseated) else .empty

/-- The filtered latch inputs take their first readings (R141), and the latch state is taken from them (R154). -/
def firstReadings (present sense button : Bool) (s : State) : State :=
  s.setLatch { s.latch with
    state := latchFromSwitches present sense
    present := { value := present, run := 0, due := none }
    sense := { value := sense, run := 0, due := none }
    button := { value := button, run := 0, due := none } }

/-- The first ambient reading takes all 8 places (R171) and is judged for the night (R170). -/
def firstAmbient (reading : Nat) (s : State) : State :=
  let l := { s.light with ambient := List.replicate 8 reading }
  s.setLight { l with night := nightState l s.bus }

/-- The part leaves power reset (R17, R154, R161, R171, R186): first readings, frame start, strip transfer, sweep
timer. What is read here makes up the values of a power reset that the status block holds after it, and the change count
stays at the 0 that R184 gives (log entry 16). -/
def releaseReset (present sense button : Bool) (ambient : Nat) (s : State) : State :=
  let s1 := firstReadings present sense button (s.setInReset false)
  let s2 := firstAmbient ambient s1
  let s3 := beginTransfer s2.ms (frameStart s2)
  s3.setReq { s3.req with sweep := some (after s3.ms sweepMs) }

/-- RESET_RELEASE (R179). It arises only while the part is held in power reset. -/
def execResetRelease (present sense button : Bool) (ambient : BitVec 12) (s : State) :
    Host.Outcome State Fault Refusal :=
  .next (if s.inReset then releaseReset present sense button ambient.toNat s else s)

/-! ### The supply monitor (R176, R177) -/

/-- The state becomes DIP at a sample (R176): the record, the status field and STATUS, the scanner, the outputs. -/
def startDip (mv : Nat) (s : State) : State :=
  let low := if s.supply.lowRun = 0 then mv else min s.supply.lowMin mv
  let s1 := s.setSupply
    { s.supply with dip := true, lowRun := 0, recRun := 0, record := some { minimum := low, start := s.ms } }
  let s2 := touchAndRaise (append { time := s.ms, body := .supply false low 0 } s1)
  outputsToTargets (enterHeld s2)

/-- The state becomes NORMAL at a sample (R177): the record, the status field and STATUS, the scanner's frame start. The
targets follow the supply state, and the outputs rise at the following updates. -/
def endDip (s : State) : State :=
  let d := s.supply.record.getD { minimum := 0, start := s.ms }
  let s1 := s.setSupply { s.supply with dip := false, recRun := 0 }
  let record : Record := { time := s.ms, body := .supply true d.minimum (s.ms - d.start) }
  leaveHeld (touchAndRaise (append record s1))

/-- A sample in NORMAL (R176). -/
def sampleNormal (mv : Nat) (s : State) : State :=
  if mv < s.supply.warn then
    if s.supply.lowRun < 2 then
      s.setSupply { s.supply with
        lowRun := s.supply.lowRun + 1
        lowMin := if s.supply.lowRun = 0 then mv else min s.supply.lowMin mv }
    else startDip mv s
  else s.setSupply { s.supply with lowRun := 0 }

/-- The dip minimum after a sample in DIP (R177). -/
def lowerMinimum (mv : Nat) (s : State) : State :=
  s.setSupply { s.supply with record := s.supply.record.map fun d => { d with minimum := min d.minimum mv } }

/-- A sample in DIP (R177). -/
def sampleDip (mv : Nat) (s : State) : State :=
  let s1 := lowerMinimum mv s
  if s.supply.recover ≤ mv then
    if s.supply.recRun < 49 then s1.setSupply { s1.supply with recRun := s.supply.recRun + 1 } else endDip s1
  else s1.setSupply { s1.supply with recRun := 0 }

/-- A supply sample (R176, R177). Below 6000 mV the part is held in power reset (R179; log entry 13). -/
def takeSample (mv : Nat) (s : State) : State :=
  if mv < 6000 then powerReset s
  else if s.supply.dip then sampleDip mv s
  else sampleNormal mv s

/-- The sample is the third in a row below warn, in NORMAL (R176). -/
def startsDip (mv : Nat) (s : State) : Bool := !s.supply.dip && s.supply.lowRun == 2 && mv < s.supply.warn

/-- The sample is the 50th in a row at or above recover, in DIP (R177). -/
def endsDip (mv : Nat) (s : State) : Bool := s.supply.dip && s.supply.recRun == 49 && s.supply.recover ≤ mv

/-- SUPPLY_SAMPLE (R176, R177). -/
def execSupplySample (mv : Half) (s : State) : Host.Outcome State Fault Refusal := event (takeSample mv.toNat) s

/-- DIP_START (R176): the sample that makes the state DIP. Another sample is none (log entry 12). -/
def execDipStart (mv : Half) (s : State) : Host.Outcome State Fault Refusal :=
  event (fun s => if startsDip mv.toNat s then takeSample mv.toNat s else s) s

/-- DIP_END (R177): the sample that makes the state NORMAL. Another sample is none (log entry 12). -/
def execDipEnd (mv : Half) (s : State) : Host.Outcome State Fault Refusal :=
  event (fun s => if endsDip mv.toNat s then takeSample mv.toNat s else s) s

/-! ### Requests of chapter 10 -/

/-- The night mode that a parameter codes (R174). -/
def nightModeOf (v : Nat) : NightMode := if v = 0 then .auto else if v = 1 then .night else .day

/-- SET_LIGHT_LEVELS (R174). -/
def setLightLevels : Body := fun ps s =>
  let p := min (param ps 1) 15
  let k := min (param ps 2) 15
  let g := min (param ps 3) 15
  if 2 < param ps 4 then refuse .errParam s
  else
    (setNightMode (nightModeOf (param ps 4)) (setLegendStep g (setKeysStep k (setPanelStep p s))),
      { code := okIf (p == param ps 1 && k == param ps 2 && g == param ps 3) })

def execSetLightLevels (s : State) : Host.Outcome State Fault Refusal := event (request 24 4 setLightLevels) s

/-- SET_LIGHT_LIMITS (R175). -/
def setLightLimits : Body := fun ps s =>
  let g : LightLimits :=
    { nightOn := min (param ps 1) 4095, nightOff := min (param ps 2) 4095, nightPct := min (param ps 3) 100
      minDuty := min (param ps 4) 100, slew := clamp 1 1000 (param ps 5), dipDuty := min (param ps 6) 1000 }
  let same := g.nightOn == param ps 1 && g.nightOff == param ps 2 && g.nightPct == param ps 3 &&
    g.minDuty == param ps 4 && g.slew == param ps 5 && g.dipDuty == param ps 6
  if g.nightOff ≤ g.nightOn then refuse .errParam s
  else (evalNight (s.setLight { s.light with limits := g }), { code := okIf same })

def execSetLightLimits (s : State) : Host.Outcome State Fault Refusal := event (request 25 6 setLightLimits) s

/-- The steps whose field is lower than the field before it (R169). -/
def orderFaults (levels : List Nat) : List Nat :=
  (List.range 16).filter fun i => 0 < i && levels.getD i 0 < levels.getD (i - 1) 0

/-- LOAD_LIGHT_TABLE (R169). -/
def loadLightTable : Body := fun ps s =>
  let fields := s.mem.fields (param ps 1) 2 16
  let levels := fields.map fun v => min v 1000
  let clamped := fields.countP fun v => 1000 < v
  if !inStaging (param ps 1) 32 then refuse .errRange s
  else match orderFaults levels with
    | i :: rest => (s, { code := .errTable, words := [i, levels.getD i 0, rest.length + 1] })
    | [] => (s.setLight { s.light with levels := levels }, { code := okIf (clamped == 0), words := [clamped] })

def execLoadLightTable (s : State) : Host.Outcome State Fault Refusal := event (request 26 1 loadLightTable) s

/-- SET_SUPPLY (R178). -/
def setThresholds : Body := fun ps s =>
  let warn := param ps 1
  let recover := param ps 2
  if warn < 6000 ∨ 30000 < warn then refuse .errParam s
  else if recover < 6500 ∨ 32000 < recover ∨ recover < warn + 500 then refuse .errParam s
  else (s.setSupply { s.supply with warn := warn, recover := recover, lowRun := 0, recRun := 0 }, { code := .ok })

def execSetSupply (s : State) : Host.Outcome State Fault Refusal := event (request 27 2 setThresholds) s

end Sys2Proof.Machine
end

