-- ==== Sys2Proof/Machine/Motion.lean ====
section
/-! DEFINITION. The motion unit (chapter 7, R136 to R140) and what a change of the lockout flag does at the steering unit,
the latch and the legend strip (R66, R67). -/

namespace Sys2Proof.Machine

/-- The lockout flag as R140 works it out. -/
def lockoutOf (m : Motion) : Bool :=
  m.settings.vehicle && (m.state == .moving || (m.state == .unknown && !m.settings.asParked))

/-- The entry is one that lockout engagement chooses (R66): forwarded, hold, not orphaned. -/
def KeyEntry.chosen (e : KeyEntry) : Bool :=
  match e.cond with
  | .down l => l.owned && l.route.hold
  | _ => false

/-- One position at lockout engagement (R66). -/
def engageAt (t : Time) (p : Nat) (s : State) : State :=
  if (s.entry p).chosen then forceRelease .lockout t p s else s

/-- The flag became active: the steering unit, the latch controller and the legend driver, in that order (R140). -/
def lockoutEngaged (t : Time) (s : State) : State :=
  evalShownSet t (latchLockout t (forPositions positions (engageAt t) s))

/-- The flag became inactive: the withheld count becomes 0 (R67), and the shown set is worked out afresh. -/
def lockoutEnded (t : Time) (s : State) : State :=
  evalShownSet t (touchStatus (s.setSteer { s.steer with lockoutWithheld := 0 }))

/-- The end of an event that changed the motion state, the source or the policy (R140): the flag is worked out afresh,
and where the state or the flag differs from before the event the change is reported and handed on. -/
def settleMotion (before : Motion) (t : Time) (s : State) : State :=
  let flag := lockoutOf s.motion
  let s1 := s.setMotion { s.motion with lockout := flag }
  if s.motion.state = before.state ∧ flag = before.lockout then s1
  else
    let record : Record := { time := t, body := .motion s.motion.state flag s.steer.lockoutWithheld }
    let s2 := touchAndRaise (append record s1)
    if flag = before.lockout then s2 else if flag then lockoutEngaged t s2 else lockoutEnded t s2

/-- The motion state becomes another, or stays, with the run given. -/
def moveTo (state : MotionState) (run : Option Time) (t : Time) (s : State) : State :=
  settleMotion s.motion t (s.setMotion { s.motion with state := state, run := run })

/-- The PARK entry is FRESH with a true value (R139). -/
def parkTrue (b : VehicleBus) : Bool :=
  b.signals.any fun g => g.desc.role == .park && g.val.status == .fresh && g.val.value != 0

/-- The value of the SPEED entry, where it is FRESH. -/
def speedValue (b : VehicleBus) : Option Nat :=
  (b.signals.find? fun g => g.desc.role == .speed && g.val.status == .fresh).map fun g => g.val.value

/-- A SPEED arrival (R137, R138, R139). -/
def speedArrival (v : Nat) (t : Time) (s : State) : State :=
  let m := s.motion
  let start := m.run.getD t
  match m.state with
  | .unknown => moveTo (if v ≤ m.settings.moveOff then .parked else .moving) none t s
  | .parked =>
    if m.settings.moveOn ≤ v then
      if m.settings.onDwell ≤ elapsed start t then moveTo .moving none t s else moveTo .parked (some start) t s
    else moveTo .parked none t s
  | .moving =>
    if v ≤ m.settings.moveOff then
      if parkTrue s.bus then moveTo .parked none t s
      else if m.settings.offDwell ≤ elapsed start t then moveTo .parked none t s
      else moveTo .moving (some start) t s
    else moveTo .moving none t s

/-- A PARK arrival (R139). -/
def parkArrival (v : Nat) (t : Time) (s : State) : State :=
  match s.motion.state, speedValue s.bus with
  | .moving, some w => if v != 0 && w ≤ s.motion.settings.moveOff then moveTo .parked none t s else s
  | _, _ => s

/-- The motion state becomes UNKNOWN and its run is cleared (R137). -/
def motionUnknown (t : Time) (s : State) : State := moveTo .unknown none t s

end Sys2Proof.Machine
end

