-- ==== Sys2Proof/Machine/Vehicle.lean ====
section
/-! DEFINITION. The vehicle bus receiver (chapter 7, R120, R128 to R135); its commands CAN_FRAME_ARRIVAL,
STALE_TIMER_EXPIRY and ELEVEN_RECESSIVE_BITS. -/

namespace Sys2Proof.Machine

/-- A value record of an entry never served (R124). -/
def ValueRecord.never : ValueRecord := { value := 0, status := .never, arrival := none, timer := none, reported := none }

/-- The frame matches the entry (R128): the format is the entry's, and the identifier agrees wherever the mask has
a 1. -/
def matchesEntry (f : CanFrame) (d : SignalDesc) : Bool :=
  f.extended == d.extended && ((f.ident.setWidth 32 ^^^ d.ident) &&& d.mask) == 0

/-- The frame carries the data byte the entry's field ends in (R129). -/
def reachesField (f : CanFrame) (d : SignalDesc) : Bool := lastByte d.big d.start d.length < dataBytes f

/-- The value a frame gives an entry (R129 to R132). -/
def frameValue (f : CanFrame) (d : SignalDesc) : Nat :=
  scaled (rawField f.data d.big d.start d.length) d.mult d.shift d.offset

/-- A SIGNAL record is generated at an arrival (R133, step 4). -/
def reportsArrival (g : Signal) (v : Nat) : Bool :=
  g.val.status != .fresh ||
    (g.desc.delta != 0 && match g.val.reported with
      | some w => g.desc.delta ≤ v - w || g.desc.delta ≤ w - v
      | none => false)

/-- The value record of an entry replaced. -/
def putValue (i : Nat) (r : ValueRecord) (s : State) : State :=
  s.setBus { s.bus with signals := s.bus.signals.modify i fun g => { g with val := r } }

/-- An update of an entry is handed on by its role (R135). `v` is the value of an arrival, none for staleness. -/
def handOnSignal (role : Role) (v : Option Nat) (t : Time) (s : State) : State :=
  match role, v with
  | .speed, some x => speedArrival x t s
  | .speed, none => motionUnknown t s
  | .park, some x => parkArrival x t s
  | .park, none => s
  | .headlamp, _ => evalNight s
  | .ignition, _ => s
  | .aux, _ => s

/-- An entry is served by an arrival (R133): its value record, its SIGNAL record, its status fields, the hand-off. -/
def serveEntry (i : Nat) (g : Signal) (v : Nat) (t : Time) (s : State) : State :=
  let reports := reportsArrival g v
  let r : ValueRecord :=
    { value := v, status := .fresh, arrival := some t, timer := some (after t g.desc.stale)
      reported := if reports then some v else g.val.reported }
  let s1 := putValue i r s
  let s2 := if reports then append { time := t, body := .signal i true g.desc.role v } s1 else s1
  let s3 := if g.val.value = v ∧ g.val.status = .fresh then s2 else touchStatus s2
  handOnSignal g.desc.role (some v) t s3

/-- An arrival at entry `i` (R128, R129): served if the frame matches it and reaches its field. -/
def arriveAt (f : CanFrame) (t : Time) (i : Nat) (s : State) : State :=
  match s.bus.signals[i]? with
  | some g => if matchesEntry f g.desc && reachesField f g.desc then serveEntry i g (frameValue f g.desc) t s else s
  | none => s

/-- CAN_FRAME_ARRIVAL (R120, R128): a data frame serves each matching entry in ascending index. Other frames are ignored
or discarded, and no frame is taken before the 11 recessive bits (R120). -/
def execCanFrameArrival (f : CanFrame) (s : State) : Host.Outcome State Fault Refusal :=
  event (fun s =>
    if f.kind = .data ∧ s.bus.listening then
      (List.range s.bus.signals.length).foldl (fun t i => arriveAt f s.ms i t) s
    else s) s

/-- The stale timer of an entry expires (R134). -/
def goStale (i : Nat) (g : Signal) (t : Time) (s : State) : State :=
  let s1 := putValue i { g.val with status := .stale, timer := none, reported := some g.val.value } s
  let s2 := append { time := t, body := .signal i false g.desc.role g.val.value } s1
  handOnSignal g.desc.role none t (touchStatus s2)

/-- STALE_TIMER_EXPIRY (R134). -/
def execStaleTimerExpiry (entry : Nat) (s : State) : Host.Outcome State Fault Refusal :=
  event (fun s => match s.bus.signals[entry]? with
    | some g =>
      match g.val.timer with
      | some e => if due e s.ms then goStale entry g e s else s
      | none => s
    | none => s) s

/-- ELEVEN_RECESSIVE_BITS (R120): from now on the receiver takes the next start of frame. -/
def execElevenRecessiveBits (s : State) : Host.Outcome State Fault Refusal :=
  event (fun s => s.setBus { s.bus with listening := true }) s

end Sys2Proof.Machine
end

