-- ==== Sys2Proof/Machine/VehicleRequests.lean ====
section
/-! DEFINITION. The requests of the vehicle path: SET_VEHICLE_BUS, LOAD_SIGNALS and SET_MOTION. -/

namespace Sys2Proof.Machine

/-! ### SET_VEHICLE_BUS (R121, R122) -/

/-- A bit-rate change (R122): the receiver waits for 11 recessive bits, every value record becomes NEVER, the lighting
controller is told, the motion state becomes UNKNOWN. The last arrival time, of which R122 says nothing, is dropped with
the rest of the value record (log entry 32). -/
def changeRate (rate : Nat) (s : State) : State :=
  let s1 := s.setBus
    { rate := rate, listening := false, signals := s.bus.signals.map fun g => { g with val := .never } }
  let s2 := if s.bus.signals.isEmpty then s1 else touchStatus s1
  motionUnknown s.ms (evalNight s2)

def setVehicleBus : Body := fun ps s =>
  let rate := param ps 1
  if s.steer.lock then refuse .errLocked s
  else if !([125, 250, 500, 1000].contains rate) then refuse .errParam s
  else (if rate = s.bus.rate then s else changeRate rate s, { code := .ok })

def execSetVehicleBus (s : State) : Host.Outcome State Fault Refusal := event (request 16 1 setVehicleBus) s

/-! ### LOAD_SIGNALS (R125 to R127) -/

/-- An entry of a staged signal table as its bytes give it (11.6.4). -/
structure RawSignal where
  role   : Nat
  format : Nat
  order  : Nat
  start  : Nat
  length : Nat
  shift  : Nat
  ident  : Nat
  mask   : Nat
  mult   : Nat
  offset : Nat
  stale  : Nat
  delta  : Nat
  deriving DecidableEq, Repr

/-- Read the entry staged at an offset (11.6.4). -/
def readSignal (m : Memory) (a : Nat) : RawSignal :=
  { role := m.readLe a 1, format := m.readLe (a + 1) 1, order := m.readLe (a + 2) 1, start := m.readLe (a + 3) 1
    length := m.readLe (a + 4) 1, shift := m.readLe (a + 5) 1, ident := m.readLe (a + 8) 4, mask := m.readLe (a + 12) 4
    mult := m.readLe (a + 16) 2, offset := m.readLe (a + 18) 2, stale := m.readLe (a + 20) 2, delta := m.readLe (a + 22) 2 }

/-- The identifier width of a format in bits (R123). -/
def identBits (format : Nat) : Nat := if format = 0 then 11 else 29

/-- The lowest fault number of an entry (R126), none where it has no fault. `earlier` holds the roles of the entries of
lower index. -/
def signalFault (earlier : List Nat) (r : RawSignal) : Option Nat :=
  if 4 < r.role then some 1
  else if r.role ≠ 4 ∧ earlier.contains r.role then some 2
  else if 1 < r.format then some 3
  else if 2 ^ identBits r.format ≤ r.ident ∨ 2 ^ identBits r.format ≤ r.mask then some 4
  else if 1 < r.order then some 5
  else if 63 < r.start ∨ r.length = 0 ∨ 16 < r.length then some 6
  else if 7 < lastByte (r.order == 1) r.start r.length then some 7
  else if r.mult = 0 then some 8
  else if 15 < r.shift then some 9
  else none

/-- The fault of each entry in order (R126). -/
def signalFaults : List Nat → List RawSignal → List (Option Nat)
  | _, [] => []
  | earlier, r :: rs => signalFault earlier r :: signalFaults (r.role :: earlier) rs

/-- The role that a staging byte codes (11.6.4). -/
def roleOf (v : Nat) : Role :=
  if v = 0 then .speed else if v = 1 then .park else if v = 2 then .ignition else if v = 3 then .headlamp else .aux

/-- The value of a signed 16-bit field. -/
def signed16 (v : Nat) : Int := (BitVec.ofNat 16 v).toInt

/-- The entry as loaded: its stale time clamped, its value record NEVER (R126, R127). -/
def loadedSignal (r : RawSignal) : Signal :=
  { desc :=
      { role := roleOf r.role, extended := r.format == 1, ident := BitVec.ofNat 32 r.ident, mask := BitVec.ofNat 32 r.mask
        big := r.order == 1, start := r.start, length := r.length, mult := r.mult, shift := r.shift
        offset := signed16 r.offset, stale := clamp 50 10000 r.stale, delta := r.delta }
    val := .never }

/-- An accepted table takes effect (R127). -/
def installSignals (gs : List Signal) (s : State) : State :=
  motionUnknown s.ms (evalNight (touchStatus (s.setBus { s.bus with signals := gs })))

def loadSignals : Body := fun ps s =>
  let n := param ps 1
  let off := param ps 2
  let raw := (List.range n).map fun i => readSignal s.mem (off + 24 * i)
  let faults := signalFaults [] raw
  let clamped := raw.countP fun r => clamp 50 10000 r.stale != r.stale
  if s.steer.lock then refuse .errLocked s
  else if 6 < n then refuse .errParam s
  else if n = 0 then (installSignals [] s, { code := .ok })
  else if !inStaging off (24 * n) then refuse .errRange s
  else if faults.any Option.isSome then
    let i := faults.findIdx Option.isSome
    (s, { code := .errTable, words := [i, (faults.getD i none).getD 0, faults.countP Option.isSome] })
  else (installSignals (raw.map loadedSignal) s, { code := okIf (clamped == 0), words := [n, clamped] })

def execLoadSignals (s : State) : Host.Outcome State Fault Refusal := event (request 17 2 loadSignals) s

/-! ### SET_MOTION (R136) -/

def setMotion : Body := fun ps s =>
  let on := param ps 1
  let off := param ps 2
  let onDwell := min (param ps 3) 10000
  let offDwell := min (param ps 4) 30000
  if s.steer.lock then refuse .errLocked s
  else if 1 < param ps 5 ∨ 1 < param ps 6 then refuse .errParam s
  else if 65535 < on ∨ 65535 < off ∨ on ≤ off then refuse .errParam s
  else
    let g : MotionSettings :=
      { moveOn := on, moveOff := off, onDwell := onDwell, offDwell := offDwell
        asParked := param ps 5 == 1, vehicle := param ps 6 == 1 }
    let same := on = s.motion.settings.moveOn ∧ off = s.motion.settings.moveOff
    let s1 := s.setMotion { s.motion with settings := g, run := if same then s.motion.run else none }
    (settleMotion s.motion s.ms s1, { code := okIf (onDwell == param ps 3 && offDwell == param ps 4) })

def execSetMotion (s : State) : Host.Outcome State Fault Refusal := event (request 18 6 setMotion) s

end Sys2Proof.Machine
end

