-- ==== Sys2Proof/Machine/Dispatch.lean ====
section
/-! DEFINITION. The meaning of each command: one arm per constructor of Instr. -/

namespace Sys2Proof.Machine

def exec (i : Instr) (s : State) : Host.Outcome State Fault Refusal :=
  match i with
  | .powerReset => Sys2Proof.Machine.execPowerReset s
  | .resetRelease present sense button ambient => Sys2Proof.Machine.execResetRelease present sense button ambient s
  | .frameTimerExpiry => Sys2Proof.Machine.execFrameTimerExpiry s
  | .frameBoundary readings senseActive => Sys2Proof.Machine.execFrameBoundary readings senseActive s
  | .senseLineActive => Sys2Proof.Machine.execSenseLineActive s
  | .chatterDecay => Sys2Proof.Machine.execChatterDecay s
  | .attentionTimerExpiry => Sys2Proof.Machine.execAttentionTimerExpiry s
  | .repeatIntervalExpiry => Sys2Proof.Machine.execRepeatIntervalExpiry s
  | .wakeHoldExpiry => Sys2Proof.Machine.execWakeHoldExpiry s
  | .wakeLimitExpiry => Sys2Proof.Machine.execWakeLimitExpiry s
  | .flushTimerExpiry => Sys2Proof.Machine.execFlushTimerExpiry s
  | .ownerMarkWrite offset access => Sys2Proof.Machine.execOwnerMarkWrite offset access s
  | .canFrameArrival frame => Sys2Proof.Machine.execCanFrameArrival frame s
  | .staleTimerExpiry entry => Sys2Proof.Machine.execStaleTimerExpiry entry s
  | .latchInputRead present sense button => Sys2Proof.Machine.execLatchInputRead present sense button s
  | .presentSwitchChange => Sys2Proof.Machine.execPresentSwitchChange s
  | .latchSenseChange => Sys2Proof.Machine.execLatchSenseChange s
  | .buttonPress => Sys2Proof.Machine.execButtonPress s
  | .buttonReleased => Sys2Proof.Machine.execButtonReleased s
  | .askTimerExpiry => Sys2Proof.Machine.execAskTimerExpiry s
  | .releaseWindowExpiry => Sys2Proof.Machine.execReleaseWindowExpiry s
  | .cooldownExpiry => Sys2Proof.Machine.execCooldownExpiry s
  | .stripAcknowledge => Sys2Proof.Machine.execStripAcknowledge s
  | .acknowledgeTimerExpiry => Sys2Proof.Machine.execAcknowledgeTimerExpiry s
  | .retryTimerExpiry => Sys2Proof.Machine.execRetryTimerExpiry s
  | .ambientReading reading => Sys2Proof.Machine.execAmbientReading reading s
  | .outputUpdate => Sys2Proof.Machine.execOutputUpdate s
  | .supplySample millivolts => Sys2Proof.Machine.execSupplySample millivolts s
  | .dipStart millivolts => Sys2Proof.Machine.execDipStart millivolts s
  | .dipEnd millivolts => Sys2Proof.Machine.execDipEnd millivolts s
  | .linkUp => Sys2Proof.Machine.execLinkUp s
  | .linkDown => Sys2Proof.Machine.execLinkDown s
  | .linkLowPower => Sys2Proof.Machine.execLinkLowPower s
  | .linkActive => Sys2Proof.Machine.execLinkActive s
  | .noticeWrite lane access => Sys2Proof.Machine.execNoticeWrite lane access s
  | .sweepTimerExpiry => Sys2Proof.Machine.execSweepTimerExpiry s
  | .intMaskWrite lane access => Sys2Proof.Machine.execIntMaskWrite lane access s
  | .intPendingWrite lane access => Sys2Proof.Machine.execIntPendingWrite lane access s
  | .registerWriteDiscarded lane access => Sys2Proof.Machine.execRegisterWriteDiscarded lane access s
  | .unknownKind => Sys2Proof.Machine.execUnknownKind s
  | .nop => Sys2Proof.Machine.execNop s
  | .setScan => Sys2Proof.Machine.execSetScan s
  | .setFilter => Sys2Proof.Machine.execSetFilter s
  | .clearQuarantine => Sys2Proof.Machine.execClearQuarantine s
  | .resetKeypath => Sys2Proof.Machine.execResetKeypath s
  | .loadKeymap => Sys2Proof.Machine.execLoadKeymap s
  | .loadSteering => Sys2Proof.Machine.execLoadSteering s
  | .lockPolicy => Sys2Proof.Machine.execLockPolicy s
  | .armChord => Sys2Proof.Machine.execArmChord s
  | .ackAttention => Sys2Proof.Machine.execAckAttention s
  | .setAttention => Sys2Proof.Machine.execSetAttention s
  | .setRepeat => Sys2Proof.Machine.execSetRepeat s
  | .setWake => Sys2Proof.Machine.execSetWake s
  | .logFlush => Sys2Proof.Machine.execLogFlush s
  | .setLog => Sys2Proof.Machine.execSetLog s
  | .snapshot => Sys2Proof.Machine.execSnapshot s
  | .setVehicleBus => Sys2Proof.Machine.execSetVehicleBus s
  | .loadSignals => Sys2Proof.Machine.execLoadSignals s
  | .setMotion => Sys2Proof.Machine.execSetMotion s
  | .latchAnswer => Sys2Proof.Machine.execLatchAnswer s
  | .undockStart => Sys2Proof.Machine.execUndockStart s
  | .setLatch => Sys2Proof.Machine.execSetLatch s
  | .loadLegends => Sys2Proof.Machine.execLoadLegends s
  | .setIndicators => Sys2Proof.Machine.execSetIndicators s
  | .setLightLevels => Sys2Proof.Machine.execSetLightLevels s
  | .setLightLimits => Sys2Proof.Machine.execSetLightLimits s
  | .loadLightTable => Sys2Proof.Machine.execLoadLightTable s
  | .setSupply => Sys2Proof.Machine.execSetSupply s
  | .elevenRecessiveBits => Sys2Proof.Machine.execElevenRecessiveBits s

end Sys2Proof.Machine
end

