-- ==== Sys2Proof/Machine/Step.lean ====
section
/-! DEFINITION. One step: the command at the front of the queue, or, where none waits, a millisecond. -/

namespace Sys2Proof.Machine

/-- A millisecond passes (log entry 2): the counter counts on from the release of power reset, wrapping (00_scope.md,
Times). What is due at the new count is done by the expiry commands. -/
def tick (s : State) : State := if s.inReset then s else s.setMs (s.ms + 1)

/-- The command at the front of the queue is taken from it and carried out; on an empty queue a millisecond passes. -/
def step (s : State) : Host.Outcome State Fault Refusal :=
  match s.pending with
  | c :: rest => exec c (s.setPending rest)
  | [] => .next (tick s)

/-- The state with the command that a word spells put at the front of its queue. -/
def State.withFetchWord (s : State) (nbits w : Nat) : State :=
  match decodeTableWord nbits w with
  | some c => s.setPending (c :: s.pending)
  | none => s

end Sys2Proof.Machine
end

