-- ==== Sys2Proof/Safety.lean ====
section
/-! DEFINITION. What holds of the part between commands: the terms in which its whole-machine rules are claimed. -/

namespace Sys2Proof.Machine

/-- While held in power reset, every block holds its reset values (R179); only the queue of commands may differ. -/
def ResetOk (s : State) : Prop := s.inReset = true → s = State.reset.setPending s.pending

/-- Exchange memory has its canonical form (log entry 22). -/
def MemOk (s : State) : Prop := s.mem.wf = true

/-- The log (R97, R103, R110): the queue takes 32 records; a loss has a count of at least 1; and one of three: DORMANT
with nothing open, waiting, queued, lost or timed; LIVE with an open page that is not full, an empty queue, no loss, and
the flush timer running exactly while the page holds a record; LIVE with a waiting page and no flush timer. -/
def LogOk (g : EventLog) : Prop :=
  g.queue.length ≤ queueRecords ∧ (g.inLoss = true ↔ 0 < g.lost) ∧
  match g.live, g.page, g.waiting with
  | false, none, none => g.queue = [] ∧ g.inLoss = false ∧ g.flush = none
  | true, some p, none =>
    p.index < 16 ∧ p.count < pageRecords ∧ g.queue = [] ∧ g.inLoss = false ∧ (g.flush.isSome = true ↔ 0 < p.count)
  | true, none, some i => i < 16 ∧ g.flush = none
  | _, _, _ => False

/-- The log is LIVE exactly while the link is not DOWN (R97, R118). -/
def LiveOk (s : State) : Prop := s.log.live = true ↔ s.link ≠ .down

/-- The filter settings are in their ranges (Table 2-2), the decay counter stays below the highest of them (R33), there are
144 entries, filter counts are 0-7 and no chatter score passes the limit (R18, R32). -/
def KeysOk (k : KeyTable) : Prop :=
  k.entries.length = 144 ∧ (1 ≤ k.settings.press ∧ k.settings.press ≤ 8) ∧
  (1 ≤ k.settings.release ∧ k.settings.release ≤ 8) ∧ (4 ≤ k.settings.limit ∧ k.settings.limit ≤ 30) ∧
  (8 ≤ k.settings.decay ∧ k.settings.decay ≤ 255 ∧ k.decayCounter < 255) ∧
  ∀ e ∈ k.entries, e.filter ≤ 7 ∧ e.score ≤ k.settings.limit

/-- At most 16 entries are DOWN with forward and not orphaned (R28). -/
def HeldOk (s : State) : Prop := s.keys.heldForward ≤ rolloverLimit

/-- No entry is the tablet's while the link is DOWN (R29, R74). -/
def OrphanOk (s : State) : Prop := s.link = .down → s.keys.heldForward = 0

/-- The lockout flag is what R140 works out. -/
def MotionOk (s : State) : Prop := s.motion.lockout = lockoutOf s.motion

/-- The latch is never ASKED or RELEASING under motion lockout or in cooldown, and a press is held only in LATCHED while
the cooldown runs (R143, R147, R151). -/
def LatchOk (s : State) : Prop :=
  (s.latch.state.place = .asked ∨ s.latch.state.place = .releasing →
    s.motion.lockout = false ∧ s.latch.cooldown = none) ∧
  (s.latch.heldPress.isSome = true → s.latch.cooldown.isSome = true ∧ s.latch.state.place = .latched)

/-- WAKE is asserted, and its hold timer armed, only while wake applies (R90 to R93). -/
def WakeOk (s : State) : Prop :=
  s.wake.line.isSome = true ∨ s.wake.timer.isSome = true → wakeApplies s = true

/-- No chord is in attention while the link is DOWN (R85). -/
def AttentionOk (s : State) : Prop := s.chords.attention.isSome = true → s.link ≠ .down

/-- A repeat runs only while repeat is enabled, on a DOWN entry with the press it was begun for, not orphaned (R87, R89);
with no repeat the repeat count is 0. -/
def RepeatOk (s : State) : Prop :=
  match s.rep.running with
  | none => s.rep.count = 0
  | some r => s.rep.enabled = true ∧
    match (s.entry r.position).cond with
    | .down l => l.pressTime = r.pressTime ∧ l.orphaned = false
    | _ => False

/-- The shown set is the one that link, lockout and layer give (R158). -/
def ShownOk (s : State) : Prop := s.legend.shown = shownSetOf s

/-- The lighting controller is in its ranges: steps 0-15 and output duties 0-1000 (R167, R173); 16 levels of 0-1000 in rising
order (R169); the limits as R175 admits them; 8 readings (R171). -/
def LightOk (l : Lighting) : Prop :=
  (l.panel.step ≤ 15 ∧ l.keys.step ≤ 15 ∧ l.legend.step ≤ 15) ∧
  (l.panel.output ≤ 1000 ∧ l.keys.output ≤ 1000 ∧ l.legend.output ≤ 1000) ∧
  (l.levels.length = 16 ∧ (∀ d ∈ l.levels, d ≤ 1000) ∧ l.levels.Pairwise (· ≤ ·)) ∧
  (l.limits.nightOn < l.limits.nightOff ∧ l.limits.nightOff ≤ 4095 ∧ l.limits.nightPct ≤ 100 ∧ l.limits.minDuty ≤ 100 ∧
    1 ≤ l.limits.slew ∧ l.limits.slew ≤ 1000 ∧ l.limits.dipDuty ≤ 1000) ∧
  l.ambient.length = 8

/-- The frame timer runs exactly in SCANNING once power reset is released, a pass and a pending change exist in SCANNING
only, and the scanner is HELD exactly during a supply dip (R4, R7, R11, R14, R15). -/
def ScanOk (s : State) : Prop :=
  s.inReset = false →
    (s.scan.mode = .scanning ↔ s.scan.timer.isSome = true) ∧ (s.scan.pass = true → s.scan.mode = .scanning) ∧
    (s.scan.change.isSome = true → s.scan.mode = .scanning) ∧ (s.scan.mode = .held ↔ s.supply.dip = true)

/-- A vector is held only in LOW_POWER (R183). -/
def VectorOk (s : State) : Prop := s.irq.held = true → s.link = .lowPower

/-- The last cell taken is one of the 8 (R186). -/
def PointerOk (s : State) : Prop := s.req.pointer < 8

end Sys2Proof.Machine
end

