-- ==== Sys2Proof/Certificates/Slice0/Obligations.lean ====
section
/-! DEFINITION. The statements for the provers. Where a statement says `derived`, its docstring names what it rests on. -/

set_option Elab.async false

namespace Sys2Proof.Claims

open Sys2Proof Sys2Proof.Machine

/-- A request of this kind and parameter count is in execution, and the part is not held in power reset. -/
def InExecution (s : State) (q : Request) (kind count : Nat) : Prop :=
  s.inReset = false ∧ s.req.current = some q ∧ q.kind = kind ∧ q.count = count

/-- The event of an execution: the owning block leaves `u`, and the request completes with this reply. What completion
does is said by CompletionWritesTheCell, what the end of an event does by ChangeCountRisesAtTheEventEnd. -/
def answered (q : Request) (code : ResultCode) (words : List Nat) (u : State) : State :=
  endEvent (complete q { code := code, words := words } u)

/-- OK, or OK_CLAMPED where a value was altered (00_scope.md, Settings). -/
def okUnless (altered : Prop) [Decidable altered] : ResultCode := if altered then .okClamped else .ok

/-- A field of a structure: `n` bytes from an offset, little-endian. -/
def fieldAt (bytes : List Byte) (offset n : Nat) : Nat := leValue ((bytes.drop offset).take n)

/-- A byte of a page header that 11.6.3 does not name: 03h and 08h-0Fh of the page at `base`. -/
def unnamedByte (base x : Nat) : Prop := x = base + 3 ∨ (base + 8 ≤ x ∧ x < base + 16)

/-- The command is a tablet write access. -/
def isWrite : Instr → Bool
  | .ownerMarkWrite .. | .noticeWrite .. | .intMaskWrite .. | .intPendingWrite .. | .registerWriteDiscarded .. => true
  | _ => false

/-- The kind and the parameter count of a request command (11.6.6). -/
def catalogue : Instr → Option (Nat × Nat)
  | .nop => some (0, 0)
  | .setScan => some (1, 3)
  | .setFilter => some (2, 4)
  | .clearQuarantine => some (3, 1)
  | .resetKeypath => some (4, 0)
  | .loadKeymap => some (5, 2)
  | .loadSteering => some (6, 1)
  | .lockPolicy => some (7, 0)
  | .armChord => some (8, 6)
  | .ackAttention => some (9, 1)
  | .setAttention => some (10, 1)
  | .setRepeat => some (11, 3)
  | .setWake => some (12, 1)
  | .logFlush => some (13, 0)
  | .setLog => some (14, 1)
  | .snapshot => some (15, 1)
  | .setVehicleBus => some (16, 1)
  | .loadSignals => some (17, 2)
  | .setMotion => some (18, 6)
  | .latchAnswer => some (19, 1)
  | .undockStart => some (20, 0)
  | .setLatch => some (21, 2)
  | .loadLegends => some (22, 2)
  | .setIndicators => some (23, 4)
  | .setLightLevels => some (24, 4)
  | .setLightLimits => some (25, 6)
  | .loadLightTable => some (26, 1)
  | .setSupply => some (27, 2)
  | _ => none

/-- What neither a position of a frame nor a change of motion has a part in stays as it was. -/
def OthersKept (s t : State) : Prop :=
  t.inReset = s.inReset ∧ t.ms = s.ms ∧ t.scan = s.scan ∧ t.keymap = s.keymap ∧ t.bus = s.bus ∧ t.motion = s.motion ∧
  t.ind = s.ind ∧ t.supply = s.supply ∧ t.link = s.link ∧ t.req = s.req ∧ t.changeCount = s.changeCount ∧
  t.freeCount = s.freeCount ∧ t.pending = s.pending

/-- The KEY_RELEASE records of forced releases at a time (R30): one for each chosen position, in ascending order, whose
entry is DOWN with forward and not orphaned. -/
def forcedReleases (cause : ReleaseCause) (t : Time) (chosen : Nat → Latched → Bool) (s : State) : State :=
  (List.range 144).foldl (fun u p =>
    match (s.entry p).cond with
    | .down l =>
      if l.route.forward ∧ ¬l.orphaned ∧ chosen p l then append { time := t, body := .keyRelease p l.code cause } u else u
    | _ => u) s

/-- Entry `i` of a staged signal table (11.6.4): the nine faults of R126 in their order. -/
def stagedFaults (m : Memory) (off i : Nat) : List Bool :=
  let byte (k j : Nat) : Nat := (m.read (off + 24 * k + j)).toNat
  let word (j : Nat) : Nat := m.readLe (off + 24 * i + j) 4
  let top := if byte i 1 = 0 then 2 ^ 11 else 2 ^ 29
  [ decide (4 < byte i 0),
    decide (byte i 0 ≠ 4) && (List.range i).any fun k => decide (byte k 0 = byte i 0),
    decide (1 < byte i 1), decide (top ≤ word 8 ∨ top ≤ word 12), decide (1 < byte i 2),
    decide (63 < byte i 3 ∨ byte i 4 = 0 ∨ 16 < byte i 4),
    decide (7 < lastByte (decide (byte i 2 = 1)) (byte i 3) (byte i 4)), decide (m.readLe (off + 24 * i + 16) 2 = 0),
    decide (15 < byte i 5) ]

/-- The stale time staged for entry `i`. -/
def stagedStale (m : Memory) (off i : Nat) : Nat := m.readLe (off + 24 * i + 20) 2

/-- The description that entry `i` of an accepted staged table gives (R123, 11.6.4). -/
def stagedSignal (m : Memory) (off i : Nat) : SignalDesc :=
  let byte (j : Nat) : Nat := (m.read (off + 24 * i + j)).toNat
  { role := ([.speed, .park, .ignition, .headlamp] : List Role).getD (byte 0) .aux
    extended := decide (byte 1 = 1)
    ident := BitVec.ofNat 32 (m.readLe (off + 24 * i + 8) 4)
    mask := BitVec.ofNat 32 (m.readLe (off + 24 * i + 12) 4)
    big := decide (byte 2 = 1), start := byte 3, length := byte 4
    mult := m.readLe (off + 24 * i + 16) 2, shift := byte 5
    offset := (BitVec.ofNat 16 (m.readLe (off + 24 * i + 18) 2)).toInt
    stale := max 50 (min 10000 (stagedStale m off i)), delta := m.readLe (off + 24 * i + 22) 2 }

/-- A change of the latch state at a time (R143, R144, R145): leaving RELEASING starts the cooldown of 10 s; entry into
EMPTY and the change from LATCHED into UNSEATED drop the held press; the LATCH record, the status field and STATUS follow;
then WAKE is asserted at entry into ASKED unless the link is ACTIVE (R92), and released at entry into EMPTY (R93). -/
def latchMoves (state : LatchState) (cause : LatchCause) (t : Time) (s : State) : State :=
  let now := s.latch.state.place
  let latch : Latch :=
    { s.latch with
      state := state
      cooldown := if now = .releasing ∧ state.place ≠ .releasing then some (t + 10000) else s.latch.cooldown
      heldPress :=
        if state.place = .empty ∨ (now = .latched ∧ state.place = .unseated) then none else s.latch.heldPress }
  let record : Record := { time := t, body := .latch cause state.place }
  let u := raiseCause .status { append record { s with latch := latch } with statusDirty := true }
  match state with
  | .asked _ => if u.link = .active then u else { u with wake := { u.wake with line := some (t + 2000) } }
  | .empty => { u with wake := { u.wake with timer := none, line := none } }
  | _ => u

/-- A transfer of the shown set begins at a time (R159): its 12 cells with each value outside 32-126 sent as 63, and the
acknowledge timer of 20 ms. -/
def transferBegins (t : Time) (s : State) : State :=
  let shown := match s.legend.shown with | .base => 0 | .fn => 1 | .motion => 2 | .undocked => 3
  let sent (c : Byte) : Byte := if 32 ≤ c.toNat ∧ c.toNat ≤ 126 then c else 63
  { s with legend := { s.legend with
      message := (s.legend.sets.getD shown []).map fun c => { c with chars := c.chars.map sent }
      transfer := .sending (t + 20) } }

end Sys2Proof.Claims

open Sys2Proof Sys2Proof.Machine Sys2Proof.Claims

/-! ### The machine as a whole -/

/-- A step carries out the command at the front of the queue on the state with the rest of the queue (log entry 1: the
queue is the model's). -/
def Obligations.StepRunsTheFrontCommand : Prop :=
  ∀ (c : Instr) (rest : List Instr) (s : State), s.pending = c :: rest → step s = exec c { s with pending := rest }

/-- On an empty queue a step is one millisecond of the counter, which stands still while the part is held in power reset
(log entry 2, the model's choice of clock; the counter wraps, 00_scope.md section 6). No command touches the queue, and none
moves the counter but a power reset, which restores it to 0 (log entries 1, 2 and 31). -/
def Obligations.ClockAndQueue : Prop :=
  (∀ s : State, s.pending = [] → step s = .next (if s.inReset then s else { s with ms := s.ms + 1 })) ∧
  ∀ (c : Instr) (s t : State), exec c s = .next t →
    t.pending = s.pending ∧ (t.ms = s.ms ∨ t = { State.reset with pending := s.pending })

/-- Every well-formed command answers a next state, and the only stop is an access that runs past offset FFFFh (R180; the
fault is log entry 9's choice). -/
def Obligations.OnlyAccessesPastTheWindowStop : Prop :=
  ∀ (c : Instr) (s : State),
    (c.wellFormed = true → ∃ t, exec c s = .next t) ∧
    (∀ off a, c = .ownerMarkWrite off a → 65536 < off.toNat + a.size → exec c s = .fault .outsideWindow) ∧
    (∀ lane a, c = .intPendingWrite lane a → 4 < lane.toNat + a.size → exec c s = .fault .outsideWindow)

/-- While the part is held in power reset, no command but its assertion and its release does anything (log entry 5, from
R179). -/
def Obligations.NothingHappensInPowerReset : Prop :=
  ∀ (c : Instr) (s : State), s.inReset = true → c.wellFormed = true → c ≠ .powerReset →
    (∀ p l b a, c ≠ .resetRelease p l b a) → exec c s = .next s

/-- A power reset, by POWER_RESET or by a supply sample below 6000 mV, restores every block and zeroes every byte of
exchange memory (R179, R180); that the queue is kept is log entry 31's choice, and that a sample below 6000 mV is a power
reset is log entry 13's reading. -/
def Obligations.PowerResetRestoresEveryBlock : Prop :=
  ∀ s : State,
    exec .powerReset s = .next { State.reset with pending := s.pending } ∧
    (∀ mv : Half, s.inReset = false → mv.toNat < 6000 →
      exec (.supplySample mv) s = .next { State.reset with pending := s.pending }) ∧
    ∀ a, State.reset.mem.read a = 0

/-- What a power reset leaves: the reset values that the chapters give, every item of every block. That no pass, frame
timer, strip transfer or sweep timer runs before the release is log entry 5's reading. The latch state, the values of the
latch inputs, the ambient readings, the last strip message and the lowest sample of a low run of a part still held in reset
are log entry 6's choice and are not among them; nor is the model's own counter of sent vectors (log entry 18). -/
def Obligations.ResetValues : Prop :=
  let s := State.reset
  s.ms = 0 ∧ s.link = .down ∧
  s.scan.settings = { mask := BitVec.allOnes 18, period := 2, watchEntry := 64 } ∧ s.scan.skipped = 0 ∧ s.scan.idleRun = 0 ∧
  s.scan.mode = .scanning ∧ s.scan.change = none ∧ s.scan.pass = false ∧ s.scan.timer = none ∧
  s.keys.entries = List.replicate 144 { cond := .up, pressed := false, filter := 0, score := 0 } ∧
  s.keys.settings = { press := 3, release := 2, limit := 12, decay := 32 } ∧ s.keys.decayCounter = 0 ∧
  s.keys.heldForward = 0 ∧ s.keys.quarantinedCount = 0 ∧ s.keys.layer = .base ∧
  s.keymap.fn = List.replicate 144 0 ∧ s.keymap.base = (List.range 140).map (· + 1) ++ [496, 497, 498, 501] ∧
  s.steer.table = List.replicate 31 { forward := true, dock := false, hold := false } ++
    [{ forward := false, dock := true, hold := false }] ∧
  s.steer.lock = false ∧ s.steer.lockoutWithheld = 0 ∧ s.steer.rolloverWithheld = 0 ∧ s.steer.discarded = 0 ∧
  s.chords = { entries := [[], [], [], []], attention := none, timeout := 10 } ∧
  s.rep = { enabled := false, delay := 500, period := 100, running := none, count := 0 } ∧
  s.wake = { hold := 250, timer := none, line := none } ∧
  s.log.live = false ∧ s.log.epoch = 0 ∧ s.log.page = none ∧ s.log.queue = [] ∧ s.log.inLoss = false ∧ s.log.flushDelay = 8 ∧
  s.log.waiting = none ∧ s.log.nextSeq = 0 ∧ s.log.lost = 0 ∧ s.log.flush = none ∧
  s.bus.rate = 500 ∧ s.bus.signals = [] ∧ s.bus.listening = false ∧
  s.motion.settings =
    { moveOn := 80, moveOff := 30, onDwell := 2000, offDwell := 5000, asParked := false, vehicle := false } ∧
  s.motion.state = .unknown ∧ s.motion.lockout = false ∧ s.motion.run = none ∧
  s.solenoid = false ∧ s.latch.state.place ≠ .asked ∧ s.latch.state.place ≠ .releasing ∧
  (∀ i ∈ [s.latch.present, s.latch.sense, s.latch.button], i.run = 0 ∧ i.due = none) ∧
  s.latch.cooldown = none ∧ s.latch.heldPress = none ∧ s.latch.askTimeout = 5 ∧ s.latch.window = 4 ∧
  s.legend.shown = .undocked ∧ s.legend.online = true ∧ s.legend.failures = 0 ∧ s.legend.retry = none ∧
  s.legend.again = false ∧ s.legend.transfer = .idle ∧
  s.legend.sets = List.replicate 4 (List.replicate 12 { chars := List.replicate 10 32, attr := 3 }) ∧
  s.ind = { caps := .off, num := .off, scroll := .off, aux := .off } ∧
  s.light.panel = { step := 9, output := 0 } ∧ s.light.keys = { step := 5, output := 0 } ∧
  s.light.legend = { step := 9, output := 0 } ∧ s.light.mode = .auto ∧ s.light.night = false ∧
  s.light.levels = [0, 20, 40, 60, 90, 120, 160, 200, 260, 330, 410, 500, 600, 720, 850, 1000] ∧
  s.light.limits = { nightOn := 200, nightOff := 400, nightPct := 40, minDuty := 20, slew := 25, dipDuty := 100 } ∧
  s.panelTarget = 330 ∧ s.keysTarget = 120 ∧ s.legendTarget = 330 ∧
  s.supply.lowRun = 0 ∧ s.supply.recRun = 0 ∧
  s.supply.dip = false ∧ s.supply.warn = 9000 ∧ s.supply.recover = 10000 ∧ s.supply.record = none ∧
  s.irq.mask = 0 ∧ s.irq.pending = 0 ∧ s.irq.held = false ∧
  s.req.pointer = 7 ∧ s.req.current = none ∧ s.req.sweep = none ∧ s.changeCount = 0

/-- The release of power reset (R17, R141, R154, R161, R171, R186): the latch state taken from the switches, the first
ambient reading in all 8 places and judged for the night, a frame start, a transfer of the blank UNDOCKED set, the sweep
timer. The change count is 0 (R184; that the first readings do not raise it is log entry 16's reading). -/
def Obligations.ReleaseOfPowerReset : Prop :=
  ∀ (present sense button : Bool) (ambient : BitVec 12) (s : State), s.inReset = true →
    s = { State.reset with pending := s.pending } →
    exec (.resetRelease present sense button ambient) s = .next
      { s with
        inReset := false
        scan := { s.scan with mode := .scanning, pass := true, timer := some 2 }
        latch := { s.latch with
          state := if present then (if sense then .latched else .unseated) else .empty
          present := { value := present, run := 0, due := none }
          sense := { value := sense, run := 0, due := none }
          button := { value := button, run := 0, due := none } }
        light := { s.light with ambient := List.replicate 8 ambient.toNat, night := decide (ambient.toNat < 200) }
        legend := { s.legend with
          transfer := .sending 20
          message := List.replicate 12 { chars := List.replicate 10 32, attr := 3 } }
        req := { s.req with sweep := some 20 }
        changeCount := 0 }

/-! ### Invariants -/

/-- Every invariant of Safety.lean holds of the part held in power reset. -/
def Obligations.InvariantsHoldAtReset : Prop :=
  ResetOk State.reset ∧ MemOk State.reset ∧ LogOk State.reset.log ∧ LiveOk State.reset ∧ KeysOk State.reset.keys ∧
  HeldOk State.reset ∧ OrphanOk State.reset ∧ MotionOk State.reset ∧ LatchOk State.reset ∧ WakeOk State.reset ∧
  AttentionOk State.reset ∧ RepeatOk State.reset ∧ ShownOk State.reset ∧ ScanOk State.reset ∧ VectorOk State.reset ∧
  PointerOk State.reset ∧ LightOk State.reset.light ∧ State.reset.statusDirty = false

/-- Every step keeps exchange memory in its canonical form (log entry 22), so that equal contents are equal data. -/
def Obligations.StepKeepsMemoryForm : Prop := ∀ s t : State, MemOk s → step s = .next t → MemOk t

/-- Every step keeps the rules of the log (R97, R103, R107, R110, R118): the queue holds at most 32 records and any only
while no page is open, an open page is never full, a loss has a count, the flush timer runs exactly while an open page
holds a record, DORMANT holds nothing, and the log is LIVE exactly while the link is not DOWN. -/
def Obligations.StepKeepsLogRules : Prop :=
  ∀ s t : State, LogOk s.log → LiveOk s → step s = .next t → LogOk t.log ∧ LiveOk t

/-- Every step keeps the key table in its ranges (R18, R21, R32, R33, Table 2-2: 144 entries, the settings in range,
the decay counter below 255, filter counts 0-7, no score above the limit) and the rollover limit (R28: at most 16 entries are
DOWN with forward and not orphaned), and the lighting controller in its ranges (R167, R169, R173, R175), in which every
target duty is 0-1000 (R172). -/
def Obligations.StepKeepsTheKeyTable : Prop :=
  ∀ s t : State, step s = .next t →
    (KeysOk s.keys → KeysOk t.keys) ∧ (HeldOk s → HeldOk t) ∧
    (LightOk s.light → LightOk t.light ∧ t.panelTarget ≤ 1000 ∧ t.keysTarget ≤ 1000 ∧ t.legendTarget ≤ 1000)

/-- Every step keeps what a lost link must not leave behind (R29, R85, R183): while the link is DOWN no entry is the
tablet's and no chord is in attention, and a vector is held in LOW_POWER only. -/
def Obligations.StepKeepsNothingForTheTabletWhileDown : Prop :=
  ∀ s t : State, KeysOk s.keys → OrphanOk s → AttentionOk s → VectorOk s → step s = .next t →
    KeysOk t.keys ∧ OrphanOk t ∧ AttentionOk t ∧ VectorOk t

/-- Every step keeps the lockout flag at what source, motion state and policy give (R140), and the shown set at what link,
lockout and layer give (R158). What they give: no lockout without a vehicle source, else lockout in MOVING and, unless the
policy takes it as parked, in UNKNOWN; UNDOCKED with the link DOWN, else MOTION under lockout, else FN while a layer key is
held, which is an entry DOWN with code FN and local (R44), else BASE. -/
def Obligations.StepKeepsLockoutFlagAndShownSet : Prop :=
  (∀ s t : State, MotionOk s → ShownOk s → step s = .next t → MotionOk t ∧ ShownOk t) ∧
  ∀ s : State,
    let flag : Bool := s.motion.settings.vehicle &&
      match s.motion.state with | .moving => true | .unknown => !s.motion.settings.asParked | .parked => false
    let layerKey : Prop := ∃ e ∈ s.keys.entries, ∃ l, e.cond = .down l ∧ l.code = 496 ∧ l.route.dock = true
    (MotionOk s ↔ s.motion.lockout = flag) ∧
    (s.link = .down → shownSetOf s = .undocked) ∧
    (s.link ≠ .down → s.motion.lockout = true → shownSetOf s = .motion) ∧
    (s.link ≠ .down → s.motion.lockout = false → layerKey → shownSetOf s = .fn) ∧
    (s.link ≠ .down → s.motion.lockout = false → ¬layerKey → shownSetOf s = .base)

/-- Every step keeps the latch safe (R143, R146, R147, R151): the latch is never ASKED, nor RELEASING with the solenoid
energized, under motion lockout or during a cooldown, and a press is held only in LATCHED while the cooldown runs. -/
def Obligations.StepKeepsLatchSafe : Prop :=
  ∀ s t : State, ResetOk s → LatchOk s → step s = .next t →
    ResetOk t ∧ LatchOk t ∧ (t.solenoid = true → t.motion.lockout = false)

/-- Every step keeps WAKE and its hold timer to where wake applies (R90 to R93), and a repeat to a held entry that the
tablet has not lost (R86, R87, R89). -/
def Obligations.StepKeepsWakeAndRepeat : Prop :=
  ∀ s t : State, ResetOk s → KeysOk s.keys → WakeOk s → RepeatOk s → step s = .next t →
    ResetOk t ∧ KeysOk t.keys ∧ WakeOk t ∧ RepeatOk t

/-- Every step keeps power reset total (R179): while the part is held in it every block is at its reset values. With it,
every step keeps the scanner's rules (R4, R7, R11, R14, R15): the frame timer runs exactly in SCANNING, a pass and a pending
change exist in SCANNING only, and the scanner is HELD exactly during a dip; and the last cell taken stays one of the 8
(R186). -/
def Obligations.StepKeepsScannerAndPowerReset : Prop :=
  ∀ s t : State, ResetOk s → step s = .next t →
    ResetOk t ∧ (ScanOk s → ScanOk t) ∧ (PointerOk s → PointerOk t)

/-! ### Interrupt, status block, window -/

/-- Raising a cause (R183), LOG being bit 0 of INT_MASK and INT_PENDING, REQUEST bit 1 and STATUS bit 2 (R182): a cause
already pending changes nothing; otherwise its bit is set, and where its mask bit is 1 the vector is sent in ACTIVE, held in
LOW_POWER and dropped in DOWN. The counter of sent vectors is the model's (log entry 18). -/
def Obligations.RaisingACause : Prop :=
  Cause.log.bit = 0 ∧ Cause.request.bit = 1 ∧ Cause.status.bit = 2 ∧
  (∀ (c : Cause) (k : Nat), k < 3 → c.mask.getLsbD k = decide (k = c.bit)) ∧
  ∀ (c : Cause) (s : State),
    let set := s.irq.pending ||| c.mask
    (s.irq.pending.getLsbD c.bit = true → raiseCause c s = s) ∧
    (s.irq.pending.getLsbD c.bit = false → s.irq.mask.getLsbD c.bit = false ∨ s.link = .down →
      raiseCause c s = { s with irq := { s.irq with pending := set } }) ∧
    (s.irq.pending.getLsbD c.bit = false → s.irq.mask.getLsbD c.bit = true → s.link = .active →
      raiseCause c s = { s with irq := { s.irq with pending := set, sent := s.irq.sent + 1 } }) ∧
    (s.irq.pending.getLsbD c.bit = false → s.irq.mask.getLsbD c.bit = true → s.link = .lowPower →
      raiseCause c s = { s with irq := { s.irq with pending := set, held := true } })

/-- The change count rises by 1 at the end of an event that rewrote a status field and else stays (R184), and no command
leaves that end undone: between commands nothing is marked rewritten (log entry 15). A command that leaves another byte of
the status block than the change count different has made the count rise, once for each of its events that rewrote a field
(R184); a power reset, which zeroes the part, is left out. The release of power reset, whose first readings make up the
values of the block after a power reset, leaves the count as it is, 0 (R184; log entry 16). -/
def Obligations.ChangeCountRisesAtTheEventEnd : Prop :=
  (∀ s : State, s.statusDirty = true → endEvent s = { s with statusDirty := false, changeCount := s.changeCount + 1 }) ∧
  (∀ s : State, s.statusDirty = false → endEvent s = s) ∧
  (∀ (c : Instr) (s t : State), s.statusDirty = false → exec c s = .next t → t.statusDirty = false) ∧
  (∀ (present sense button : Bool) (ambient : BitVec 12) (s t : State), s.inReset = true →
    exec (.resetRelease present sense button ambient) s = .next t → t.changeCount = s.changeCount) ∧
  ∀ (c : Instr) (s t : State), s.inReset = false → s.statusDirty = false → exec c s = .next t →
    t ≠ { State.reset with pending := s.pending } → (∃ x, 8 ≤ x ∧ (statusBytes t).getD x 0 ≠ (statusBytes s).getD x 0) →
    ∃ n, 1 ≤ n ∧ n ≤ 4 ∧ t.changeCount = s.changeCount + BitVec.ofNat 32 n

/-- Write accesses to the four registers while the link is ACTIVE, by the bytes they cover (R182, R183; accesses at any
lane are log entry 7's choice). `b 0` is the byte at the lowest offset. INT_MASK stores bits 0 to 2 of its first byte and
sends the vector once if that turns the mask bit of a pending cause from 0 to 1 (log entry 17; the counter of sent vectors
is log entry 18's); INT_PENDING clears the causes that its first byte has 1 for; a write that covers NOTICE is one NOTICE
event; ID takes nothing. An access that runs on into the next register acts on the bytes it covers there, NOTICE first and
then byte by byte (log entry 8). -/
def Obligations.RegisterWrites : Prop :=
  ∀ (lane : BitVec 2) (a : Access) (s : State), s.inReset = false → s.link = .active →
    let b (i : Nat) : Option Byte := (accessBytes a)[i]?
    let masked (v : Byte) (u : State) : State :=
      { u with irq := { u.irq with
          mask := v.setWidth 3
          sent := if v.setWidth 3 &&& ~~~u.irq.mask &&& u.irq.pending = 0 then u.irq.sent else u.irq.sent + 1 } }
    let cleared (v : Byte) (u : State) : State :=
      { u with irq := { u.irq with pending := u.irq.pending &&& ~~~v.setWidth 3 } }
    let onByte (f : Byte → State → State) (i : Nat) (u : State) : State :=
      match b i with
      | some v => f v u
      | none => u
    exec (.registerWriteDiscarded lane a) s = .next (endEvent (if 4 < lane.toNat + a.size then examine s else s)) ∧
    exec (.noticeWrite lane a) s = .next (endEvent (onByte masked (4 - lane.toNat) (examine s))) ∧
    exec (.intMaskWrite lane a) s =
      .next (endEvent (if lane = 0 then onByte masked 0 s else onByte cleared (4 - lane.toNat) s)) ∧
    (lane.toNat + a.size ≤ 4 →
      exec (.intPendingWrite lane a) s = .next (endEvent (if lane = 0 then onByte cleared 0 s else s)))

/-- A write access in the other link states (R181). While DOWN none is carried, except that one which covers the owner
field of a page stores it there and raises no event (R108, R118; log entry 34): the four register rows change nothing, and
OWNER_MARK_WRITE, which carries any write access to the window (log entry 7), stores no other byte. One begun in LOW_POWER
first returns the link to ACTIVE, which releases WAKE (R93) and sends a held vector (R183; the counter of sent vectors is
log entry 18's), and is then carried. -/
def Obligations.WriteAccessesMeetTheLink : Prop :=
  ∀ (c : Instr) (s : State), isWrite c = true → c.wellFormed = true → s.inReset = false → s.statusDirty = false →
    (s.link = .down → (∀ off a, c ≠ .ownerMarkWrite off a) → exec c s = .next s) ∧
    (s.link = .down → ∀ off a, c = .ownerMarkWrite off a → ∃ m, exec c s = .next { s with mem := m } ∧
      ∀ x, m.read x =
        if off.toNat ≤ x ∧ x < off.toNat + a.size ∧ (∃ i, i < 16 ∧ x = 0x0800 + 0x200 * i) ∧
            ¬ ∃ p, s.log.page = some p ∧ x = pageBase p.index
        then (accessBytes a).getD (x - off.toNat) 0 else s.mem.read x) ∧
    (s.link = .lowPower →
      exec c s = exec c
        { s with
          link := .active
          wake := { s.wake with timer := none, line := none }
          irq := if s.irq.held then { s.irq with held := false, sent := s.irq.sent + 1 } else s.irq })

/-- A write access to any window offset, carried by OWNER_MARK_WRITE (log entry 7, the model's choice of row), while the
link is ACTIVE (R180, R100, R108). Each byte in a stored region is stored, except the owner field of the open page. An
access that covers the owner field of the waiting page returns that page where the byte is PART, after all bytes of the
access have been stored (log entry 8, the model's choice: R180 does not give this order), and otherwise, as every other
access below FFF4h, it changes nothing else of the part. One that begins in the registers acts as the row of the register it
begins in. -/
def Obligations.WriteAccessesAreStored : Prop :=
  ∀ (off : BitVec 16) (a : Access) (s : State), s.inReset = false → s.link = .active → s.statusDirty = false →
    let covers (x : Nat) : Prop := off.toNat ≤ x ∧ x < off.toNat + a.size
    let byteAt (x : Nat) : Byte := (accessBytes a).getD (x - off.toNat) 0
    (off.toNat + a.size ≤ 0xFFF4 → ∃ m,
      (∀ x, m.read x =
        if covers x ∧ ((0x0100 ≤ x ∧ x < 0x0500) ∨ (0x0800 ≤ x ∧ x < 0x2800) ∨ (0x4000 ≤ x ∧ x < 0xC000)) ∧
            ¬ ∃ p, s.log.page = some p ∧ x = pageBase p.index
        then byteAt x else s.mem.read x) ∧
      ((∀ i, s.log.waiting = some i → covers (pageBase i) → byteAt (pageBase i) ≠ 1) →
        exec (.ownerMarkWrite off a) s = .next { s with mem := m }) ∧
      ∀ i, s.log.waiting = some i → covers (pageBase i) → byteAt (pageBase i) = 1 →
        exec (.ownerMarkWrite off a) s = .next (endEvent (pageReturned i { s with mem := m }))) ∧
    ∀ lane : BitVec 2,
      (off.toNat = 0xFFF0 + lane.toNat → exec (.ownerMarkWrite off a) s = exec (.registerWriteDiscarded lane a) s) ∧
      (off.toNat = 0xFFF4 + lane.toNat → exec (.ownerMarkWrite off a) s = exec (.noticeWrite lane a) s) ∧
      (off.toNat = 0xFFF8 + lane.toNat → exec (.ownerMarkWrite off a) s = exec (.intMaskWrite lane a) s) ∧
      (off.toNat = 0xFFFC + lane.toNat → exec (.ownerMarkWrite off a) s = exec (.intPendingWrite lane a) s)

/-- The tablet returns the waiting page (R108). Another value than PART is stored and changes nothing else. With the value
PART the page opens as R107 says (with the bytes of its header that 11.6.3 does not name written 0, log entry 35), and the
queue drains: its records are placed in their order, each as WhereARecordGoes says, `n` of them, until none is left or no
page is open; the rest stay queued. Where the part is in loss, the queue is empty and a page is open, the summary is written
as LossSummary says. -/
def Obligations.ReturnOfTheWaitingPage : Prop :=
  ∀ (i : Nat) (v : Byte) (s : State), i < 16 → s.inReset = false → s.link = .active → s.statusDirty = false →
    s.log.live = true → s.log.waiting = some i → s.log.page = none →
    let write : Instr := .ownerMarkWrite (BitVec.ofNat 16 (pageBase i)) (.byte v)
    let stored : State := { s with mem := s.mem.write (pageBase i) v }
    let queue := s.log.queue
    (v ≠ 1 → exec write s = .next stored) ∧
    (v = 1 → ∃ (m : Memory) (n : Nat),
      let opened : State :=
        { s with mem := m, log := { s.log with page := some { index := i, count := 0 }, waiting := none, queue := [] } }
      let placed (k : Nat) : State := (queue.take k).foldl (fun u r => append r u) opened
      let drained : State := { placed n with log := { (placed n).log with queue := queue.drop n } }
      let summed : Prop := s.log.inLoss = true ∧ n = queue.length ∧ (placed n).log.page.isSome = true
      (¬summed → exec write s = .next (endEvent drained)) ∧
      (summed → exec write s = .next (endEvent (writeSummary drained))) ∧
      n ≤ queue.length ∧ (∀ k, k < n → (placed k).log.page.isSome = true) ∧
      (n < queue.length → (placed n).log.page = none) ∧
      m.read (pageBase i) = 1 ∧ m.read (pageBase i + 1) = 0 ∧ m.read (pageBase i + 2) = 0 ∧
      m.readLe (pageBase i + 6) 2 = s.log.epoch.toNat ∧
      ∀ x, (unnamedByte (pageBase i) x → m.read x = 0) ∧
        (x < pageBase i ∨ pageBase i + 16 ≤ x ∨ x = pageBase i + 4 ∨ x = pageBase i + 5 → m.read x = s.mem.read x))

/-- A tablet read access (R181; it is an operation without a row of the table, log entry 29). In ACTIVE it returns the bytes
it covers and changes nothing; begun in LOW_POWER it first returns the link to ACTIVE, which releases WAKE and sends a held
vector; while DOWN, in power reset (log entry 5) or past FFFFh (log entry 9) none is carried. R180 carries 1, 2 and 4
bytes; that another size `n` is read in the same way is the model's choice (log entry 29). What each byte of the window
reads as (R180, R182), and the status block (11.6.1), whose bytes are worked out from the state (log entry 15): 256 bytes,
each field at its offset. -/
def Obligations.TabletReads : Prop :=
  (∀ (a n : Nat) (s : State),
     let window (u : State) : List Byte := (List.range n).map fun i => u.windowByte (a + i)
     let roused : State :=
       { s with
         link := .active
         wake := { s.wake with timer := none, line := none }
         irq := if s.irq.held then { s.irq with held := false, sent := s.irq.sent + 1 } else s.irq }
     (s.inReset = true ∨ s.link = .down ∨ 65536 < a + n → s.tabletRead a n = (none, s)) ∧
     (s.inReset = false → a + n ≤ 65536 → s.link = .active → s.tabletRead a n = (some (window s), endEvent s)) ∧
     (s.inReset = false → a + n ≤ 65536 → s.link = .lowPower →
       s.tabletRead a n = (some (window roused), endEvent roused))) ∧
  (∀ (x : Nat) (s : State),
     (x < 0x0100 → s.windowByte x = (statusBytes s).getD x 0) ∧
     ((0x0100 ≤ x ∧ x < 0x0500) ∨ (0x0800 ≤ x ∧ x < 0x2800) ∨ (0x4000 ≤ x ∧ x < 0xC000) → s.windowByte x = s.mem.read x) ∧
     ((0x0500 ≤ x ∧ x < 0x0800) ∨ (0x2800 ≤ x ∧ x < 0x4000) ∨ (0xC000 ≤ x ∧ x < 0xFFF0) → s.windowByte x = 0) ∧
     s.windowByte 0xFFF0 = 0x64 ∧ s.windowByte 0xFFF1 = 0x02 ∧ s.windowByte 0xFFF2 = 0x01 ∧ s.windowByte 0xFFF3 = 0 ∧
     (0xFFF4 ≤ x ∧ x < 0xFFF8 → s.windowByte x = 0) ∧
     s.windowByte 0xFFF8 = s.irq.mask.setWidth 8 ∧ (0xFFF9 ≤ x ∧ x < 0xFFFC → s.windowByte x = 0) ∧
     s.windowByte 0xFFFC = s.irq.pending.setWidth 8 ∧ (0xFFFD ≤ x ∧ x < 0x10000 → s.windowByte x = 0)) ∧
  ∀ s : State,
    let f := fieldAt (statusBytes s)
    (statusBytes s).length = 256 ∧ f 0x00 4 = 0x00010264 ∧ f 0x04 4 = s.changeCount.toNat ∧ f 0x08 2 = s.log.epoch.toNat ∧
    f 0x0A 1 = boolBit s.log.live ∧ f 0x0B 1 = boolBit s.log.inLoss ∧
    f 0x0C 1 = (match s.motion.state with | .unknown => 0 | .parked => 1 | .moving => 2) ∧
    f 0x0D 1 = boolBit s.motion.lockout ∧
    f 0x0E 1 = (match s.latch.state with | .empty => 0 | .unseated => 1 | .latched => 2 | .asked _ => 3 | .releasing _ => 4) ∧
    f 0x0F 1 = boolBit s.chords.attention.isSome ∧
    f 0x10 1 = (match s.chords.attention with | some x => x.chord % 256 | none => 0) ∧
    f 0x11 1 = boolBit s.supply.dip ∧ f 0x12 1 = boolBit s.steer.lock ∧
    f 0x13 1 = boolBit (!s.legend.online) ∧ f 0x14 2 = s.keys.quarantinedCount % 65536 ∧
    f 0x16 2 = s.scan.skipped % 65536 ∧ f 0x18 2 = s.steer.lockoutWithheld % 65536 ∧
    f 0x1A 2 = s.steer.rolloverWithheld % 65536 ∧ f 0x1C 2 = s.steer.discarded % 65536 ∧ f 0x1E 1 = boolBit s.light.night ∧
    f 0x20 1 = s.light.panel.step % 256 ∧ f 0x21 1 = s.light.keys.step % 256 ∧ f 0x22 1 = s.light.legend.step % 256 ∧
    f 0x24 2 = s.light.panel.output % 65536 ∧ f 0x26 2 = s.light.keys.output % 65536 ∧
    f 0x28 2 = s.light.legend.output % 65536 ∧ f 0x2A 2 = s.light.average % 65536 ∧
    (∀ e, e < 6 →
      (∀ g : Signal, s.bus.signals[e]? = some g → f (0x30 + 4 * e) 2 = g.val.value % 65536 ∧
        f (0x32 + 4 * e) 1 = (match g.val.status with | .never => 0 | .fresh => 1 | .stale => 2)) ∧
      (s.bus.signals.length ≤ e → f (0x30 + 4 * e) 4 = 0)) ∧
    ∀ x, x = 0x1F ∨ x = 0x23 ∨ (0x2C ≤ x ∧ x < 0x30) ∨ (∃ e, e < 6 ∧ x = 0x33 + 4 * e) ∨ (0x48 ≤ x ∧ x < 0x100) →
      (statusBytes s).getD x 0 = 0

/-- Fields are little-endian (R191): a number written as `n` bytes reads back modulo 256^n, and byte `k` of it holds its
bits 8k to 8k + 7. A record's 16 bytes (11.6.3): kind, cause or flag, index, time stamp and payload, each at its offset,
in every kind; a byte of the payload that the kind does not name is 0. -/
def Obligations.LittleEndianFields : Prop :=
  (∀ (m : Memory) (off n v : Nat),
     (m.writeBytes off (leBytes n v)).readLe off n = v % 256 ^ n ∧
     ∀ k, k < n → (m.writeBytes off (leBytes n v)).read (off + k) = BitVec.ofNat 8 (v / 256 ^ k)) ∧
  ∀ (t : Time) (body : RecordBody),
    let b := ({ time := t, body := body } : Record).bytes
    let f := fieldAt b
    b.length = 16 ∧ f 4 4 = t.toNat ∧
    (∀ p c layer, body = .keyPress p c layer → p < 144 → c < 512 →
      f 0 1 = 1 ∧ f 1 1 = (if layer = .fn then 1 else 0) ∧ f 2 2 = p ∧ f 8 2 = c ∧ f 10 6 = 0) ∧
    (∀ p c cause, body = .keyRelease p c cause → p < 144 → c < 512 → f 0 1 = 2 ∧ f 2 2 = p ∧ f 8 2 = c ∧ f 10 6 = 0 ∧
      f 1 1 = (match cause with | .normal => 0 | .lockout => 1 | .quarantine => 2 | .masked => 3 | .reset => 4)) ∧
    (∀ p c n, body = .keyRepeat p c n → p < 144 → c < 512 → n < 65536 → f 0 1 = 3 ∧ f 1 1 = 0 ∧ f 2 2 = p ∧ f 8 2 = c ∧
      f 10 2 = n ∧ f 12 4 = 0) ∧
    (∀ k, body = .attentionBegin k → k < 4 → f 0 1 = 4 ∧ f 1 1 = 0 ∧ f 2 2 = k ∧ f 8 8 = 0) ∧
    (∀ k cause, body = .attentionEnd k cause → k < 4 → f 0 1 = 4 ∧ f 2 2 = k ∧ f 8 8 = 0 ∧
      f 1 1 = (match cause with | .ack => 1 | .timeout => 2 | .reset => 3)) ∧
    (∀ p score, body = .keyFault p score → p < 144 → score < 256 → f 0 1 = 5 ∧ f 1 1 = 0 ∧ f 2 2 = p ∧ f 8 1 = score ∧
      f 9 7 = 0) ∧
    (∀ e fresh role v, body = .signal e fresh role v → e < 6 → v < 65536 → f 0 1 = 6 ∧ f 1 1 = (if fresh then 0 else 1) ∧
      f 2 2 = e ∧ f 9 1 = 0 ∧ f 10 2 = v ∧ f 12 4 = 0 ∧
      f 8 1 = (match role with | .speed => 0 | .park => 1 | .ignition => 2 | .headlamp => 3 | .aux => 4)) ∧
    (∀ state lockout n, body = .motion state lockout n → n < 65536 → f 0 1 = 7 ∧ f 1 1 = boolBit lockout ∧ f 2 2 = 0 ∧
      f 8 1 = (match state with | .unknown => 0 | .parked => 1 | .moving => 2) ∧ f 9 1 = 0 ∧ f 10 2 = n ∧ f 12 4 = 0) ∧
    (∀ cause state, body = .latch cause state → f 0 1 = 8 ∧ f 2 2 = 0 ∧ f 9 7 = 0 ∧
      f 1 1 = (match cause with
        | .button => 0 | .key => 1 | .request => 2 | .grant => 3 | .defer => 4 | .timeout => 5 | .motion => 6 | .taken => 7
        | .notTaken => 8 | .forced => 9 | .seated => 10 | .refusedMotion => 11) ∧
      f 8 1 = (match state with | .empty => 0 | .unseated => 1 | .latched => 2 | .asked => 3 | .releasing => 4)) ∧
    (∀ ended low d, body = .supply ended low d → low < 65536 → f 0 1 = 9 ∧ f 1 1 = boolBit ended ∧ f 2 2 = 0 ∧
      f 8 2 = low ∧ f 10 2 = 0 ∧ f 12 4 = d.toNat) ∧
    (∀ c result, body = .dockLocal c result → c < 512 → result < 256 → f 0 1 = 10 ∧ f 1 1 = 0 ∧ f 2 2 = c ∧ f 8 1 = result ∧
      f 9 7 = 0) ∧
    (∀ epoch lock n, body = .docked epoch lock n → n < 65536 → f 0 1 = 11 ∧ f 1 1 = boolBit lock ∧ f 2 2 = epoch.toNat ∧
      f 8 2 = n ∧ f 10 6 = 0) ∧
    (∀ n, body = .overflow n → n < 65536 → f 0 1 = 12 ∧ f 1 1 = 0 ∧ f 2 2 = 0 ∧ f 8 2 = n ∧ f 10 6 = 0) ∧
    (∀ codes more, body = .resync codes more → codes.length ≤ 5 → (∀ c ∈ codes, c < 512) →
      let c (k : Nat) : Nat := codes.getD k 0
      f 0 1 = 13 ∧ f 1 1 = boolBit more ∧ f 2 2 = codes.length ∧
      f 8 8 = c 0 + 512 * c 1 + 512 ^ 2 * c 2 + 512 ^ 3 * c 3 + 512 ^ 4 * c 4)

/-! ### The request unit -/

/-- Completion (R187, R189): an unmarked request's cell gets the result code, by its number in the table of R187, 4 result
words and DONE, and nothing else of memory changes but the status byte of a cell that the examination takes; REQUEST is
raised exactly for the notify flag. A marked request writes nothing. Then the cells are examined with nothing in execution.
-/
def Obligations.CompletionWritesTheCell : Prop :=
  ([ResultCode.ok, .okClamped, .errKind, .errCount, .errParam, .errTable, .errLocked, .errState, .errMotion, .errBusy,
    .errRange].map ResultCode.number = [0, 1, 2, 3, 4, 5, 6, 7, 8, 9, 10]) ∧
  ∀ (q : Request) (r : Reply) (s : State), s.req.pointer < 8 →
    let base := 0x0100 + 0x80 * s.req.pointer
    (q.mark = true → complete q r s = examine { s with req := { s.req with current := none } }) ∧
    (q.mark = false → ∃ m,
      complete q r s =
        examine
          (let u := if q.notify then raiseCause .request { s with mem := m } else { s with mem := m }
           { u with req := { s.req with current := none } }) ∧
      m.read base = 3 ∧ m.readLe (base + 8) 2 = r.code.number ∧
      (∀ i, i < 4 → m.readLe (base + 0x40 + 4 * i) 4 = r.words.getD i 0 % 2 ^ 32) ∧
      ∀ x, x ≠ base → ¬(base + 8 ≤ x ∧ x < base + 10) → ¬(base + 0x40 ≤ x ∧ x < base + 0x50) → m.read x = s.mem.read x)

/-- An examination of the cells (R186): nothing while a request is in execution or the link is DOWN; otherwise the first
POSTED cell after the last one taken, round through all 8, is taken: BUSY, the copies, the pointer. So no posted cell waits
for more than seven others. -/
def Obligations.ExaminationTakesTheNextPostedCell : Prop :=
  ∀ s : State,
    let cell (k : Nat) : Nat := 0x0100 + 0x80 * ((s.req.pointer + 1 + k) % 8)
    let posted (k : Nat) : Prop := s.mem.read (cell k) = 1
    (s.req.current.isSome = true ∨ s.link = .down → examine s = s) ∧
    ((∀ k, k < 8 → ¬posted k) → examine s = s) ∧
    ∀ k, k < 8 → s.req.current = none → s.link ≠ .down → posted k → (∀ j, j < k → ¬posted j) →
      examine s =
        { s with
          mem := s.mem.write (cell k) 2
          req := { s.req with
            pointer := (s.req.pointer + 1 + k) % 8
            current := some
              { kind := s.mem.readLe (cell k + 2) 2
                count := (s.mem.read (cell k + 4)).toNat
                params := (List.range (min (s.mem.read (cell k + 4)).toNat 12)).map fun i =>
                  BitVec.ofNat 32 (s.mem.readLe (cell k + 0x10 + 4 * i) 4)
                notify := s.mem.read (cell k + 1) != 0
                mark := false } } }

/-- The sweep (R186; it expires at or past its set time and restarts from that time, log entry 3); NOP and an unknown kind
(R187); a count other than the catalogue's completes ERR_COUNT and nothing else changes (R187). A request command finds
nothing to do where a request of another kind, or none, is in execution (log entry 20). -/
def Obligations.RequestsWithoutAnOwner : Prop :=
  (∀ (s : State) (q : Request) (e : Time), s.inReset = false →
     (s.req.sweep = some e → due e s.ms = true →
       exec .sweepTimerExpiry s = .next (endEvent (examine { s with req := { s.req with sweep := some (e + 20) } }))) ∧
     (InExecution s q 0 0 → exec .nop s = .next (answered q .ok [] s)) ∧
     (s.req.current = some q → 27 < q.kind → exec .unknownKind s = .next (answered q .errKind [] s))) ∧
  ∀ (c : Instr) (k n : Nat) (s : State) (q : Request), catalogue c = some (k, n) → s.inReset = false →
    (s.req.current = some q → q.kind = k → q.count ≠ n → exec c s = .next (answered q .errCount [] s)) ∧
    (s.req.current = some q → q.kind ≠ k → exec c s = .next (endEvent s)) ∧
    (s.req.current = none → exec c s = .next (endEvent s))

/-! ### Requests: the key path -/

/-- SET_ATTENTION (R84): 1 to 60 seconds, clamped; a running attention keeps its expiry; the next attention to begin runs
for the timeout then in force, whatever the policy lock. -/
def Obligations.SetAttentionRule : Prop :=
  (∀ (s : State) (q : Request), InExecution s q 10 1 →
    let v := param q.params 1
    let taken := if v < 1 then 1 else if 60 < v then 60 else v
    exec .setAttention s =
      .next (answered q (okUnless (taken ≠ v)) [] { s with chords := { s.chords with timeout := taken } })) ∧
  ∀ (chord : Nat) (s : State),
    (beginAttention chord s).chords.attention =
      some { chord := chord, started := s.ms, expiry := s.ms + BitVec.ofNat 32 (1000 * s.chords.timeout) }

/-- The requests that set times. SET_WAKE 50-2000 ms (R90), SET_LOG 1-50 ms (R106) and SET_LATCH 1-30 s and 1-10 s (R153)
clamp and store, and nothing else changes: running timers keep their expiries. SET_REPEAT (R86, R89): an enable above 1 is
refused; delay 250-1000 and period 33-500 are clamped; an enable of 0 stops a running repeat, and otherwise it keeps its
expiry. -/
def Obligations.SettingsOfTimers : Prop :=
  (∀ (s : State) (q : Request),
     let p (i : Nat) := param q.params i
     let within (low high v : Nat) : Nat := if v < low then low else if high < v then high else v
     (InExecution s q 12 1 →
       exec .setWake s = .next (answered q (okUnless (within 50 2000 (p 1) ≠ p 1)) []
         { s with wake := { s.wake with hold := within 50 2000 (p 1) } })) ∧
     (InExecution s q 14 1 →
       exec .setLog s = .next (answered q (okUnless (within 1 50 (p 1) ≠ p 1)) []
         { s with log := { s.log with flushDelay := within 1 50 (p 1) } })) ∧
     (InExecution s q 21 2 →
       exec .setLatch s = .next (answered q (okUnless (within 1 30 (p 1) ≠ p 1 ∨ within 1 10 (p 2) ≠ p 2)) []
         { s with latch := { s.latch with askTimeout := within 1 30 (p 1), window := within 1 10 (p 2) } }))) ∧
  ∀ (s : State) (q : Request), InExecution s q 11 3 →
    let p (i : Nat) := param q.params i
    let delay := max 250 (min 1000 (p 2))
    let period := max 33 (min 500 (p 3))
    let code := okUnless (delay ≠ p 2 ∨ period ≠ p 3)
    (1 < p 1 → exec .setRepeat s = .next (answered q .errParam [] s)) ∧
    (p 1 = 1 → exec .setRepeat s =
      .next (answered q code [] { s with rep := { s.rep with enabled := true, delay := delay, period := period } })) ∧
    (p 1 = 0 → exec .setRepeat s =
      .next (answered q code []
        { s with rep := { enabled := false, delay := delay, period := period, running := none, count := 0 } }))

/-- SET_SCAN (R6, R7, R13): a mask with no bit or a bit above 17 is refused; the period is rounded down to 1, 2, 4 or 8
and the watch entry clamped to 1000; in SCANNING the change waits for the frame boundary, replacing another that waits, in
HELD it acts at once, and in WATCH it acts at once, a watch entry of 0 leaving WATCH with a frame start. A change that
takes effect (R9, R10): each DOWN entry on a line that it masks is released by force with cause MASKED, in ascending order
of position, and a repeat on it stops; every entry on such a line is left RELEASED with filter count 0, UP or still
QUARANTINED, its score kept, and every other entry as it was; a changed mask sets the idle run to 0; the settings are then
the new ones and nothing is pending; the other blocks are kept. -/
def Obligations.ScanChanges : Prop :=
  (∀ (s : State) (q : Request), InExecution s q 1 3 →
     let p (i : Nat) := param q.params i
     let period := if p 2 < 2 then 1 else if p 2 < 4 then 2 else if p 2 < 8 then 4 else 8
     let change : ScanSettings := { mask := BitVec.ofNat 18 (p 1), period := period, watchEntry := min (p 3) 1000 }
     let code := okUnless (period ≠ p 2 ∨ 1000 < p 3)
     (p 1 = 0 ∨ 2 ^ 18 ≤ p 1 → exec .setScan s = .next (answered q .errParam [] s)) ∧
     (0 < p 1 → p 1 < 2 ^ 18 →
       (s.scan.mode = .scanning →
         exec .setScan s = .next (answered q code [] { s with scan := { s.scan with change := some change } })) ∧
       (s.scan.mode = .held → exec .setScan s = .next (answered q code [] (applyChange change s))) ∧
       (s.scan.mode = .watch → 0 < p 3 → exec .setScan s = .next (answered q code [] (applyChange change s))) ∧
       (s.scan.mode = .watch → p 3 = 0 → exec .setScan s = .next (answered q code [] (frameStart (applyChange change s)))))) ∧
  ∀ (c : ScanSettings) (s : State), s.keys.entries.length = 144 →
    let t := applyChange c s
    let masks (p : Nat) : Bool := s.scan.settings.mask.getLsbD (p / 8) && !c.mask.getLsbD (p / 8)
    let released := forcedReleases .masked s.ms (fun p _ => masks p) s
    t.scan =
      { s.scan with
        settings := c, change := none, idleRun := if c.mask = s.scan.settings.mask then s.scan.idleRun else 0 } ∧
    (∀ p, p < 144 →
      t.entry p =
        if masks p then
          { cond := if (s.entry p).cond = .quarantined then .quarantined else .up
            pressed := false, filter := 0, score := (s.entry p).score }
        else s.entry p) ∧
    t.log = released.log ∧ t.mem = released.mem ∧ t.irq = released.irq ∧
    (∀ r l, s.rep.running = some r → r.position < 144 → masks r.position = true → (s.entry r.position).cond = .down l →
      t.rep = { s.rep with running := none, count := 0 }) ∧
    ((∀ r l, s.rep.running = some r → r.position < 144 → masks r.position = true → (s.entry r.position).cond ≠ .down l) →
      t.rep = s.rep) ∧
    t.ms = s.ms ∧ t.keymap = s.keymap ∧ t.steer = s.steer ∧ t.chords = s.chords ∧ t.wake = s.wake ∧ t.bus = s.bus ∧
    t.motion = s.motion ∧ t.latch = s.latch ∧ t.ind = s.ind ∧ t.light = s.light ∧ t.supply = s.supply ∧ t.link = s.link ∧
    t.req = s.req

/-- SET_FILTER (R37): the four settings clamped, filter counts kept, every score above the new limit brought down to it,
no condition changed. CLEAR_QUARANTINE (R38): the entry named, or all of them, becomes UP with score 0 and filter count 0 if
QUARANTINED, its physical state kept; result word 1 counts them, and the status block is marked rewritten whether or not any
was (log entry 15); another position than 0-143 and 255 is refused. -/
def Obligations.FilterAndQuarantineRequests : Prop :=
  (∀ (s : State) (q : Request), InExecution s q 2 4 →
     let p (i : Nat) := param q.params i
     let g : FilterSettings :=
       { press := max 1 (min 8 (p 1)), release := max 1 (min 8 (p 2)), limit := max 4 (min 30 (p 3))
         decay := max 8 (min 255 (p 4)) }
     exec .setFilter s = .next
       (answered q (okUnless (g.press ≠ p 1 ∨ g.release ≠ p 2 ∨ g.limit ≠ p 3 ∨ g.decay ≠ p 4)) []
         { s with keys := { s.keys with
             entries := s.keys.entries.map fun e => { e with score := min e.score g.limit }, settings := g } })) ∧
  ∀ (s : State) (q : Request), InExecution s q 3 1 → s.keys.entries.length = 144 →
    let p := param q.params 1
    let cleared (e : KeyEntry) : KeyEntry :=
      if e.cond = .quarantined then { cond := .up, pressed := e.pressed, filter := 0, score := 0 } else e
    (p < 144 → exec .clearQuarantine s = .next
      (answered q .ok [if (s.entry p).cond = .quarantined then 1 else 0]
        { s with
          keys := { s.keys with entries := s.keys.entries.set p (cleared (s.entry p)) }
          statusDirty := true })) ∧
    (p = 255 → exec .clearQuarantine s = .next
      (answered q .ok [s.keys.quarantinedCount]
        { s with keys := { s.keys with entries := s.keys.entries.map cleared }, statusDirty := true })) ∧
    (144 ≤ p → p ≠ 255 → exec .clearQuarantine s = .next (answered q .errParam [] s))

/-- RESET_KEYPATH (R39, R16, R85, R89): each DOWN entry is released by force with cause RESET, in ascending order of
position; an attention ends with its ATTENTION END record of cause RESET and STATUS; a repeat stops; every entry becomes
UP with filter count and score 0 and its physical state kept, so none is held forward or quarantined; the scanner makes a
frame start unless it is HELD, a change that waits in SCANNING taking effect first, which leaves the positions that it
masks RELEASED (R9); settings, maps, tables and the other blocks are kept. The status block is marked rewritten although no
value of it may change (log entry 15). -/
def Obligations.ResetKeypathRule : Prop :=
  ∀ (s : State) (q : Request), InExecution s q 4 0 → s.keys.entries.length = 144 →
    let released := forcedReleases .reset s.ms (fun _ _ => true) s
    let ended : State :=
      match s.chords.attention with
      | some a => raiseCause .status (append { time := s.ms, body := .attentionEnd a.chord .reset } released)
      | none => released
    let settings : ScanSettings :=
      match s.scan.mode, s.scan.change with
      | .scanning, some c => c
      | _, _ => s.scan.settings
    let masked (p : Nat) : Bool := s.scan.settings.mask.getLsbD (p / 8) && !settings.mask.getLsbD (p / 8)
    ∃ u, exec .resetKeypath s = .next (answered q .ok [] u) ∧
      u.log = ended.log ∧ u.mem = ended.mem ∧ u.irq = ended.irq ∧ u.statusDirty = true ∧
      u.keys =
        { s.keys with
          entries := (List.range 144).map fun p =>
            { cond := .up, pressed := (s.entry p).pressed && !masked p, filter := 0, score := 0 }
          decayCounter := 0 } ∧
      u.chords = { s.chords with attention := none } ∧ u.rep = { s.rep with running := none, count := 0 } ∧
      u.keymap = s.keymap ∧ u.steer = s.steer ∧ u.wake = s.wake ∧ u.bus = s.bus ∧ u.motion = s.motion ∧
      u.latch = s.latch ∧ u.ind = s.ind ∧ u.light = s.light ∧ u.supply = s.supply ∧ u.link = s.link ∧ u.req = s.req ∧
      (s.scan.mode = .held → u.scan = s.scan) ∧
      (s.scan.mode ≠ .held → u.scan =
        { s.scan with
          settings := settings, change := if s.scan.mode = .scanning then none else s.scan.change
          mode := .scanning, pass := true, idleRun := 0, timer := some (s.ms + BitVec.ofNat 32 settings.period) })

/-- LOAD_KEYMAP (R50 to R52): layer, range and contents are checked in this order; a code above 511 refuses the whole
table with ERR_TABLE and says the lowest bad position, its value and how many are bad; otherwise the layer is replaced
whole and result word 1 counts the codes that are not NONE. Entries already latched keep their codes. -/
def Obligations.LoadKeymapRule : Prop :=
  ∀ (s : State) (q : Request), InExecution s q 5 2 →
    let layer := param q.params 1
    let off := param q.params 2
    let codes := (List.range 144).map fun i => s.mem.readLe (off + 2 * i) 2
    let bad := (List.range 144).filter fun i => 511 < codes.getD i 0
    (1 < layer → exec .loadKeymap s = .next (answered q .errParam [] s)) ∧
    (layer ≤ 1 → off < 0x4000 ∨ 0x8000 < off + 288 → exec .loadKeymap s = .next (answered q .errRange [] s)) ∧
    (layer ≤ 1 → 0x4000 ≤ off → off + 288 ≤ 0x8000 →
      (∀ i rest, bad = i :: rest →
        exec .loadKeymap s = .next (answered q .errTable [i, codes.getD i 0, bad.length] s)) ∧
      (bad = [] → exec .loadKeymap s = .next
        (answered q .ok [(codes.filter (· ≠ 0)).length]
          { s with keymap := if layer = 0 then { s.keymap with base := codes } else { s.keymap with fn := codes } })))

/-- LOAD_STEERING and LOCK_POLICY (R69 to R72): under the lock a load is refused; range and contents are checked; a value
above 7 or HOLD without forward refuses the whole table; otherwise it is replaced whole. LOCK_POLICY sets the lock and
completes OK again when it is set. No command clears the lock but a power reset, and under it none changes the steering
table, the motion settings, the bit rate or the signal descriptions. -/
def Obligations.LoadSteeringAndLockPolicy : Prop :=
  (∀ (s : State) (q : Request),
    let off := param q.params 1
    let values := (List.range 32).map fun i => (s.mem.read (off + i)).toNat
    let bad := (List.range 32).filter fun i => 7 < values.getD i 0 ∨ values.getD i 0 = 4 ∨ values.getD i 0 = 6
    let table : List Segment :=
      values.map fun v => { forward := v.testBit 0, dock := v.testBit 1, hold := v.testBit 2 }
    (InExecution s q 6 1 → s.steer.lock = true → exec .loadSteering s = .next (answered q .errLocked [] s)) ∧
    (InExecution s q 6 1 → s.steer.lock = false → off < 0x4000 ∨ 0x8000 < off + 32 →
      exec .loadSteering s = .next (answered q .errRange [] s)) ∧
    (InExecution s q 6 1 → s.steer.lock = false → 0x4000 ≤ off → off + 32 ≤ 0x8000 →
      (∀ i rest, bad = i :: rest →
        exec .loadSteering s = .next (answered q .errTable [i, values.getD i 0, bad.length] s)) ∧
      (bad = [] → exec .loadSteering s = .next
        (answered q .ok [(table.filter Segment.hold).length] { s with steer := { s.steer with table := table } }))) ∧
    (InExecution s q 7 0 → exec .lockPolicy s = .next (answered q .ok []
      (if s.steer.lock then s else { s with steer := { s.steer with lock := true }, statusDirty := true })))) ∧
  ∀ (c : Instr) (s t : State), s.steer.lock = true → exec c s = .next t →
    t = { State.reset with pending := s.pending } ∨
    (t.steer.lock = true ∧ t.steer.table = s.steer.table ∧ t.motion.settings = s.motion.settings ∧
      t.bus.rate = s.bus.rate ∧ t.bus.signals.map Signal.desc = s.bus.signals.map Signal.desc)

/-- ARM_CHORD (R78): index, attention, code count and codes are checked in this order; a count of 0 disarms; 2 to 4 codes
of 1-511, no two equal, are stored. -/
def Obligations.ArmChordRule : Prop :=
  ∀ (s : State) (q : Request), InExecution s q 8 6 →
    let p (i : Nat) := param q.params i
    let codes := ([p 3, p 4, p 5, p 6]).take (p 2)
    let busy : Prop := ∃ a, s.chords.attention = some a ∧ a.chord = p 1
    let good : Prop := (∀ c ∈ codes, 1 ≤ c ∧ c ≤ 511) ∧ codes.Nodup
    let stored (cs : List Nat) : State := { s with chords := { s.chords with entries := s.chords.entries.set (p 1) cs } }
    (3 < p 1 → exec .armChord s = .next (answered q .errParam [] s)) ∧
    (p 1 ≤ 3 → busy → exec .armChord s = .next (answered q .errState [] s)) ∧
    (p 1 ≤ 3 → ¬busy → p 2 = 0 → exec .armChord s = .next (answered q .ok [] (stored []))) ∧
    (p 1 ≤ 3 → ¬busy → p 2 = 1 ∨ 4 < p 2 → exec .armChord s = .next (answered q .errParam [] s)) ∧
    (p 1 ≤ 3 → ¬busy → 2 ≤ p 2 → p 2 ≤ 4 → good → exec .armChord s = .next (answered q .ok [] (stored codes))) ∧
    (p 1 ≤ 3 → ¬busy → 2 ≤ p 2 → p 2 ≤ 4 → ¬good → exec .armChord s = .next (answered q .errParam [] s))

/-- How attention ends (R82, R83): ACK_ATTENTION of the chord in attention ends it with cause ACK, of another or none
completes ERR_STATE; the attention timer's expiry, at or past its set time (log entry 3), ends it with cause TIMEOUT at the
expiry time. -/
def Obligations.AttentionEnds : Prop :=
  ∀ (s : State) (q : Request) (a : Attention), s.inReset = false →
    let ended (phase : EndCause) (t : Time) : State :=
      touchAndRaise (append { time := t, body := .attentionEnd a.chord phase }
        { s with chords := { s.chords with attention := none } })
    (InExecution s q 9 1 → s.chords.attention = some a → param q.params 1 = a.chord →
      exec .ackAttention s = .next (answered q .ok [] (ended .ack s.ms))) ∧
    (InExecution s q 9 1 → s.chords.attention = some a → param q.params 1 ≠ a.chord →
      exec .ackAttention s = .next (answered q .errState [] s)) ∧
    (InExecution s q 9 1 → s.chords.attention = none → exec .ackAttention s = .next (answered q .errState [] s)) ∧
    (s.chords.attention = some a → due a.expiry s.ms = true →
      exec .attentionTimerExpiry s = .next (endEvent (ended .timeout a.expiry)))

/-! ### Scanner, key table, steering, chords, repeat, wake -/

/-- The timers of the key path, each expiring at or past its set time (log entry 3). Frame timer (R4): in SCANNING each
expiry restarts it, begins a pass if none runs and otherwise is skipped and counted up to 65535; in WATCH and HELD it has no
expiries. A sense line leaves WATCH with a frame start (R5, R12). The chatter decay (R33), part of the event of the frame
that brings the counter to the setting: every score above 0 loses 1 and the counter becomes 0; CHATTER_DECAY is the boundary
of a running pass with such a frame, in which every sampled position reads as its physical state stands (the model's choice,
log entry 11), and on another frame it changes nothing. The wake-hold timer asserts WAKE for 2000 ms if its press is still
held and wake applies (R91, R92); the wake limit releases the line (R93). A repeat counts, restarts its interval and is
handed on by the latched route (R88, R62): with forward and not orphaned its KEY_REPEAT, and then, with local and a PANEL
code, the step and its LOCAL record. -/
def Obligations.TimersOfTheKeyPath : Prop :=
  ∀ (s : State) (e : Time), s.inReset = false →
    let restarted : Scanner := { s.scan with timer := some (e + BitVec.ofNat 32 s.scan.settings.period) }
    (s.scan.mode = .scanning → s.scan.timer = some e → due e s.ms = true →
      (s.scan.pass = false →
        exec .frameTimerExpiry s = .next (endEvent { s with scan := { restarted with pass := true } })) ∧
      (s.scan.pass = true → s.scan.skipped < 65535 →
        exec .frameTimerExpiry s = .next (endEvent
          { s with scan := { restarted with skipped := s.scan.skipped + 1 }, statusDirty := true })) ∧
      (s.scan.pass = true → s.scan.skipped = 65535 →
        exec .frameTimerExpiry s = .next (endEvent { s with scan := restarted }))) ∧
    (s.scan.mode ≠ .scanning → exec .frameTimerExpiry s = .next (endEvent s)) ∧
    (s.scan.mode = .watch → exec .senseLineActive s = .next (endEvent
      { s with scan := { s.scan with
          mode := .scanning, pass := true, idleRun := 0, timer := some (s.ms + BitVec.ofNat 32 s.scan.settings.period) } })) ∧
    (s.scan.mode ≠ .watch → exec .senseLineActive s = .next (endEvent s)) ∧
    (let decays : Prop := s.keys.settings.decay ≤ s.keys.decayCounter + 1
     let running : Prop := s.scan.mode = .scanning ∧ s.scan.pass = true
     (decays → countFrame s = { s with keys := { s.keys with
       entries := s.keys.entries.map fun k => { k with score := k.score - 1 }, decayCounter := 0 } }) ∧
     (¬decays → countFrame s = { s with keys := { s.keys with decayCounter := s.keys.decayCounter + 1 } }) ∧
     (running → decays → s.keys.entries.length = 144 → ∃ t, exec .chatterDecay s = .next t ∧
       t.keys.decayCounter = 0 ∧ ∀ p, p < 144 → (t.entry p).score = (s.entry p).score - 1) ∧
     (¬(running ∧ decays) → exec .chatterDecay s = .next (endEvent s))) ∧
    (∀ a, s.wake.timer = some a → due a.expiry s.ms = true →
      let held : Prop := ∃ l, (s.entry a.position).cond = .down l ∧ l.pressTime = a.pressTime
      let applies : Prop := s.latch.state ≠ .empty ∧ s.link ≠ .active
      (held ∧ applies → exec .wakeHoldExpiry s = .next (endEvent
        { s with wake := { s.wake with timer := none, line := some (a.expiry + 2000) } })) ∧
      (¬(held ∧ applies) → exec .wakeHoldExpiry s = .next (endEvent { s with wake := { s.wake with timer := none } }))) ∧
    (s.wake.line = some e → due e s.ms = true →
      exec .wakeLimitExpiry s = .next (endEvent { s with wake := { s.wake with line := none } })) ∧
    (∀ r l, s.rep.running = some r → due r.expiry s.ms = true → (s.entry r.position).cond = .down l →
      let n := min (s.rep.count + 1) 65535
      let counted : State :=
        { s with rep := { s.rep with
            running := some { r with delay := false, expiry := r.expiry + BitVec.ofNat 32 s.rep.period }, count := n } }
      let u : State :=
        if l.route.forward = true ∧ l.orphaned = false then
          append { time := r.expiry, body := .keyRepeat r.position l.code n } counted
        else counted
      let step := if l.code = 497 then min (s.light.panel.step + 1) 15 else s.light.panel.step - 1
      let lit : State :=
        if step = s.light.panel.step then u
        else { u with light := { s.light with panel := { s.light.panel with step := step } }, statusDirty := true }
      exec .repeatIntervalExpiry s = .next (endEvent
        (if l.route.dock = true ∧ (l.code = 497 ∨ l.code = 498) then
          append { time := r.expiry, body := .dockLocal l.code step } lit
        else u)))

/-- A frame boundary (R2, R3, R8, R10, R11, R33). Without a running pass in SCANNING there is none (log entry 1). The pass
visits the enabled lines in ascending order; while it runs the line of the slot under way is asserted alone (which slot that
is is timing, log entry 10), between passes and in HELD no line is, and in WATCH every enabled one. The frame is the 144
samples of the readings that the command carries (log entry 10), NOT_SAMPLED on a masked line. The positions are handled in
ascending order, each as OnePositionOfAFrame says; then the decay counter counts the frame, and where it reaches the setting
every score above 0 loses 1 and it becomes 0 (R20, R33). CHATTER_DECAY, where the next frame brings the counter there, is
the boundary whose readings are the physical states as they stand (the model's choice, log entry 11). Then the frame is
judged: it is idle where no position reads down and no key is down after the handling, and the idle run rises up to 1000 or
becomes 0; a pending scan change takes effect (ScanChanges); and where the idle run has reached a watch entry that is not 0
the scanner enters WATCH, or makes a frame start if a sense line is active already. Handling an idle frame before which no
key was down sets the filter counts on the enabled lines to 0 and changes nothing else. -/
def Obligations.FrameBoundaryRule : Prop :=
  (∀ (mask : BitVec 18) (s : State) (slot : Nat),
    (passSlots mask).Pairwise (· < ·) ∧ (∀ d, d ∈ passSlots mask ↔ d < 18 ∧ mask.getLsbD d = true) ∧
    (s.scan.mode = .scanning → s.scan.pass = true →
      ∀ d, (passSlots s.scan.settings.mask)[slot]? = some d →
        ∀ k, k < 18 → (s.assertedLines slot).getLsbD k = decide (k = d)) ∧
    (s.scan.mode = .scanning → s.scan.pass = false → s.assertedLines slot = 0) ∧
    (s.scan.mode = .watch → s.assertedLines slot = s.scan.settings.mask) ∧
    (s.scan.mode = .held → s.assertedLines slot = 0)) ∧
  ∀ (readings : List Byte) (active : Bool) (s : State), s.inReset = false →
    let running : Prop := s.scan.mode = .scanning ∧ s.scan.pass = true
    let sample (p : Nat) : Sample :=
      if s.scan.settings.mask.getLsbD (p / 8) then
        if (readings.getD (p / 8) 0).getLsbD (p % 8) then .downRead else .upRead
      else .notSampled
    let frame := (List.range 144).map sample
    let begun : State := { s with scan := { s.scan with pass := false } }
    let handled : State := (List.range 144).foldl (fun u p => framePosition frame p u) begun
    let quiet : Bool := !frame.contains .downRead && handled.keys.entries.all fun k => !k.pressed
    let n := handled.keys.decayCounter + 1
    let counted : KeyTable :=
      if n < handled.keys.settings.decay then { handled.keys with decayCounter := n }
      else { handled.keys with entries := handled.keys.entries.map fun k => { k with score := k.score - 1 }, decayCounter := 0 }
    let judged : State :=
      { handled with
        keys := counted
        scan := { s.scan with pass := false, idleRun := if quiet then min (s.scan.idleRun + 1) 1000 else 0 } }
    let u : State :=
      match s.scan.change with
      | some c => applyChange c judged
      | none => judged
    let entered : Scanner := { u.scan with mode := .watch, timer := none, idleRun := 0 }
    let restarted : Scanner :=
      { u.scan with
        mode := .scanning, pass := true, idleRun := 0, timer := some (u.ms + BitVec.ofNat 32 u.scan.settings.period) }
    (¬running → exec (.frameBoundary readings active) s = .next (endEvent s)) ∧
    (running → u.scan.settings.watchEntry = 0 ∨ u.scan.idleRun < u.scan.settings.watchEntry →
      exec (.frameBoundary readings active) s = .next (endEvent u)) ∧
    (running → 0 < u.scan.settings.watchEntry → u.scan.settings.watchEntry ≤ u.scan.idleRun →
      exec (.frameBoundary readings active) s =
        .next (endEvent { u with scan := if active then restarted else entered })) ∧
    (s.keys.settings.decay ≤ s.keys.decayCounter + 1 →
      (∀ p, p < 144 → (readings.getD (p / 8) 0).getLsbD (p % 8) = (s.entry p).pressed) →
      exec .chatterDecay s = exec (.frameBoundary readings false) s) ∧
    (Sample.downRead ∉ frame → (∀ k ∈ s.keys.entries, k.pressed = false) → s.keys.entries.length = 144 →
      quiet = true ∧
      handled =
        { begun with keys := { s.keys with
            entries := (List.range 144).map fun p =>
              if s.scan.settings.mask.getLsbD (p / 8) then { s.entry p with filter := 0 } else s.entry p } })

/-- The ghost check (R24): it fails exactly where another drive line and another sense line make three corners of a
rectangle that all read down in the frame. -/
def Obligations.GhostCheckRule : Prop :=
  ∀ (f : List Sample) (d k : Nat), d < 18 → k < 8 →
    (ghostPasses f (8 * d + k) = false ↔
      ∃ d' k', d' < 18 ∧ d' ≠ d ∧ k' < 8 ∧ k' ≠ k ∧
        f[8 * d + k']? = some .downRead ∧ f[8 * d' + k]? = some .downRead ∧ f[8 * d' + k']? = some .downRead)

/-- One position of a frame: the filter (R21), the conditions (R22, R23, R27), the press taken anew of an entry that is UP
or BLOCKED with its switch held (R23, R25) and the chatter score with the quarantine (R32, R34). `moved` is the entry
after an accepted transition. -/
def Obligations.OnePositionOfAFrame : Prop :=
  ∀ (f : List Sample) (p : Nat) (s : State), p < 144 → s.keys.entries.length = 144 →
    let e := s.entry p
    let t := framePosition f p s
    let needed := if e.pressed then s.keys.settings.release else s.keys.settings.press
    let limit := s.keys.settings.limit
    let agrees : Prop := f[p]? = some (if e.pressed then .downRead else .upRead)
    let differs : Prop := f[p]? = some (if e.pressed then .upRead else .downRead)
    let accepted : Prop := differs ∧ needed ≤ e.filter + 1
    let calm : Prop := accepted ∧ e.score + 1 < limit
    let moved : KeyEntry := { e with pressed := !e.pressed, filter := 0, score := min (e.score + 1) limit }
    let put (x : KeyEntry) : State := { s with keys := { s.keys with entries := s.keys.entries.set p x } }
    let logged (u : State) : Prop := t.log = u.log ∧ t.mem = u.mem
    let released (cause : ReleaseCause) : State :=
      match e.cond with
      | .down l =>
        if l.route.forward ∧ ¬l.orphaned then append { time := s.ms, body := .keyRelease p l.code cause } s else s
      | _ => s
    let quiet : RepeatTimer :=
      if s.rep.running.map (·.position) = some p then { s.rep with running := none, count := 0 } else s.rep
    OthersKept s t ∧ (f[p]? = some .notSampled → t = s) ∧
    (agrees → (e.pressed = false ∨ e.cond = .quarantined ∨ ∃ l, e.cond = .down l) → t = put { e with filter := 0 }) ∧
    (agrees → e.pressed = true → e.cond = .up ∨ e.cond = .blocked →
      t = if ghostPasses f p then acceptPress p (put { e with filter := 0 })
        else put { e with filter := 0, cond := .blocked }) ∧
    (differs → e.filter + 1 < needed → t = put { e with filter := e.filter + 1 }) ∧
    (accepted → e.cond = .quarantined → t = put moved) ∧
    (calm → e.cond = .up → e.pressed = true → t = put moved) ∧
    (calm → e.cond = .blocked → t = put { moved with cond := .up }) ∧
    (calm → e.cond = .up → e.pressed = false →
      t = if ghostPasses f p then acceptPress p (put moved) else put { moved with cond := .blocked }) ∧
    (calm → (∃ l, e.cond = .down l) →
      t.keys = (put { moved with cond := .up }).keys ∧ logged (released .normal) ∧ t.rep = quiet ∧ t.wake = s.wake ∧
      t.latch = s.latch ∧ t.steer = s.steer ∧ t.light = s.light ∧ t.chords = s.chords) ∧
    (accepted → limit ≤ e.score + 1 → e.cond ≠ .quarantined →
      t.keys = (put { moved with cond := .quarantined }).keys ∧
      logged (append { time := s.ms, body := .keyFault p limit } (released .quarantine)) ∧ t.statusDirty = true ∧
      t.rep = quiet ∧ t.wake = s.wake ∧ t.latch = s.latch ∧ t.steer = s.steer ∧ t.light = s.light ∧ t.chords = s.chords)

/-- The keymap lookup (R46) with the layer in force (R44), and the route of a press (R57) with the chord it completes
(R79). The segment of a code is the entry of the steering table at the code div 16 (R55), and the held-forward count is the
number of entries that are DOWN with forward and not orphaned (R28). -/
def Obligations.LookupAndRoute : Prop :=
  ∀ (s : State),
    let heldWith (P : Latched → Prop) : Prop := ∃ e ∈ s.keys.entries, ∃ l, e.cond = .down l ∧ P l
    (∀ c, c < 512 → s.steer.table.length = 32 → s.steer.table[c / 16]? = some (segmentOf s c)) ∧
    s.keys.heldForward = (s.keys.entries.countP fun e =>
      match e.cond with | .down l => l.route.forward && !l.orphaned | _ => false) ∧
    (∀ p, let base := s.keymap.base.getD p 0
      let fn := s.keymap.fn.getD p 0
      let layerFn : Prop := heldWith fun l => l.code = 496 ∧ l.route.dock = true
      (¬layerFn ∨ fn = 0 → lookup s p = (base, .base)) ∧ (layerFn → fn ≠ 0 → lookup s p = (fn, .fn))) ∧
    ∀ c : Nat,
      let g := segmentOf s c
      let codes (k : Nat) : List Nat := s.chords.entries.getD k []
      let completed (k : Nat) : Prop := c ∈ codes k ∧ ∀ d ∈ codes k, d ≠ c → heldWith fun l => l.code = d
      let swallowed : Route := { forward := false, dock := false, hold := false, chord := false }
      let routed (forward : Bool) (w : Withheld) : Prop :=
        routeOf s c =
          { route := { forward := forward, dock := g.dock, hold := g.hold, chord := false }, withheld := w, chord := none }
      let noChord : Prop := s.chords.attention = none ∧ (s.link = .down ∨ ∀ k, k < 4 → ¬completed k)
      let stopped : Prop := g.hold = true ∧ s.motion.lockout = true
      (s.chords.attention.isSome = true → routeOf s c = { route := swallowed, withheld := .none, chord := none }) ∧
      (s.chords.attention = none → s.link ≠ .down → ∀ k, k < 4 → completed k → (∀ j, j < k → ¬completed j) →
        routeOf s c = { route := { swallowed with chord := true }, withheld := .none, chord := some k }) ∧
      (noChord → c = 0 → routeOf s c = { route := swallowed, withheld := .none, chord := none }) ∧
      (noChord → c ≠ 0 → g.forward = false → routed false .none) ∧
      (noChord → c ≠ 0 → g.forward = true → stopped → routed false .lockout) ∧
      (noChord → c ≠ 0 → g.forward = true → ¬stopped → 16 ≤ s.keys.heldForward → routed false .rollover) ∧
      (noChord → c ≠ 0 → g.forward = true → ¬stopped → s.keys.heldForward < 16 → s.link = .down →
        routed false .undocked) ∧
      (noChord → c ≠ 0 → g.forward = true → ¬stopped → s.keys.heldForward < 16 → s.link ≠ .down → routed true .none)

/-- An accepted press (R26, R59), of any entry that is not DOWN: an UP one at its press and a BLOCKED one at a re-check that
passes (R25); from QUARANTINED the part accepts none. The entry is DOWN with the code, layer and route found and the time of
the frame, its physical state, filter count and score are kept, and no other entry changes. A press latched with forward,
FORWARD or BOTH, appends its KEY_PRESS. One latched with local, LOCAL or BOTH, then acts by its code and appends LOCAL with
the result (R60, R61). A press that completes a chord begins attention (R80). While repeat is enabled a press that is not
swallowed becomes the repeating position (R87). A press latched with forward, or withheld for a lost link, arms the
wake-hold timer where wake applies (R91); attention and entry into ASKED assert WAKE there (R92). A withheld press counts
(R64, R65). -/
def Obligations.PressIsLatched : Prop :=
  ∀ (p : Nat) (s : State), p < 144 → s.keys.entries.length = 144 → (∀ l, (s.entry p).cond ≠ .down l) →
    let found := lookup s p
    let o := routeOf s found.1
    let l : Latched := { code := found.1, layer := found.2, route := o.route, orphaned := false, pressTime := s.ms }
    let t := acceptPress p s
    let down : State := { s with keys := { s.keys with entries := s.keys.entries.set p { s.entry p with cond := .down l } } }
    let pressed : State :=
      if o.route.forward = true then append { time := s.ms, body := .keyPress p found.1 found.2 } down else down
    let expiry (ms : Nat) : Time := s.ms + BitVec.ofNat 32 ms
    let logged (u : State) : Prop := t.log = u.log ∧ t.mem = u.mem
    let localResult (u : State) (result : Nat) : Prop :=
      logged (append { time := s.ms, body := .dockLocal found.1 result } u)
    let acts (c : Nat) : Prop := o.route.dock = true ∧ found.1 = c
    let light := s.light
    let asks : Prop := acts 501 ∧ s.latch.state = .latched ∧ s.latch.cooldown = none ∧ s.motion.lockout = false
    let wakes : Prop := s.latch.state ≠ .empty ∧ s.link ≠ .active
    let qualifies : Prop := o.route.forward = true ∨ o.withheld = .undocked
    OthersKept s t ∧ t.keys = down.keys ∧
    (o.route.forward = true → o.route.dock = false → ShownOk s → s.link = .active → s.rep.enabled = false → t = pressed) ∧
    (o.route.dock = false → o.chord = none → logged pressed ∧ t.latch = s.latch ∧ t.light = light) ∧
    (o.route.forward = false → o.route.dock = false → o.chord = none → t.irq = s.irq) ∧
    (o.route.dock = true → found.1 < 497 ∨ 501 < found.1 → logged pressed ∧ t.light = light ∧ t.latch = s.latch) ∧
    (acts 497 ∨ acts 498 →
      let n := if found.1 = 497 then min (light.panel.step + 1) 15 else light.panel.step - 1
      t.light = { light with panel := { light.panel with step := n } } ∧ t.latch = s.latch ∧ localResult pressed n) ∧
    (acts 499 →
      let n := if light.keys.step < 5 then 5 else if light.keys.step < 10 then 10 else if light.keys.step < 15 then 15 else 0
      t.light = { light with keys := { light.keys with step := n } } ∧ t.latch = s.latch ∧ localResult pressed n) ∧
    (acts 500 →
      let m := match light.mode with | .auto => NightMode.night | .night => .day | .day => .auto
      t.light = { light with mode := m, night := nightState { light with mode := m } s.bus } ∧ t.latch = s.latch ∧
        localResult pressed (match m with | .auto => 0 | .night => 1 | .day => 2)) ∧
    (acts 501 → t.light = light ∧
      (s.latch.state ≠ .latched → t.latch = s.latch ∧
        localResult pressed
          (match s.latch.state with | .empty => 0 | .unseated => 1 | .latched => 2 | .asked _ => 3 | .releasing _ => 4)) ∧
      (s.latch.state = .latched →
        (∀ e, s.latch.cooldown = some e →
          t.latch = { s.latch with heldPress := some (s.latch.heldPress.getD .key) } ∧ localResult pressed 2) ∧
        (s.latch.cooldown = none → s.motion.lockout = true →
          t.latch = s.latch ∧ localResult (append { time := s.ms, body := .latch .refusedMotion .latched } pressed) 2) ∧
        (s.latch.cooldown = none → s.motion.lockout = false →
          t.latch = { s.latch with state := .asked (expiry (1000 * s.latch.askTimeout)) } ∧
          localResult (append { time := s.ms, body := .latch .key .asked } pressed) 3))) ∧
    (∀ k, o.chord = some k →
      t.chords.attention = some { chord := k, started := s.ms, expiry := expiry (1000 * s.chords.timeout) } ∧
      t.rep = { s.rep with running := none, count := 0 } ∧ logged (append { time := s.ms, body := .attentionBegin k } s) ∧
      t.irq.pending.getLsbD 2 = true) ∧
    (o.chord = none → t.chords = s.chords ∧
      t.rep =
        if s.rep.enabled = true ∧ (o.route.forward = true ∨ o.route.dock = true) then
          { s.rep with
            running := some { position := p, pressTime := s.ms, delay := true, expiry := expiry s.rep.delay }, count := 0 }
        else s.rep) ∧
    t.wake.hold = s.wake.hold ∧
    (qualifies ∧ wakes → t.wake.timer = some { position := p, pressTime := s.ms, expiry := expiry s.wake.hold }) ∧
    (¬(qualifies ∧ wakes) → t.wake.timer = s.wake.timer) ∧
    ((o.chord.isSome = true ∨ asks) ∧ wakes → t.wake.line = some (expiry 2000)) ∧
    (¬((o.chord.isSome = true ∨ asks) ∧ wakes) → t.wake.line = s.wake.line) ∧
    (t.steer = match o.withheld with
      | .none => s.steer
      | .lockout => { s.steer with lockoutWithheld := min (s.steer.lockoutWithheld + 1) 65535 }
      | .rollover => { s.steer with rolloverWithheld := min (s.steer.rolloverWithheld + 1) 65535 }
      | .undocked => { s.steer with discarded := min (s.steer.discarded + 1) 65535 })

/-! ### Event log and snapshot -/

/-- Where an appended record goes (R98, R99, R100, R111). DORMANT discards it. On an open page its 16 bytes are written at
the place numbered by the page's record count, the count rises, OVERFLOW marks the page, and the first record starts the
flush timer; the bytes of the header that 11.6.3 does not name are written 0 with the count (log entry 35), and no other
byte of memory changes; the 31st record and an urgent one hand the page over (R102, R104). With no page open it is queued
while there is no loss and room for it, and otherwise lost and counted. -/
def Obligations.WhereARecordGoes : Prop :=
  ∀ (r : Record) (s : State),
    let withLog (g : EventLog) : State := { s with log := g }
    let urgent : Prop := (∃ k, r.body = .attentionBegin k) ∨ ∃ c, r.body = .latch c .asked
    let isOverflow : Prop := ∃ n, r.body = .overflow n
    (s.log.live = false → append r s = s) ∧
    (s.log.live = true → s.log.page = none →
      (s.log.inLoss = false → s.log.queue.length < 32 → append r s = withLog { s.log with queue := s.log.queue ++ [r] }) ∧
      (s.log.inLoss = true → append r s = withLog { s.log with lost := min (s.log.lost + 1) 65535 }) ∧
      (s.log.inLoss = false → 32 ≤ s.log.queue.length →
        append r s =
          raiseCause .status { s with log := { s.log with inLoss := true, lost := 1 }, statusDirty := true })) ∧
    ∀ p, s.log.live = true → s.log.page = some p → p.index < 16 → p.count < 31 →
      ∃ m,
        let base := 0x0800 + 0x200 * p.index
        let place := base + 0x10 + 0x10 * p.count
        let placed : State :=
          { s with
            mem := m
            log := { s.log with
              page := some { index := p.index, count := p.count + 1 }
              flush := if p.count = 0 then some (s.ms + BitVec.ofNat 32 s.log.flushDelay) else s.log.flush } }
        (p.count = 30 ∨ urgent → append r s = handOver p.index placed) ∧
        (p.count < 30 → ¬urgent → append r s = placed) ∧
        (∀ k, k < 16 → m.read (place + k) = r.bytes.getD k 0) ∧
        m.read (base + 2) = BitVec.ofNat 8 (p.count + 1) ∧
        (isOverflow → m.read (base + 1) = 1) ∧ (¬isOverflow → m.read (base + 1) = s.mem.read (base + 1)) ∧
        ∀ x, (unnamedByte base x → m.read x = 0) ∧
          (x ≠ base + 1 → x ≠ base + 2 → ¬unnamedByte base x → (x < place ∨ place + 16 ≤ x) → m.read x = s.mem.read x)

/-- Handing a page over (R101, R107): sequence and owner TABLET are written, the flush timer is idle, LOG is raised, and the
next page of the ring opens with the current epoch if its owner reads PART, and is waited for if not. With these the bytes
of both headers that 11.6.3 does not name are written 0 (R191; log entry 35), and no other byte of memory changes. The flush
timer's expiry (R103; at or past its set time, log entry 3) and LOG_FLUSH (R105) hand over the open page; LOG_FLUSH
completes OK in every state, with result word 1 for a handover and 0 otherwise. -/
def Obligations.PageHandover : Prop :=
  (∀ (i : Nat) (s : State), i < 16 →
    let base (k : Nat) : Nat := 0x0800 + 0x200 * k
    let next := (i + 1) % 16
    let t := handOver i s
    let opens : Prop := s.mem.read (base next) = 1
    t.mem.readLe (base i + 4) 2 = s.log.nextSeq.toNat ∧ t.mem.read (base i) = 2 ∧ t.irq = (raiseCause .log s).irq ∧
    (opens →
      t.log = { s.log with
        nextSeq := s.log.nextSeq + 1, flush := none, page := some { index := next, count := 0 }, waiting := none } ∧
      t.mem.read (base next + 1) = 0 ∧ t.mem.read (base next + 2) = 0 ∧
      t.mem.readLe (base next + 6) 2 = s.log.epoch.toNat) ∧
    (¬opens →
      t.log = { s.log with nextSeq := s.log.nextSeq + 1, flush := none, page := none, waiting := some next }) ∧
    ∀ x, (unnamedByte (base i) x ∨ (opens ∧ unnamedByte (base next) x) → t.mem.read x = 0) ∧
      (x ≠ base i → x ≠ base i + 4 → x ≠ base i + 5 → ¬unnamedByte (base i) x →
        (opens → x ≠ base next + 1 ∧ x ≠ base next + 2 ∧ x ≠ base next + 6 ∧ x ≠ base next + 7 ∧ ¬unnamedByte (base next) x) →
        t.mem.read x = s.mem.read x)) ∧
  ∀ (s : State) (e : Time) (p : OpenPage) (q : Request),
    (s.inReset = false → s.log.flush = some e → due e s.ms = true → s.log.page = some p → 0 < p.count →
      exec .flushTimerExpiry s = .next (endEvent (handOver p.index s))) ∧
    (InExecution s q 13 0 →
      (s.log.live = true → s.log.page = some p → 0 < p.count →
        exec .logFlush s = .next (answered q .ok [1] (handOver p.index s))) ∧
      (s.log.live = false ∨ s.log.page = none ∨ (s.log.page = some p ∧ p.count = 0) →
        exec .logFlush s = .next (answered q .ok [] s)))

/-- The summary of a loss (R112, R113): OVERFLOW with the lost count, then RESYNC records of five codes each but the last,
more-follows on all but the last, whose codes joined are those of the entries DOWN with forward and not orphaned in
ascending position; at most 16 such codes make at most 4 of them. All are stamped with the moment of the summary. Writing it
(R112, R114) sets the lost count to 0 and ends the loss, appends the records in this order as any records, and then raises
STATUS. With the queue empty none of its records is lost: there is no loss after it, whatever becomes of the pages. -/
def Obligations.LossSummary : Prop :=
  ∀ s : State,
    let owned (e : KeyEntry) : Option Nat :=
      match e.cond with
      | .down l => if l.route.forward ∧ ¬l.orphaned then some l.code else none
      | _ => none
    let codes := s.keys.entries.filterMap owned
    let written : State :=
      (summaryRecords s).foldl (fun u r => append r u) { s with log := { s.log with inLoss := false, lost := 0 } }
    (∃ groups : List (List Nat), ∃ last : List Nat,
      summaryRecords s =
        ({ time := s.ms, body := .overflow s.log.lost } : Record) ::
          (groups.map fun g => { time := s.ms, body := .resync g true }) ++ [{ time := s.ms, body := .resync last false }] ∧
      (∀ g ∈ groups, g.length = 5) ∧ last.length ≤ 5 ∧ (groups ≠ [] → last ≠ []) ∧ groups.flatten ++ last = codes ∧
      (codes.length ≤ 16 → groups.length ≤ 3)) ∧
    writeSummary s = raiseCause .status { written with statusDirty := true } ∧
    (s.log.queue = [] → codes.length ≤ 16 →
      (writeSummary s).log.inLoss = false ∧ (writeSummary s).log.lost = 0 ∧ (writeSummary s).log.queue.length ≤ 5)

/-- SNAPSHOT (R190): outside the snapshot area it completes ERR_RANGE and writes nothing; inside, 2200 bytes are written and
no other byte of memory changes, with result words 2200 and the millisecond counter. The layout of 11.6.5 is given here
field by field: the key entries, the chord entries and attention, the bit rate and the signal entries with their
descriptions (11.6.4), motion, latch, lighting and supply, log, and counters and settings; an idle timer's expiry and every
byte that the tables do not name are 0 (R191). A field whose subject is absent is given no value: the draw counter rises
because the spec does not say what a field without a value holds (log entry 19); log entry 25 gives the widths that 11.6.5
does not write. -/
def Obligations.SnapshotRule : Prop :=
  (∀ (s : State) (q : Request), InExecution s q 15 1 →
    let a := param q.params 1
    (a < 0x8000 ∨ 0xC000 < a + 2200 → exec .snapshot s = .next (answered q .errRange [] s)) ∧
    (0x8000 ≤ a → a + 2200 ≤ 0xC000 →
      ∃ m, exec .snapshot s =
          .next (answered q .ok [2200, s.ms.toNat] { s with mem := m, freeCount := s.freeCount + 1 }) ∧
        (∀ k, k < 2200 → m.read (a + k) = (snapshotBytes s).getD k 0) ∧
        ∀ x, x < a ∨ a + 2200 ≤ x → m.read x = s.mem.read x)) ∧
  ∀ s : State,
    let f := fieldAt (snapshotBytes s)
    (snapshotBytes s).length = 2200 ∧ f 0 4 = 8 ∧
    let b (v : Bool) : Nat := boolBit v
    let expiry (e : Option Time) : Nat := match e with | some t => t.toNat | none => 0
    (∀ p, p < 144 →
      let k := 4 + 12 * p
      let e := s.entry p
      f k 1 = (match e.cond with | .up => 0 | .down _ => 1 | .blocked => 2 | .quarantined => 3) ∧
      f (k + 1) 1 = b e.pressed ∧ f (k + 2) 1 = e.filter % 256 ∧ f (k + 3) 1 = e.score % 256 ∧
      (∀ l, e.cond = .down l → f (k + 4) 2 = l.code % 65536 ∧ f (k + 6) 1 = (match l.layer with | .base => 0 | .fn => 1) ∧
        f (k + 7) 1 = b l.route.forward + 2 * b l.route.dock + 4 * b l.route.hold + 8 * b l.route.chord + 16 * b l.orphaned ∧
        f (k + 8) 4 = l.pressTime.toNat) ∧
      ((∀ l, e.cond ≠ .down l) → f (k + 4) 8 = 0)) ∧
    (∀ i, i < 4 →
      let k := 0x6C4 + 12 * i
      let codes := s.chords.entries.getD i []
      f k 1 = codes.length % 256 ∧ f (k + 1) 1 = 0 ∧ (∀ j, j < 4 → f (k + 2 + 2 * j) 2 = codes.getD j 0 % 65536) ∧
      f (k + 10) 2 = 0) ∧
    (f 0x6F4 1 = b s.chords.attention.isSome ∧ f 0x6F6 2 = s.chords.timeout % 65536 ∧
      (∀ a, s.chords.attention = some a →
        f 0x6F5 1 = a.chord % 256 ∧ f 0x6F8 4 = a.started.toNat ∧ f 0x6FC 4 = a.expiry.toNat) ∧
      (s.chords.attention = none → f 0x6FC 4 = 0)) ∧
    f 0x700 2 = s.bus.rate % 65536 ∧ f 0x702 1 = s.bus.signals.length % 256 ∧ f 0x703 1 = 0 ∧
    (∀ i, i < 6 →
      let k := 0x704 + 40 * i
      (s.bus.signals.length ≤ i → ∀ x, x < 40 → f (k + x) 1 = 0) ∧
      ∀ g : Signal, s.bus.signals[i]? = some g →
        let d := g.desc
        f k 1 = (match d.role with | .speed => 0 | .park => 1 | .ignition => 2 | .headlamp => 3 | .aux => 4) ∧
        f (k + 1) 1 = b d.extended ∧ f (k + 2) 1 = b d.big ∧ f (k + 3) 1 = d.start % 256 ∧ f (k + 4) 1 = d.length % 256 ∧
        f (k + 5) 1 = d.shift % 256 ∧ f (k + 6) 2 = 0 ∧ f (k + 8) 4 = d.ident.toNat ∧ f (k + 0xC) 4 = d.mask.toNat ∧
        f (k + 0x10) 2 = d.mult % 65536 ∧ (f (k + 0x12) 2 : Int) = d.offset % 65536 ∧ f (k + 0x14) 2 = d.stale % 65536 ∧
        f (k + 0x16) 2 = d.delta % 65536 ∧ f (k + 0x18) 2 = g.val.value % 65536 ∧
        f (k + 0x1A) 1 = (match g.val.status with | .never => 0 | .fresh => 1 | .stale => 2) ∧
        f (k + 0x1B) 1 = b g.val.reported.isSome ∧ (∀ v, g.val.reported = some v → f (k + 0x1C) 2 = v % 65536) ∧
        f (k + 0x1E) 2 = 0 ∧ (∀ t, g.val.arrival = some t → f (k + 0x20) 4 = t.toNat) ∧
        f (k + 0x24) 4 = expiry g.val.timer) ∧
    (let m := s.motion
     f 0x7F4 2 = m.settings.moveOn % 65536 ∧ f 0x7F6 2 = m.settings.moveOff % 65536 ∧
     f 0x7F8 2 = m.settings.onDwell % 65536 ∧ f 0x7FA 2 = m.settings.offDwell % 65536 ∧ f 0x7FC 1 = b m.settings.asParked ∧
     f 0x7FD 1 = b m.settings.vehicle ∧ f 0x7FE 1 = (match m.state with | .unknown => 0 | .parked => 1 | .moving => 2) ∧
     f 0x7FF 1 = b m.lockout ∧ f 0x800 1 = b m.run.isSome ∧ f 0x801 3 = 0 ∧ ∀ t, m.run = some t → f 0x804 4 = t.toNat) ∧
    (let g := s.latch
     f 0x808 1 = (match g.state with | .empty => 0 | .unseated => 1 | .latched => 2 | .asked _ => 3 | .releasing _ => 4) ∧
     f 0x809 1 = b g.present.value ∧ f 0x80A 1 = b g.sense.value ∧ f 0x80B 1 = b g.button.value ∧
     f 0x80C 1 = (match g.heldPress with | none => 0 | some .button => 1 | some .key => 2) ∧
     f 0x80D 1 = b g.cooldown.isSome ∧ f 0x80E 1 = g.askTimeout % 256 ∧ f 0x80F 1 = g.window % 256 ∧
     f 0x810 4 = (match g.state with | .asked e => e.toNat | _ => 0) ∧
     f 0x814 4 = (match g.state with | .releasing e => e.toNat | _ => 0) ∧ f 0x818 4 = expiry g.cooldown) ∧
    (let l := s.light
     let n := l.limits
     f 0x81C 1 = l.panel.step % 256 ∧ f 0x81D 1 = l.keys.step % 256 ∧ f 0x81E 1 = l.legend.step % 256 ∧
     f 0x81F 1 = (match l.mode with | .auto => 0 | .night => 1 | .day => 2) ∧ f 0x820 1 = b l.night ∧
     f 0x821 1 = b s.supply.dip ∧ f 0x822 2 = l.average % 65536 ∧ f 0x824 2 = s.panelTarget % 65536 ∧
     f 0x826 2 = s.keysTarget % 65536 ∧ f 0x828 2 = s.legendTarget % 65536 ∧ f 0x82A 2 = l.panel.output % 65536 ∧
     f 0x82C 2 = l.keys.output % 65536 ∧ f 0x82E 2 = l.legend.output % 65536 ∧
     (∀ i, i < 16 → f (0x830 + 2 * i) 2 = l.levels.getD i 0 % 65536) ∧
     f 0x850 2 = n.nightOn % 65536 ∧ f 0x852 2 = n.nightOff % 65536 ∧ f 0x854 2 = n.nightPct % 65536 ∧
     f 0x856 2 = n.minDuty % 65536 ∧ f 0x858 2 = n.slew % 65536 ∧ f 0x85A 2 = n.dipDuty % 65536 ∧
     f 0x85C 2 = s.supply.warn % 65536 ∧ f 0x85E 2 = s.supply.recover % 65536 ∧ f 0x862 1 = b s.supply.record.isSome ∧
     f 0x863 1 = 0 ∧ ∀ d, s.supply.record = some d → f 0x860 2 = d.minimum % 65536 ∧ f 0x864 4 = d.start.toNat) ∧
    (f 0x868 1 = b s.log.live ∧ f 0x869 1 = (match s.log.page with | some p => p.index % 256 | none => 0xFF) ∧
      f 0x86A 1 = s.log.queue.length % 256 ∧ f 0x86B 1 = b s.log.inLoss ∧ f 0x86C 2 = s.log.lost % 65536 ∧
      f 0x86E 2 = s.log.epoch.toNat ∧ f 0x870 1 = s.log.flushDelay % 256 ∧ f 0x871 3 = 0) ∧
    f 0x874 2 = s.steer.lockoutWithheld % 65536 ∧ f 0x876 2 = s.steer.rolloverWithheld % 65536 ∧
    f 0x878 2 = s.steer.discarded % 65536 ∧ f 0x87A 2 = s.scan.skipped % 65536 ∧ f 0x87C 1 = s.keys.heldForward % 256 ∧
    f 0x87D 1 = s.keys.quarantinedCount % 256 ∧
    f 0x87E 1 = (match s.scan.mode with | .scanning => 0 | .watch => 1 | .held => 2) ∧
    f 0x87F 1 = s.scan.settings.period % 256 ∧ f 0x880 4 = s.scan.settings.mask.toNat ∧
    f 0x884 2 = s.scan.settings.watchEntry % 65536 ∧ f 0x886 1 = s.keys.settings.press % 256 ∧
    f 0x887 1 = s.keys.settings.release % 256 ∧ f 0x888 1 = s.keys.settings.limit % 256 ∧
    f 0x889 1 = s.keys.settings.decay % 256 ∧ f 0x88A 1 = b s.rep.enabled ∧ f 0x88B 1 = b (!s.legend.online) ∧
    f 0x88C 2 = s.rep.delay % 65536 ∧ f 0x88E 2 = s.rep.period % 65536 ∧ f 0x890 2 = s.wake.hold % 65536 ∧
    f 0x892 1 = b s.steer.lock ∧ f 0x893 1 = (match s.link with | .down => 0 | .active => 1 | .lowPower => 2) ∧
    f 0x894 4 = s.ms.toNat

/-! ### Vehicle bus and motion -/

/-- Extraction and scaling of a signal. LITTLE takes bits upward from the start bit, the start bit least significant (R129,
R130). BIG takes bits downward in a byte and then from bit 7 of the next, the start bit most significant (R131): `turn`
numbers the bits of the data in that order and is its own inverse. The value is the raw field times the multiplier, shifted
right, plus the signed offset, clamped to 0-65535 (R132). -/
def Obligations.FieldExtractionAndScaling : Prop :=
  (∀ (data : List Byte) (start n : Nat),
    let bit (k : Nat) : Bool := (data.getD (k / 8) 0).getLsbD (k % 8)
    let turn (k : Nat) : Nat := 8 * (k / 8) + (7 - k % 8)
    (∀ i, (rawField data false start n).testBit i = (decide (i < n) && bit (start + i))) ∧
    (∀ i, (rawField data true start n).testBit i = (decide (i < n) && bit (turn (turn start + (n - 1 - i))))) ∧
    (0 < n → lastByte false start n = (start + n - 1) / 8 ∧ lastByte true start n = (turn start + (n - 1)) / 8)) ∧
  ∀ (raw mult shift : Nat) (offset : Int),
    let sum : Int := (raw * mult / 2 ^ shift : Nat) + offset
    (scaled raw mult shift offset : Int) = if sum < 0 then 0 else if 65535 < sum then 65535 else sum

/-- Frames of the van's bus. Only a data frame heard after the 11 recessive bits serves entries (R120), one after the
other in ascending order, `before i` being the state in which entry `i` has its turn (R128); it serves an entry whose
format it has, whose identifier it meets at every bit of the mask, and whose last byte it carries (R128, R129). A served
entry takes the value FRESH, the time and a new stale time; SIGNAL is written at the first arrival after NEVER or STALE
and at a step of the report delta from the last value reported (R133). A stale timer's expiry, at or past its set time and
stamped with it (log entry 3), makes it STALE with its record (R134). Both are handed on by role (R135): HEADLAMP has the
night judged, IGNITION and AUX go to nobody, SPEED and PARK act as MotionStateRule says. -/
def Obligations.VehicleFrames : Prop :=
  ∀ (f : CanFrame) (s : State), s.inReset = false →
    let serves (g : Signal) : Prop :=
      f.extended = g.desc.extended ∧
      (∀ b, b < 32 → g.desc.mask.getLsbD b = true → (f.ident.setWidth 32).getLsbD b = g.desc.ident.getLsbD b) ∧
      lastByte g.desc.big g.desc.start g.desc.length < min f.dlc.toNat 8
    let put (i : Nat) (g : Signal) (r : ValueRecord) (u : State) : State :=
      { u with bus := { u.bus with signals := u.bus.signals.set i { g with val := r } } }
    exec .elevenRecessiveBits s = .next (endEvent { s with bus := { s.bus with listening := true } }) ∧
    (f.kind ≠ .data ∨ s.bus.listening = false → exec (.canFrameArrival f) s = .next (endEvent s)) ∧
    (f.kind = .data → s.bus.listening = true → ∃ before : Nat → State,
      before 0 = s ∧ exec (.canFrameArrival f) s = .next (endEvent (before s.bus.signals.length)) ∧
      ∀ (i : Nat) (g : Signal), s.bus.signals[i]? = some g →
        let u := before i
        let v := scaled (rawField f.data g.desc.big g.desc.start g.desc.length) g.desc.mult g.desc.shift g.desc.offset
        let stepped : Prop :=
          g.desc.delta ≠ 0 ∧ ∃ w, g.val.reported = some w ∧ (w + g.desc.delta ≤ v ∨ v + g.desc.delta ≤ w)
        let stored (last : Option Nat) : State :=
          put i g
            { value := v, status := .fresh, arrival := some s.ms, timer := some (s.ms + BitVec.ofNat 32 g.desc.stale)
              reported := last } u
        let marked (x : State) : State :=
          if g.val.value = v ∧ g.val.status = .fresh then x else { x with statusDirty := true }
        (¬serves g → before (i + 1) = u) ∧
        (serves g → g.val.status ≠ .fresh ∨ stepped →
          before (i + 1) = handOnSignal g.desc.role (some v) s.ms
            (marked (append { time := s.ms, body := .signal i true g.desc.role v } (stored (some v))))) ∧
        (serves g → g.val.status = .fresh → ¬stepped →
          before (i + 1) = handOnSignal g.desc.role (some v) s.ms (marked (stored g.val.reported)))) ∧
    (∀ (i : Nat) (g : Signal) (e : Time), s.bus.signals[i]? = some g → g.val.timer = some e → due e s.ms = true →
      let stale : State := put i g { g.val with status := .stale, timer := none, reported := some g.val.value } s
      exec (.staleTimerExpiry i) s = .next (endEvent (handOnSignal g.desc.role none e
        { append { time := e, body := .signal i false g.desc.role g.val.value } stale with statusDirty := true }))) ∧
    ∀ (v : Option Nat) (t : Time) (u : State), handOnSignal .ignition v t u = u ∧ handOnSignal .aux v t u = u ∧
      handOnSignal .headlamp v t u =
        { u with
          light := { u.light with night := nightState u.light u.bus }
          statusDirty := u.statusDirty || decide (nightState u.light u.bus ≠ u.light.night) }

/-- The motion state by SPEED and PARK arrivals and by staleness (R137 to R139), with the lockout flag that R140 works
out; each arrival ends as MotionChangeIsHandedOn says. `start` is the start of the run, the arrival's time where there is
none; the run's age wraps with the counter. -/
def Obligations.MotionStateRule : Prop :=
  ∀ (v : Nat) (t : Time) (s : State),
    let m := s.motion
    let g := m.settings
    let start := m.run.getD t
    let age := (t - start).toNat
    let parked : Prop := ∃ x ∈ s.bus.signals, x.desc.role = .park ∧ x.val.status = .fresh ∧ x.val.value ≠ 0
    let become (state : MotionState) (run : Option Time) : State :=
      settleMotion m t { s with motion := { m with state := state, run := run } }
    let speed := handOnSignal .speed (some v) t s
    let park := handOnSignal .park (some v) t s
    (∀ state run, (become state run).motion =
      { settings := g, state := state, run := run
        lockout := g.vehicle && (state == .moving || (state == .unknown && !g.asParked)) }) ∧
    (m.state = .unknown → speed = if v ≤ g.moveOff then become .parked none else become .moving none) ∧
    (m.state = .parked → v < g.moveOn → speed = become .parked none) ∧
    (m.state = .parked → g.moveOn ≤ v →
      speed = if g.onDwell ≤ age then become .moving none else become .parked (some start)) ∧
    (m.state = .moving → g.moveOff < v → speed = become .moving none) ∧
    (m.state = .moving → v ≤ g.moveOff → parked → speed = become .parked none) ∧
    (m.state = .moving → v ≤ g.moveOff → ¬parked →
      speed = if g.offDwell ≤ age then become .parked none else become .moving (some start)) ∧
    handOnSignal .speed none t s = motionUnknown t s ∧ motionUnknown t s = become .unknown none ∧
    handOnSignal .park none t s = s ∧ (m.state ≠ .moving ∨ v = 0 → park = s) ∧
    ∀ x ∈ s.bus.signals, x.desc.role = .speed → x.val.status = .fresh →
      (∀ y ∈ s.bus.signals, y.desc.role = .speed → y = x) → m.state = .moving → v ≠ 0 →
      (x.val.value ≤ g.moveOff → park = become .parked none) ∧
      (g.moveOff < x.val.value → park = s)

/-- The end of an event that may have changed state, source or policy (R140), `before` being the motion unit before it.
With neither state nor flag changed nothing is reported. A changed state or flag writes MOTION, rewrites its fields and
raises STATUS. A flag become active then releases by force, with cause LOCKOUT and in ascending order of position, and
orphans every forwarded hold entry and no other, a repeat on it stopping (R66), and cancels ASKED and RELEASING with the
LATCH record of cause MOTION (R151, R143). A flag become inactive changes no entry and no latch state and sets the
withheld count to 0 (R67). SET_MOTION (R136) checks lock, codes and thresholds, clamps the dwells, clears the run where a
threshold changes, and ends so. -/
def Obligations.MotionChangeIsHandedOn : Prop :=
  (∀ (before : Motion) (t : Time) (s : State), s.keys.entries.length = 144 →
    let flag := s.motion.settings.vehicle && (s.motion.state == .moving || (s.motion.state == .unknown && !s.motion.settings.asParked))
    let flagged : State := { s with motion := { s.motion with lockout := flag } }
    let reported : State :=
      raiseCause .status
        { append { time := t, body := .motion s.motion.state flag s.steer.lockoutWithheld } flagged with statusDirty := true }
    let held (l : Latched) : Bool := l.route.forward && l.route.hold && !l.orphaned
    let released := forcedReleases .lockout t (fun _ => held) reported
    let cancelled : State :=
      match s.latch.state with
      | .asked _ => append { time := t, body := .latch .motion .latched } released
      | .releasing _ =>
        append { time := t, body := .latch .motion (if s.latch.sense.value then .latched else .unseated) } released
      | _ => released
    let u := settleMotion before t s
    (s.motion.state = before.state → flag = before.lockout → u = flagged) ∧
    (s.motion.state ≠ before.state → flag = before.lockout → u = reported) ∧
    (flag = true → before.lockout = false →
      OthersKept flagged u ∧ u.chords = s.chords ∧ u.light = s.light ∧ u.steer = s.steer ∧ u.irq.pending.getLsbD 2 = true ∧
      u.log = cancelled.log ∧ u.mem = cancelled.mem ∧
      (∀ p, p < 144 → ∀ l, (s.entry p).cond = .down l → held l = true →
        u.entry p = { s.entry p with cond := .down { l with orphaned := true } }) ∧
      (∀ p, p < 144 → (∀ l, (s.entry p).cond = .down l → held l = false) → u.entry p = s.entry p) ∧
      (∀ r l, s.rep.running = some r → r.position < 144 → (s.entry r.position).cond = .down l → held l = true →
        u.rep = { s.rep with running := none, count := 0 }) ∧
      ((∀ r l, s.rep.running = some r → r.position < 144 → (s.entry r.position).cond = .down l → held l = false) →
        u.rep = s.rep) ∧
      (∀ e, s.latch.state = .asked e → u.latch = { s.latch with state := .latched }) ∧
      (∀ e, s.latch.state = .releasing e → u.latch.state = (if s.latch.sense.value then .latched else .unseated) ∧
        u.latch.cooldown = some (t + 10000)) ∧
      (s.latch.state.place ≠ .asked → s.latch.state.place ≠ .releasing → u.latch = s.latch)) ∧
    (flag = false → before.lockout = true →
      OthersKept flagged u ∧ u.chords = s.chords ∧ u.light = s.light ∧ u.rep = s.rep ∧ u.wake = s.wake ∧ u.keys = s.keys ∧
      u.latch = s.latch ∧
      u.steer = { s.steer with lockoutWithheld := 0 } ∧ u.log = reported.log ∧ u.mem = reported.mem)) ∧
  ∀ (s : State) (q : Request), InExecution s q 18 6 →
    let p (i : Nat) := param q.params i
    let set : MotionSettings :=
      { moveOn := p 1, moveOff := p 2, onDwell := min (p 3) 10000, offDwell := min (p 4) 30000
        asParked := decide (p 5 = 1), vehicle := decide (p 6 = 1) }
    let same : Prop := p 1 = s.motion.settings.moveOn ∧ p 2 = s.motion.settings.moveOff
    let stored (run : Option Time) : State := { s with motion := { s.motion with settings := set, run := run } }
    let code := okUnless (10000 < p 3 ∨ 30000 < p 4)
    let good : Prop := p 5 ≤ 1 ∧ p 6 ≤ 1 ∧ p 1 ≤ 65535 ∧ p 2 < p 1
    (s.steer.lock = true → exec .setMotion s = .next (answered q .errLocked [] s)) ∧
    (s.steer.lock = false → ¬good → exec .setMotion s = .next (answered q .errParam [] s)) ∧
    (s.steer.lock = false → good → same →
      exec .setMotion s = .next (answered q code [] (settleMotion s.motion s.ms (stored s.motion.run)))) ∧
    (s.steer.lock = false → good → ¬same →
      exec .setMotion s = .next (answered q code [] (settleMotion s.motion s.ms (stored none))))

/-- SET_VEHICLE_BUS (R121, R122): lock and value are checked, the same rate changes nothing, and another makes the receiver
wait for its recessive bits, every value NEVER, and the motion state UNKNOWN. LOAD_SIGNALS (R125 to R127): lock, count,
range and contents are checked in this order; the first bad entry, its lowest fault and the number of bad entries are said;
an accepted table replaces the old one whole, its stale times clamped and its values NEVER, and makes the motion state
UNKNOWN. The status block is marked rewritten whether or not a value in it changed (log entry 15), and a value record made
NEVER keeps no arrival time (log entry 32). -/
def Obligations.VehicleBusRequests : Prop :=
  ∀ (s : State) (q : Request),
    let never : ValueRecord := { value := 0, status := .never, arrival := none, timer := none, reported := none }
    let restarted (u : State) : State := motionUnknown s.ms (evalNight u)
    (InExecution s q 16 1 →
      let rate := param q.params 1
      let listed : Prop := rate = 125 ∨ rate = 250 ∨ rate = 500 ∨ rate = 1000
      (s.steer.lock = true → exec .setVehicleBus s = .next (answered q .errLocked [] s)) ∧
      (s.steer.lock = false → ¬listed → exec .setVehicleBus s = .next (answered q .errParam [] s)) ∧
      (s.steer.lock = false → listed → rate = s.bus.rate → exec .setVehicleBus s = .next (answered q .ok [] s)) ∧
      (s.steer.lock = false → listed → rate ≠ s.bus.rate →
        exec .setVehicleBus s = .next (answered q .ok [] (restarted
          { s with
            bus :=
              { rate := rate, listening := false, signals := s.bus.signals.map fun g => { g with val := never } }
            statusDirty := s.statusDirty || !s.bus.signals.isEmpty })))) ∧
    (InExecution s q 17 2 →
      let n := param q.params 1
      let off := param q.params 2
      let bad := (List.range n).filter fun i => (stagedFaults s.mem off i).any id
      let clamped := (List.range n).countP fun i => decide (stagedStale s.mem off i < 50 ∨ 10000 < stagedStale s.mem off i)
      let inArea : Prop := 0x4000 ≤ off ∧ off + 24 * n ≤ 0x8000
      let loaded (gs : List Signal) : State :=
        restarted { s with bus := { s.bus with signals := gs }, statusDirty := true }
      (s.steer.lock = true → exec .loadSignals s = .next (answered q .errLocked [] s)) ∧
      (s.steer.lock = false → 6 < n → exec .loadSignals s = .next (answered q .errParam [] s)) ∧
      (s.steer.lock = false → n = 0 → exec .loadSignals s = .next (answered q .ok [] (loaded []))) ∧
      (s.steer.lock = false → 1 ≤ n → n ≤ 6 → ¬inArea → exec .loadSignals s = .next (answered q .errRange [] s)) ∧
      (s.steer.lock = false → 1 ≤ n → n ≤ 6 → inArea →
        (∀ i rest, bad = i :: rest → exec .loadSignals s =
          .next (answered q .errTable [i, (stagedFaults s.mem off i).findIdx id + 1, bad.length] s)) ∧
        (bad = [] → exec .loadSignals s =
          .next (answered q (okUnless (0 < clamped)) [n, clamped]
            (loaded ((List.range n).map fun i => { desc := stagedSignal s.mem off i, val := never }))))))

/-! ### Latch -/

/-- The latch inputs. A reading (R141) equal to the filtered value clears the run; the third differing one in a row makes
the change due, which its own command takes (log entry 14). A taken change of the present switch or the latch sense moves
the state by the table of R145; a press of the button is a release request (R142, R146): held in LATCHED under cooldown,
where the first source stays (R147), refused with its record under lockout, else ASKED; a release of the button moves
nothing. A reading that finds changes still waiting takes them first, each as an event of its own, the present switch's,
then the latch sense's, then the button's, and then reads as where none is due: R141 makes them separate events and allows
any order, and that they wait and this order are the model's choice (log entries 14 and 33). -/
def Obligations.LatchInputs : Prop :=
  ∀ (s : State), s.inReset = false →
    let g := s.latch
    let bySense : LatchState := if g.sense.value then .latched else .unseated
    let flipped (i : InputFilter) : InputFilter := { value := !i.value, run := 0, due := none }
    (∀ present sense button : Bool, s.statusDirty = false →
      g.present.due = none → g.sense.due = none → g.button.due = none →
      let read (now : Bool) (i : InputFilter) : InputFilter :=
        if now = i.value then { i with run := 0 }
        else if i.run < 2 then { i with run := i.run + 1 } else { i with run := 0, due := some s.ms }
      exec (.latchInputRead present sense button) s = .next
        { s with latch := { g with
            present := read present g.present, sense := read sense g.sense, button := read button g.button } }) ∧
    (∃ s1 s2 s3 s4, exec .presentSwitchChange s = .next s1 ∧ exec .latchSenseChange s1 = .next s2 ∧
      exec .buttonPress s2 = .next s3 ∧ exec .buttonReleased s3 = .next s4 ∧ s4.inReset = false ∧ s4.statusDirty = false ∧
      s4.latch.present.due = none ∧ s4.latch.sense.due = none ∧ s4.latch.button.due = none ∧
      ∀ present sense button : Bool,
        exec (.latchInputRead present sense button) s = exec (.latchInputRead present sense button) s4) ∧
    (∀ t, g.present.due = some t →
      let f : State := { s with latch := { g with present := flipped g.present } }
      exec .presentSwitchChange s = .next (endEvent (
        if g.present.value then
          match g.state with
          | .empty => f
          | .unseated => latchMoves .empty .taken t f
          | .latched => latchMoves .empty .forced t f
          | .asked _ => latchMoves .empty .forced t f
          | .releasing _ => latchMoves .empty .taken t f
        else if g.state = .empty then latchMoves bySense .seated t f else f))) ∧
    (∀ t, g.sense.due = some t →
      let f : State := { s with latch := { g with sense := flipped g.sense } }
      exec .latchSenseChange s = .next (endEvent (
        if g.sense.value then
          match g.state with
          | .latched => latchMoves .unseated .forced t f
          | .asked _ => latchMoves .unseated .forced t f
          | _ => f
        else if g.state = .unseated then latchMoves .latched .seated t f else f))) ∧
    (∀ t, g.button.due = some t →
      let f : State := { s with latch := { g with button := flipped g.button } }
      (g.button.value = true → exec .buttonReleased s = .next (endEvent f)) ∧
      (g.button.value = false → g.state ≠ .latched → exec .buttonPress s = .next (endEvent f)) ∧
      (g.button.value = false → g.state = .latched → g.cooldown.isSome = true →
        exec .buttonPress s = .next (endEvent
          { f with latch := { f.latch with heldPress := some (g.heldPress.getD .button) } })) ∧
      (g.button.value = false → g.state = .latched → g.cooldown = none → s.motion.lockout = true →
        exec .buttonPress s = .next (endEvent (append { time := t, body := .latch .refusedMotion .latched } f))) ∧
      (g.button.value = false → g.state = .latched → g.cooldown = none → s.motion.lockout = false →
        exec .buttonPress s =
          .next (endEvent (latchMoves (.asked (t + BitVec.ofNat 32 (1000 * g.askTimeout))) .button t f))))

/-- The timers and requests of the latch, each timer expiring at or past its set time (log entry 3). The ask timer's expiry
releases (R148) and the window's ends the release by the latch sense (R150). The cooldown's expiry serves a held press as if
it had arrived then (R147). LATCH_ANSWER (R149) and UNDOCK_START (R152) check in their order. A cooldown expiry that is due
and still waiting is taken before UNDOCK_START, as an event of its own; ERR_BUSY says the milliseconds left, 1-10000 (log
entry 36). -/
def Obligations.LatchTimersAndRequests : Prop :=
  ∀ (s : State) (q : Request) (e : Time), s.inReset = false →
    let g := s.latch
    let window : BitVec 32 := BitVec.ofNat 32 (1000 * g.window)
    let cooled : State := { s with latch := { g with cooldown := none, heldPress := none } }
    (g.state = .asked e → due e s.ms = true →
      exec .askTimerExpiry s = .next (endEvent (latchMoves (.releasing (e + window)) .timeout e s))) ∧
    (g.state = .releasing e → due e s.ms = true →
      exec .releaseWindowExpiry s =
        .next (endEvent (latchMoves (if g.sense.value then .latched else .unseated) .notTaken e s))) ∧
    (g.cooldown = some e → due e s.ms = true →
      (g.heldPress = none ∨ g.state ≠ .latched → exec .cooldownExpiry s = .next (endEvent cooled)) ∧
      ∀ source, g.heldPress = some source → g.state = .latched →
        (s.motion.lockout = true → exec .cooldownExpiry s =
          .next (endEvent (append { time := e, body := .latch .refusedMotion .latched } cooled))) ∧
        (s.motion.lockout = false → exec .cooldownExpiry s =
          .next (endEvent (latchMoves (.asked (e + BitVec.ofNat 32 (1000 * g.askTimeout)))
            (match source with | .button => .button | .key => .key) e cooled)))) ∧
    (InExecution s q 19 1 →
      let answer := param q.params 1
      (1 < answer → exec .latchAnswer s = .next (answered q .errParam [] s)) ∧
      (answer ≤ 1 → g.state.place ≠ .asked → exec .latchAnswer s = .next (answered q .errState [] s)) ∧
      (answer = 0 → g.state = .asked e →
        exec .latchAnswer s = .next (answered q .ok [] (latchMoves (.releasing (s.ms + window)) .grant s.ms s))) ∧
      (answer = 1 → g.state = .asked e →
        exec .latchAnswer s = .next (answered q .ok [] (latchMoves .latched .defer s.ms s)))) ∧
    (InExecution s q 20 0 → s.statusDirty = false →
      (∀ t, g.cooldown = some e → due e s.ms = true → exec .cooldownExpiry s = .next t →
        exec .undockStart s = exec .undockStart t) ∧
      ((∀ x, g.cooldown = some x → due x s.ms = false) →
        (g.state ≠ .latched → exec .undockStart s = .next (answered q .errState [] s)) ∧
        (g.state = .latched → s.motion.lockout = true → exec .undockStart s = .next (answered q .errMotion [] s)) ∧
        (g.state = .latched → s.motion.lockout = false → g.cooldown = some e →
          let left := min (e - s.ms).toNat 10000
          1 ≤ left ∧ left ≤ 10000 ∧ exec .undockStart s = .next (answered q .errBusy [left] s)) ∧
        (g.state = .latched → s.motion.lockout = false → g.cooldown = none →
          exec .undockStart s = .next (answered q .ok [] (latchMoves (.releasing (s.ms + window)) .request s.ms s)))))

/-! ### Legend strip and indicators -/

/-- The transfers to the strip, whose timers expire at or past their set times (log entry 3). An acknowledge ends the
transfer under way, makes the strip ONLINE and, with the again-flag, begins the next (R160); in IDLE it is ignored. The
acknowledge timer's expiry fails it: tried again at once below three failures, else OFFLINE with the retry of 5000 ms
(R161), whose expiry begins a transfer. LOAD_LEGENDS (R156, R157) checks set, range and attributes, replaces the set
whole, counts the unprintable characters, and is a refresh need where that set is shown (R159). -/
def Obligations.StripTransfers : Prop :=
  ∀ (s : State) (q : Request) (e : Time), s.inReset = false →
    let g := s.legend
    let told (changed : Bool) (u : State) : State := { u with statusDirty := u.statusDirty || changed }
    let done : State :=
      told (!g.online) { s with legend :=
        { g with transfer := .idle, failures := 0, online := true, again := false, retry := none } }
    (g.transfer = .idle → exec .stripAcknowledge s = .next (endEvent s)) ∧
    (g.transfer = .sending e →
      (g.again = false → exec .stripAcknowledge s = .next (endEvent done)) ∧
      (g.again = true → exec .stripAcknowledge s = .next (endEvent (transferBegins s.ms done)))) ∧
    (g.transfer = .sending e → due e s.ms = true →
      (g.failures < 2 → exec .acknowledgeTimerExpiry s = .next (endEvent (transferBegins e
        { s with legend := { g with failures := g.failures + 1, again := false } }))) ∧
      (2 ≤ g.failures → exec .acknowledgeTimerExpiry s = .next (endEvent (told g.online
        { s with legend :=
          { g with failures := 3, again := false, transfer := .idle, retry := some (e + 5000), online := false } })))) ∧
    (g.retry = some e → due e s.ms = true →
      exec .retryTimerExpiry s = .next (endEvent (transferBegins e { s with legend := { g with retry := none } }))) ∧
    (InExecution s q 22 2 →
      let n := param q.params 1
      let off := param q.params 2
      let cells : List LegendCell := (List.range 12).map fun c =>
        { chars := (List.range 10).map fun i => s.mem.read (off + 11 * c + i), attr := (s.mem.read (off + 11 * c + 10)).toNat }
      let attr (c : Nat) : Nat := (s.mem.read (off + 11 * c + 10)).toNat
      let bad := (List.range 12).filter fun c => decide (3 < attr c)
      let hidden := (List.range 120).countP fun i =>
        decide ((s.mem.read (off + 11 * (i / 10) + i % 10)).toNat < 32 ∨ 126 < (s.mem.read (off + 11 * (i / 10) + i % 10)).toNat)
      let loaded : State := { s with legend := { g with sets := g.sets.set n cells } }
      let shown : Prop := n = (match g.shown with | .base => 0 | .fn => 1 | .motion => 2 | .undocked => 3)
      (3 < n → exec .loadLegends s = .next (answered q .errParam [] s)) ∧
      (n ≤ 3 → off < 0x4000 ∨ 0x8000 < off + 132 → exec .loadLegends s = .next (answered q .errRange [] s)) ∧
      (n ≤ 3 → 0x4000 ≤ off → off + 132 ≤ 0x8000 →
        (∀ c rest, bad = c :: rest → exec .loadLegends s = .next (answered q .errTable [c, attr c, bad.length] s)) ∧
        (bad = [] → ¬shown → exec .loadLegends s = .next (answered q .ok [hidden] loaded)) ∧
        (bad = [] → shown → g.transfer = .idle → exec .loadLegends s =
          .next (answered q .ok [hidden] (transferBegins s.ms { loaded with legend := { loaded.legend with retry := none } }))) ∧
        (bad = [] → shown → g.transfer = .sending e → exec .loadLegends s =
          .next (answered q .ok [hidden] { loaded with legend := { loaded.legend with again := true } }))))

/-- SET_INDICATORS (R163): a parameter above 3 is refused with ERR_PARAM, a link that is DOWN with ERR_STATE, and
otherwise the four patterns take the values given and the request completes OK; nothing else changes. The part-owned lamps
are views of the state (log entry 21) and follow the table of R165; lamps 0-3 have the tablet's patterns, and a lit lamp
is driven at the LEGEND output (R162). -/
def Obligations.Indicators : Prop :=
  (∀ (s : State) (q : Request), InExecution s q 23 4 →
    let p (i : Nat) := param q.params i
    let pattern (v : Nat) : Pattern := ([.off, .on, .slow] : List Pattern).getD v .fast
    let admitted : Prop := p 1 ≤ 3 ∧ p 2 ≤ 3 ∧ p 3 ≤ 3 ∧ p 4 ≤ 3
    (¬admitted → exec .setIndicators s = .next (answered q .errParam [] s)) ∧
    (admitted → s.link = .down → exec .setIndicators s = .next (answered q .errState [] s)) ∧
    (admitted → s.link ≠ .down → exec .setIndicators s = .next (answered q .ok []
      { s with ind :=
        { caps := pattern (p 1), num := pattern (p 2), scroll := pattern (p 3), aux := pattern (p 4) } }))) ∧
  ∀ s : State,
    let undocking : Prop := s.latch.state.place = .asked ∨ s.latch.state.place = .releasing
    let speedFresh : Prop := ∃ g ∈ s.bus.signals, g.desc.role = .speed ∧ g.val.status = .fresh
    let faulty : Prop := (∃ k ∈ s.keys.entries, k.cond = .quarantined) ∨ s.legend.online = false
    let vehicle := s.motion.settings.vehicle
    let unjudged : Prop := vehicle = true ∧ s.motion.state = .unknown ∧ s.motion.settings.asParked = true
    s.lampPattern 0 = s.ind.caps ∧ s.lampPattern 1 = s.ind.num ∧ s.lampPattern 2 = s.ind.scroll ∧
    s.lampPattern 3 = s.ind.aux ∧
    (undocking → s.lampPattern 4 = .fast) ∧
    (¬undocking → s.lampPattern 4 = match s.link with | .active => .on | .lowPower => .slow | .down => .off) ∧
    (s.motion.lockout = true → s.lampPattern 5 = .on) ∧
    (s.motion.lockout = false → unjudged → s.lampPattern 5 = .slow) ∧
    (s.motion.lockout = false → ¬unjudged → s.lampPattern 5 = .off) ∧
    s.lampPattern 6 = (if s.chords.attention.isSome then .fast else .off) ∧
    (faulty → s.lampPattern 7 = .on) ∧
    (¬faulty → vehicle = true → ¬speedFresh → s.lampPattern 7 = .slow) ∧
    (¬faulty → vehicle = false ∨ speedFresh → s.lampPattern 7 = .off) ∧
    ∀ lamp, lamp < 8 →
      s.lampDuty lamp = match s.lampPattern lamp with
        | .off => 0
        | .on => s.light.legend.output
        | .slow => if s.ms.toNat % 1000 < 500 then s.light.legend.output else 0
        | .fast => if s.ms.toNat % 250 < 125 then s.light.legend.output else 0

/-! ### Lighting and supply -/

/-- The lighting controller: targets (R172), the night state (R170), the ambient average (R171) and the output update
(R173). HEADLAMP counts while FRESH; between the thresholds the night state stays. -/
def Obligations.LightingRules : Prop :=
  (∀ (l : Lighting) (dip : Bool) (c : Channel),
    let dimmed := l.levels.getD c.step 0 * (if l.night then l.limits.nightPct else 100) / 100
    let seen := if dimmed = 0 ∨ l.limits.minDuty ≤ dimmed then dimmed else l.limits.minDuty
    targetDuty l dip c = if dip ∧ l.limits.dipDuty < seen then l.limits.dipDuty else seen) ∧
  (∀ (l : Lighting) (b : VehicleBus),
    let average := l.ambient.sum / 8
    let lit (x : Signal) : Prop := x ∈ b.signals ∧ x.desc.role = .headlamp ∧ x.val.status = .fresh
    (l.mode = .night → nightState l b = true) ∧ (l.mode = .day → nightState l b = false) ∧
    (∀ x, l.mode = .auto → lit x → (∀ y, lit y → y = x) → nightState l b = decide (x.val.value ≠ 0)) ∧
    (l.mode = .auto → (∀ x, ¬lit x) →
      nightState l b = if average < l.limits.nightOn then true else if l.limits.nightOff ≤ average then false else l.night)) ∧
  ∀ (s : State), s.inReset = false →
    let judged (u : State) : State :=
      { u with
        light := { u.light with night := nightState u.light u.bus }
        statusDirty := u.statusDirty || decide (nightState u.light u.bus ≠ u.light.night) }
    (∀ reading : BitVec 12,
      let readings := s.light.ambient.drop 1 ++ [reading.toNat]
      let taken : State := { s with light := { s.light with ambient := readings } }
      (readings.sum / 8 = s.light.ambient.sum / 8 → exec (.ambientReading reading) s = .next (endEvent taken)) ∧
      (readings.sum / 8 ≠ s.light.ambient.sum / 8 →
        exec (.ambientReading reading) s = .next (endEvent (judged { taken with statusDirty := true })))) ∧
    let moved (target output : Nat) : Nat :=
      let slew := s.light.limits.slew
      if target ≤ output + slew ∧ output ≤ target + slew then target
      else if output < target then output + slew else output - slew
    let panel := moved s.panelTarget s.light.panel.output
    let keys := moved s.keysTarget s.light.keys.output
    let legend := moved s.legendTarget s.light.legend.output
    exec .outputUpdate s = .next (endEvent
      { s with
        light := { s.light with
          panel := { s.light.panel with output := panel }
          keys := { s.light.keys with output := keys }
          legend := { s.light.legend with output := legend } }
        statusDirty := s.statusDirty || decide (panel ≠ s.light.panel.output ∨ keys ≠ s.light.keys.output ∨
          legend ≠ s.light.legend.output) })

/-- The requests of chapter 10. SET_LIGHT_LEVELS (R174): a mode above 2 is refused, steps are clamped to 15.
SET_LIGHT_LIMITS (R175): the six limits are clamped, and a night_off at or below night_on is then refused.
LOAD_LIGHT_TABLE (R169): range, clamping to 1000, order; the first fault, its value and the number of faults are said.
SET_SUPPLY (R178): nothing is clamped, and the low and recovery runs begin afresh. -/
def Obligations.LightingAndSupplyRequests : Prop :=
  ∀ (s : State) (q : Request),
    let p (i : Nat) := param q.params i
    let l := s.light
    (InExecution s q 24 4 →
      let panel := min (p 1) 15
      let keys := min (p 2) 15
      let legend := min (p 3) 15
      let set : Lighting :=
        { l with
          panel := { l.panel with step := panel }, keys := { l.keys with step := keys }
          legend := { l.legend with step := legend }
          mode := if p 4 = 0 then .auto else if p 4 = 1 then .night else .day }
      let changed : Prop := panel ≠ l.panel.step ∨ keys ≠ l.keys.step ∨ legend ≠ l.legend.step
      (2 < p 4 → exec .setLightLevels s = .next (answered q .errParam [] s)) ∧
      (p 4 ≤ 2 → exec .setLightLevels s = .next (answered q (okUnless (15 < p 1 ∨ 15 < p 2 ∨ 15 < p 3)) []
        (evalNight { s with light := set, statusDirty := s.statusDirty || decide changed })))) ∧
    (InExecution s q 25 6 →
      let set : LightLimits :=
        { nightOn := min (p 1) 4095, nightOff := min (p 2) 4095, nightPct := min (p 3) 100, minDuty := min (p 4) 100
          slew := max 1 (min 1000 (p 5)), dipDuty := min (p 6) 1000 }
      let altered : Prop :=
        4095 < p 1 ∨ 4095 < p 2 ∨ 100 < p 3 ∨ 100 < p 4 ∨ p 5 = 0 ∨ 1000 < p 5 ∨ 1000 < p 6
      (set.nightOff ≤ set.nightOn → exec .setLightLimits s = .next (answered q .errParam [] s)) ∧
      (set.nightOn < set.nightOff → exec .setLightLimits s =
        .next (answered q (okUnless altered) [] (evalNight { s with light := { l with limits := set } })))) ∧
    (InExecution s q 26 1 →
      let off := p 1
      let field (i : Nat) : Nat := s.mem.readLe (off + 2 * i) 2
      let level (i : Nat) : Nat := min (field i) 1000
      let faults := (List.range 16).filter fun i => decide (0 < i ∧ level i < level (i - 1))
      let clamped := (List.range 16).countP fun i => decide (1000 < field i)
      (off < 0x4000 ∨ 0x8000 < off + 32 → exec .loadLightTable s = .next (answered q .errRange [] s)) ∧
      (0x4000 ≤ off → off + 32 ≤ 0x8000 →
        (∀ i rest, faults = i :: rest →
          exec .loadLightTable s = .next (answered q .errTable [i, level i, faults.length] s)) ∧
        (faults = [] → exec .loadLightTable s = .next (answered q (okUnless (0 < clamped)) [clamped]
          { s with light := { l with levels := (List.range 16).map level } })))) ∧
    (InExecution s q 27 2 →
      let good : Prop := 6000 ≤ p 1 ∧ p 1 ≤ 30000 ∧ 6500 ≤ p 2 ∧ p 2 ≤ 32000 ∧ p 1 + 500 ≤ p 2
      (¬good → exec .setSupply s = .next (answered q .errParam [] s)) ∧
      (good → exec .setSupply s = .next (answered q .ok []
        { s with supply := { s.supply with warn := p 1, recover := p 2, lowRun := 0, recRun := 0 } })))

/-- Supply samples (R176, R177; `lowMin`, the lowest sample of the low run, is the model's own field, log entry 28). In
NORMAL samples below warn are counted, and the third in a row begins the dip: its record, STATUS, the scanner HELD with
the filter counts zeroed (R14, R36), a pending scan change applied at that moment with the forced releases of R9, which
follow the record of the dip (R176), every output at its target under the dip (R173). In DIP the minimum follows, and the
50th sample in a row at or above recover ends the dip: its record with minimum and duration, STATUS, a frame start (R15).
DIP_START and DIP_END are those two samples (log entry 12). -/
def Obligations.SupplySamples : Prop :=
  ∀ (mv : Half) (s : State), s.inReset = false → 6000 ≤ mv.toNat →
    let v := mv.toNat
    let g := s.supply
    let set (x : Supply) : State := { s with supply := x }
    let low := if g.lowRun = 0 then v else min g.lowMin v
    let starts : Prop := g.dip = false ∧ g.lowRun = 2 ∧ v < g.warn
    let ends : Prop := g.dip = true ∧ g.recRun = 49 ∧ g.recover ≤ v
    (starts → exec (.dipStart mv) s = exec (.supplySample mv) s) ∧ (¬starts → exec (.dipStart mv) s = .next (endEvent s)) ∧
    (ends → exec (.dipEnd mv) s = exec (.supplySample mv) s) ∧ (¬ends → exec (.dipEnd mv) s = .next (endEvent s)) ∧
    (g.dip = false → g.warn ≤ v →
      exec (.supplySample mv) s = .next (endEvent (set { g with lowRun := 0 }))) ∧
    (g.dip = false → v < g.warn → g.lowRun < 2 →
      exec (.supplySample mv) s = .next (endEvent (set { g with lowRun := g.lowRun + 1, lowMin := low }))) ∧
    (starts → ∃ u, exec (.supplySample mv) s = .next (endEvent u) ∧
      u.supply = { g with dip := true, lowRun := 0, recRun := 0, record := some { minimum := low, start := s.ms } } ∧
      u.irq.pending.getLsbD 2 = true ∧ u.scan.mode = .held ∧ u.scan.timer = none ∧ u.scan.pass = false ∧
      u.scan.change = none ∧ (∀ k ∈ u.keys.entries, k.filter = 0) ∧
      u.light.panel.output = u.panelTarget ∧ u.light.keys.output = u.keysTarget ∧
      u.light.legend.output = u.legendTarget ∧ u.ms = s.ms ∧ u.keymap = s.keymap ∧ u.steer = s.steer ∧ u.chords = s.chords ∧
      u.wake = s.wake ∧ u.bus = s.bus ∧ u.motion = s.motion ∧ u.latch = s.latch ∧ u.ind = s.ind ∧ u.link = s.link ∧
      u.req = s.req ∧
      (s.scan.change = none →
        u.log = (append { time := s.ms, body := .supply false low 0 } s).log ∧
        u.mem = (append { time := s.ms, body := .supply false low 0 } s).mem ∧ u.rep = s.rep ∧ u.legend = s.legend ∧
        u.keys = { s.keys with entries := s.keys.entries.map fun k => { k with filter := 0 } }) ∧
      ∀ c, s.scan.change = some c →
        let began : State := set { g with dip := true, lowRun := 0, recRun := 0, record := some { minimum := low, start := s.ms } }
        let reported := raiseCause .status
          { append { time := s.ms, body := .supply false low 0 } began with statusDirty := true }
        let applied := applyChange c
          { reported with scan := { s.scan with mode := .held, pass := false, timer := none, idleRun := 0 } }
        u.log = applied.log ∧ u.mem = applied.mem ∧ u.irq = applied.irq ∧ u.rep = applied.rep ∧
        u.legend = applied.legend ∧ u.scan = applied.scan ∧
        u.keys = { applied.keys with entries := applied.keys.entries.map fun k => { k with filter := 0 } }) ∧
    ∀ d, g.dip = true → g.record = some d →
      let lowered : Option DipRecord := some { d with minimum := min d.minimum v }
      (v < g.recover → exec (.supplySample mv) s = .next (endEvent (set { g with recRun := 0, record := lowered }))) ∧
      (g.recover ≤ v → g.recRun < 49 →
        exec (.supplySample mv) s = .next (endEvent (set { g with recRun := g.recRun + 1, record := lowered }))) ∧
      (ends → exec (.supplySample mv) s = .next (endEvent
        (let u := raiseCause .status
          { append { time := s.ms, body := .supply true (min d.minimum v) (s.ms - d.start) }
              (set { g with dip := false, recRun := 0, record := lowered }) with statusDirty := true }
         { u with scan := { s.scan with
            mode := .scanning, pass := true, idleRun := 0, timer := some (s.ms + BitVec.ofNat 32 s.scan.settings.period) } })))

/-! ### The link -/

/-- The changes of the link (R181). LOW_POWER and back: WAKE is released and a held vector sent at ACTIVE (R93, R183). Loss:
the log is DORMANT and empty (R117), every entry the tablet had is orphaned (R29), attention and repeat end (R85, R89), its
lamps are OFF (R164), UNDOCKED is shown (R158), a held vector is dropped, and memory, wake and request units are kept
(R188). A link command changes nothing from a link state that R181 does not let it arise in (log entry 1); the counter of
sent vectors is log entry 18's. -/
def Obligations.LinkChanges : Prop :=
  ∀ (s : State), s.inReset = false → s.keys.entries.length = 144 →
    (s.link = .active → exec .linkLowPower s = .next (endEvent { s with link := .lowPower })) ∧
    (s.link ≠ .active → exec .linkLowPower s = .next (endEvent s)) ∧
    (s.link = .lowPower → exec .linkActive s = .next (endEvent
      { s with
        link := .active
        wake := { s.wake with timer := none, line := none }
        irq := if s.irq.held then { s.irq with held := false, sent := s.irq.sent + 1 } else s.irq })) ∧
    (s.link ≠ .lowPower → exec .linkActive s = .next (endEvent s)) ∧
    (s.link = .down → exec .linkDown s = .next (endEvent s)) ∧ (s.link ≠ .down → exec .linkUp s = .next (endEvent s)) ∧
    (s.link ≠ .down → ∃ u, exec .linkDown s = .next (endEvent u) ∧ u.link = .down ∧
      u.log = { s.log with
        live := false, page := none, waiting := none, queue := [], inLoss := false, lost := 0, flush := none } ∧
      u.keys = { s.keys with entries := s.keys.entries.map fun k =>
        match k.cond with
        | .down l => { k with cond := .down { l with orphaned := l.orphaned || l.route.forward } }
        | _ => k } ∧
      u.chords = { s.chords with attention := none } ∧ u.rep = { s.rep with running := none, count := 0 } ∧
      u.ind = { caps := .off, num := .off, scroll := .off, aux := .off } ∧ u.legend.shown = .undocked ∧
      u.irq = { s.irq with held := false } ∧ u.mem = s.mem ∧ u.wake = s.wake ∧ u.req = s.req ∧ u.steer = s.steer ∧
      u.scan = s.scan ∧ u.keymap = s.keymap ∧ u.bus = s.bus ∧ u.motion = s.motion ∧ u.latch = s.latch ∧
      u.light = s.light ∧ u.supply = s.supply ∧ u.statusDirty = true)

/-- The link-up (R115, R116, R189, R93, R158): a new epoch with 16 cleared pages of owner PART, page 0 open with DOCKED as
its first record, sequence 0; the discarded count 0; the cells zeroed, the pointer 7, a request in execution marked, mask
and causes 0; WAKE released; the shown set worked out; staging and snapshot areas kept; the status block rewritten. -/
def Obligations.LinkUp : Prop :=
  ∀ (s : State), s.inReset = false → s.link = .down →
    let epoch := s.log.epoch + 1
    let docked : Record := { time := s.ms, body := .docked epoch s.steer.lock s.steer.discarded }
    ∃ u, exec .linkUp s = .next (endEvent u) ∧ u.link = .active ∧ u.statusDirty = true ∧
      u.log = { s.log with
        live := true, epoch := epoch, page := some { index := 0, count := 1 }, waiting := none, nextSeq := 0, queue := []
        inLoss := false, lost := 0, flush := some (s.ms + BitVec.ofNat 32 s.log.flushDelay) } ∧
      u.steer = { s.steer with discarded := 0 } ∧ u.irq = { s.irq with mask := 0, pending := 0 } ∧
      u.req = { s.req with pointer := 7, current := s.req.current.map fun q => { q with mark := true } } ∧
      u.wake = { s.wake with timer := none, line := none } ∧ u.legend.shown = shownSetOf { s with link := .active } ∧
      u.keys = s.keys ∧ u.chords = s.chords ∧ u.rep = s.rep ∧ u.ind = s.ind ∧ u.bus = s.bus ∧ u.motion = s.motion ∧
      u.latch = s.latch ∧ u.light = s.light ∧ u.supply = s.supply ∧ u.scan = s.scan ∧ u.keymap = s.keymap ∧
      (∀ i, i < 16 → u.mem.read (0x0800 + 0x200 * i) = 1) ∧
      u.mem.read 0x0802 = 1 ∧ u.mem.readLe 0x0806 2 = epoch.toNat ∧
      (∀ k, k < 16 → u.mem.read (0x0810 + k) = docked.bytes.getD k 0) ∧
      ∀ x,
        ((0x0100 ≤ x ∧ x < 0x0500) ∨ (0x0803 ≤ x ∧ x < 0x0806) ∨ x = 0x0801 ∨ (0x0808 ≤ x ∧ x < 0x0810) ∨
          (0x0820 ≤ x ∧ x < 0x2800 ∧ x % 0x200 ≠ 0) → u.mem.read x = 0) ∧
        (x < 0x0100 ∨ (0x0500 ≤ x ∧ x < 0x0800) ∨ 0x2800 ≤ x → u.mem.read x = s.mem.read x)
end

