-- ==== Sys2Proof/Laws/State.lean ====
section
/-! SUPPORT. Every field of every single-field update of `State`, by rfl. -/

set_option Elab.async false

namespace Sys2Proof.Machine

@[simp] theorem State.setInReset_inReset (s : State) (x : Bool) : (s.setInReset x).inReset = x := rfl
@[simp] theorem State.setInReset_ms (s : State) (x : Bool) : (s.setInReset x).ms = s.ms := rfl
@[simp] theorem State.setInReset_scan (s : State) (x : Bool) : (s.setInReset x).scan = s.scan := rfl
@[simp] theorem State.setInReset_keys (s : State) (x : Bool) : (s.setInReset x).keys = s.keys := rfl
@[simp] theorem State.setInReset_keymap (s : State) (x : Bool) : (s.setInReset x).keymap = s.keymap := rfl
@[simp] theorem State.setInReset_steer (s : State) (x : Bool) : (s.setInReset x).steer = s.steer := rfl
@[simp] theorem State.setInReset_chords (s : State) (x : Bool) : (s.setInReset x).chords = s.chords := rfl
@[simp] theorem State.setInReset_rep (s : State) (x : Bool) : (s.setInReset x).rep = s.rep := rfl
@[simp] theorem State.setInReset_wake (s : State) (x : Bool) : (s.setInReset x).wake = s.wake := rfl
@[simp] theorem State.setInReset_log (s : State) (x : Bool) : (s.setInReset x).log = s.log := rfl
@[simp] theorem State.setInReset_bus (s : State) (x : Bool) : (s.setInReset x).bus = s.bus := rfl
@[simp] theorem State.setInReset_motion (s : State) (x : Bool) : (s.setInReset x).motion = s.motion := rfl
@[simp] theorem State.setInReset_latch (s : State) (x : Bool) : (s.setInReset x).latch = s.latch := rfl
@[simp] theorem State.setInReset_legend (s : State) (x : Bool) : (s.setInReset x).legend = s.legend := rfl
@[simp] theorem State.setInReset_ind (s : State) (x : Bool) : (s.setInReset x).ind = s.ind := rfl
@[simp] theorem State.setInReset_light (s : State) (x : Bool) : (s.setInReset x).light = s.light := rfl
@[simp] theorem State.setInReset_supply (s : State) (x : Bool) : (s.setInReset x).supply = s.supply := rfl
@[simp] theorem State.setInReset_link (s : State) (x : Bool) : (s.setInReset x).link = s.link := rfl
@[simp] theorem State.setInReset_irq (s : State) (x : Bool) : (s.setInReset x).irq = s.irq := rfl
@[simp] theorem State.setInReset_req (s : State) (x : Bool) : (s.setInReset x).req = s.req := rfl
@[simp] theorem State.setInReset_mem (s : State) (x : Bool) : (s.setInReset x).mem = s.mem := rfl
@[simp] theorem State.setInReset_changeCount (s : State) (x : Bool) : (s.setInReset x).changeCount = s.changeCount := rfl
@[simp] theorem State.setInReset_statusDirty (s : State) (x : Bool) : (s.setInReset x).statusDirty = s.statusDirty := rfl
@[simp] theorem State.setInReset_freeCount (s : State) (x : Bool) : (s.setInReset x).freeCount = s.freeCount := rfl
@[simp] theorem State.setInReset_pending (s : State) (x : Bool) : (s.setInReset x).pending = s.pending := rfl
@[simp] theorem State.setInReset_setInReset (s : State) (x y : Bool) : (s.setInReset x).setInReset y = s.setInReset y := rfl
@[simp] theorem State.setInReset_self (s : State) : s.setInReset s.inReset = s := rfl
@[simp] theorem State.setMs_inReset (s : State) (x : Time) : (s.setMs x).inReset = s.inReset := rfl
@[simp] theorem State.setMs_ms (s : State) (x : Time) : (s.setMs x).ms = x := rfl
@[simp] theorem State.setMs_scan (s : State) (x : Time) : (s.setMs x).scan = s.scan := rfl
@[simp] theorem State.setMs_keys (s : State) (x : Time) : (s.setMs x).keys = s.keys := rfl
@[simp] theorem State.setMs_keymap (s : State) (x : Time) : (s.setMs x).keymap = s.keymap := rfl
@[simp] theorem State.setMs_steer (s : State) (x : Time) : (s.setMs x).steer = s.steer := rfl
@[simp] theorem State.setMs_chords (s : State) (x : Time) : (s.setMs x).chords = s.chords := rfl
@[simp] theorem State.setMs_rep (s : State) (x : Time) : (s.setMs x).rep = s.rep := rfl
@[simp] theorem State.setMs_wake (s : State) (x : Time) : (s.setMs x).wake = s.wake := rfl
@[simp] theorem State.setMs_log (s : State) (x : Time) : (s.setMs x).log = s.log := rfl
@[simp] theorem State.setMs_bus (s : State) (x : Time) : (s.setMs x).bus = s.bus := rfl
@[simp] theorem State.setMs_motion (s : State) (x : Time) : (s.setMs x).motion = s.motion := rfl
@[simp] theorem State.setMs_latch (s : State) (x : Time) : (s.setMs x).latch = s.latch := rfl
@[simp] theorem State.setMs_legend (s : State) (x : Time) : (s.setMs x).legend = s.legend := rfl
@[simp] theorem State.setMs_ind (s : State) (x : Time) : (s.setMs x).ind = s.ind := rfl
@[simp] theorem State.setMs_light (s : State) (x : Time) : (s.setMs x).light = s.light := rfl
@[simp] theorem State.setMs_supply (s : State) (x : Time) : (s.setMs x).supply = s.supply := rfl
@[simp] theorem State.setMs_link (s : State) (x : Time) : (s.setMs x).link = s.link := rfl
@[simp] theorem State.setMs_irq (s : State) (x : Time) : (s.setMs x).irq = s.irq := rfl
@[simp] theorem State.setMs_req (s : State) (x : Time) : (s.setMs x).req = s.req := rfl
@[simp] theorem State.setMs_mem (s : State) (x : Time) : (s.setMs x).mem = s.mem := rfl
@[simp] theorem State.setMs_changeCount (s : State) (x : Time) : (s.setMs x).changeCount = s.changeCount := rfl
@[simp] theorem State.setMs_statusDirty (s : State) (x : Time) : (s.setMs x).statusDirty = s.statusDirty := rfl
@[simp] theorem State.setMs_freeCount (s : State) (x : Time) : (s.setMs x).freeCount = s.freeCount := rfl
@[simp] theorem State.setMs_pending (s : State) (x : Time) : (s.setMs x).pending = s.pending := rfl
@[simp] theorem State.setMs_setMs (s : State) (x y : Time) : (s.setMs x).setMs y = s.setMs y := rfl
@[simp] theorem State.setMs_self (s : State) : s.setMs s.ms = s := rfl
@[simp] theorem State.setScan_inReset (s : State) (x : Scanner) : (s.setScan x).inReset = s.inReset := rfl
@[simp] theorem State.setScan_ms (s : State) (x : Scanner) : (s.setScan x).ms = s.ms := rfl
@[simp] theorem State.setScan_scan (s : State) (x : Scanner) : (s.setScan x).scan = x := rfl
@[simp] theorem State.setScan_keys (s : State) (x : Scanner) : (s.setScan x).keys = s.keys := rfl
@[simp] theorem State.setScan_keymap (s : State) (x : Scanner) : (s.setScan x).keymap = s.keymap := rfl
@[simp] theorem State.setScan_steer (s : State) (x : Scanner) : (s.setScan x).steer = s.steer := rfl
@[simp] theorem State.setScan_chords (s : State) (x : Scanner) : (s.setScan x).chords = s.chords := rfl
@[simp] theorem State.setScan_rep (s : State) (x : Scanner) : (s.setScan x).rep = s.rep := rfl
@[simp] theorem State.setScan_wake (s : State) (x : Scanner) : (s.setScan x).wake = s.wake := rfl
@[simp] theorem State.setScan_log (s : State) (x : Scanner) : (s.setScan x).log = s.log := rfl
@[simp] theorem State.setScan_bus (s : State) (x : Scanner) : (s.setScan x).bus = s.bus := rfl
@[simp] theorem State.setScan_motion (s : State) (x : Scanner) : (s.setScan x).motion = s.motion := rfl
@[simp] theorem State.setScan_latch (s : State) (x : Scanner) : (s.setScan x).latch = s.latch := rfl
@[simp] theorem State.setScan_legend (s : State) (x : Scanner) : (s.setScan x).legend = s.legend := rfl
@[simp] theorem State.setScan_ind (s : State) (x : Scanner) : (s.setScan x).ind = s.ind := rfl
@[simp] theorem State.setScan_light (s : State) (x : Scanner) : (s.setScan x).light = s.light := rfl
@[simp] theorem State.setScan_supply (s : State) (x : Scanner) : (s.setScan x).supply = s.supply := rfl
@[simp] theorem State.setScan_link (s : State) (x : Scanner) : (s.setScan x).link = s.link := rfl
@[simp] theorem State.setScan_irq (s : State) (x : Scanner) : (s.setScan x).irq = s.irq := rfl
@[simp] theorem State.setScan_req (s : State) (x : Scanner) : (s.setScan x).req = s.req := rfl
@[simp] theorem State.setScan_mem (s : State) (x : Scanner) : (s.setScan x).mem = s.mem := rfl
@[simp] theorem State.setScan_changeCount (s : State) (x : Scanner) : (s.setScan x).changeCount = s.changeCount := rfl
@[simp] theorem State.setScan_statusDirty (s : State) (x : Scanner) : (s.setScan x).statusDirty = s.statusDirty := rfl
@[simp] theorem State.setScan_freeCount (s : State) (x : Scanner) : (s.setScan x).freeCount = s.freeCount := rfl
@[simp] theorem State.setScan_pending (s : State) (x : Scanner) : (s.setScan x).pending = s.pending := rfl
@[simp] theorem State.setScan_setScan (s : State) (x y : Scanner) : (s.setScan x).setScan y = s.setScan y := rfl
@[simp] theorem State.setScan_self (s : State) : s.setScan s.scan = s := rfl
@[simp] theorem State.setKeys_inReset (s : State) (x : KeyTable) : (s.setKeys x).inReset = s.inReset := rfl
@[simp] theorem State.setKeys_ms (s : State) (x : KeyTable) : (s.setKeys x).ms = s.ms := rfl
@[simp] theorem State.setKeys_scan (s : State) (x : KeyTable) : (s.setKeys x).scan = s.scan := rfl
@[simp] theorem State.setKeys_keys (s : State) (x : KeyTable) : (s.setKeys x).keys = x := rfl
@[simp] theorem State.setKeys_keymap (s : State) (x : KeyTable) : (s.setKeys x).keymap = s.keymap := rfl
@[simp] theorem State.setKeys_steer (s : State) (x : KeyTable) : (s.setKeys x).steer = s.steer := rfl
@[simp] theorem State.setKeys_chords (s : State) (x : KeyTable) : (s.setKeys x).chords = s.chords := rfl
@[simp] theorem State.setKeys_rep (s : State) (x : KeyTable) : (s.setKeys x).rep = s.rep := rfl
@[simp] theorem State.setKeys_wake (s : State) (x : KeyTable) : (s.setKeys x).wake = s.wake := rfl
@[simp] theorem State.setKeys_log (s : State) (x : KeyTable) : (s.setKeys x).log = s.log := rfl
@[simp] theorem State.setKeys_bus (s : State) (x : KeyTable) : (s.setKeys x).bus = s.bus := rfl
@[simp] theorem State.setKeys_motion (s : State) (x : KeyTable) : (s.setKeys x).motion = s.motion := rfl
@[simp] theorem State.setKeys_latch (s : State) (x : KeyTable) : (s.setKeys x).latch = s.latch := rfl
@[simp] theorem State.setKeys_legend (s : State) (x : KeyTable) : (s.setKeys x).legend = s.legend := rfl
@[simp] theorem State.setKeys_ind (s : State) (x : KeyTable) : (s.setKeys x).ind = s.ind := rfl
@[simp] theorem State.setKeys_light (s : State) (x : KeyTable) : (s.setKeys x).light = s.light := rfl
@[simp] theorem State.setKeys_supply (s : State) (x : KeyTable) : (s.setKeys x).supply = s.supply := rfl
@[simp] theorem State.setKeys_link (s : State) (x : KeyTable) : (s.setKeys x).link = s.link := rfl
@[simp] theorem State.setKeys_irq (s : State) (x : KeyTable) : (s.setKeys x).irq = s.irq := rfl
@[simp] theorem State.setKeys_req (s : State) (x : KeyTable) : (s.setKeys x).req = s.req := rfl
@[simp] theorem State.setKeys_mem (s : State) (x : KeyTable) : (s.setKeys x).mem = s.mem := rfl
@[simp] theorem State.setKeys_changeCount (s : State) (x : KeyTable) : (s.setKeys x).changeCount = s.changeCount := rfl
@[simp] theorem State.setKeys_statusDirty (s : State) (x : KeyTable) : (s.setKeys x).statusDirty = s.statusDirty := rfl
@[simp] theorem State.setKeys_freeCount (s : State) (x : KeyTable) : (s.setKeys x).freeCount = s.freeCount := rfl
@[simp] theorem State.setKeys_pending (s : State) (x : KeyTable) : (s.setKeys x).pending = s.pending := rfl
@[simp] theorem State.setKeys_setKeys (s : State) (x y : KeyTable) : (s.setKeys x).setKeys y = s.setKeys y := rfl
@[simp] theorem State.setKeys_self (s : State) : s.setKeys s.keys = s := rfl
@[simp] theorem State.setKeymap_inReset (s : State) (x : Keymap) : (s.setKeymap x).inReset = s.inReset := rfl
@[simp] theorem State.setKeymap_ms (s : State) (x : Keymap) : (s.setKeymap x).ms = s.ms := rfl
@[simp] theorem State.setKeymap_scan (s : State) (x : Keymap) : (s.setKeymap x).scan = s.scan := rfl
@[simp] theorem State.setKeymap_keys (s : State) (x : Keymap) : (s.setKeymap x).keys = s.keys := rfl
@[simp] theorem State.setKeymap_keymap (s : State) (x : Keymap) : (s.setKeymap x).keymap = x := rfl
@[simp] theorem State.setKeymap_steer (s : State) (x : Keymap) : (s.setKeymap x).steer = s.steer := rfl
@[simp] theorem State.setKeymap_chords (s : State) (x : Keymap) : (s.setKeymap x).chords = s.chords := rfl
@[simp] theorem State.setKeymap_rep (s : State) (x : Keymap) : (s.setKeymap x).rep = s.rep := rfl
@[simp] theorem State.setKeymap_wake (s : State) (x : Keymap) : (s.setKeymap x).wake = s.wake := rfl
@[simp] theorem State.setKeymap_log (s : State) (x : Keymap) : (s.setKeymap x).log = s.log := rfl
@[simp] theorem State.setKeymap_bus (s : State) (x : Keymap) : (s.setKeymap x).bus = s.bus := rfl
@[simp] theorem State.setKeymap_motion (s : State) (x : Keymap) : (s.setKeymap x).motion = s.motion := rfl
@[simp] theorem State.setKeymap_latch (s : State) (x : Keymap) : (s.setKeymap x).latch = s.latch := rfl
@[simp] theorem State.setKeymap_legend (s : State) (x : Keymap) : (s.setKeymap x).legend = s.legend := rfl
@[simp] theorem State.setKeymap_ind (s : State) (x : Keymap) : (s.setKeymap x).ind = s.ind := rfl
@[simp] theorem State.setKeymap_light (s : State) (x : Keymap) : (s.setKeymap x).light = s.light := rfl
@[simp] theorem State.setKeymap_supply (s : State) (x : Keymap) : (s.setKeymap x).supply = s.supply := rfl
@[simp] theorem State.setKeymap_link (s : State) (x : Keymap) : (s.setKeymap x).link = s.link := rfl
@[simp] theorem State.setKeymap_irq (s : State) (x : Keymap) : (s.setKeymap x).irq = s.irq := rfl
@[simp] theorem State.setKeymap_req (s : State) (x : Keymap) : (s.setKeymap x).req = s.req := rfl
@[simp] theorem State.setKeymap_mem (s : State) (x : Keymap) : (s.setKeymap x).mem = s.mem := rfl
@[simp] theorem State.setKeymap_changeCount (s : State) (x : Keymap) : (s.setKeymap x).changeCount = s.changeCount := rfl
@[simp] theorem State.setKeymap_statusDirty (s : State) (x : Keymap) : (s.setKeymap x).statusDirty = s.statusDirty := rfl
@[simp] theorem State.setKeymap_freeCount (s : State) (x : Keymap) : (s.setKeymap x).freeCount = s.freeCount := rfl
@[simp] theorem State.setKeymap_pending (s : State) (x : Keymap) : (s.setKeymap x).pending = s.pending := rfl
@[simp] theorem State.setKeymap_setKeymap (s : State) (x y : Keymap) : (s.setKeymap x).setKeymap y = s.setKeymap y := rfl
@[simp] theorem State.setKeymap_self (s : State) : s.setKeymap s.keymap = s := rfl
@[simp] theorem State.setSteer_inReset (s : State) (x : Steering) : (s.setSteer x).inReset = s.inReset := rfl
@[simp] theorem State.setSteer_ms (s : State) (x : Steering) : (s.setSteer x).ms = s.ms := rfl
@[simp] theorem State.setSteer_scan (s : State) (x : Steering) : (s.setSteer x).scan = s.scan := rfl
@[simp] theorem State.setSteer_keys (s : State) (x : Steering) : (s.setSteer x).keys = s.keys := rfl
@[simp] theorem State.setSteer_keymap (s : State) (x : Steering) : (s.setSteer x).keymap = s.keymap := rfl
@[simp] theorem State.setSteer_steer (s : State) (x : Steering) : (s.setSteer x).steer = x := rfl
@[simp] theorem State.setSteer_chords (s : State) (x : Steering) : (s.setSteer x).chords = s.chords := rfl
@[simp] theorem State.setSteer_rep (s : State) (x : Steering) : (s.setSteer x).rep = s.rep := rfl
@[simp] theorem State.setSteer_wake (s : State) (x : Steering) : (s.setSteer x).wake = s.wake := rfl
@[simp] theorem State.setSteer_log (s : State) (x : Steering) : (s.setSteer x).log = s.log := rfl
@[simp] theorem State.setSteer_bus (s : State) (x : Steering) : (s.setSteer x).bus = s.bus := rfl
@[simp] theorem State.setSteer_motion (s : State) (x : Steering) : (s.setSteer x).motion = s.motion := rfl
@[simp] theorem State.setSteer_latch (s : State) (x : Steering) : (s.setSteer x).latch = s.latch := rfl
@[simp] theorem State.setSteer_legend (s : State) (x : Steering) : (s.setSteer x).legend = s.legend := rfl
@[simp] theorem State.setSteer_ind (s : State) (x : Steering) : (s.setSteer x).ind = s.ind := rfl
@[simp] theorem State.setSteer_light (s : State) (x : Steering) : (s.setSteer x).light = s.light := rfl
@[simp] theorem State.setSteer_supply (s : State) (x : Steering) : (s.setSteer x).supply = s.supply := rfl
@[simp] theorem State.setSteer_link (s : State) (x : Steering) : (s.setSteer x).link = s.link := rfl
@[simp] theorem State.setSteer_irq (s : State) (x : Steering) : (s.setSteer x).irq = s.irq := rfl
@[simp] theorem State.setSteer_req (s : State) (x : Steering) : (s.setSteer x).req = s.req := rfl
@[simp] theorem State.setSteer_mem (s : State) (x : Steering) : (s.setSteer x).mem = s.mem := rfl
@[simp] theorem State.setSteer_changeCount (s : State) (x : Steering) : (s.setSteer x).changeCount = s.changeCount := rfl
@[simp] theorem State.setSteer_statusDirty (s : State) (x : Steering) : (s.setSteer x).statusDirty = s.statusDirty := rfl
@[simp] theorem State.setSteer_freeCount (s : State) (x : Steering) : (s.setSteer x).freeCount = s.freeCount := rfl
@[simp] theorem State.setSteer_pending (s : State) (x : Steering) : (s.setSteer x).pending = s.pending := rfl
@[simp] theorem State.setSteer_setSteer (s : State) (x y : Steering) : (s.setSteer x).setSteer y = s.setSteer y := rfl
@[simp] theorem State.setSteer_self (s : State) : s.setSteer s.steer = s := rfl
@[simp] theorem State.setChords_inReset (s : State) (x : Chords) : (s.setChords x).inReset = s.inReset := rfl
@[simp] theorem State.setChords_ms (s : State) (x : Chords) : (s.setChords x).ms = s.ms := rfl
@[simp] theorem State.setChords_scan (s : State) (x : Chords) : (s.setChords x).scan = s.scan := rfl
@[simp] theorem State.setChords_keys (s : State) (x : Chords) : (s.setChords x).keys = s.keys := rfl
@[simp] theorem State.setChords_keymap (s : State) (x : Chords) : (s.setChords x).keymap = s.keymap := rfl
@[simp] theorem State.setChords_steer (s : State) (x : Chords) : (s.setChords x).steer = s.steer := rfl
@[simp] theorem State.setChords_chords (s : State) (x : Chords) : (s.setChords x).chords = x := rfl
@[simp] theorem State.setChords_rep (s : State) (x : Chords) : (s.setChords x).rep = s.rep := rfl
@[simp] theorem State.setChords_wake (s : State) (x : Chords) : (s.setChords x).wake = s.wake := rfl
@[simp] theorem State.setChords_log (s : State) (x : Chords) : (s.setChords x).log = s.log := rfl
@[simp] theorem State.setChords_bus (s : State) (x : Chords) : (s.setChords x).bus = s.bus := rfl
@[simp] theorem State.setChords_motion (s : State) (x : Chords) : (s.setChords x).motion = s.motion := rfl
@[simp] theorem State.setChords_latch (s : State) (x : Chords) : (s.setChords x).latch = s.latch := rfl
@[simp] theorem State.setChords_legend (s : State) (x : Chords) : (s.setChords x).legend = s.legend := rfl
@[simp] theorem State.setChords_ind (s : State) (x : Chords) : (s.setChords x).ind = s.ind := rfl
@[simp] theorem State.setChords_light (s : State) (x : Chords) : (s.setChords x).light = s.light := rfl
@[simp] theorem State.setChords_supply (s : State) (x : Chords) : (s.setChords x).supply = s.supply := rfl
@[simp] theorem State.setChords_link (s : State) (x : Chords) : (s.setChords x).link = s.link := rfl
@[simp] theorem State.setChords_irq (s : State) (x : Chords) : (s.setChords x).irq = s.irq := rfl
@[simp] theorem State.setChords_req (s : State) (x : Chords) : (s.setChords x).req = s.req := rfl
@[simp] theorem State.setChords_mem (s : State) (x : Chords) : (s.setChords x).mem = s.mem := rfl
@[simp] theorem State.setChords_changeCount (s : State) (x : Chords) : (s.setChords x).changeCount = s.changeCount := rfl
@[simp] theorem State.setChords_statusDirty (s : State) (x : Chords) : (s.setChords x).statusDirty = s.statusDirty := rfl
@[simp] theorem State.setChords_freeCount (s : State) (x : Chords) : (s.setChords x).freeCount = s.freeCount := rfl
@[simp] theorem State.setChords_pending (s : State) (x : Chords) : (s.setChords x).pending = s.pending := rfl
@[simp] theorem State.setChords_setChords (s : State) (x y : Chords) : (s.setChords x).setChords y = s.setChords y := rfl
@[simp] theorem State.setChords_self (s : State) : s.setChords s.chords = s := rfl
@[simp] theorem State.setRep_inReset (s : State) (x : RepeatTimer) : (s.setRep x).inReset = s.inReset := rfl
@[simp] theorem State.setRep_ms (s : State) (x : RepeatTimer) : (s.setRep x).ms = s.ms := rfl
@[simp] theorem State.setRep_scan (s : State) (x : RepeatTimer) : (s.setRep x).scan = s.scan := rfl
@[simp] theorem State.setRep_keys (s : State) (x : RepeatTimer) : (s.setRep x).keys = s.keys := rfl
@[simp] theorem State.setRep_keymap (s : State) (x : RepeatTimer) : (s.setRep x).keymap = s.keymap := rfl
@[simp] theorem State.setRep_steer (s : State) (x : RepeatTimer) : (s.setRep x).steer = s.steer := rfl
@[simp] theorem State.setRep_chords (s : State) (x : RepeatTimer) : (s.setRep x).chords = s.chords := rfl
@[simp] theorem State.setRep_rep (s : State) (x : RepeatTimer) : (s.setRep x).rep = x := rfl
@[simp] theorem State.setRep_wake (s : State) (x : RepeatTimer) : (s.setRep x).wake = s.wake := rfl
@[simp] theorem State.setRep_log (s : State) (x : RepeatTimer) : (s.setRep x).log = s.log := rfl
@[simp] theorem State.setRep_bus (s : State) (x : RepeatTimer) : (s.setRep x).bus = s.bus := rfl
@[simp] theorem State.setRep_motion (s : State) (x : RepeatTimer) : (s.setRep x).motion = s.motion := rfl
@[simp] theorem State.setRep_latch (s : State) (x : RepeatTimer) : (s.setRep x).latch = s.latch := rfl
@[simp] theorem State.setRep_legend (s : State) (x : RepeatTimer) : (s.setRep x).legend = s.legend := rfl
@[simp] theorem State.setRep_ind (s : State) (x : RepeatTimer) : (s.setRep x).ind = s.ind := rfl
@[simp] theorem State.setRep_light (s : State) (x : RepeatTimer) : (s.setRep x).light = s.light := rfl
@[simp] theorem State.setRep_supply (s : State) (x : RepeatTimer) : (s.setRep x).supply = s.supply := rfl
@[simp] theorem State.setRep_link (s : State) (x : RepeatTimer) : (s.setRep x).link = s.link := rfl
@[simp] theorem State.setRep_irq (s : State) (x : RepeatTimer) : (s.setRep x).irq = s.irq := rfl
@[simp] theorem State.setRep_req (s : State) (x : RepeatTimer) : (s.setRep x).req = s.req := rfl
@[simp] theorem State.setRep_mem (s : State) (x : RepeatTimer) : (s.setRep x).mem = s.mem := rfl
@[simp] theorem State.setRep_changeCount (s : State) (x : RepeatTimer) : (s.setRep x).changeCount = s.changeCount := rfl
@[simp] theorem State.setRep_statusDirty (s : State) (x : RepeatTimer) : (s.setRep x).statusDirty = s.statusDirty := rfl
@[simp] theorem State.setRep_freeCount (s : State) (x : RepeatTimer) : (s.setRep x).freeCount = s.freeCount := rfl
@[simp] theorem State.setRep_pending (s : State) (x : RepeatTimer) : (s.setRep x).pending = s.pending := rfl
@[simp] theorem State.setRep_setRep (s : State) (x y : RepeatTimer) : (s.setRep x).setRep y = s.setRep y := rfl
@[simp] theorem State.setRep_self (s : State) : s.setRep s.rep = s := rfl
@[simp] theorem State.setWake_inReset (s : State) (x : Wake) : (s.setWake x).inReset = s.inReset := rfl
@[simp] theorem State.setWake_ms (s : State) (x : Wake) : (s.setWake x).ms = s.ms := rfl
@[simp] theorem State.setWake_scan (s : State) (x : Wake) : (s.setWake x).scan = s.scan := rfl
@[simp] theorem State.setWake_keys (s : State) (x : Wake) : (s.setWake x).keys = s.keys := rfl
@[simp] theorem State.setWake_keymap (s : State) (x : Wake) : (s.setWake x).keymap = s.keymap := rfl
@[simp] theorem State.setWake_steer (s : State) (x : Wake) : (s.setWake x).steer = s.steer := rfl
@[simp] theorem State.setWake_chords (s : State) (x : Wake) : (s.setWake x).chords = s.chords := rfl
@[simp] theorem State.setWake_rep (s : State) (x : Wake) : (s.setWake x).rep = s.rep := rfl
@[simp] theorem State.setWake_wake (s : State) (x : Wake) : (s.setWake x).wake = x := rfl
@[simp] theorem State.setWake_log (s : State) (x : Wake) : (s.setWake x).log = s.log := rfl
@[simp] theorem State.setWake_bus (s : State) (x : Wake) : (s.setWake x).bus = s.bus := rfl
@[simp] theorem State.setWake_motion (s : State) (x : Wake) : (s.setWake x).motion = s.motion := rfl
@[simp] theorem State.setWake_latch (s : State) (x : Wake) : (s.setWake x).latch = s.latch := rfl
@[simp] theorem State.setWake_legend (s : State) (x : Wake) : (s.setWake x).legend = s.legend := rfl
@[simp] theorem State.setWake_ind (s : State) (x : Wake) : (s.setWake x).ind = s.ind := rfl
@[simp] theorem State.setWake_light (s : State) (x : Wake) : (s.setWake x).light = s.light := rfl
@[simp] theorem State.setWake_supply (s : State) (x : Wake) : (s.setWake x).supply = s.supply := rfl
@[simp] theorem State.setWake_link (s : State) (x : Wake) : (s.setWake x).link = s.link := rfl
@[simp] theorem State.setWake_irq (s : State) (x : Wake) : (s.setWake x).irq = s.irq := rfl
@[simp] theorem State.setWake_req (s : State) (x : Wake) : (s.setWake x).req = s.req := rfl
@[simp] theorem State.setWake_mem (s : State) (x : Wake) : (s.setWake x).mem = s.mem := rfl
@[simp] theorem State.setWake_changeCount (s : State) (x : Wake) : (s.setWake x).changeCount = s.changeCount := rfl
@[simp] theorem State.setWake_statusDirty (s : State) (x : Wake) : (s.setWake x).statusDirty = s.statusDirty := rfl
@[simp] theorem State.setWake_freeCount (s : State) (x : Wake) : (s.setWake x).freeCount = s.freeCount := rfl
@[simp] theorem State.setWake_pending (s : State) (x : Wake) : (s.setWake x).pending = s.pending := rfl
@[simp] theorem State.setWake_setWake (s : State) (x y : Wake) : (s.setWake x).setWake y = s.setWake y := rfl
@[simp] theorem State.setWake_self (s : State) : s.setWake s.wake = s := rfl
@[simp] theorem State.setLog_inReset (s : State) (x : EventLog) : (s.setLog x).inReset = s.inReset := rfl
@[simp] theorem State.setLog_ms (s : State) (x : EventLog) : (s.setLog x).ms = s.ms := rfl
@[simp] theorem State.setLog_scan (s : State) (x : EventLog) : (s.setLog x).scan = s.scan := rfl
@[simp] theorem State.setLog_keys (s : State) (x : EventLog) : (s.setLog x).keys = s.keys := rfl
@[simp] theorem State.setLog_keymap (s : State) (x : EventLog) : (s.setLog x).keymap = s.keymap := rfl
@[simp] theorem State.setLog_steer (s : State) (x : EventLog) : (s.setLog x).steer = s.steer := rfl
@[simp] theorem State.setLog_chords (s : State) (x : EventLog) : (s.setLog x).chords = s.chords := rfl
@[simp] theorem State.setLog_rep (s : State) (x : EventLog) : (s.setLog x).rep = s.rep := rfl
@[simp] theorem State.setLog_wake (s : State) (x : EventLog) : (s.setLog x).wake = s.wake := rfl
@[simp] theorem State.setLog_log (s : State) (x : EventLog) : (s.setLog x).log = x := rfl
@[simp] theorem State.setLog_bus (s : State) (x : EventLog) : (s.setLog x).bus = s.bus := rfl
@[simp] theorem State.setLog_motion (s : State) (x : EventLog) : (s.setLog x).motion = s.motion := rfl
@[simp] theorem State.setLog_latch (s : State) (x : EventLog) : (s.setLog x).latch = s.latch := rfl
@[simp] theorem State.setLog_legend (s : State) (x : EventLog) : (s.setLog x).legend = s.legend := rfl
@[simp] theorem State.setLog_ind (s : State) (x : EventLog) : (s.setLog x).ind = s.ind := rfl
@[simp] theorem State.setLog_light (s : State) (x : EventLog) : (s.setLog x).light = s.light := rfl
@[simp] theorem State.setLog_supply (s : State) (x : EventLog) : (s.setLog x).supply = s.supply := rfl
@[simp] theorem State.setLog_link (s : State) (x : EventLog) : (s.setLog x).link = s.link := rfl
@[simp] theorem State.setLog_irq (s : State) (x : EventLog) : (s.setLog x).irq = s.irq := rfl
@[simp] theorem State.setLog_req (s : State) (x : EventLog) : (s.setLog x).req = s.req := rfl
@[simp] theorem State.setLog_mem (s : State) (x : EventLog) : (s.setLog x).mem = s.mem := rfl
@[simp] theorem State.setLog_changeCount (s : State) (x : EventLog) : (s.setLog x).changeCount = s.changeCount := rfl
@[simp] theorem State.setLog_statusDirty (s : State) (x : EventLog) : (s.setLog x).statusDirty = s.statusDirty := rfl
@[simp] theorem State.setLog_freeCount (s : State) (x : EventLog) : (s.setLog x).freeCount = s.freeCount := rfl
@[simp] theorem State.setLog_pending (s : State) (x : EventLog) : (s.setLog x).pending = s.pending := rfl
@[simp] theorem State.setLog_setLog (s : State) (x y : EventLog) : (s.setLog x).setLog y = s.setLog y := rfl
@[simp] theorem State.setLog_self (s : State) : s.setLog s.log = s := rfl
@[simp] theorem State.setBus_inReset (s : State) (x : VehicleBus) : (s.setBus x).inReset = s.inReset := rfl
@[simp] theorem State.setBus_ms (s : State) (x : VehicleBus) : (s.setBus x).ms = s.ms := rfl
@[simp] theorem State.setBus_scan (s : State) (x : VehicleBus) : (s.setBus x).scan = s.scan := rfl
@[simp] theorem State.setBus_keys (s : State) (x : VehicleBus) : (s.setBus x).keys = s.keys := rfl
@[simp] theorem State.setBus_keymap (s : State) (x : VehicleBus) : (s.setBus x).keymap = s.keymap := rfl
@[simp] theorem State.setBus_steer (s : State) (x : VehicleBus) : (s.setBus x).steer = s.steer := rfl
@[simp] theorem State.setBus_chords (s : State) (x : VehicleBus) : (s.setBus x).chords = s.chords := rfl
@[simp] theorem State.setBus_rep (s : State) (x : VehicleBus) : (s.setBus x).rep = s.rep := rfl
@[simp] theorem State.setBus_wake (s : State) (x : VehicleBus) : (s.setBus x).wake = s.wake := rfl
@[simp] theorem State.setBus_log (s : State) (x : VehicleBus) : (s.setBus x).log = s.log := rfl
@[simp] theorem State.setBus_bus (s : State) (x : VehicleBus) : (s.setBus x).bus = x := rfl
@[simp] theorem State.setBus_motion (s : State) (x : VehicleBus) : (s.setBus x).motion = s.motion := rfl
@[simp] theorem State.setBus_latch (s : State) (x : VehicleBus) : (s.setBus x).latch = s.latch := rfl
@[simp] theorem State.setBus_legend (s : State) (x : VehicleBus) : (s.setBus x).legend = s.legend := rfl
@[simp] theorem State.setBus_ind (s : State) (x : VehicleBus) : (s.setBus x).ind = s.ind := rfl
@[simp] theorem State.setBus_light (s : State) (x : VehicleBus) : (s.setBus x).light = s.light := rfl
@[simp] theorem State.setBus_supply (s : State) (x : VehicleBus) : (s.setBus x).supply = s.supply := rfl
@[simp] theorem State.setBus_link (s : State) (x : VehicleBus) : (s.setBus x).link = s.link := rfl
@[simp] theorem State.setBus_irq (s : State) (x : VehicleBus) : (s.setBus x).irq = s.irq := rfl
@[simp] theorem State.setBus_req (s : State) (x : VehicleBus) : (s.setBus x).req = s.req := rfl
@[simp] theorem State.setBus_mem (s : State) (x : VehicleBus) : (s.setBus x).mem = s.mem := rfl
@[simp] theorem State.setBus_changeCount (s : State) (x : VehicleBus) : (s.setBus x).changeCount = s.changeCount := rfl
@[simp] theorem State.setBus_statusDirty (s : State) (x : VehicleBus) : (s.setBus x).statusDirty = s.statusDirty := rfl
@[simp] theorem State.setBus_freeCount (s : State) (x : VehicleBus) : (s.setBus x).freeCount = s.freeCount := rfl
@[simp] theorem State.setBus_pending (s : State) (x : VehicleBus) : (s.setBus x).pending = s.pending := rfl
@[simp] theorem State.setBus_setBus (s : State) (x y : VehicleBus) : (s.setBus x).setBus y = s.setBus y := rfl
@[simp] theorem State.setBus_self (s : State) : s.setBus s.bus = s := rfl
@[simp] theorem State.setMotion_inReset (s : State) (x : Motion) : (s.setMotion x).inReset = s.inReset := rfl
@[simp] theorem State.setMotion_ms (s : State) (x : Motion) : (s.setMotion x).ms = s.ms := rfl
@[simp] theorem State.setMotion_scan (s : State) (x : Motion) : (s.setMotion x).scan = s.scan := rfl
@[simp] theorem State.setMotion_keys (s : State) (x : Motion) : (s.setMotion x).keys = s.keys := rfl
@[simp] theorem State.setMotion_keymap (s : State) (x : Motion) : (s.setMotion x).keymap = s.keymap := rfl
@[simp] theorem State.setMotion_steer (s : State) (x : Motion) : (s.setMotion x).steer = s.steer := rfl
@[simp] theorem State.setMotion_chords (s : State) (x : Motion) : (s.setMotion x).chords = s.chords := rfl
@[simp] theorem State.setMotion_rep (s : State) (x : Motion) : (s.setMotion x).rep = s.rep := rfl
@[simp] theorem State.setMotion_wake (s : State) (x : Motion) : (s.setMotion x).wake = s.wake := rfl
@[simp] theorem State.setMotion_log (s : State) (x : Motion) : (s.setMotion x).log = s.log := rfl
@[simp] theorem State.setMotion_bus (s : State) (x : Motion) : (s.setMotion x).bus = s.bus := rfl
@[simp] theorem State.setMotion_motion (s : State) (x : Motion) : (s.setMotion x).motion = x := rfl
@[simp] theorem State.setMotion_latch (s : State) (x : Motion) : (s.setMotion x).latch = s.latch := rfl
@[simp] theorem State.setMotion_legend (s : State) (x : Motion) : (s.setMotion x).legend = s.legend := rfl
@[simp] theorem State.setMotion_ind (s : State) (x : Motion) : (s.setMotion x).ind = s.ind := rfl
@[simp] theorem State.setMotion_light (s : State) (x : Motion) : (s.setMotion x).light = s.light := rfl
@[simp] theorem State.setMotion_supply (s : State) (x : Motion) : (s.setMotion x).supply = s.supply := rfl
@[simp] theorem State.setMotion_link (s : State) (x : Motion) : (s.setMotion x).link = s.link := rfl
@[simp] theorem State.setMotion_irq (s : State) (x : Motion) : (s.setMotion x).irq = s.irq := rfl
@[simp] theorem State.setMotion_req (s : State) (x : Motion) : (s.setMotion x).req = s.req := rfl
@[simp] theorem State.setMotion_mem (s : State) (x : Motion) : (s.setMotion x).mem = s.mem := rfl
@[simp] theorem State.setMotion_changeCount (s : State) (x : Motion) : (s.setMotion x).changeCount = s.changeCount := rfl
@[simp] theorem State.setMotion_statusDirty (s : State) (x : Motion) : (s.setMotion x).statusDirty = s.statusDirty := rfl
@[simp] theorem State.setMotion_freeCount (s : State) (x : Motion) : (s.setMotion x).freeCount = s.freeCount := rfl
@[simp] theorem State.setMotion_pending (s : State) (x : Motion) : (s.setMotion x).pending = s.pending := rfl
@[simp] theorem State.setMotion_setMotion (s : State) (x y : Motion) : (s.setMotion x).setMotion y = s.setMotion y := rfl
@[simp] theorem State.setMotion_self (s : State) : s.setMotion s.motion = s := rfl
@[simp] theorem State.setLatch_inReset (s : State) (x : Latch) : (s.setLatch x).inReset = s.inReset := rfl
@[simp] theorem State.setLatch_ms (s : State) (x : Latch) : (s.setLatch x).ms = s.ms := rfl
@[simp] theorem State.setLatch_scan (s : State) (x : Latch) : (s.setLatch x).scan = s.scan := rfl
@[simp] theorem State.setLatch_keys (s : State) (x : Latch) : (s.setLatch x).keys = s.keys := rfl
@[simp] theorem State.setLatch_keymap (s : State) (x : Latch) : (s.setLatch x).keymap = s.keymap := rfl
@[simp] theorem State.setLatch_steer (s : State) (x : Latch) : (s.setLatch x).steer = s.steer := rfl
@[simp] theorem State.setLatch_chords (s : State) (x : Latch) : (s.setLatch x).chords = s.chords := rfl
@[simp] theorem State.setLatch_rep (s : State) (x : Latch) : (s.setLatch x).rep = s.rep := rfl
@[simp] theorem State.setLatch_wake (s : State) (x : Latch) : (s.setLatch x).wake = s.wake := rfl
@[simp] theorem State.setLatch_log (s : State) (x : Latch) : (s.setLatch x).log = s.log := rfl
@[simp] theorem State.setLatch_bus (s : State) (x : Latch) : (s.setLatch x).bus = s.bus := rfl
@[simp] theorem State.setLatch_motion (s : State) (x : Latch) : (s.setLatch x).motion = s.motion := rfl
@[simp] theorem State.setLatch_latch (s : State) (x : Latch) : (s.setLatch x).latch = x := rfl
@[simp] theorem State.setLatch_legend (s : State) (x : Latch) : (s.setLatch x).legend = s.legend := rfl
@[simp] theorem State.setLatch_ind (s : State) (x : Latch) : (s.setLatch x).ind = s.ind := rfl
@[simp] theorem State.setLatch_light (s : State) (x : Latch) : (s.setLatch x).light = s.light := rfl
@[simp] theorem State.setLatch_supply (s : State) (x : Latch) : (s.setLatch x).supply = s.supply := rfl
@[simp] theorem State.setLatch_link (s : State) (x : Latch) : (s.setLatch x).link = s.link := rfl
@[simp] theorem State.setLatch_irq (s : State) (x : Latch) : (s.setLatch x).irq = s.irq := rfl
@[simp] theorem State.setLatch_req (s : State) (x : Latch) : (s.setLatch x).req = s.req := rfl
@[simp] theorem State.setLatch_mem (s : State) (x : Latch) : (s.setLatch x).mem = s.mem := rfl
@[simp] theorem State.setLatch_changeCount (s : State) (x : Latch) : (s.setLatch x).changeCount = s.changeCount := rfl
@[simp] theorem State.setLatch_statusDirty (s : State) (x : Latch) : (s.setLatch x).statusDirty = s.statusDirty := rfl
@[simp] theorem State.setLatch_freeCount (s : State) (x : Latch) : (s.setLatch x).freeCount = s.freeCount := rfl
@[simp] theorem State.setLatch_pending (s : State) (x : Latch) : (s.setLatch x).pending = s.pending := rfl
@[simp] theorem State.setLatch_setLatch (s : State) (x y : Latch) : (s.setLatch x).setLatch y = s.setLatch y := rfl
@[simp] theorem State.setLatch_self (s : State) : s.setLatch s.latch = s := rfl
@[simp] theorem State.setLegend_inReset (s : State) (x : Legend) : (s.setLegend x).inReset = s.inReset := rfl
@[simp] theorem State.setLegend_ms (s : State) (x : Legend) : (s.setLegend x).ms = s.ms := rfl
@[simp] theorem State.setLegend_scan (s : State) (x : Legend) : (s.setLegend x).scan = s.scan := rfl
@[simp] theorem State.setLegend_keys (s : State) (x : Legend) : (s.setLegend x).keys = s.keys := rfl
@[simp] theorem State.setLegend_keymap (s : State) (x : Legend) : (s.setLegend x).keymap = s.keymap := rfl
@[simp] theorem State.setLegend_steer (s : State) (x : Legend) : (s.setLegend x).steer = s.steer := rfl
@[simp] theorem State.setLegend_chords (s : State) (x : Legend) : (s.setLegend x).chords = s.chords := rfl
@[simp] theorem State.setLegend_rep (s : State) (x : Legend) : (s.setLegend x).rep = s.rep := rfl
@[simp] theorem State.setLegend_wake (s : State) (x : Legend) : (s.setLegend x).wake = s.wake := rfl
@[simp] theorem State.setLegend_log (s : State) (x : Legend) : (s.setLegend x).log = s.log := rfl
@[simp] theorem State.setLegend_bus (s : State) (x : Legend) : (s.setLegend x).bus = s.bus := rfl
@[simp] theorem State.setLegend_motion (s : State) (x : Legend) : (s.setLegend x).motion = s.motion := rfl
@[simp] theorem State.setLegend_latch (s : State) (x : Legend) : (s.setLegend x).latch = s.latch := rfl
@[simp] theorem State.setLegend_legend (s : State) (x : Legend) : (s.setLegend x).legend = x := rfl
@[simp] theorem State.setLegend_ind (s : State) (x : Legend) : (s.setLegend x).ind = s.ind := rfl
@[simp] theorem State.setLegend_light (s : State) (x : Legend) : (s.setLegend x).light = s.light := rfl
@[simp] theorem State.setLegend_supply (s : State) (x : Legend) : (s.setLegend x).supply = s.supply := rfl
@[simp] theorem State.setLegend_link (s : State) (x : Legend) : (s.setLegend x).link = s.link := rfl
@[simp] theorem State.setLegend_irq (s : State) (x : Legend) : (s.setLegend x).irq = s.irq := rfl
@[simp] theorem State.setLegend_req (s : State) (x : Legend) : (s.setLegend x).req = s.req := rfl
@[simp] theorem State.setLegend_mem (s : State) (x : Legend) : (s.setLegend x).mem = s.mem := rfl
@[simp] theorem State.setLegend_changeCount (s : State) (x : Legend) : (s.setLegend x).changeCount = s.changeCount := rfl
@[simp] theorem State.setLegend_statusDirty (s : State) (x : Legend) : (s.setLegend x).statusDirty = s.statusDirty := rfl
@[simp] theorem State.setLegend_freeCount (s : State) (x : Legend) : (s.setLegend x).freeCount = s.freeCount := rfl
@[simp] theorem State.setLegend_pending (s : State) (x : Legend) : (s.setLegend x).pending = s.pending := rfl
@[simp] theorem State.setLegend_setLegend (s : State) (x y : Legend) : (s.setLegend x).setLegend y = s.setLegend y := rfl
@[simp] theorem State.setLegend_self (s : State) : s.setLegend s.legend = s := rfl
@[simp] theorem State.setInd_inReset (s : State) (x : Indicators) : (s.setInd x).inReset = s.inReset := rfl
@[simp] theorem State.setInd_ms (s : State) (x : Indicators) : (s.setInd x).ms = s.ms := rfl
@[simp] theorem State.setInd_scan (s : State) (x : Indicators) : (s.setInd x).scan = s.scan := rfl
@[simp] theorem State.setInd_keys (s : State) (x : Indicators) : (s.setInd x).keys = s.keys := rfl
@[simp] theorem State.setInd_keymap (s : State) (x : Indicators) : (s.setInd x).keymap = s.keymap := rfl
@[simp] theorem State.setInd_steer (s : State) (x : Indicators) : (s.setInd x).steer = s.steer := rfl
@[simp] theorem State.setInd_chords (s : State) (x : Indicators) : (s.setInd x).chords = s.chords := rfl
@[simp] theorem State.setInd_rep (s : State) (x : Indicators) : (s.setInd x).rep = s.rep := rfl
@[simp] theorem State.setInd_wake (s : State) (x : Indicators) : (s.setInd x).wake = s.wake := rfl
@[simp] theorem State.setInd_log (s : State) (x : Indicators) : (s.setInd x).log = s.log := rfl
@[simp] theorem State.setInd_bus (s : State) (x : Indicators) : (s.setInd x).bus = s.bus := rfl
@[simp] theorem State.setInd_motion (s : State) (x : Indicators) : (s.setInd x).motion = s.motion := rfl
@[simp] theorem State.setInd_latch (s : State) (x : Indicators) : (s.setInd x).latch = s.latch := rfl
@[simp] theorem State.setInd_legend (s : State) (x : Indicators) : (s.setInd x).legend = s.legend := rfl
@[simp] theorem State.setInd_ind (s : State) (x : Indicators) : (s.setInd x).ind = x := rfl
@[simp] theorem State.setInd_light (s : State) (x : Indicators) : (s.setInd x).light = s.light := rfl
@[simp] theorem State.setInd_supply (s : State) (x : Indicators) : (s.setInd x).supply = s.supply := rfl
@[simp] theorem State.setInd_link (s : State) (x : Indicators) : (s.setInd x).link = s.link := rfl
@[simp] theorem State.setInd_irq (s : State) (x : Indicators) : (s.setInd x).irq = s.irq := rfl
@[simp] theorem State.setInd_req (s : State) (x : Indicators) : (s.setInd x).req = s.req := rfl
@[simp] theorem State.setInd_mem (s : State) (x : Indicators) : (s.setInd x).mem = s.mem := rfl
@[simp] theorem State.setInd_changeCount (s : State) (x : Indicators) : (s.setInd x).changeCount = s.changeCount := rfl
@[simp] theorem State.setInd_statusDirty (s : State) (x : Indicators) : (s.setInd x).statusDirty = s.statusDirty := rfl
@[simp] theorem State.setInd_freeCount (s : State) (x : Indicators) : (s.setInd x).freeCount = s.freeCount := rfl
@[simp] theorem State.setInd_pending (s : State) (x : Indicators) : (s.setInd x).pending = s.pending := rfl
@[simp] theorem State.setInd_setInd (s : State) (x y : Indicators) : (s.setInd x).setInd y = s.setInd y := rfl
@[simp] theorem State.setInd_self (s : State) : s.setInd s.ind = s := rfl
@[simp] theorem State.setLight_inReset (s : State) (x : Lighting) : (s.setLight x).inReset = s.inReset := rfl
@[simp] theorem State.setLight_ms (s : State) (x : Lighting) : (s.setLight x).ms = s.ms := rfl
@[simp] theorem State.setLight_scan (s : State) (x : Lighting) : (s.setLight x).scan = s.scan := rfl
@[simp] theorem State.setLight_keys (s : State) (x : Lighting) : (s.setLight x).keys = s.keys := rfl
@[simp] theorem State.setLight_keymap (s : State) (x : Lighting) : (s.setLight x).keymap = s.keymap := rfl
@[simp] theorem State.setLight_steer (s : State) (x : Lighting) : (s.setLight x).steer = s.steer := rfl
@[simp] theorem State.setLight_chords (s : State) (x : Lighting) : (s.setLight x).chords = s.chords := rfl
@[simp] theorem State.setLight_rep (s : State) (x : Lighting) : (s.setLight x).rep = s.rep := rfl
@[simp] theorem State.setLight_wake (s : State) (x : Lighting) : (s.setLight x).wake = s.wake := rfl
@[simp] theorem State.setLight_log (s : State) (x : Lighting) : (s.setLight x).log = s.log := rfl
@[simp] theorem State.setLight_bus (s : State) (x : Lighting) : (s.setLight x).bus = s.bus := rfl
@[simp] theorem State.setLight_motion (s : State) (x : Lighting) : (s.setLight x).motion = s.motion := rfl
@[simp] theorem State.setLight_latch (s : State) (x : Lighting) : (s.setLight x).latch = s.latch := rfl
@[simp] theorem State.setLight_legend (s : State) (x : Lighting) : (s.setLight x).legend = s.legend := rfl
@[simp] theorem State.setLight_ind (s : State) (x : Lighting) : (s.setLight x).ind = s.ind := rfl
@[simp] theorem State.setLight_light (s : State) (x : Lighting) : (s.setLight x).light = x := rfl
@[simp] theorem State.setLight_supply (s : State) (x : Lighting) : (s.setLight x).supply = s.supply := rfl
@[simp] theorem State.setLight_link (s : State) (x : Lighting) : (s.setLight x).link = s.link := rfl
@[simp] theorem State.setLight_irq (s : State) (x : Lighting) : (s.setLight x).irq = s.irq := rfl
@[simp] theorem State.setLight_req (s : State) (x : Lighting) : (s.setLight x).req = s.req := rfl
@[simp] theorem State.setLight_mem (s : State) (x : Lighting) : (s.setLight x).mem = s.mem := rfl
@[simp] theorem State.setLight_changeCount (s : State) (x : Lighting) : (s.setLight x).changeCount = s.changeCount := rfl
@[simp] theorem State.setLight_statusDirty (s : State) (x : Lighting) : (s.setLight x).statusDirty = s.statusDirty := rfl
@[simp] theorem State.setLight_freeCount (s : State) (x : Lighting) : (s.setLight x).freeCount = s.freeCount := rfl
@[simp] theorem State.setLight_pending (s : State) (x : Lighting) : (s.setLight x).pending = s.pending := rfl
@[simp] theorem State.setLight_setLight (s : State) (x y : Lighting) : (s.setLight x).setLight y = s.setLight y := rfl
@[simp] theorem State.setLight_self (s : State) : s.setLight s.light = s := rfl
@[simp] theorem State.setSupply_inReset (s : State) (x : Supply) : (s.setSupply x).inReset = s.inReset := rfl
@[simp] theorem State.setSupply_ms (s : State) (x : Supply) : (s.setSupply x).ms = s.ms := rfl
@[simp] theorem State.setSupply_scan (s : State) (x : Supply) : (s.setSupply x).scan = s.scan := rfl
@[simp] theorem State.setSupply_keys (s : State) (x : Supply) : (s.setSupply x).keys = s.keys := rfl
@[simp] theorem State.setSupply_keymap (s : State) (x : Supply) : (s.setSupply x).keymap = s.keymap := rfl
@[simp] theorem State.setSupply_steer (s : State) (x : Supply) : (s.setSupply x).steer = s.steer := rfl
@[simp] theorem State.setSupply_chords (s : State) (x : Supply) : (s.setSupply x).chords = s.chords := rfl
@[simp] theorem State.setSupply_rep (s : State) (x : Supply) : (s.setSupply x).rep = s.rep := rfl
@[simp] theorem State.setSupply_wake (s : State) (x : Supply) : (s.setSupply x).wake = s.wake := rfl
@[simp] theorem State.setSupply_log (s : State) (x : Supply) : (s.setSupply x).log = s.log := rfl
@[simp] theorem State.setSupply_bus (s : State) (x : Supply) : (s.setSupply x).bus = s.bus := rfl
@[simp] theorem State.setSupply_motion (s : State) (x : Supply) : (s.setSupply x).motion = s.motion := rfl
@[simp] theorem State.setSupply_latch (s : State) (x : Supply) : (s.setSupply x).latch = s.latch := rfl
@[simp] theorem State.setSupply_legend (s : State) (x : Supply) : (s.setSupply x).legend = s.legend := rfl
@[simp] theorem State.setSupply_ind (s : State) (x : Supply) : (s.setSupply x).ind = s.ind := rfl
@[simp] theorem State.setSupply_light (s : State) (x : Supply) : (s.setSupply x).light = s.light := rfl
@[simp] theorem State.setSupply_supply (s : State) (x : Supply) : (s.setSupply x).supply = x := rfl
@[simp] theorem State.setSupply_link (s : State) (x : Supply) : (s.setSupply x).link = s.link := rfl
@[simp] theorem State.setSupply_irq (s : State) (x : Supply) : (s.setSupply x).irq = s.irq := rfl
@[simp] theorem State.setSupply_req (s : State) (x : Supply) : (s.setSupply x).req = s.req := rfl
@[simp] theorem State.setSupply_mem (s : State) (x : Supply) : (s.setSupply x).mem = s.mem := rfl
@[simp] theorem State.setSupply_changeCount (s : State) (x : Supply) : (s.setSupply x).changeCount = s.changeCount := rfl
@[simp] theorem State.setSupply_statusDirty (s : State) (x : Supply) : (s.setSupply x).statusDirty = s.statusDirty := rfl
@[simp] theorem State.setSupply_freeCount (s : State) (x : Supply) : (s.setSupply x).freeCount = s.freeCount := rfl
@[simp] theorem State.setSupply_pending (s : State) (x : Supply) : (s.setSupply x).pending = s.pending := rfl
@[simp] theorem State.setSupply_setSupply (s : State) (x y : Supply) : (s.setSupply x).setSupply y = s.setSupply y := rfl
@[simp] theorem State.setSupply_self (s : State) : s.setSupply s.supply = s := rfl
@[simp] theorem State.setLink_inReset (s : State) (x : LinkState) : (s.setLink x).inReset = s.inReset := rfl
@[simp] theorem State.setLink_ms (s : State) (x : LinkState) : (s.setLink x).ms = s.ms := rfl
@[simp] theorem State.setLink_scan (s : State) (x : LinkState) : (s.setLink x).scan = s.scan := rfl
@[simp] theorem State.setLink_keys (s : State) (x : LinkState) : (s.setLink x).keys = s.keys := rfl
@[simp] theorem State.setLink_keymap (s : State) (x : LinkState) : (s.setLink x).keymap = s.keymap := rfl
@[simp] theorem State.setLink_steer (s : State) (x : LinkState) : (s.setLink x).steer = s.steer := rfl
@[simp] theorem State.setLink_chords (s : State) (x : LinkState) : (s.setLink x).chords = s.chords := rfl
@[simp] theorem State.setLink_rep (s : State) (x : LinkState) : (s.setLink x).rep = s.rep := rfl
@[simp] theorem State.setLink_wake (s : State) (x : LinkState) : (s.setLink x).wake = s.wake := rfl
@[simp] theorem State.setLink_log (s : State) (x : LinkState) : (s.setLink x).log = s.log := rfl
@[simp] theorem State.setLink_bus (s : State) (x : LinkState) : (s.setLink x).bus = s.bus := rfl
@[simp] theorem State.setLink_motion (s : State) (x : LinkState) : (s.setLink x).motion = s.motion := rfl
@[simp] theorem State.setLink_latch (s : State) (x : LinkState) : (s.setLink x).latch = s.latch := rfl
@[simp] theorem State.setLink_legend (s : State) (x : LinkState) : (s.setLink x).legend = s.legend := rfl
@[simp] theorem State.setLink_ind (s : State) (x : LinkState) : (s.setLink x).ind = s.ind := rfl
@[simp] theorem State.setLink_light (s : State) (x : LinkState) : (s.setLink x).light = s.light := rfl
@[simp] theorem State.setLink_supply (s : State) (x : LinkState) : (s.setLink x).supply = s.supply := rfl
@[simp] theorem State.setLink_link (s : State) (x : LinkState) : (s.setLink x).link = x := rfl
@[simp] theorem State.setLink_irq (s : State) (x : LinkState) : (s.setLink x).irq = s.irq := rfl
@[simp] theorem State.setLink_req (s : State) (x : LinkState) : (s.setLink x).req = s.req := rfl
@[simp] theorem State.setLink_mem (s : State) (x : LinkState) : (s.setLink x).mem = s.mem := rfl
@[simp] theorem State.setLink_changeCount (s : State) (x : LinkState) : (s.setLink x).changeCount = s.changeCount := rfl
@[simp] theorem State.setLink_statusDirty (s : State) (x : LinkState) : (s.setLink x).statusDirty = s.statusDirty := rfl
@[simp] theorem State.setLink_freeCount (s : State) (x : LinkState) : (s.setLink x).freeCount = s.freeCount := rfl
@[simp] theorem State.setLink_pending (s : State) (x : LinkState) : (s.setLink x).pending = s.pending := rfl
@[simp] theorem State.setLink_setLink (s : State) (x y : LinkState) : (s.setLink x).setLink y = s.setLink y := rfl
@[simp] theorem State.setLink_self (s : State) : s.setLink s.link = s := rfl
@[simp] theorem State.setIrq_inReset (s : State) (x : Interrupts) : (s.setIrq x).inReset = s.inReset := rfl
@[simp] theorem State.setIrq_ms (s : State) (x : Interrupts) : (s.setIrq x).ms = s.ms := rfl
@[simp] theorem State.setIrq_scan (s : State) (x : Interrupts) : (s.setIrq x).scan = s.scan := rfl
@[simp] theorem State.setIrq_keys (s : State) (x : Interrupts) : (s.setIrq x).keys = s.keys := rfl
@[simp] theorem State.setIrq_keymap (s : State) (x : Interrupts) : (s.setIrq x).keymap = s.keymap := rfl
@[simp] theorem State.setIrq_steer (s : State) (x : Interrupts) : (s.setIrq x).steer = s.steer := rfl
@[simp] theorem State.setIrq_chords (s : State) (x : Interrupts) : (s.setIrq x).chords = s.chords := rfl
@[simp] theorem State.setIrq_rep (s : State) (x : Interrupts) : (s.setIrq x).rep = s.rep := rfl
@[simp] theorem State.setIrq_wake (s : State) (x : Interrupts) : (s.setIrq x).wake = s.wake := rfl
@[simp] theorem State.setIrq_log (s : State) (x : Interrupts) : (s.setIrq x).log = s.log := rfl
@[simp] theorem State.setIrq_bus (s : State) (x : Interrupts) : (s.setIrq x).bus = s.bus := rfl
@[simp] theorem State.setIrq_motion (s : State) (x : Interrupts) : (s.setIrq x).motion = s.motion := rfl
@[simp] theorem State.setIrq_latch (s : State) (x : Interrupts) : (s.setIrq x).latch = s.latch := rfl
@[simp] theorem State.setIrq_legend (s : State) (x : Interrupts) : (s.setIrq x).legend = s.legend := rfl
@[simp] theorem State.setIrq_ind (s : State) (x : Interrupts) : (s.setIrq x).ind = s.ind := rfl
@[simp] theorem State.setIrq_light (s : State) (x : Interrupts) : (s.setIrq x).light = s.light := rfl
@[simp] theorem State.setIrq_supply (s : State) (x : Interrupts) : (s.setIrq x).supply = s.supply := rfl
@[simp] theorem State.setIrq_link (s : State) (x : Interrupts) : (s.setIrq x).link = s.link := rfl
@[simp] theorem State.setIrq_irq (s : State) (x : Interrupts) : (s.setIrq x).irq = x := rfl
@[simp] theorem State.setIrq_req (s : State) (x : Interrupts) : (s.setIrq x).req = s.req := rfl
@[simp] theorem State.setIrq_mem (s : State) (x : Interrupts) : (s.setIrq x).mem = s.mem := rfl
@[simp] theorem State.setIrq_changeCount (s : State) (x : Interrupts) : (s.setIrq x).changeCount = s.changeCount := rfl
@[simp] theorem State.setIrq_statusDirty (s : State) (x : Interrupts) : (s.setIrq x).statusDirty = s.statusDirty := rfl
@[simp] theorem State.setIrq_freeCount (s : State) (x : Interrupts) : (s.setIrq x).freeCount = s.freeCount := rfl
@[simp] theorem State.setIrq_pending (s : State) (x : Interrupts) : (s.setIrq x).pending = s.pending := rfl
@[simp] theorem State.setIrq_setIrq (s : State) (x y : Interrupts) : (s.setIrq x).setIrq y = s.setIrq y := rfl
@[simp] theorem State.setIrq_self (s : State) : s.setIrq s.irq = s := rfl
@[simp] theorem State.setReq_inReset (s : State) (x : RequestUnit) : (s.setReq x).inReset = s.inReset := rfl
@[simp] theorem State.setReq_ms (s : State) (x : RequestUnit) : (s.setReq x).ms = s.ms := rfl
@[simp] theorem State.setReq_scan (s : State) (x : RequestUnit) : (s.setReq x).scan = s.scan := rfl
@[simp] theorem State.setReq_keys (s : State) (x : RequestUnit) : (s.setReq x).keys = s.keys := rfl
@[simp] theorem State.setReq_keymap (s : State) (x : RequestUnit) : (s.setReq x).keymap = s.keymap := rfl
@[simp] theorem State.setReq_steer (s : State) (x : RequestUnit) : (s.setReq x).steer = s.steer := rfl
@[simp] theorem State.setReq_chords (s : State) (x : RequestUnit) : (s.setReq x).chords = s.chords := rfl
@[simp] theorem State.setReq_rep (s : State) (x : RequestUnit) : (s.setReq x).rep = s.rep := rfl
@[simp] theorem State.setReq_wake (s : State) (x : RequestUnit) : (s.setReq x).wake = s.wake := rfl
@[simp] theorem State.setReq_log (s : State) (x : RequestUnit) : (s.setReq x).log = s.log := rfl
@[simp] theorem State.setReq_bus (s : State) (x : RequestUnit) : (s.setReq x).bus = s.bus := rfl
@[simp] theorem State.setReq_motion (s : State) (x : RequestUnit) : (s.setReq x).motion = s.motion := rfl
@[simp] theorem State.setReq_latch (s : State) (x : RequestUnit) : (s.setReq x).latch = s.latch := rfl
@[simp] theorem State.setReq_legend (s : State) (x : RequestUnit) : (s.setReq x).legend = s.legend := rfl
@[simp] theorem State.setReq_ind (s : State) (x : RequestUnit) : (s.setReq x).ind = s.ind := rfl
@[simp] theorem State.setReq_light (s : State) (x : RequestUnit) : (s.setReq x).light = s.light := rfl
@[simp] theorem State.setReq_supply (s : State) (x : RequestUnit) : (s.setReq x).supply = s.supply := rfl
@[simp] theorem State.setReq_link (s : State) (x : RequestUnit) : (s.setReq x).link = s.link := rfl
@[simp] theorem State.setReq_irq (s : State) (x : RequestUnit) : (s.setReq x).irq = s.irq := rfl
@[simp] theorem State.setReq_req (s : State) (x : RequestUnit) : (s.setReq x).req = x := rfl
@[simp] theorem State.setReq_mem (s : State) (x : RequestUnit) : (s.setReq x).mem = s.mem := rfl
@[simp] theorem State.setReq_changeCount (s : State) (x : RequestUnit) : (s.setReq x).changeCount = s.changeCount := rfl
@[simp] theorem State.setReq_statusDirty (s : State) (x : RequestUnit) : (s.setReq x).statusDirty = s.statusDirty := rfl
@[simp] theorem State.setReq_freeCount (s : State) (x : RequestUnit) : (s.setReq x).freeCount = s.freeCount := rfl
@[simp] theorem State.setReq_pending (s : State) (x : RequestUnit) : (s.setReq x).pending = s.pending := rfl
@[simp] theorem State.setReq_setReq (s : State) (x y : RequestUnit) : (s.setReq x).setReq y = s.setReq y := rfl
@[simp] theorem State.setReq_self (s : State) : s.setReq s.req = s := rfl
@[simp] theorem State.setMem_inReset (s : State) (x : Memory) : (s.setMem x).inReset = s.inReset := rfl
@[simp] theorem State.setMem_ms (s : State) (x : Memory) : (s.setMem x).ms = s.ms := rfl
@[simp] theorem State.setMem_scan (s : State) (x : Memory) : (s.setMem x).scan = s.scan := rfl
@[simp] theorem State.setMem_keys (s : State) (x : Memory) : (s.setMem x).keys = s.keys := rfl
@[simp] theorem State.setMem_keymap (s : State) (x : Memory) : (s.setMem x).keymap = s.keymap := rfl
@[simp] theorem State.setMem_steer (s : State) (x : Memory) : (s.setMem x).steer = s.steer := rfl
@[simp] theorem State.setMem_chords (s : State) (x : Memory) : (s.setMem x).chords = s.chords := rfl
@[simp] theorem State.setMem_rep (s : State) (x : Memory) : (s.setMem x).rep = s.rep := rfl
@[simp] theorem State.setMem_wake (s : State) (x : Memory) : (s.setMem x).wake = s.wake := rfl
@[simp] theorem State.setMem_log (s : State) (x : Memory) : (s.setMem x).log = s.log := rfl
@[simp] theorem State.setMem_bus (s : State) (x : Memory) : (s.setMem x).bus = s.bus := rfl
@[simp] theorem State.setMem_motion (s : State) (x : Memory) : (s.setMem x).motion = s.motion := rfl
@[simp] theorem State.setMem_latch (s : State) (x : Memory) : (s.setMem x).latch = s.latch := rfl
@[simp] theorem State.setMem_legend (s : State) (x : Memory) : (s.setMem x).legend = s.legend := rfl
@[simp] theorem State.setMem_ind (s : State) (x : Memory) : (s.setMem x).ind = s.ind := rfl
@[simp] theorem State.setMem_light (s : State) (x : Memory) : (s.setMem x).light = s.light := rfl
@[simp] theorem State.setMem_supply (s : State) (x : Memory) : (s.setMem x).supply = s.supply := rfl
@[simp] theorem State.setMem_link (s : State) (x : Memory) : (s.setMem x).link = s.link := rfl
@[simp] theorem State.setMem_irq (s : State) (x : Memory) : (s.setMem x).irq = s.irq := rfl
@[simp] theorem State.setMem_req (s : State) (x : Memory) : (s.setMem x).req = s.req := rfl
@[simp] theorem State.setMem_mem (s : State) (x : Memory) : (s.setMem x).mem = x := rfl
@[simp] theorem State.setMem_changeCount (s : State) (x : Memory) : (s.setMem x).changeCount = s.changeCount := rfl
@[simp] theorem State.setMem_statusDirty (s : State) (x : Memory) : (s.setMem x).statusDirty = s.statusDirty := rfl
@[simp] theorem State.setMem_freeCount (s : State) (x : Memory) : (s.setMem x).freeCount = s.freeCount := rfl
@[simp] theorem State.setMem_pending (s : State) (x : Memory) : (s.setMem x).pending = s.pending := rfl
@[simp] theorem State.setMem_setMem (s : State) (x y : Memory) : (s.setMem x).setMem y = s.setMem y := rfl
@[simp] theorem State.setMem_self (s : State) : s.setMem s.mem = s := rfl
@[simp] theorem State.setChangeCount_inReset (s : State) (x : Word) : (s.setChangeCount x).inReset = s.inReset := rfl
@[simp] theorem State.setChangeCount_ms (s : State) (x : Word) : (s.setChangeCount x).ms = s.ms := rfl
@[simp] theorem State.setChangeCount_scan (s : State) (x : Word) : (s.setChangeCount x).scan = s.scan := rfl
@[simp] theorem State.setChangeCount_keys (s : State) (x : Word) : (s.setChangeCount x).keys = s.keys := rfl
@[simp] theorem State.setChangeCount_keymap (s : State) (x : Word) : (s.setChangeCount x).keymap = s.keymap := rfl
@[simp] theorem State.setChangeCount_steer (s : State) (x : Word) : (s.setChangeCount x).steer = s.steer := rfl
@[simp] theorem State.setChangeCount_chords (s : State) (x : Word) : (s.setChangeCount x).chords = s.chords := rfl
@[simp] theorem State.setChangeCount_rep (s : State) (x : Word) : (s.setChangeCount x).rep = s.rep := rfl
@[simp] theorem State.setChangeCount_wake (s : State) (x : Word) : (s.setChangeCount x).wake = s.wake := rfl
@[simp] theorem State.setChangeCount_log (s : State) (x : Word) : (s.setChangeCount x).log = s.log := rfl
@[simp] theorem State.setChangeCount_bus (s : State) (x : Word) : (s.setChangeCount x).bus = s.bus := rfl
@[simp] theorem State.setChangeCount_motion (s : State) (x : Word) : (s.setChangeCount x).motion = s.motion := rfl
@[simp] theorem State.setChangeCount_latch (s : State) (x : Word) : (s.setChangeCount x).latch = s.latch := rfl
@[simp] theorem State.setChangeCount_legend (s : State) (x : Word) : (s.setChangeCount x).legend = s.legend := rfl
@[simp] theorem State.setChangeCount_ind (s : State) (x : Word) : (s.setChangeCount x).ind = s.ind := rfl
@[simp] theorem State.setChangeCount_light (s : State) (x : Word) : (s.setChangeCount x).light = s.light := rfl
@[simp] theorem State.setChangeCount_supply (s : State) (x : Word) : (s.setChangeCount x).supply = s.supply := rfl
@[simp] theorem State.setChangeCount_link (s : State) (x : Word) : (s.setChangeCount x).link = s.link := rfl
@[simp] theorem State.setChangeCount_irq (s : State) (x : Word) : (s.setChangeCount x).irq = s.irq := rfl
@[simp] theorem State.setChangeCount_req (s : State) (x : Word) : (s.setChangeCount x).req = s.req := rfl
@[simp] theorem State.setChangeCount_mem (s : State) (x : Word) : (s.setChangeCount x).mem = s.mem := rfl
@[simp] theorem State.setChangeCount_changeCount (s : State) (x : Word) : (s.setChangeCount x).changeCount = x := rfl
@[simp] theorem State.setChangeCount_statusDirty (s : State) (x : Word) : (s.setChangeCount x).statusDirty = s.statusDirty := rfl
@[simp] theorem State.setChangeCount_freeCount (s : State) (x : Word) : (s.setChangeCount x).freeCount = s.freeCount := rfl
@[simp] theorem State.setChangeCount_pending (s : State) (x : Word) : (s.setChangeCount x).pending = s.pending := rfl
@[simp] theorem State.setChangeCount_setChangeCount (s : State) (x y : Word) : (s.setChangeCount x).setChangeCount y = s.setChangeCount y := rfl
@[simp] theorem State.setChangeCount_self (s : State) : s.setChangeCount s.changeCount = s := rfl
@[simp] theorem State.setStatusDirty_inReset (s : State) (x : Bool) : (s.setStatusDirty x).inReset = s.inReset := rfl
@[simp] theorem State.setStatusDirty_ms (s : State) (x : Bool) : (s.setStatusDirty x).ms = s.ms := rfl
@[simp] theorem State.setStatusDirty_scan (s : State) (x : Bool) : (s.setStatusDirty x).scan = s.scan := rfl
@[simp] theorem State.setStatusDirty_keys (s : State) (x : Bool) : (s.setStatusDirty x).keys = s.keys := rfl
@[simp] theorem State.setStatusDirty_keymap (s : State) (x : Bool) : (s.setStatusDirty x).keymap = s.keymap := rfl
@[simp] theorem State.setStatusDirty_steer (s : State) (x : Bool) : (s.setStatusDirty x).steer = s.steer := rfl
@[simp] theorem State.setStatusDirty_chords (s : State) (x : Bool) : (s.setStatusDirty x).chords = s.chords := rfl
@[simp] theorem State.setStatusDirty_rep (s : State) (x : Bool) : (s.setStatusDirty x).rep = s.rep := rfl
@[simp] theorem State.setStatusDirty_wake (s : State) (x : Bool) : (s.setStatusDirty x).wake = s.wake := rfl
@[simp] theorem State.setStatusDirty_log (s : State) (x : Bool) : (s.setStatusDirty x).log = s.log := rfl
@[simp] theorem State.setStatusDirty_bus (s : State) (x : Bool) : (s.setStatusDirty x).bus = s.bus := rfl
@[simp] theorem State.setStatusDirty_motion (s : State) (x : Bool) : (s.setStatusDirty x).motion = s.motion := rfl
@[simp] theorem State.setStatusDirty_latch (s : State) (x : Bool) : (s.setStatusDirty x).latch = s.latch := rfl
@[simp] theorem State.setStatusDirty_legend (s : State) (x : Bool) : (s.setStatusDirty x).legend = s.legend := rfl
@[simp] theorem State.setStatusDirty_ind (s : State) (x : Bool) : (s.setStatusDirty x).ind = s.ind := rfl
@[simp] theorem State.setStatusDirty_light (s : State) (x : Bool) : (s.setStatusDirty x).light = s.light := rfl
@[simp] theorem State.setStatusDirty_supply (s : State) (x : Bool) : (s.setStatusDirty x).supply = s.supply := rfl
@[simp] theorem State.setStatusDirty_link (s : State) (x : Bool) : (s.setStatusDirty x).link = s.link := rfl
@[simp] theorem State.setStatusDirty_irq (s : State) (x : Bool) : (s.setStatusDirty x).irq = s.irq := rfl
@[simp] theorem State.setStatusDirty_req (s : State) (x : Bool) : (s.setStatusDirty x).req = s.req := rfl
@[simp] theorem State.setStatusDirty_mem (s : State) (x : Bool) : (s.setStatusDirty x).mem = s.mem := rfl
@[simp] theorem State.setStatusDirty_changeCount (s : State) (x : Bool) : (s.setStatusDirty x).changeCount = s.changeCount := rfl
@[simp] theorem State.setStatusDirty_statusDirty (s : State) (x : Bool) : (s.setStatusDirty x).statusDirty = x := rfl
@[simp] theorem State.setStatusDirty_freeCount (s : State) (x : Bool) : (s.setStatusDirty x).freeCount = s.freeCount := rfl
@[simp] theorem State.setStatusDirty_pending (s : State) (x : Bool) : (s.setStatusDirty x).pending = s.pending := rfl
@[simp] theorem State.setStatusDirty_setStatusDirty (s : State) (x y : Bool) : (s.setStatusDirty x).setStatusDirty y = s.setStatusDirty y := rfl
@[simp] theorem State.setStatusDirty_self (s : State) : s.setStatusDirty s.statusDirty = s := rfl
@[simp] theorem State.setFreeCount_inReset (s : State) (x : Nat) : (s.setFreeCount x).inReset = s.inReset := rfl
@[simp] theorem State.setFreeCount_ms (s : State) (x : Nat) : (s.setFreeCount x).ms = s.ms := rfl
@[simp] theorem State.setFreeCount_scan (s : State) (x : Nat) : (s.setFreeCount x).scan = s.scan := rfl
@[simp] theorem State.setFreeCount_keys (s : State) (x : Nat) : (s.setFreeCount x).keys = s.keys := rfl
@[simp] theorem State.setFreeCount_keymap (s : State) (x : Nat) : (s.setFreeCount x).keymap = s.keymap := rfl
@[simp] theorem State.setFreeCount_steer (s : State) (x : Nat) : (s.setFreeCount x).steer = s.steer := rfl
@[simp] theorem State.setFreeCount_chords (s : State) (x : Nat) : (s.setFreeCount x).chords = s.chords := rfl
@[simp] theorem State.setFreeCount_rep (s : State) (x : Nat) : (s.setFreeCount x).rep = s.rep := rfl
@[simp] theorem State.setFreeCount_wake (s : State) (x : Nat) : (s.setFreeCount x).wake = s.wake := rfl
@[simp] theorem State.setFreeCount_log (s : State) (x : Nat) : (s.setFreeCount x).log = s.log := rfl
@[simp] theorem State.setFreeCount_bus (s : State) (x : Nat) : (s.setFreeCount x).bus = s.bus := rfl
@[simp] theorem State.setFreeCount_motion (s : State) (x : Nat) : (s.setFreeCount x).motion = s.motion := rfl
@[simp] theorem State.setFreeCount_latch (s : State) (x : Nat) : (s.setFreeCount x).latch = s.latch := rfl
@[simp] theorem State.setFreeCount_legend (s : State) (x : Nat) : (s.setFreeCount x).legend = s.legend := rfl
@[simp] theorem State.setFreeCount_ind (s : State) (x : Nat) : (s.setFreeCount x).ind = s.ind := rfl
@[simp] theorem State.setFreeCount_light (s : State) (x : Nat) : (s.setFreeCount x).light = s.light := rfl
@[simp] theorem State.setFreeCount_supply (s : State) (x : Nat) : (s.setFreeCount x).supply = s.supply := rfl
@[simp] theorem State.setFreeCount_link (s : State) (x : Nat) : (s.setFreeCount x).link = s.link := rfl
@[simp] theorem State.setFreeCount_irq (s : State) (x : Nat) : (s.setFreeCount x).irq = s.irq := rfl
@[simp] theorem State.setFreeCount_req (s : State) (x : Nat) : (s.setFreeCount x).req = s.req := rfl
@[simp] theorem State.setFreeCount_mem (s : State) (x : Nat) : (s.setFreeCount x).mem = s.mem := rfl
@[simp] theorem State.setFreeCount_changeCount (s : State) (x : Nat) : (s.setFreeCount x).changeCount = s.changeCount := rfl
@[simp] theorem State.setFreeCount_statusDirty (s : State) (x : Nat) : (s.setFreeCount x).statusDirty = s.statusDirty := rfl
@[simp] theorem State.setFreeCount_freeCount (s : State) (x : Nat) : (s.setFreeCount x).freeCount = x := rfl
@[simp] theorem State.setFreeCount_pending (s : State) (x : Nat) : (s.setFreeCount x).pending = s.pending := rfl
@[simp] theorem State.setFreeCount_setFreeCount (s : State) (x y : Nat) : (s.setFreeCount x).setFreeCount y = s.setFreeCount y := rfl
@[simp] theorem State.setFreeCount_self (s : State) : s.setFreeCount s.freeCount = s := rfl
@[simp] theorem State.setPending_inReset (s : State) (x : List Instr) : (s.setPending x).inReset = s.inReset := rfl
@[simp] theorem State.setPending_ms (s : State) (x : List Instr) : (s.setPending x).ms = s.ms := rfl
@[simp] theorem State.setPending_scan (s : State) (x : List Instr) : (s.setPending x).scan = s.scan := rfl
@[simp] theorem State.setPending_keys (s : State) (x : List Instr) : (s.setPending x).keys = s.keys := rfl
@[simp] theorem State.setPending_keymap (s : State) (x : List Instr) : (s.setPending x).keymap = s.keymap := rfl
@[simp] theorem State.setPending_steer (s : State) (x : List Instr) : (s.setPending x).steer = s.steer := rfl
@[simp] theorem State.setPending_chords (s : State) (x : List Instr) : (s.setPending x).chords = s.chords := rfl
@[simp] theorem State.setPending_rep (s : State) (x : List Instr) : (s.setPending x).rep = s.rep := rfl
@[simp] theorem State.setPending_wake (s : State) (x : List Instr) : (s.setPending x).wake = s.wake := rfl
@[simp] theorem State.setPending_log (s : State) (x : List Instr) : (s.setPending x).log = s.log := rfl
@[simp] theorem State.setPending_bus (s : State) (x : List Instr) : (s.setPending x).bus = s.bus := rfl
@[simp] theorem State.setPending_motion (s : State) (x : List Instr) : (s.setPending x).motion = s.motion := rfl
@[simp] theorem State.setPending_latch (s : State) (x : List Instr) : (s.setPending x).latch = s.latch := rfl
@[simp] theorem State.setPending_legend (s : State) (x : List Instr) : (s.setPending x).legend = s.legend := rfl
@[simp] theorem State.setPending_ind (s : State) (x : List Instr) : (s.setPending x).ind = s.ind := rfl
@[simp] theorem State.setPending_light (s : State) (x : List Instr) : (s.setPending x).light = s.light := rfl
@[simp] theorem State.setPending_supply (s : State) (x : List Instr) : (s.setPending x).supply = s.supply := rfl
@[simp] theorem State.setPending_link (s : State) (x : List Instr) : (s.setPending x).link = s.link := rfl
@[simp] theorem State.setPending_irq (s : State) (x : List Instr) : (s.setPending x).irq = s.irq := rfl
@[simp] theorem State.setPending_req (s : State) (x : List Instr) : (s.setPending x).req = s.req := rfl
@[simp] theorem State.setPending_mem (s : State) (x : List Instr) : (s.setPending x).mem = s.mem := rfl
@[simp] theorem State.setPending_changeCount (s : State) (x : List Instr) : (s.setPending x).changeCount = s.changeCount := rfl
@[simp] theorem State.setPending_statusDirty (s : State) (x : List Instr) : (s.setPending x).statusDirty = s.statusDirty := rfl
@[simp] theorem State.setPending_freeCount (s : State) (x : List Instr) : (s.setPending x).freeCount = s.freeCount := rfl
@[simp] theorem State.setPending_pending (s : State) (x : List Instr) : (s.setPending x).pending = x := rfl
@[simp] theorem State.setPending_setPending (s : State) (x y : List Instr) : (s.setPending x).setPending y = s.setPending y := rfl
@[simp] theorem State.setPending_self (s : State) : s.setPending s.pending = s := rfl

end Sys2Proof.Machine
end

