-- ==== Sys2Proof/Laws/Frame.lean ====
section
/-! SUPPORT. Frames: which fields of the state an operation leaves as they are, and the frames of the event log. -/

set_option Elab.async false

namespace Sys2Proof.Machine

/-- The fields of the state, by name. -/
inductive Field where
  | inReset
  | ms
  | scan
  | keys
  | keymap
  | steer
  | chords
  | rep
  | wake
  | log
  | bus
  | motion
  | latch
  | legend
  | ind
  | light
  | supply
  | link
  | irq
  | req
  | mem
  | changeCount
  | statusDirty
  | freeCount
  | pending
  deriving DecidableEq, Repr

/-- The place of a field. Comparing places keeps the kernel's work on lists of fields small. -/
def Field.place : Field → Nat
  | .inReset => 0
  | .ms => 1
  | .scan => 2
  | .keys => 3
  | .keymap => 4
  | .steer => 5
  | .chords => 6
  | .rep => 7
  | .wake => 8
  | .log => 9
  | .bus => 10
  | .motion => 11
  | .latch => 12
  | .legend => 13
  | .ind => 14
  | .light => 15
  | .supply => 16
  | .link => 17
  | .irq => 18
  | .req => 19
  | .mem => 20
  | .changeCount => 21
  | .statusDirty => 22
  | .freeCount => 23
  | .pending => 24

/-- The field at a place. -/
def Field.ofPlace : Nat → Field
  | 0 => .inReset
  | 1 => .ms
  | 2 => .scan
  | 3 => .keys
  | 4 => .keymap
  | 5 => .steer
  | 6 => .chords
  | 7 => .rep
  | 8 => .wake
  | 9 => .log
  | 10 => .bus
  | 11 => .motion
  | 12 => .latch
  | 13 => .legend
  | 14 => .ind
  | 15 => .light
  | 16 => .supply
  | 17 => .link
  | 18 => .irq
  | 19 => .req
  | 20 => .mem
  | 21 => .changeCount
  | 22 => .statusDirty
  | 23 => .freeCount
  | _ => .pending

theorem Field.ofPlace_place (f : Field) : Field.ofPlace f.place = f := by cases f <;> rfl

/-- The fields of one list are all in another. -/
def within (gs fs : List Field) : Bool := gs.all fun g => fs.any fun f => Nat.beq f.place g.place

theorem within_mem {gs fs : List Field} (h : within gs fs = true) {g : Field} (hg : g ∈ gs) : g ∈ fs := by
  simp only [within, List.all_eq_true] at h
  obtain ⟨f, hf, he⟩ := List.any_eq_true.1 (h g hg)
  have : f = g := by rw [← Field.ofPlace_place f, Nat.eq_of_beq_eq_true he, Field.ofPlace_place]
  exact this ▸ hf

theorem within_of_mem {gs fs : List Field} (h : ∀ g ∈ gs, g ∈ fs) : within gs fs = true := by
  simp only [within, List.all_eq_true]
  exact fun g hg => List.any_eq_true.2 ⟨g, h g hg, Nat.beq_refl _⟩

theorem within_trans {gs fs hs : List Field} (h : within gs fs = true) (k : within fs hs = true) : within gs hs = true :=
  within_of_mem fun _ hg => within_mem k (within_mem h hg)

/-- From `s` to `t` only the fields listed may differ. -/
structure Frame (fs : List Field) (s t : State) : Prop where
  inReset : Field.inReset ∉ fs → t.inReset = s.inReset
  ms : Field.ms ∉ fs → t.ms = s.ms
  scan : Field.scan ∉ fs → t.scan = s.scan
  keys : Field.keys ∉ fs → t.keys = s.keys
  keymap : Field.keymap ∉ fs → t.keymap = s.keymap
  steer : Field.steer ∉ fs → t.steer = s.steer
  chords : Field.chords ∉ fs → t.chords = s.chords
  rep : Field.rep ∉ fs → t.rep = s.rep
  wake : Field.wake ∉ fs → t.wake = s.wake
  log : Field.log ∉ fs → t.log = s.log
  bus : Field.bus ∉ fs → t.bus = s.bus
  motion : Field.motion ∉ fs → t.motion = s.motion
  latch : Field.latch ∉ fs → t.latch = s.latch
  legend : Field.legend ∉ fs → t.legend = s.legend
  ind : Field.ind ∉ fs → t.ind = s.ind
  light : Field.light ∉ fs → t.light = s.light
  supply : Field.supply ∉ fs → t.supply = s.supply
  link : Field.link ∉ fs → t.link = s.link
  irq : Field.irq ∉ fs → t.irq = s.irq
  req : Field.req ∉ fs → t.req = s.req
  mem : Field.mem ∉ fs → t.mem = s.mem
  changeCount : Field.changeCount ∉ fs → t.changeCount = s.changeCount
  statusDirty : Field.statusDirty ∉ fs → t.statusDirty = s.statusDirty
  freeCount : Field.freeCount ∉ fs → t.freeCount = s.freeCount
  pending : Field.pending ∉ fs → t.pending = s.pending

namespace Frame

theorem refl (fs : List Field) (s : State) : Frame fs s s := by constructor <;> intro _ <;> rfl

theorem trans {fs : List Field} {s t u : State} (h : Frame fs s t) (k : Frame fs t u) : Frame fs s u where
  inReset n := (k.inReset n).trans (h.inReset n)
  ms n := (k.ms n).trans (h.ms n)
  scan n := (k.scan n).trans (h.scan n)
  keys n := (k.keys n).trans (h.keys n)
  keymap n := (k.keymap n).trans (h.keymap n)
  steer n := (k.steer n).trans (h.steer n)
  chords n := (k.chords n).trans (h.chords n)
  rep n := (k.rep n).trans (h.rep n)
  wake n := (k.wake n).trans (h.wake n)
  log n := (k.log n).trans (h.log n)
  bus n := (k.bus n).trans (h.bus n)
  motion n := (k.motion n).trans (h.motion n)
  latch n := (k.latch n).trans (h.latch n)
  legend n := (k.legend n).trans (h.legend n)
  ind n := (k.ind n).trans (h.ind n)
  light n := (k.light n).trans (h.light n)
  supply n := (k.supply n).trans (h.supply n)
  link n := (k.link n).trans (h.link n)
  irq n := (k.irq n).trans (h.irq n)
  req n := (k.req n).trans (h.req n)
  mem n := (k.mem n).trans (h.mem n)
  changeCount n := (k.changeCount n).trans (h.changeCount n)
  statusDirty n := (k.statusDirty n).trans (h.statusDirty n)
  freeCount n := (k.freeCount n).trans (h.freeCount n)
  pending n := (k.pending n).trans (h.pending n)

theorem mono {gs fs : List Field} {s t : State} (h : Frame gs s t) (w : within gs fs = true) : Frame fs s t where
  inReset n := h.inReset fun m => n (within_mem w m)
  ms n := h.ms fun m => n (within_mem w m)
  scan n := h.scan fun m => n (within_mem w m)
  keys n := h.keys fun m => n (within_mem w m)
  keymap n := h.keymap fun m => n (within_mem w m)
  steer n := h.steer fun m => n (within_mem w m)
  chords n := h.chords fun m => n (within_mem w m)
  rep n := h.rep fun m => n (within_mem w m)
  wake n := h.wake fun m => n (within_mem w m)
  log n := h.log fun m => n (within_mem w m)
  bus n := h.bus fun m => n (within_mem w m)
  motion n := h.motion fun m => n (within_mem w m)
  latch n := h.latch fun m => n (within_mem w m)
  legend n := h.legend fun m => n (within_mem w m)
  ind n := h.ind fun m => n (within_mem w m)
  light n := h.light fun m => n (within_mem w m)
  supply n := h.supply fun m => n (within_mem w m)
  link n := h.link fun m => n (within_mem w m)
  irq n := h.irq fun m => n (within_mem w m)
  req n := h.req fun m => n (within_mem w m)
  mem n := h.mem fun m => n (within_mem w m)
  changeCount n := h.changeCount fun m => n (within_mem w m)
  statusDirty n := h.statusDirty fun m => n (within_mem w m)
  freeCount n := h.freeCount fun m => n (within_mem w m)
  pending n := h.pending fun m => n (within_mem w m)

/-- One more operation after others. -/
theorem next {gs fs : List Field} {s t u : State} (h : Frame fs s t) (k : Frame gs t u) (w : within gs fs = true) :
    Frame fs s u := h.trans (k.mono w)

end Frame

theorem setInReset_frame (s : State) (x) : Frame [.inReset] s (s.setInReset x) := by constructor <;> simp
theorem setMs_frame (s : State) (x) : Frame [.ms] s (s.setMs x) := by constructor <;> simp
theorem setScan_frame (s : State) (x) : Frame [.scan] s (s.setScan x) := by constructor <;> simp
theorem setKeys_frame (s : State) (x) : Frame [.keys] s (s.setKeys x) := by constructor <;> simp
theorem setKeymap_frame (s : State) (x) : Frame [.keymap] s (s.setKeymap x) := by constructor <;> simp
theorem setSteer_frame (s : State) (x) : Frame [.steer] s (s.setSteer x) := by constructor <;> simp
theorem setChords_frame (s : State) (x) : Frame [.chords] s (s.setChords x) := by constructor <;> simp
theorem setRep_frame (s : State) (x) : Frame [.rep] s (s.setRep x) := by constructor <;> simp
theorem setWake_frame (s : State) (x) : Frame [.wake] s (s.setWake x) := by constructor <;> simp
theorem setLog_frame (s : State) (x) : Frame [.log] s (s.setLog x) := by constructor <;> simp
theorem setBus_frame (s : State) (x) : Frame [.bus] s (s.setBus x) := by constructor <;> simp
theorem setMotion_frame (s : State) (x) : Frame [.motion] s (s.setMotion x) := by constructor <;> simp
theorem setLatch_frame (s : State) (x) : Frame [.latch] s (s.setLatch x) := by constructor <;> simp
theorem setLegend_frame (s : State) (x) : Frame [.legend] s (s.setLegend x) := by constructor <;> simp
theorem setInd_frame (s : State) (x) : Frame [.ind] s (s.setInd x) := by constructor <;> simp
theorem setLight_frame (s : State) (x) : Frame [.light] s (s.setLight x) := by constructor <;> simp
theorem setSupply_frame (s : State) (x) : Frame [.supply] s (s.setSupply x) := by constructor <;> simp
theorem setLink_frame (s : State) (x) : Frame [.link] s (s.setLink x) := by constructor <;> simp
theorem setIrq_frame (s : State) (x) : Frame [.irq] s (s.setIrq x) := by constructor <;> simp
theorem setReq_frame (s : State) (x) : Frame [.req] s (s.setReq x) := by constructor <;> simp
theorem setMem_frame (s : State) (x) : Frame [.mem] s (s.setMem x) := by constructor <;> simp
theorem setChangeCount_frame (s : State) (x) : Frame [.changeCount] s (s.setChangeCount x) := by constructor <;> simp
theorem setStatusDirty_frame (s : State) (x) : Frame [.statusDirty] s (s.setStatusDirty x) := by constructor <;> simp
theorem setFreeCount_frame (s : State) (x) : Frame [.freeCount] s (s.setFreeCount x) := by constructor <;> simp
theorem setPending_frame (s : State) (x) : Frame [.pending] s (s.setPending x) := by constructor <;> simp

/-! ### Interrupt and status block -/

theorem vectorDue_frame (s : State) : Frame [.irq] s (vectorDue s) := by
  unfold vectorDue
  split
  · exact setIrq_frame _ _
  · exact setIrq_frame _ _
  · exact .refl _ _

theorem raiseCause_frame (c : Cause) (s : State) : Frame [.irq] s (raiseCause c s) := by
  unfold raiseCause
  split
  · exact .refl _ _
  · dsimp only
    split
    · exact (setIrq_frame _ _).trans (vectorDue_frame _)
    · exact setIrq_frame _ _

theorem touchStatus_frame (s : State) : Frame [.statusDirty] s (touchStatus s) := setStatusDirty_frame _ _

theorem touchAndRaise_frame (s : State) : Frame [.statusDirty, .irq] s (touchAndRaise s) :=
  ((touchStatus_frame s).mono rfl).next (raiseCause_frame _ _) rfl

theorem endEvent_frame (s : State) : Frame [.statusDirty, .changeCount] s (endEvent s) := by
  unfold endEvent
  split
  · exact ((setStatusDirty_frame _ _).mono rfl).next (setChangeCount_frame _ _) rfl
  · exact .refl _ _

/-! ### The event log -/

/-- What the log's operations may change. -/
abbrev logTouched : List Field := [.log, .mem, .irq, .statusDirty]

theorem openPage_frame (i : Nat) (s : State) : Frame [.log, .mem] s (openPage i s) :=
  ((setMem_frame _ _).mono rfl).next (setLog_frame _ _) rfl

theorem lookAtPage_frame (i : Nat) (s : State) : Frame [.log, .mem] s (lookAtPage i s) := by
  unfold lookAtPage
  split
  · exact openPage_frame _ _
  · exact (setLog_frame _ _).mono rfl

theorem handOver_frame (i : Nat) (s : State) : Frame [.log, .mem, .irq] s (handOver i s) :=
  ((((setMem_frame _ _).mono rfl).next (setLog_frame _ _) rfl).next (raiseCause_frame _ _) rfl).next
    (lookAtPage_frame _ _) rfl

theorem placeOn_frame (p : OpenPage) (r : Record) (s : State) : Frame [.log, .mem, .irq] s (placeOn p r s) := by
  unfold placeOn
  dsimp only
  split
  · exact (((setMem_frame _ _).mono rfl).next (setLog_frame _ _) rfl).next (handOver_frame _ _) rfl
  · exact ((setMem_frame _ _).mono rfl).next (setLog_frame _ _) rfl

theorem loseRecord_frame (s : State) : Frame [.log, .irq, .statusDirty] s (loseRecord s) := by
  unfold loseRecord
  split
  · exact (setLog_frame _ _).mono rfl
  · exact ((setLog_frame _ _).mono rfl).next (touchAndRaise_frame _) rfl

/-- Appending a record changes the log, exchange memory, the interrupt and the status mark only. -/
theorem append_frame (r : Record) (s : State) : Frame logTouched s (append r s) := by
  unfold append
  split
  · split
    · exact (placeOn_frame _ _ _).mono rfl
    · split
      · exact (setLog_frame _ _).mono rfl
      · exact (loseRecord_frame _).mono rfl
  · exact .refl _ _

theorem appendAll_frame (rs : List Record) (s : State) : Frame logTouched s (appendAll rs s) := by
  induction rs generalizing s with
  | nil => exact .refl _ _
  | cons r rs ih => exact (append_frame r s).trans (ih _)

theorem drain_frame (rs : List Record) (s : State) : Frame logTouched s (drain rs s) := by
  induction rs generalizing s with
  | nil => exact .refl _ _
  | cons r rs ih =>
    unfold drain
    split
    · exact ((placeOn_frame _ _ _).mono rfl).trans (ih _)
    · exact (setLog_frame _ _).mono rfl

theorem writeSummary_frame (s : State) : Frame logTouched s (writeSummary s) :=
  (((setLog_frame _ _).mono rfl).next (appendAll_frame _ _) rfl).next (touchAndRaise_frame _) rfl

theorem pageReturned_frame (i : Nat) (s : State) : Frame logTouched s (pageReturned i s) := by
  unfold pageReturned
  dsimp only
  split
  · exact ((((openPage_frame _ _).mono rfl).next (setLog_frame _ _) rfl).next (drain_frame _ _) rfl).next
      (writeSummary_frame _) rfl
  · exact (((openPage_frame _ _).mono rfl).next (setLog_frame _ _) rfl).next (drain_frame _ _) rfl

theorem logLinkUp_frame (s : State) : Frame logTouched s (logLinkUp s) :=
  (((((setMem_frame _ _).mono rfl).next (setLog_frame _ _) rfl).next (openPage_frame _ _) rfl).next
    (touchStatus_frame _) rfl).next (append_frame _ _) rfl

theorem logLinkDown_frame (s : State) : Frame [.log, .statusDirty] s (logLinkDown s) :=
  ((setLog_frame _ _).mono rfl).next (touchStatus_frame _) rfl

end Sys2Proof.Machine
end

