-- ==== Sys2Proof/Laws/Moves.lean ====
section
/-! SUPPORT. What the part can do inside an event, said once: the elementary moves that every operation is made of, with
the fields each may change and what it may count on. An invariant kept by every move is kept by every operation. -/

set_option Elab.async false

namespace Sys2Proof.Machine

/-- The latched parts of the entries, in position order. -/
def KeyTable.latches (k : KeyTable) : List (Option Latched) := k.entries.map KeyEntry.latched?

/-- The elementary moves. The list names the fields that the move may change; the hypotheses say when it is made. -/
inductive Move : List Field → State → State → Prop where
  /-- an interrupt register, or the vector due -/
  | irq {s} (q : Interrupts) (h : q.held = true → s.irq.held = true ∨ s.link = .lowPower) : Move [.irq] s (s.setIrq q)
  | touch {s} : Move [.statusDirty] s (touchStatus s)
  | finish {s} : Move [.statusDirty, .changeCount] s (endEvent s)
  | append {s} (r : Record) : Move logTouched s (append r s)
  | handOver {s} (p : OpenPage) (h : s.log.page = some p) (n : 0 < p.count) : Move logTouched s (handOver p.index s)
  | returned {s} (i : Nat) (h : s.log.waiting = some i) : Move logTouched s (pageReturned i s)
  | flushDelay {s} (v : Nat) : Move [.log] s (s.setLog { s.log with flushDelay := v })
  | mem {s} (m : Memory) (h : s.mem.wf = true → m.wf = true) : Move [.mem] s (s.setMem m)
  | free {s} (n : Nat) : Move [.freeCount] s (s.setFreeCount n)
  /-- filter counts, physical states, scores, settings; conditions other than DOWN -/
  | keys {s} (k : KeyTable) (h : k.latches = s.keys.latches) (o : KeysOk s.keys → KeysOk k) : Move [.keys] s (s.setKeys k)
  | orphan {s} (p : Nat) : Move [.keys, .rep] s (orphan p s)
  /-- an entry takes a condition other than DOWN -/
  | leave {s} (c : Condition) (t : Time) (p : Nat) (h : ∀ l, c ≠ .down l) :
    Move [.keys, .rep, .legend] s (leaveDown c t p s)
  /-- every entry becomes UP, no repeat running -/
  | clear {s} (t : Time) (h : s.rep.running = none) :
    Move [.keys, .legend] s (evalShownSet t (mapEntries KeyEntry.cleared s))
  | keymap {s} (k : Keymap) : Move [.keymap] s (s.setKeymap k)
  /-- the steering unit; under the policy lock its table stays, and the lock is not taken back (R69, R70) -/
  | steer {s} (g : Steering) (h : s.steer.lock = true → g.lock = true ∧ g.table = s.steer.table) :
    Move [.steer] s (s.setSteer g)
  | chords {s} (c : Chords) (h : c.attention.isSome = true → s.chords.attention.isSome = true ∨ s.link ≠ .down) :
    Move [.chords] s (s.setChords c)
  | rep {s} (r : RepeatTimer) (h : KeysOk s.keys → RepeatOk s → RepeatOk (s.setRep r)) : Move [.rep] s (s.setRep r)
  | wake {s} (w : Wake) (h : WakeOk s → WakeOk (s.setWake w)) : Move [.wake] s (s.setWake w)
  /-- a change of the latch state; ASKED and RELEASING are entered from ASKED, or from LATCHED without lockout and
  cooldown -/
  | latch {s} (st : LatchState) (c : LatchCause) (t : Time)
    (h : st.place = .asked ∨ st.place = .releasing →
      s.latch.state.place = .asked ∨
        (s.latch.state.place = .latched ∧ s.motion.lockout = false ∧ s.latch.cooldown = none)) :
    Move [.latch, .wake, .log, .mem, .irq, .statusDirty] s (changeLatch st c t s)
  /-- the latch controller's other state -/
  | latchRest {s} (g : Latch) (e : g.state = s.latch.state) (h : LatchOk s → LatchOk (s.setLatch g)) :
    Move [.latch] s (s.setLatch g)
  /-- the vehicle bus receiver; under the policy lock its rate and the signal descriptions stay (R70) -/
  | bus {s} (b : VehicleBus)
    (h : s.steer.lock = true → b.rate = s.bus.rate ∧ b.signals.map Signal.desc = s.bus.signals.map Signal.desc) :
    Move [.bus] s (s.setBus b)
  | legend {s} (g : Legend) (h : g.shown = s.legend.shown) : Move [.legend] s (s.setLegend g)
  | evalShown {s} (t : Time) : Move [.legend] s (evalShownSet t s)
  | ind {s} (i : Indicators) : Move [.ind] s (s.setInd i)
  | light {s} (l : Lighting) (h : LightOk s.light → LightOk l) : Move [.light] s (s.setLight l)
  | supply {s} (g : Supply) (h : g.dip = s.supply.dip) : Move [.supply] s (s.setSupply g)
  | scan {s} (c : Scanner) (h : ScanOk s → ScanOk (s.setScan c)) : Move [.scan] s (s.setScan c)
  | req {s} (r : RequestUnit) (h : PointerOk s → PointerOk (s.setReq r)) : Move [.req] s (s.setReq r)

/-- A chain of moves of some kind that change listed fields only. -/
inductive Path (M : List Field → State → State → Prop) (fs : List Field) (s : State) : State → Prop where
  | refl : Path M fs s s
  | step {t u : State} {gs : List Field} (h : Path M fs s t) (m : M gs t u) (w : within gs fs = true) : Path M fs s u

namespace Path

variable {M N : List Field → State → State → Prop} {fs gs : List Field} {s t u : State}

theorem one (m : M gs s t) (w : within gs fs = true := by rfl) : Path M fs s t := .step .refl m w

/-- One operation after others. -/
theorem next (h : Path M fs s t) (k : Path M gs t u) (w : within gs fs = true := by rfl) : Path M fs s u := by
  induction k with
  | refl => exact h
  | step _ m w' ih => exact .step ih m (within_trans w' w)

/-- The last operation of a chain, and the chain before it. -/
theorem after (k : Path M gs t u) (h : Path M fs s t) (w : within gs fs = true := by rfl) : Path M fs s u := h.next k w

/-- The last move of a chain, and the chain before it. -/
theorem last (m : M gs t u) (h : Path M fs s t) (w : within gs fs = true := by rfl) : Path M fs s u := .step h m w

/-- An invariant that the moves keep is kept by a chain. -/
theorem keeps {P : State → Prop} (hM : ∀ gs s t, within gs fs = true → M gs s t → P s → P t) (h : Path M fs s t)
    (hs : P s) : P t := by
  induction h with
  | refl => exact hs
  | step _ m w ih => exact hM _ _ _ w m ih

theorem lift (hM : ∀ gs s t, M gs s t → N gs s t) (h : Path M fs s t) : Path N fs s t := by
  induction h with
  | refl => exact .refl
  | step _ m w ih => exact .step ih (hM _ _ _ m) w

theorem mono (h : Path M gs s t) (w : within gs fs = true := by rfl) : Path M fs s t := Path.next .refl h w

theorem frame (hM : ∀ gs s t, M gs s t → Frame gs s t) (h : Path M fs s t) : Frame fs s t := by
  induction h with
  | refl => exact .refl _ _
  | step _ m w ih => exact ih.next (hM _ _ _ m) w

end Path

/-! ### Frames of the moves -/

theorem beginTransfer_frame (t : Time) (s : State) : Frame [.legend] s (beginTransfer t s) := setLegend_frame _ _

theorem refreshNeed_frame (t : Time) (s : State) : Frame [.legend] s (refreshNeed t s) := by
  unfold refreshNeed
  split
  · exact (setLegend_frame _ _).trans (beginTransfer_frame _ _)
  · exact setLegend_frame _ _

theorem evalShownSet_frame (t : Time) (s : State) : Frame [.legend] s (evalShownSet t s) := by
  unfold evalShownSet
  split
  · exact .refl _ _
  · exact (setLegend_frame _ _).trans (refreshNeed_frame _ _)

theorem stopRepeatOf_frame (p : Nat) (s : State) : Frame [.rep] s (stopRepeatOf p s) := by
  unfold stopRepeatOf
  split
  · split
    · exact setRep_frame _ _
    · exact .refl _ _
  · exact .refl _ _

theorem orphan_frame (p : Nat) (s : State) : Frame [.keys, .rep] s (orphan p s) := by
  unfold orphan
  dsimp only
  split
  · split
    · exact ((setKeys_frame _ _).mono rfl).next (stopRepeatOf_frame _ _) rfl
    · exact .refl _ _
  · exact .refl _ _

theorem leaveDown_frame (c : Condition) (t : Time) (p : Nat) (s : State) :
    Frame [.keys, .rep, .legend] s (leaveDown c t p s) :=
  (((setKeys_frame _ _).mono rfl).next (stopRepeatOf_frame _ _) rfl).next (evalShownSet_frame _ _) rfl

theorem urgentWake_frame (t : Time) (s : State) : Frame [.wake] s (urgentWake t s) := by
  unfold urgentWake
  split
  · exact setWake_frame _ _
  · exact .refl _ _

theorem wakeToldLatch_frame (st : LatchState) (t : Time) (s : State) : Frame [.wake] s (wakeToldLatch st t s) := by
  cases st
  case asked => exact urgentWake_frame _ _
  case empty => exact setWake_frame _ _
  all_goals exact .refl _ _

theorem changeLatch_frame (st : LatchState) (c : LatchCause) (t : Time) (s : State) :
    Frame [.latch, .wake, .log, .mem, .irq, .statusDirty] s (changeLatch st c t s) :=
  ((((setLatch_frame _ _).mono rfl).next (append_frame _ _) rfl).next (touchAndRaise_frame _) rfl).next
    (wakeToldLatch_frame _ _ _) rfl

theorem Move.frame {fs : List Field} {s t : State} (m : Move fs s t) : Frame fs s t := by
  cases m with
  | irq q h => exact setIrq_frame _ _
  | touch => exact touchStatus_frame _
  | finish => exact endEvent_frame _
  | append r => exact append_frame _ _
  | handOver p h n => exact (handOver_frame _ _).mono rfl
  | returned i h => exact pageReturned_frame _ _
  | flushDelay v => exact setLog_frame _ _
  | mem m h => exact setMem_frame _ _
  | free n => exact setFreeCount_frame _ _
  | keys k h o => exact setKeys_frame _ _
  | orphan p => exact orphan_frame _ _
  | leave c t p h => exact leaveDown_frame _ _ _ _
  | clear t h => exact ((setKeys_frame _ _).mono rfl).next (evalShownSet_frame _ _) rfl
  | keymap k => exact setKeymap_frame _ _
  | steer g h => exact setSteer_frame _ _
  | chords c h => exact setChords_frame _ _
  | rep r h => exact setRep_frame _ _
  | wake w h => exact setWake_frame _ _
  | latch st c t h => exact changeLatch_frame _ _ _ _
  | latchRest g e h => exact setLatch_frame _ _
  | bus b h => exact setBus_frame _ _
  | legend g h => exact setLegend_frame _ _
  | evalShown t => exact evalShownSet_frame _ _
  | ind i => exact setInd_frame _ _
  | light l h => exact setLight_frame _ _
  | supply g h => exact setSupply_frame _ _
  | scan c h => exact setScan_frame _ _
  | req r h => exact setReq_frame _ _

theorem Path.sameFields {fs : List Field} {s t : State} (h : Path Move fs s t) : Frame fs s t :=
  h.frame fun _ _ _ m => m.frame

end Sys2Proof.Machine
end

