-- ==== Sys2Proof/Laws/Operations.lean ====
section
/-! SUPPORT. The shared operations as chains of moves: what each can change, said once. -/

set_option Elab.async false

namespace Sys2Proof.Machine

/-- A chain of elementary moves. -/
abbrev Way (fs : List Field) (s t : State) : Prop := Path Move fs s t

/-! ### Interrupt, status block, log -/

theorem vectorDue_way (s : State) : Way [.irq] s (vectorDue s) := by
  unfold vectorDue
  split
  · exact .one (.irq _ fun h => .inl h)
  · rename_i h; exact .one (.irq _ fun _ => .inr h)
  · exact .refl

theorem raiseCause_way (c : Cause) (s : State) : Way [.irq] s (raiseCause c s) := by
  unfold raiseCause
  split
  · exact .refl
  · dsimp only
    split
    · exact .after (vectorDue_way _) (.one (.irq _ fun h => .inl h))
    · exact .one (.irq _ fun h => .inl h)

theorem touchAndRaise_way (s : State) : Way [.statusDirty, .irq] s (touchAndRaise s) :=
  .after (raiseCause_way _ _) (.one .touch)

theorem append_way (r : Record) (s : State) : Way logTouched s (append r s) := .one (.append r)

theorem localRecord_way (c n : Nat) (t : Time) (s : State) : Way logTouched s (localRecord c n t s) := append_way _ _

/-! ### Legend driver -/

theorem beginTransfer_way (t : Time) (s : State) : Way [.legend] s (beginTransfer t s) := .one (.legend _ rfl)

theorem refreshNeed_way (t : Time) (s : State) : Way [.legend] s (refreshNeed t s) := by
  unfold refreshNeed
  split
  · exact .after (beginTransfer_way _ _) (.one (.legend _ rfl))
  · exact .one (.legend _ rfl)

theorem evalShownSet_way (t : Time) (s : State) : Way [.legend] s (evalShownSet t s) := .one (.evalShown t)

theorem stripAcknowledged_way (s : State) : Way [.legend, .statusDirty] s (stripAcknowledged s) := by
  unfold stripAcknowledged
  split
  · exact .refl
  · dsimp only
    have h1 : Way [.legend, .statusDirty] s (s.setLegend
        { s.legend with transfer := .idle, failures := 0, online := true, again := false, retry := none }) :=
      .one (.legend _ rfl)
    split <;> split
    · exact .after (beginTransfer_way _ _) h1
    · exact .after (beginTransfer_way _ _) (.last .touch h1)
    · exact h1
    · exact .last .touch h1

theorem transferFailed_way (t : Time) (s : State) : Way [.legend, .statusDirty] s (transferFailed t s) := by
  unfold transferFailed
  dsimp only
  split
  · exact .after (beginTransfer_way _ _) (.one (.legend _ rfl))
  · split
    · exact .last .touch (.last (.legend _ rfl) (.one (.legend _ rfl)))
    · exact .last (.legend _ rfl) (.one (.legend _ rfl))

/-! ### Lighting controller -/

theorem evalNight_way (s : State) : Way [.light, .statusDirty] s (evalNight s) := by
  unfold evalNight
  dsimp only
  split
  · exact .refl
  · exact .last .touch (.one (.light _ id))

theorem setPanelStep_way (n : Nat) (s : State) (h : LightOk s.light → n ≤ 15) :
    Way [.light, .statusDirty] s (setPanelStep n s) := by
  unfold setPanelStep
  split
  · exact .refl
  · exact .last .touch (.one (.light _ fun k => ⟨⟨h k, k.1.2⟩, k.2⟩))

theorem setKeysStep_way (n : Nat) (s : State) (h : LightOk s.light → n ≤ 15) :
    Way [.light, .statusDirty] s (setKeysStep n s) := by
  unfold setKeysStep
  split
  · exact .refl
  · exact .last .touch (.one (.light _ fun k => ⟨⟨k.1.1, h k, k.1.2.2⟩, k.2⟩))

theorem keylightNext_le (n : Nat) : keylightNext n ≤ 15 := by
  unfold keylightNext
  repeat' split
  all_goals omega

theorem setLegendStep_way (n : Nat) (s : State) (h : LightOk s.light → n ≤ 15) :
    Way [.light, .statusDirty] s (setLegendStep n s) := by
  unfold setLegendStep
  split
  · exact .refl
  · exact .last .touch (.one (.light _ fun k => ⟨⟨k.1.1, k.1.2.1, h k⟩, k.2⟩))

theorem setNightMode_way (m : NightMode) (s : State) : Way [.light, .statusDirty] s (setNightMode m s) :=
  .after (evalNight_way _) (.one (.light _ id))

theorem setOutputs_way (a b c : Nat) (s : State) (h : LightOk s.light → a ≤ 1000 ∧ b ≤ 1000 ∧ c ≤ 1000) :
    Way [.light, .statusDirty] s (setOutputs a b c s) := by
  unfold setOutputs
  dsimp only
  split
  · exact .one (.light _ fun k => ⟨k.1, h k, k.2.2⟩)
  · exact .last .touch (.one (.light _ fun k => ⟨k.1, h k, k.2.2⟩))

/-- A target duty is 0-1000 while the lighting controller is in its ranges (R167, R172). -/
theorem targetDuty_le {l : Lighting} (h : LightOk l) (dip : Bool) (c : Channel) : targetDuty l dip c ≤ 1000 := by
  obtain ⟨-, -, ⟨-, hl, -⟩, ⟨-, -, hp, hm, -⟩, -⟩ := h
  have h1 : l.levels.getD c.step 0 ≤ 1000 := by
    by_cases hc : c.step < l.levels.length
    · rw [List.getD_eq_getElem _ _ hc]; exact hl _ (List.getElem_mem hc)
    · rw [List.getD_eq_default _ _ (by omega)]; omega
  have h2 : l.levels.getD c.step 0 * (if l.night then l.limits.nightPct else 100) / 100 ≤ 1000 := by
    have h3 : (if l.night then l.limits.nightPct else 100) ≤ 100 := by split <;> omega
    have := Nat.mul_le_mul h1 h3
    omega
  unfold targetDuty
  dsimp only
  generalize l.levels.getD c.step 0 * (if l.night then l.limits.nightPct else 100) / 100 = t at h2 ⊢
  split <;> split <;> omega

theorem outputsToTargets_way (s : State) : Way [.light, .statusDirty] s (outputsToTargets s) :=
  setOutputs_way _ _ _ _ fun h => ⟨targetDuty_le h _ _, targetDuty_le h _ _, targetDuty_le h _ _⟩

theorem updateOutputs_way (s : State) : Way [.light, .statusDirty] s (updateOutputs s) := by
  refine setOutputs_way _ _ _ _ fun h => ?_
  have hs (target output : Nat) (k : target ≤ 1000) (o : output ≤ 1000) :
      slewed s.light.limits.slew target output ≤ 1000 := by
    unfold slewed; split <;> omega
  exact ⟨hs _ _ (targetDuty_le h _ _) h.2.1.1, hs _ _ (targetDuty_le h _ _) h.2.1.2.1, hs _ _ (targetDuty_le h _ _) h.2.1.2.2⟩

theorem takeAmbient_way (rs : List Nat) (s : State) (h : LightOk s.light → rs.length = 8) :
    Way [.light, .statusDirty] s (takeAmbient rs s) := by
  unfold takeAmbient
  dsimp only
  split
  · exact .one (.light _ fun k => ⟨k.1, k.2.1, k.2.2.1, k.2.2.2.1, h k⟩)
  · exact .after (evalNight_way _) (.last .touch (.one (.light _ fun k => ⟨k.1, k.2.1, k.2.2.1, k.2.2.2.1, h k⟩)))

/-! ### Wake unit -/

theorem assertWake_way (t : Time) (s : State) (h : wakeApplies s = true) : Way [.wake] s (assertWake t s) :=
  .one (.wake _ fun _ _ => h)

theorem urgentWake_way (t : Time) (s : State) : Way [.wake] s (urgentWake t s) := by
  unfold urgentWake
  split
  · exact assertWake_way t s ‹_›
  · exact .refl

theorem releaseWake_way (s : State) : Way [.wake] s (releaseWake s) := .one (.wake _ fun _ h => by simp at h)

theorem wakeNotice_way (p : Nat) (q : Bool) (t : Time) (s : State) : Way [.wake] s (wakeNotice p q t s) := by
  unfold wakeNotice
  split
  · rename_i h
    rw [Bool.and_eq_true] at h
    exact .one (.wake _ fun _ _ => h.2)
  · exact .refl

/-! ### Repeat timer and key table -/

theorem stopRepeat_way (s : State) : Way [.rep] s (stopRepeat s) := .one (.rep _ fun _ _ => by simp [RepeatOk])

theorem forceRelease_way (c : ReleaseCause) (t : Time) (p : Nat) (s : State) :
    Way [.keys, .rep, .log, .mem, .irq, .statusDirty] s (forceRelease c t p s) := by
  unfold forceRelease
  split
  · split
    · exact .after (.one (.orphan p) (fs := [.keys, .rep])) ((append_way _ _).mono)
    · exact .refl
  · exact .refl

theorem releaseEntry_way (l : Latched) (t : Time) (p : Nat) (s : State) :
    Way [.keys, .rep, .legend, .log, .mem, .irq, .statusDirty] s (releaseEntry l t p s) := by
  unfold releaseEntry
  dsimp only
  split
  · exact .last (.leave _ _ _ (by simp)) ((append_way _ _).mono)
  · exact .one (.leave _ _ _ (by simp))

theorem quarantine_way (t : Time) (p : Nat) (s : State) :
    Way [.keys, .rep, .legend, .log, .mem, .irq, .statusDirty] s (quarantine t p s) :=
  .last .touch (.after (append_way _ _) (.last (.leave .quarantined _ _ (by simp)) ((forceRelease_way _ _ _ _).mono)))

theorem forPositions_way {fs : List Field} (ps : List Nat) (f : Nat → State → State) (s : State)
    (h : ∀ p ∈ ps, ∀ s, Way fs s (f p s)) : Way fs s (forPositions ps f s) := by
  induction ps generalizing s with
  | nil => exact .refl
  | cons p ps ih =>
    have w : within fs fs = true := within_of_mem fun _ h => h
    exact (h p (by simp) s).next (ih (f p s) fun q hq => h q (by simp [hq])) w

theorem latches_map (k : KeyTable) (f : KeyEntry → KeyEntry) (h : ∀ e, (f e).latched? = e.latched?) :
    KeyTable.latches { k with entries := k.entries.map f } = k.latches := by
  simp only [KeyTable.latches, List.map_map]
  exact List.map_congr_left fun e _ => h e

theorem latches_set (k : KeyTable) (p : Nat) (e : KeyEntry) (h : e.latched? = (k.entries.getD p KeyEntry.reset).latched?) :
    KeyTable.latches { k with entries := k.entries.set p e } = k.latches := by
  simp only [KeyTable.latches, List.map_set, h]
  by_cases hp : p < k.entries.length
  · apply List.ext_getElem (by simp)
    intro i h1 h2
    rw [List.getElem_set]
    split
    · subst p; simp [hp]
    · rfl
  · rw [List.set_eq_of_length_le (by simpa using hp)]

theorem KeysOk.mapEntries {k : KeyTable} (h : KeysOk k) (f : KeyEntry → KeyEntry)
    (hf : ∀ e, e.filter ≤ 7 → e.score ≤ k.settings.limit → (f e).filter ≤ 7 ∧ (f e).score ≤ k.settings.limit) :
    KeysOk { k with entries := k.entries.map f } := by
  obtain ⟨a, b, c, d, d2, e⟩ := h
  refine ⟨by simpa using a, b, c, d, d2, fun x hx => ?_⟩
  obtain ⟨y, hy, rfl⟩ := List.mem_map.1 hx
  exact hf y (e y hy).1 (e y hy).2

theorem KeysOk.setEntry {k : KeyTable} (h : KeysOk k) (p : Nat) (x : KeyEntry)
    (hx : x.filter ≤ 7 ∧ x.score ≤ k.settings.limit) : KeysOk { k with entries := k.entries.set p x } := by
  obtain ⟨a, b, c, d, d2, e⟩ := h
  refine ⟨by simpa using a, b, c, d, d2, fun y hy => ?_⟩
  rcases List.mem_or_eq_of_mem_set hy with hy | rfl
  · exact e y hy
  · exact hx

theorem KeysOk.entry {k : KeyTable} (h : KeysOk k) (p : Nat) :
    (k.entries.getD p KeyEntry.reset).filter ≤ 7 ∧ (k.entries.getD p KeyEntry.reset).score ≤ k.settings.limit := by
  by_cases hp : p < k.entries.length
  · rw [List.getD_eq_getElem _ _ hp]; exact h.2.2.2.2.2 _ (List.getElem_mem hp)
  · rw [List.getD_eq_default _ _ (by omega)]; simp [KeyEntry.reset]

theorem entry_putEntry_self (s : State) (p : Nat) (e : KeyEntry) (h : p < s.keys.entries.length) :
    (s.putEntry p e).entry p = e := by
  simp [State.entry, State.putEntry, h]

theorem entry_putEntry_other (s : State) (p q : Nat) (e : KeyEntry) (h : p ≠ q) :
    (s.putEntry p e).entry q = s.entry q := by
  simp [State.entry, State.putEntry, List.getElem?_set_ne h]

/-- An entry is replaced by one with the same latched part and counts in range. -/
theorem putEntry_way (p : Nat) (e : KeyEntry) (s : State) (h : e.latched? = (s.entry p).latched?)
    (hk : KeysOk s.keys → e.filter ≤ 7 ∧ e.score ≤ s.keys.settings.limit) : Way [.keys] s (s.putEntry p e) :=
  .one (.keys _ (latches_set _ _ _ h) fun k => k.setEntry p e (hk k))

/-- Every entry is changed alike, latched parts kept and counts in range. -/
theorem mapEntries_way (f : KeyEntry → KeyEntry) (s : State) (h : ∀ e, (f e).latched? = e.latched?)
    (hk : ∀ e : KeyEntry, e.filter ≤ 7 → e.score ≤ s.keys.settings.limit →
      (f e).filter ≤ 7 ∧ (f e).score ≤ s.keys.settings.limit) : Way [.keys] s (mapEntries f s) :=
  .one (.keys _ (latches_map _ _ h) fun k => k.mapEntries f hk)

theorem zeroFilters_way (s : State) : Way [.keys] s (zeroFilters s) :=
  mapEntries_way _ _ (fun _ => rfl) fun _ _ h => ⟨by simp, h⟩

theorem KeysOk.clearCounter {k : KeyTable} (h : KeysOk k) : KeysOk { k with decayCounter := 0 } :=
  ⟨h.1, h.2.1, h.2.2.1, h.2.2.2.1, ⟨h.2.2.2.2.1.1, h.2.2.2.2.1.2.1, Nat.zero_lt_succ 254⟩, h.2.2.2.2.2⟩

theorem countFrame_way (s : State) : Way [.keys] s (countFrame s) := by
  unfold countFrame
  split
  · exact .last (.keys _ rfl KeysOk.clearCounter)
      (mapEntries_way _ _ (fun _ => rfl) fun e h h' => ⟨h, le_trans (Nat.sub_le _ _) h'⟩)
  · rename_i hn
    refine .one (.keys _ rfl fun h => ⟨h.1, h.2.1, h.2.2.1, h.2.2.2.1, ⟨h.2.2.2.2.1.1, h.2.2.2.2.1.2.1, ?_⟩, h.2.2.2.2.2⟩)
    have := h.2.2.2.2.1.2.1
    simp only [KeyTable.decaysNext, decide_eq_true_eq] at hn
    show s.keys.decayCounter + 1 < 255
    omega

/-! ### Latch controller -/

theorem changeLatch_way (st : LatchState) (c : LatchCause) (t : Time) (s : State)
    (h : st.place = .asked ∨ st.place = .releasing →
      s.latch.state.place = .asked ∨
        (s.latch.state.place = .latched ∧ s.motion.lockout = false ∧ s.latch.cooldown = none)) :
    Way [.latch, .wake, .log, .mem, .irq, .statusDirty] s (changeLatch st c t s) := .one (.latch st c t h)

/-- What the latch controller's operations may change. -/
abbrev latchTouched : List Field := [.latch, .wake, .log, .mem, .irq, .statusDirty]

theorem bySense_place (g : Latch) : (bySense g).place ≠ .asked ∧ (bySense g).place ≠ .releasing ∧ (bySense g).place ≠ .empty := by
  unfold bySense
  split <;> simp [LatchState.place]

theorem releaseRequest_way (src : PressSource) (t : Time) (s : State) :
    Way latchTouched s (releaseRequest src t s) := by
  unfold releaseRequest
  split
  · rename_i hl
    split
    · rename_i e he
      refine .one (.latchRest _ rfl fun h => ⟨?_, ?_⟩)
      · simp [hl, LatchState.place]
      · simp [hl, he, LatchState.place]
    · rename_i he
      split
      · exact (append_way _ _).mono
      · rename_i hm
        exact changeLatch_way _ _ _ _ fun _ => .inr ⟨by simp [hl, LatchState.place], by simpa using hm, he⟩
  · exact .refl

theorem startRelease_way (c : LatchCause) (t : Time) (s : State)
    (h : s.latch.state.place = .asked ∨
      (s.latch.state.place = .latched ∧ s.motion.lockout = false ∧ s.latch.cooldown = none)) :
    Way latchTouched s (startRelease c t s) := changeLatch_way _ _ _ _ fun _ => h

theorem latchLockout_way (t : Time) (s : State) : Way latchTouched s (latchLockout t s) := by
  unfold latchLockout
  split
  · exact changeLatch_way _ _ _ _ (by simp [LatchState.place])
  · exact changeLatch_way _ _ _ _ fun h => by have := bySense_place s.latch; tauto
  · exact .refl

theorem presentMoved_way (t : Time) (s : State) : Way latchTouched s (presentMoved t s) := by
  unfold presentMoved
  split <;> split
  · exact changeLatch_way _ _ _ _ fun h => by have := bySense_place s.latch; tauto
  · exact .refl
  · exact .refl
  all_goals exact changeLatch_way _ _ _ _ (by simp [LatchState.place])

theorem senseMoved_way (t : Time) (s : State) : Way latchTouched s (senseMoved t s) := by
  unfold senseMoved
  split <;> split
  · exact changeLatch_way _ _ _ _ (by simp [LatchState.place])
  · exact .refl
  · exact changeLatch_way _ _ _ _ (by simp [LatchState.place])
  · exact changeLatch_way _ _ _ _ (by simp [LatchState.place])
  · exact .refl

theorem latchInputs_way (s : State) (g : Latch) (h : g.state = s.latch.state) (k : g.cooldown = s.latch.cooldown)
    (q : g.heldPress = s.latch.heldPress) : Way latchTouched s (s.setLatch g) := by
  refine .one (.latchRest g h fun hs => ?_)
  simpa [LatchOk, h, k, q] using hs

theorem takePresentChange_way (s : State) : Way latchTouched s (takePresentChange s) := by
  unfold takePresentChange
  split
  · exact .after (presentMoved_way _ _) (latchInputs_way s _ rfl rfl rfl)
  · exact .refl

theorem takeSenseChange_way (s : State) : Way latchTouched s (takeSenseChange s) := by
  unfold takeSenseChange
  split
  · exact .after (senseMoved_way _ _) (latchInputs_way s _ rfl rfl rfl)
  · exact .refl

theorem takeButtonPress_way (s : State) : Way latchTouched s (takeButtonPress s) := by
  unfold takeButtonPress
  split
  · split
    · exact .refl
    · exact .after (releaseRequest_way _ _ _) (latchInputs_way s _ rfl rfl rfl)
  · exact .refl

theorem takeButtonRelease_way (s : State) : Way latchTouched s (takeButtonRelease s) := by
  unfold takeButtonRelease
  split
  · split
    · exact latchInputs_way s _ rfl rfl rfl
    · exact .refl
  · exact .refl

/-- The latch controller's fields and the change count. -/
abbrev latchEvents : List Field := [.latch, .wake, .log, .mem, .irq, .statusDirty, .changeCount]

theorem takeDueChanges_way (s : State) : Way latchEvents s (takeDueChanges s) :=
  .last .finish (.after (takeButtonRelease_way _) (.last .finish (.after (takeButtonPress_way _)
    (.last .finish (.after (takeSenseChange_way _) (.last .finish ((takePresentChange_way _).mono)))))))

theorem cooldownExpired_way (t : Time) (s : State) :
    Way latchTouched s (cooldownExpired t s) := by
  have h1 : Way latchTouched s (s.setLatch { s.latch with cooldown := none, heldPress := none }) :=
    .one (.latchRest _ rfl fun h => ⟨fun k => by simpa using (h.1 k).1, by simp⟩)
  unfold cooldownExpired
  dsimp only
  split
  · exact .after (releaseRequest_way _ _ _) h1
  · exact h1

/-! ### Request unit -/

theorem takeCell_way (n : Nat) (hn : n < 8) (s : State) : Way [.mem, .req] s (takeCell n s) :=
  .last (.req _ fun _ => hn) (.one (.mem _ fun h => Memory.wf_write h _ _))

theorem postedCell_lt (s : State) (n : Nat) (h : postedCell s = some n) : n < 8 := by
  have := List.mem_of_find?_eq_some h
  simp only [searchOrder, List.mem_map, List.mem_range] at this
  omega

theorem examine_way (s : State) : Way [.mem, .req] s (examine s) := by
  unfold examine
  split
  · exact .refl
  · split
    · exact takeCell_way _ (postedCell_lt _ _ ‹_›) _
    · exact .refl

theorem writeReply_wf (n : Nat) (r : Reply) (m : Memory) (h : m.wf = true) : (writeReply n r m).wf = true :=
  Memory.wf_write (Memory.wf_writeBytes (Memory.wf_writeBytes h _ _) _ _) _ _

theorem complete_way (q : Request) (r : Reply) (s : State) : Way [.mem, .req, .irq] s (complete q r s) := by
  unfold complete
  dsimp only
  have h1 : Way [.mem, .req, .irq] s (s.setMem (writeReply s.req.pointer r s.mem)) :=
    .one (.mem _ (writeReply_wf _ _ _))
  have h2 (u : State) : Way [.mem, .req, .irq] u (examine (u.setReq { u.req with current := none })) :=
    .after (examine_way _) (.one (.req _ id))
  split
  · exact h2 s
  · split
    · exact .after (h2 _) (.after (raiseCause_way _ _) h1)
    · exact .after (h2 _) h1

/-! ### Chord unit -/

/-- What attention may change. -/
abbrev attentionTouched : List Field := [.chords, .rep, .wake, .log, .mem, .irq, .statusDirty]

theorem beginAttention_way (k : Nat) (s : State) (h : s.link ≠ .down) : Way attentionTouched s (beginAttention k s) :=
  .after (urgentWake_way _ _) (.after (stopRepeat_way _) (.after (touchAndRaise_way _) (.after (append_way _ _)
    (.one (.chords _ fun _ => .inr h)))))

theorem endAttention_way (c : EndCause) (t : Time) (s : State) :
    Way [.chords, .log, .mem, .irq, .statusDirty] s (endAttention c t s) := by
  unfold endAttention
  split
  · exact .after (touchAndRaise_way _) (.after (append_way _ _) (.one (.chords _ (by simp))))
  · exact .refl

theorem dropAttention_way (s : State) : Way [.chords, .statusDirty] s (dropAttention s) := by
  unfold dropAttention
  split
  · exact .last .touch (.one (.chords _ (by simp)))
  · exact .refl

/-! ### Steering unit -/

theorem countWithheld_way (w : Withheld) (s : State) : Way [.steer, .statusDirty] s (countWithheld w s) := by
  have h (g : Steering) (k : g.lock = s.steer.lock ∧ g.table = s.steer.table) :
      Way [.steer, .statusDirty] s (if g = s.steer then s else touchStatus (s.setSteer g)) := by
    split
    · exact .refl
    · exact .last .touch (.one (.steer _ fun l => ⟨k.1.trans l, k.2⟩))
  exact h _ (by cases w <;> exact ⟨rfl, rfl⟩)

/-- What a dock function may change. -/
abbrev dockTouched : List Field := [.light, .latch, .wake, .log, .mem, .irq, .statusDirty]

theorem panelStep_way (c : Nat) (t : Time) (s : State) : Way dockTouched s (panelStep c t s) :=
  .after (localRecord_way _ _ _ _) ((setPanelStep_way _ _ fun h => by have := h.1.1; split <;> omega).mono)

theorem dockFunction_way (c : Nat) (t : Time) (s : State) : Way dockTouched s (dockFunction c t s) := by
  unfold dockFunction
  dsimp only
  split
  · exact panelStep_way _ _ _
  · split
    · exact .after (localRecord_way _ _ _ _) ((setKeysStep_way _ _ fun _ => keylightNext_le _).mono)
    · split
      · exact .after (localRecord_way _ _ _ _) ((setNightMode_way _ _).mono)
      · split
        · exact .after (localRecord_way _ _ _ _) ((releaseRequest_way _ _ _).mono)
        · exact .refl

theorem repeatNotice_way (p : Nat) (r : Route) (t : Time) (s : State)
    (h : KeysOk s.keys → ∃ l, (s.entry p).cond = .down l ∧ l.pressTime = t ∧ l.orphaned = false) :
    Way [.rep] s (repeatNotice p r t s) := by
  unfold repeatNotice
  split
  · rename_i he
    rw [Bool.and_eq_true] at he
    refine .one (.rep _ fun hk _ => ?_)
    obtain ⟨l, h1, h2, h3⟩ := h hk
    have : (s.setRep { s.rep with
      running := some { position := p, pressTime := t, delay := true, expiry := after t s.rep.delay }
      count := 0 }).entry p = s.entry p := rfl
    simp only [RepeatOk, State.setRep_rep, this, h1]
    exact ⟨he.1, h2, h3⟩
  · exact .refl

theorem dispatchRepeat_way (p n : Nat) (t : Time) (s : State) : Way dockTouched s (dispatchRepeat p n t s) := by
  unfold dispatchRepeat
  split
  · dsimp only
    split <;> split
    · exact .after (panelStep_way _ _ _) ((append_way _ _).mono)
    · exact panelStep_way _ _ _
    · exact (append_way _ _).mono
    · exact .refl
  · exact .refl

/-- What an expiry of the interval timer may change. -/
abbrev repeatTouched : List Field := [.rep, .light, .latch, .wake, .log, .mem, .irq, .statusDirty]

theorem repeatExpired_way (r : Repeating) (s : State) (h : s.rep.running = some r) :
    Way repeatTouched s (repeatExpired r s) := by
  refine .after (dispatchRepeat_way _ _ _ _) (.one (.rep _ fun _ k => ?_))
  simpa [RepeatOk, h, State.entry] using k

/-! ### Scanner -/

theorem maskPosition_way (t : Time) (p : Nat) (s : State) :
    Way [.keys, .rep, .legend, .log, .mem, .irq, .statusDirty] s (maskPosition t p s) := by
  unfold maskPosition
  dsimp only
  have last (u : State) : Way [.keys] u (u.putEntry p { u.entry p with pressed := false, filter := 0 }) :=
    putEntry_way _ _ _ rfl fun k => ⟨by simp, (k.entry p).2⟩
  split
  · exact .after (last _) (.last (.leave .up _ _ (by simp)) ((forceRelease_way _ _ _ _).mono))
  · rename_i hb
    have h1 : Way [.keys] s (s.putEntry p { s.entry p with cond := .up }) :=
      putEntry_way _ _ _ (by simp [KeyEntry.latched?, hb]) fun k => k.entry p
    exact .after (last _) h1.mono
  · exact (last _).mono
  · exact (last _).mono

/-- What a scan change may change. -/
abbrev scanTouched : List Field := [.scan, .keys, .rep, .legend, .log, .mem, .irq, .statusDirty]

theorem applyChange_way (c : ScanSettings) (s : State) : Way scanTouched s (applyChange c s) := by
  have last (u : State) : Way [.scan] u (u.setScan { u.scan with settings := c, change := none }) :=
    .one (.scan _ fun h n => ⟨(h n).1, (h n).2.1, by simp, (h n).2.2.2⟩)
  unfold applyChange
  dsimp only
  split
  · exact (last _).mono
  · have h1 := forPositions_way (newlyMasked s.scan.settings.mask c.mask) (maskPosition s.ms) s
      fun p _ u => maskPosition_way s.ms p u
    exact .after (last _) (.last (.scan _ fun h => h) h1.mono)

theorem applyPending_way (s : State) : Way scanTouched s (applyPending s) := by
  unfold applyPending
  split
  · exact applyChange_way _ _
  · exact .refl

theorem idleTest_way (f : List Sample) (s : State) : Way [.scan] s (idleTest f s) := .one (.scan _ fun h => h)

theorem enterHeld_frame (s : State) : Frame scanTouched s (enterHeld s) :=
  (((setScan_frame _ _).mono rfl).next (applyPending_way _).sameFields rfl).next (zeroFilters_way _).sameFields rfl

/-! ### Supply monitor -/

theorem lowerMinimum_way (mv : Nat) (s : State) : Way [.supply] s (lowerMinimum mv s) := .one (.supply _ rfl)

/-! ### Vehicle bus receiver -/

theorem putValue_way (i : Nat) (r : ValueRecord) (s : State) : Way [.bus] s (putValue i r s) := by
  refine .one (.bus _ fun _ => ⟨rfl, List.ext_getElem? fun j => ?_⟩)
  simp only [List.getElem?_map, List.getElem?_modify]
  cases s.bus.signals[j]? with
  | none => rfl
  | some g => simp only [Option.map_eq_map, Option.map_some]; split <;> rfl

/-! ### The samples of a frame -/

/-- The value that a slot puts at a position of its line. -/
theorem sampleSlot_getElem? (d : Nat) (reading : Byte) (f : List Sample) (p : Nat) :
    (sampleSlot d reading f)[p]? =
      if p / 8 = d ∧ p < f.length then some (if reading.getLsbD (p % 8) then .downRead else .upRead) else f[p]? := by
  have h : ∀ (ks : List Nat) (f : List Sample), (∀ k ∈ ks, k < 8) →
      (ks.foldl (fun f k => f.set (8 * d + k) (if reading.getLsbD k then .downRead else .upRead)) f)[p]? =
        if p / 8 = d ∧ p % 8 ∈ ks ∧ p < f.length then some (if reading.getLsbD (p % 8) then .downRead else .upRead)
        else f[p]? := by
    intro ks
    induction ks with
    | nil => intro f _; simp
    | cons k ks ih =>
      intro f hk
      have h8 : k < 8 := hk k (by simp)
      rw [List.foldl_cons, ih _ fun j hj => hk j (by simp [hj])]
      simp only [List.length_set, List.getElem?_set, List.mem_cons]
      by_cases h1 : p / 8 = d ∧ p % 8 ∈ ks ∧ p < f.length
      · have h2 : p / 8 = d ∧ (p % 8 = k ∨ p % 8 ∈ ks) ∧ p < f.length := ⟨h1.1, .inr h1.2.1, h1.2.2⟩
        rw [if_pos h1, if_pos h2]
      · rw [if_neg h1]
        by_cases h2 : 8 * d + k = p
        · have : p % 8 = k := by omega
          rw [if_pos h2, this]
          by_cases h3 : p < f.length
          · have h4 : p / 8 = d ∧ (k = k ∨ k ∈ ks) ∧ p < f.length := ⟨by omega, .inl rfl, h3⟩
            rw [if_pos (by omega), if_pos h4]
          · rw [if_neg (by omega), if_neg (by omega)]
            exact (List.getElem?_eq_none (by omega)).symm
        · rw [if_neg h2, if_neg]
          rintro ⟨a, b | b, c⟩
          · omega
          · exact h1 ⟨a, b, c⟩
  unfold sampleSlot
  rw [h _ _ fun k hk => List.mem_range.1 hk]
  simp only [List.mem_range, Nat.mod_lt _ (show 8 > 0 by omega), true_and]

/-- The frame that a pass delivers: at each position what its slot read, and NOT_SAMPLED on a masked line (R2, R3). -/
theorem frameSamples_eq (mask : BitVec 18) (readings : List Byte) :
    frameSamples mask readings = (List.range 144).map fun p =>
      if mask.getLsbD (p / 8) then
        if (readings.getD (p / 8) 0).getLsbD (p % 8) then .downRead else .upRead
      else .notSampled := by
  have h : ∀ (ds : List Nat) (f : List Sample), f.length = 144 →
      (ds.foldl (fun f d => sampleSlot d (readings.getD d 0) f) f).length = 144 ∧ ∀ p, p < 144 →
      (ds.foldl (fun f d => sampleSlot d (readings.getD d 0) f) f)[p]? =
        if p / 8 ∈ ds then some (if (readings.getD (p / 8) 0).getLsbD (p % 8) then .downRead else .upRead) else f[p]? := by
    intro ds
    induction ds with
    | nil => intro f hf; exact ⟨hf, fun p _ => by simp⟩
    | cons d ds ih =>
      intro f hf
      have hl : (sampleSlot d (readings.getD d 0) f).length = 144 := by
        unfold sampleSlot
        generalize List.range 8 = ks
        induction ks generalizing f with
        | nil => exact hf
        | cons k ks ih' => exact ih' _ (by simpa using hf)
      obtain ⟨a, b⟩ := ih _ hl
      refine ⟨a, fun p hp => ?_⟩
      rw [List.foldl_cons, b p hp, sampleSlot_getElem?]
      by_cases h1 : p / 8 ∈ ds
      · rw [if_pos h1, if_pos (List.mem_cons.2 (.inr h1))]
      · rw [if_neg h1]
        by_cases h2 : p / 8 = d
        · have h3 : p / 8 = d ∧ p < f.length := ⟨h2, by omega⟩
          rw [if_pos h3, if_pos (List.mem_cons.2 (.inl h2)), h2]
        · have h3 : p / 8 ∉ d :: ds := by simp [h1, h2]
          rw [if_neg fun x => h2 x.1, if_neg h3]
  obtain ⟨a, b⟩ := h (passSlots mask) _ (List.length_replicate (n := 144) (a := .notSampled))
  refine List.ext_getElem? fun p => ?_
  by_cases hp : p < 144
  · have hm : p / 8 ∈ passSlots mask ↔ mask.getLsbD (p / 8) = true := by
      simp [passSlots]; omega
    rw [frameSamples, b p hp]
    simp only [hm, List.getElem?_map, List.getElem?_range hp, Option.map_some, List.getElem?_replicate, hp, if_true]
    split <;> rfl
  · rw [frameSamples, List.getElem?_eq_none (by omega), List.getElem?_eq_none (by simp; omega)]
end Sys2Proof.Machine
end

