-- ==== Sys2Proof/Laws/Changes.lean ====
section
/-! SUPPORT. The changes that tie several blocks together (an accepted press, a change of motion, of the link, of the
supply), each one atom, and what it is made of inside. -/

set_option Elab.async false

namespace Sys2Proof.Machine

/-! ### An accepted press -/

/-- What an accepted press may change. -/
abbrev pressTouched : List Field :=
  [.steer, .keys, .light, .latch, .chords, .rep, .wake, .legend, .log, .mem, .irq, .statusDirty]

theorem withheldBy_none {s : State} {g : Segment} (h : g.forward = true) (w : withheldBy s g = .none) :
    s.keys.heldForward < rolloverLimit ∧ s.link ≠ .down := by
  simp only [withheldBy, h, Bool.not_true, Bool.false_eq_true, if_false] at w
  split at w
  · cases w
  · split at w
    · cases w
    · split at w
      · cases w
      · exact ⟨by omega, ‹_›⟩

/-- A press keeps forward only below the rollover limit and while the link is not DOWN (R57, steps 7 and 8). -/
theorem routeOf_forward (s : State) (c : Nat) (h : (routeOf s c).route.forward = true) :
    s.keys.heldForward < rolloverLimit ∧ s.link ≠ .down := by
  unfold routeOf at h
  dsimp only at h
  split at h
  · simp [Route.swallow] at h
  · split at h
    · simp [Route.swallow] at h
    · split at h
      · simp [Route.swallow] at h
      · simp only [segmentRoute, Bool.and_eq_true, beq_iff_eq] at h
        exact withheldBy_none h.1 h.2

/-- A press completes a chord only while the link is not DOWN (R57, step 2). -/
theorem routeOf_chord (s : State) (c : Nat) (h : (routeOf s c).chord.isSome = true) : s.link ≠ .down := by
  intro hd
  unfold routeOf at h
  simp only [hd, if_true] at h
  split at h
  · simp at h
  · split at h <;> simp [segmentRoute] at h

theorem handOnPress_way (p : Nat) (l : Latched) (o : RouteOutcome) (s : State) (h : KeysOk s.keys → (s.entry p).cond = .down l)
    (ho : l.orphaned = false) (hc : o.chord.isSome = true → s.link ≠ .down) : Way pressTouched s (handOnPress p l o s) := by
  unfold handOnPress
  extract_lets t s1 s2 s3 s4
  have w1 : Way [.log, .mem, .irq, .statusDirty] s s1 := by
    show Way _ s (if _ then _ else _)
    split
    · exact append_way _ _
    · exact .refl
  have w2 : Way [.light, .latch, .wake, .log, .mem, .irq, .statusDirty] s s2 := by
    show Way _ s (if _ then _ else _)
    split
    · exact .after (dockFunction_way _ _ _) w1.mono
    · exact w1.mono
  have w3 : Way [.light, .latch, .wake, .chords, .rep, .log, .mem, .irq, .statusDirty] s s3 := by
    show Way _ s (match o.chord with | some k => _ | none => _)
    split
    · rename_i k hk
      refine .after (beginAttention_way _ _ ?_) w2.mono
      rw [w2.sameFields.link (by decide)]
      exact hc (by simp [hk])
    · exact w2.mono
  have w4 : Way [.light, .latch, .wake, .chords, .rep, .log, .mem, .irq, .statusDirty] s s4 := by
    have hk := w3.sameFields.keys (by decide)
    refine .after (repeatNotice_way _ _ _ _ fun k => ⟨l, ?_, rfl, ho⟩) w3
    have : s3.entry p = s.entry p := by unfold State.entry; rw [hk]
    rw [this, h (hk ▸ k)]
  exact .after (evalShownSet_way _ _) (.after (wakeNotice_way _ _ _ _) w4.mono)

/-- The state in which an accepted press hands on: counted, and latched into its entry (R26). -/
def latchedPress (p : Nat) (s : State) : State :=
  let found := lookup s p
  let o := routeOf s found.1
  let l : Latched := { code := found.1, layer := found.2, route := o.route, orphaned := false, pressTime := s.ms }
  let s1 := countWithheld o.withheld s
  s1.putEntry p { s1.entry p with cond := .down l }

theorem latchedPress_frame (p : Nat) (s : State) : Frame [.steer, .keys, .statusDirty] s (latchedPress p s) :=
  ((countWithheld_way _ _).sameFields.mono rfl).next (setKeys_frame _ _) rfl

theorem acceptPress_way (p : Nat) (s : State) (hp : p < 144) :
    Way pressTouched (latchedPress p s) (acceptPress p s) := by
  unfold acceptPress latchedPress
  extract_lets found o l s1
  refine handOnPress_way p l o _ (fun k => ?_) rfl fun h => ?_
  · rw [entry_putEntry_self]
    have := k.1
    rw [State.putEntry, State.setKeys_keys] at this
    simp only [List.length_set] at this
    exact this ▸ hp
  · have := routeOf_chord _ _ h
    show s1.link ≠ _
    rwa [(countWithheld_way _ s).sameFields.link (by decide)]

/-! ### A change of motion -/

/-- What settling the motion state may change besides the motion unit. -/
abbrev settleTouched : List Field :=
  [.steer, .keys, .latch, .rep, .wake, .legend, .log, .mem, .irq, .statusDirty]

theorem engageAt_way (t : Time) (p : Nat) (s : State) :
    Way [.keys, .rep, .log, .mem, .irq, .statusDirty] s (engageAt t p s) := by
  unfold engageAt
  split
  · exact forceRelease_way _ _ _ _
  · exact .refl

theorem lockoutEngaged_way (t : Time) (s : State) : Way settleTouched s (lockoutEngaged t s) :=
  .after (evalShownSet_way _ _) (.after (latchLockout_way _ _)
    (forPositions_way positions (engageAt t) s fun p _ u => engageAt_way t p u).mono)

theorem lockoutEnded_way (t : Time) (s : State) : Way settleTouched s (lockoutEnded t s) :=
  .after (evalShownSet_way _ _) (.last .touch (.one (.steer _ fun l => ⟨l, rfl⟩)))

/-- The state with the lockout flag worked out afresh (R140). -/
def flagged (s : State) : State := s.setMotion { s.motion with lockout := lockoutOf s.motion }

theorem settleMotion_way (before : Motion) (t : Time) (s : State) :
    Way settleTouched (flagged s) (settleMotion before t s) := by
  unfold settleMotion
  extract_lets flag m s1 record s2
  have w : Way settleTouched s1 s2 := .after (touchAndRaise_way _) (append_way _ _).mono
  split
  · exact .refl
  · split
    · exact w
    · split
      · exact .after (lockoutEngaged_way _ _) w
      · exact .after (lockoutEnded_way _ _) w

/-! ### A change of the link -/

/-- What a link change may do after the log has restarted or gone DORMANT. -/
abbrev linkTouched : List Field :=
  [.steer, .keys, .chords, .rep, .wake, .legend, .ind, .irq, .req, .mem, .statusDirty]

theorem linkUpRequests_way (s : State) : Way linkTouched s (linkUpRequests s) :=
  .last (.irq _ fun h => .inl h) (.last (.req _ fun _ => by simp [PointerOk]) (.last (.req _ id)
    (.one (.mem _ fun h => Memory.wf_clear h _ _))))

theorem goUp_way (s : State) : Way linkTouched (logLinkUp (s.setLink .active)) (goUp s) :=
  .after (examine_way _) (.after (evalShownSet_way _ _) (.after (releaseWake_way _) (.last .touch
    (.after (linkUpRequests_way _) (.one (.steer _ fun l => ⟨l, rfl⟩))))))

theorem goDown_way (s : State) : Way linkTouched (logLinkDown (s.setLink .down)) (goDown s) :=
  .last (.irq _ fun h => by simp at h) (.after (evalShownSet_way _ _) (.last (.ind _) (.after (stopRepeat_way _)
    (.after (dropAttention_way _) (forPositions_way positions orphan _ fun p _ u => .one (.orphan p) rfl)))))

/-- What the end of LOW_POWER may change. -/
theorem bringActive_way (s : State) : Way [.wake, .irq] (s.setLink .active) (bringActive s) := by
  have h (u : State) : Way [.irq] u (sendHeldVector u) := by
    unfold sendHeldVector
    split
    · exact .one (.irq _ (by simp))
    · exact .refl
  exact .after (h _) (releaseWake_way _).mono

/-! ### A change of the supply state -/

/-- What a change of the supply state may do. -/
abbrev dipTouched : List Field :=
  [.scan, .keys, .rep, .legend, .light, .log, .mem, .irq, .statusDirty]

/-! ### The changes -/

/-- The elementary changes of an event: the moves, and the atoms of this file. -/
inductive Change : List Field → State → State → Prop where
  | move {fs s t} (m : Move fs s t) : Change fs s t
  | press {s} (p : Nat) (hp : p < 144) (h : ∀ l, (s.entry p).cond ≠ .down l) :
    Change pressTouched s (acceptPress p s)
  | settle {s} (m : Motion) (t : Time) (h : m.lockout = s.motion.lockout)
    (l : s.steer.lock = true → m.settings = s.motion.settings) :
    Change (.motion :: settleTouched) s (settleMotion s.motion t (s.setMotion m))
  | goUp {s} (h : s.link = .down) : Change (.link :: .log :: linkTouched) s (goUp s)
  | goDown {s} (h : s.link ≠ .down) : Change (.link :: .log :: linkTouched) s (goDown s)
  | lowPower {s} (h : s.link = .active) : Change [.link] s (s.setLink .lowPower)
  | bringActive {s} (h : s.link = .lowPower) : Change [.link, .wake, .irq] s (bringActive s)
  | startDip {s} (mv : Nat) (h : s.supply.dip = false) : Change (.supply :: dipTouched) s (startDip mv s)
  | endDip {s} (h : s.supply.dip = true) : Change (.supply :: dipTouched) s (endDip s)

/-- A chain of changes. -/
abbrev Run (fs : List Field) (s t : State) : Prop := Path Change fs s t

theorem Path.run {fs : List Field} {s t : State} (h : Path Move fs s t) : Run fs s t := h.lift fun _ _ _ m => .move m

theorem acceptPress_frame (p : Nat) (s : State) (hp : p < 144) : Frame pressTouched s (acceptPress p s) :=
  ((latchedPress_frame p s).mono rfl).next (acceptPress_way p s hp).sameFields rfl

theorem settleMotion_frame (before : Motion) (t : Time) (s : State) :
    Frame (.motion :: settleTouched) s (settleMotion before t s) :=
  ((setMotion_frame _ _).mono rfl).next (settleMotion_way before t s).sameFields rfl

theorem goUp_frame (s : State) : Frame (.link :: .log :: linkTouched) s (goUp s) :=
  (((setLink_frame _ _).mono rfl).next (logLinkUp_frame _) rfl).next (goUp_way s).sameFields rfl

theorem goDown_frame (s : State) : Frame (.link :: .log :: linkTouched) s (goDown s) :=
  (((setLink_frame _ _).mono rfl).next (logLinkDown_frame _) rfl).next (goDown_way s).sameFields rfl

theorem bringActive_frame (s : State) : Frame [.link, .wake, .irq] s (bringActive s) :=
  ((setLink_frame _ _).mono rfl).next (bringActive_way s).sameFields rfl

theorem startDip_frame (mv : Nat) (s : State) : Frame (.supply :: dipTouched) s (startDip mv s) :=
  (((((setSupply_frame _ _).mono rfl).next (append_frame _ _) rfl).next (touchAndRaise_frame _) rfl).next
    (enterHeld_frame _) rfl).next (outputsToTargets_way _).sameFields rfl

theorem endDip_frame (s : State) : Frame (.supply :: dipTouched) s (endDip s) :=
  ((((setSupply_frame _ _).mono rfl).next (append_frame _ _) rfl).next (touchAndRaise_frame _) rfl).next
    (setScan_frame _ _) rfl

theorem Change.frame {fs : List Field} {s t : State} (c : Change fs s t) : Frame fs s t := by
  cases c with
  | move m => exact m.frame
  | press p hp h => exact acceptPress_frame p s hp
  | settle m t h l => exact ((setMotion_frame _ _).mono rfl).next (settleMotion_frame _ _ _) rfl
  | goUp h => exact goUp_frame s
  | goDown h => exact goDown_frame s
  | lowPower h => exact setLink_frame _ _
  | bringActive h => exact bringActive_frame s
  | startDip mv h => exact startDip_frame mv s
  | endDip h => exact endDip_frame s

theorem Path.runFields {fs : List Field} {s t : State} (h : Path Change fs s t) : Frame fs s t :=
  h.frame fun _ _ _ m => m.frame

end Sys2Proof.Machine
end

