-- ==== Sys2Proof/Laws/LogLaws.lean ====
section
/-! SUPPORT. The event log, operation by operation: what each answers, and the two invariants it keeps, the canonical form
of exchange memory and the log's own (`LogOk`). -/

set_option Elab.async false

namespace Sys2Proof.Machine

/-! ### The canonical form -/

theorem Memory.wf_clearUnnamed {m : Memory} (i : Nat) (h : m.wf = true) : (clearUnnamed i m).wf = true :=
  Memory.wf_writeBytes (Memory.wf_write h _ _) _ _

/-- Clearing the unnamed bytes of a header: they read 0, and every other byte as before (R191). -/
theorem Memory.read_clearUnnamed (i : Nat) (m : Memory) (x : Nat) :
    (clearUnnamed i m).read x =
      if x = pageBase i + 3 ∨ (pageBase i + 8 ≤ x ∧ x < pageBase i + 16) then 0 else m.read x := by
  unfold clearUnnamed
  rw [Memory.read_writeBytes, List.length_replicate, Memory.read_write]
  by_cases h1 : pageBase i + 8 ≤ x ∧ x < pageBase i + 8 + 8
  · rw [if_pos h1, if_pos (.inr ⟨h1.1, by omega⟩)]
    rw [List.getD_eq_getElem?_getD, List.getElem?_replicate]
    split <;> rfl
  · rw [if_neg h1]
    by_cases h2 : x = pageBase i + 3
    · rw [if_pos h2, if_pos (.inl h2)]
    · rw [if_neg h2, if_neg (by omega)]

theorem openPage_mem {s : State} (i : Nat) (h : MemOk s) : MemOk (openPage i s) := by
  unfold openPage
  dsimp only [MemOk, State.setLog_mem, State.setMem_mem]
  exact Memory.wf_writeBytes (Memory.wf_write (Memory.wf_write (Memory.wf_clearUnnamed i h) _ _) _ _) _ _

theorem lookAtPage_mem {s : State} (i : Nat) (h : MemOk s) : MemOk (lookAtPage i s) := by
  unfold lookAtPage
  split
  · exact openPage_mem i h
  · exact h

theorem raiseCause_mem {s : State} (c : Cause) (h : MemOk s) : MemOk (raiseCause c s) := by
  unfold MemOk; rw [(raiseCause_frame c s).mem (by decide)]; exact h

theorem touchAndRaise_mem {s : State} (h : MemOk s) : MemOk (touchAndRaise s) := by
  unfold MemOk; rw [(touchAndRaise_frame s).mem (by decide)]; exact h

theorem handOver_mem {s : State} (i : Nat) (h : MemOk s) : MemOk (handOver i s) := by
  refine lookAtPage_mem _ (raiseCause_mem _ ?_)
  simp only [MemOk, State.setLog_mem, State.setMem_mem]
  exact Memory.wf_write (Memory.wf_writeBytes (Memory.wf_clearUnnamed i h) _ _) _ _

theorem placeOn_mem {s : State} (p : OpenPage) (r : Record) (h : MemOk s) : MemOk (placeOn p r s) := by
  have h1 : (((clearUnnamed p.index s.mem).writeBytes (pageBase p.index + 0x10 + 0x10 * p.count) r.bytes).write
      (pageBase p.index + 2) (BitVec.ofNat 8 (p.count + 1))).wf = true :=
    Memory.wf_write (Memory.wf_writeBytes (Memory.wf_clearUnnamed _ h) _ _) _ _
  unfold placeOn
  dsimp only
  generalize ((clearUnnamed p.index s.mem).writeBytes (pageBase p.index + 0x10 + 0x10 * p.count) r.bytes).write
      (pageBase p.index + 2) (BitVec.ofNat 8 (p.count + 1)) = m at h1 ⊢
  have h2 : (if r.body.isOverflow then m.write (pageBase p.index + 1) 1 else m).wf = true := by
    split
    · exact Memory.wf_write h1 _ _
    · exact h1
  split
  · exact handOver_mem _ h2
  · exact h2

theorem append_mem {s : State} (r : Record) (h : MemOk s) : MemOk (append r s) := by
  unfold append
  split
  · split
    · exact placeOn_mem _ _ h
    · split
      · exact h
      · unfold loseRecord
        split
        · exact h
        · exact touchAndRaise_mem (s := s.setLog _) h
  · exact h

theorem appendAll_mem {s : State} (rs : List Record) (h : MemOk s) : MemOk (appendAll rs s) := by
  induction rs generalizing s with
  | nil => exact h
  | cons r rs ih => exact ih (append_mem r h)

theorem drain_mem {s : State} (rs : List Record) (h : MemOk s) : MemOk (drain rs s) := by
  induction rs generalizing s with
  | nil => exact h
  | cons r rs ih =>
    unfold drain
    split
    · exact ih (placeOn_mem _ _ h)
    · exact h

theorem writeSummary_mem {s : State} (h : MemOk s) : MemOk (writeSummary s) :=
  touchAndRaise_mem (appendAll_mem (s := s.setLog _) _ h)

theorem pageReturned_mem {s : State} (i : Nat) (h : MemOk s) : MemOk (pageReturned i s) := by
  have h1 : MemOk (drain s.log.queue ((openPage i s).setLog { (openPage i s).log with queue := [] })) :=
    drain_mem (s := (openPage i s).setLog _) _ (openPage_mem i h)
  unfold pageReturned
  dsimp only
  split
  · exact writeSummary_mem h1
  · exact h1

theorem foldl_wf (l : List Nat) (f : Memory → Nat → Memory) (hf : ∀ m i, m.wf = true → (f m i).wf = true) {m : Memory}
    (h : m.wf = true) : (l.foldl f m).wf = true := by
  induction l generalizing m with
  | nil => exact h
  | cons i l ih => exact ih (hf m i h)

theorem logLinkUp_mem {s : State} (h : MemOk s) : MemOk (logLinkUp s) := by
  have h0 : ((List.range 16).foldl (fun m i => m.write (pageBase i) ownerPart) (s.mem.clear 0x0800 0x2000)).wf = true :=
    foldl_wf _ _ (fun m i k => Memory.wf_write k _ _) (Memory.wf_clear h _ _)
  unfold logLinkUp
  generalize (List.range 16).foldl (fun m i => m.write (pageBase i) ownerPart) (s.mem.clear 0x0800 0x2000) = m at h0 ⊢
  refine append_mem _ ?_
  have h1 (u : State) (k : MemOk u) : MemOk (touchStatus u) := k
  refine h1 _ (openPage_mem 0 ?_)
  exact h0

/-! ### The log's own invariant -/

/-- An open page that is not full. -/
def OpenLog (g : EventLog) : Prop :=
  ∃ p, g.live = true ∧ g.page = some p ∧ g.waiting = none ∧ p.index < 16 ∧ p.count < pageRecords ∧
    (g.flush.isSome = true ↔ 0 < p.count)

/-- No page open, the next one waited for. -/
def WaitLog (g : EventLog) : Prop :=
  ∃ i, g.live = true ∧ g.page = none ∧ g.waiting = some i ∧ i < 16 ∧ g.flush = none

/-- DORMANT. -/
def DormantLog (g : EventLog) : Prop :=
  g.live = false ∧ g.page = none ∧ g.waiting = none ∧ g.queue = [] ∧ g.inLoss = false ∧ g.flush = none

theorem logOk_iff (g : EventLog) : LogOk g ↔ g.queue.length ≤ queueRecords ∧ (g.inLoss = true ↔ 0 < g.lost) ∧
    (DormantLog g ∨ (OpenLog g ∧ g.queue = [] ∧ g.inLoss = false) ∨ WaitLog g) := by
  unfold LogOk DormantLog OpenLog WaitLog
  refine and_congr_right fun _ => and_congr_right fun _ => ?_
  cases hl : g.live <;> cases hp : g.page <;> cases hw : g.waiting <;> simp <;> tauto

/-- The queue and the loss are as they were. -/
def SameQueue (g g' : EventLog) : Prop := g'.queue = g.queue ∧ g'.inLoss = g.inLoss ∧ g'.lost = g.lost

theorem SameQueue.trans {a b c : EventLog} (h : SameQueue a b) (k : SameQueue b c) : SameQueue a c :=
  ⟨k.1.trans h.1, k.2.1.trans h.2.1, k.2.2.trans h.2.2⟩

theorem lookAtPage_log (i : Nat) (s : State) :
    (lookAtPage i s).log = { s.log with page := some { index := i, count := 0 }, waiting := none } ∨
    (lookAtPage i s).log = { s.log with page := none, waiting := some i } := by
  unfold lookAtPage
  split
  · exact .inl rfl
  · exact .inr rfl

/-- A handover leaves the queue and the loss, and leaves the next page open and empty or waited for (R101, R107). -/
theorem handOver_log {s : State} (i : Nat) (h : s.log.live = true) :
    SameQueue s.log (handOver i s).log ∧ (OpenLog (handOver i s).log ∨ WaitLog (handOver i s).log) := by
  unfold handOver
  dsimp only
  have hf (m : Memory) : (raiseCause .log ((s.setMem m).setLog
      { s.log with nextSeq := s.log.nextSeq + 1, flush := none, page := none })).log =
      { s.log with nextSeq := s.log.nextSeq + 1, flush := none, page := none } :=
    (raiseCause_frame _ _).log (by decide)
  rcases lookAtPage_log ((i + 1) % 16) (raiseCause .log ((s.setMem (((clearUnnamed i s.mem).writeBytes (pageBase i + 4)
    (leBytes 2 s.log.nextSeq.toNat)).write (pageBase i) ownerTablet)).setLog
      { s.log with nextSeq := s.log.nextSeq + 1, flush := none, page := none })) with e | e <;> rw [e, hf]
  · refine ⟨⟨rfl, rfl, rfl⟩, .inl ⟨_, h, rfl, rfl, ?_, ?_, ?_⟩⟩
    · dsimp only; omega
    · simp [pageRecords]
    · simp
  · refine ⟨⟨rfl, rfl, rfl⟩, .inr ⟨_, h, rfl, rfl, ?_, rfl⟩⟩
    omega

/-- Placing a record leaves the queue and the loss, and a page open that is not full, or the next one waited for
(R100). -/
theorem placeOn_log {s : State} {p : OpenPage} (r : Record) (h : OpenLog s.log) (hp : s.log.page = some p) :
    SameQueue s.log (placeOn p r s).log ∧ (OpenLog (placeOn p r s).log ∨ WaitLog (placeOn p r s).log) := by
  obtain ⟨q, hl, hq, hw, hi, hc, hfl⟩ := h
  obtain rfl : q = p := by rw [hp] at hq; exact (Option.some.inj hq).symm
  unfold placeOn
  dsimp only
  split
  · obtain ⟨a, b⟩ := handOver_log (s := (s.setMem _).setLog
      { s.log with page := some { q with count := q.count + 1 }, flush := _ }) q.index hl
    exact ⟨a, b⟩
  · rename_i hn
    simp only [Bool.or_eq_true, decide_eq_true_eq, not_or] at hn
    refine ⟨⟨rfl, rfl, rfl⟩, .inl ⟨_, hl, rfl, hw, hi, ?_, ?_⟩⟩
    · dsimp only; simp only [pageRecords] at hn hc ⊢; omega
    · simp only [State.setLog_log]
      split
      · simp
      · rename_i h0; simpa using hfl.2 (by omega)

theorem touchAndRaise_log (s : State) : (touchAndRaise s).log = s.log := (touchAndRaise_frame s).log (by decide)

theorem append_logOk {s : State} (r : Record) (h : LogOk s.log) : LogOk (append r s).log := by
  rw [logOk_iff] at h
  obtain ⟨hq, hl, h⟩ := h
  unfold append
  rcases h with h | ⟨h, he, hn⟩ | h
  · rw [if_neg (by simp [h.1])]
    exact (logOk_iff _).2 ⟨hq, hl, .inl h⟩
  · obtain ⟨p, hlive, hp, -⟩ := id h
    rw [if_pos hlive, hp]
    obtain ⟨⟨a, b, c⟩, d⟩ := placeOn_log r h hp
    refine (logOk_iff _).2 ⟨by rw [a]; exact hq, by rw [b, c]; exact hl, .inr ?_⟩
    rcases d with d | d
    · exact .inl ⟨d, by rw [a, he], by rw [b, hn]⟩
    · exact .inr d
  · obtain ⟨i, hlive, hp, hw, hi, hf⟩ := h
    rw [if_pos hlive, hp]
    dsimp only
    split
    · rename_i hc
      simp only [Bool.and_eq_true, Bool.not_eq_true', decide_eq_true_eq] at hc
      refine (logOk_iff _).2 ⟨?_, hl, .inr (.inr ⟨i, hlive, hp, hw, hi, hf⟩)⟩
      simp only [State.setLog_log, List.length_append, List.length_singleton]
      omega
    · unfold loseRecord
      split
      · rename_i h1
        refine (logOk_iff _).2 ⟨hq, ?_, .inr (.inr ⟨i, hlive, hp, hw, hi, hf⟩)⟩
        simp only [State.setLog_log, h1, true_iff, satSucc, countMax]
        omega
      · rw [touchAndRaise_log]
        exact (logOk_iff _).2 ⟨hq, by simp, .inr (.inr ⟨i, hlive, hp, hw, hi, hf⟩)⟩

theorem appendAll_logOk {s : State} (rs : List Record) (h : LogOk s.log) : LogOk (appendAll rs s).log := by
  induction rs generalizing s with
  | nil => exact h
  | cons r rs ih => exact ih (append_logOk r h)

/-- What a drain answers: the loss as before; an open page with an empty queue, or a page waited for with the records that
stay queued (R108). -/
theorem drain_log (rs : List Record) (s : State) (h : OpenLog s.log ∨ WaitLog s.log) (hq : s.log.queue = []) :
    (drain rs s).log.inLoss = s.log.inLoss ∧ (drain rs s).log.lost = s.log.lost ∧
    (drain rs s).log.queue.length ≤ rs.length ∧
    ((OpenLog (drain rs s).log ∧ (drain rs s).log.queue = []) ∨ WaitLog (drain rs s).log) := by
  induction rs generalizing s with
  | nil => exact ⟨rfl, rfl, by simp [drain, hq], h.imp (fun k => ⟨k, hq⟩) id⟩
  | cons r rs ih =>
    rcases h with h | h
    · obtain ⟨p, -, hp, -⟩ := id h
      obtain ⟨⟨a, b, c⟩, d⟩ := placeOn_log r h hp
      have := ih (placeOn p r s) d (a.trans hq)
      simp only [drain, hp]
      rw [b, c] at this
      exact ⟨this.1, this.2.1, le_trans this.2.2.1 (by simp), this.2.2.2⟩
    · obtain ⟨i, hl, hp, hw⟩ := id h
      simp only [drain, hp]
      exact ⟨rfl, rfl, le_rfl, .inr ⟨i, hl, rfl, hw⟩⟩

theorem writeSummary_logOk {s : State} (h : OpenLog s.log) (hq : s.log.queue = []) : LogOk (writeSummary s).log := by
  unfold writeSummary
  rw [touchAndRaise_log]
  refine appendAll_logOk _ ((logOk_iff _).2 ⟨by simp [hq], by simp, .inr (.inl ⟨h, hq, rfl⟩)⟩)

theorem pageReturned_logOk {s : State} (i : Nat) (hw : s.log.waiting = some i) (h : LogOk s.log) :
    LogOk (pageReturned i s).log := by
  rw [logOk_iff] at h
  obtain ⟨hq, hl, h⟩ := h
  have hwait : WaitLog s.log := by
    rcases h with h | ⟨⟨p, -, -, hn, -⟩, -, -⟩ | h
    · rw [h.2.2.1] at hw; cases hw
    · rw [hn] at hw; cases hw
    · exact h
  obtain ⟨j, hlive, hp, hj, hi, hf⟩ := hwait
  obtain rfl : j = i := by rw [hw] at hj; exact (Option.some.inj hj).symm
  unfold pageReturned
  dsimp only
  generalize hu : (openPage j s).setLog { (openPage j s).log with queue := [] } = u
  have hlog : u.log = { s.log with page := some { index := j, count := 0 }, waiting := none, queue := [] } := by
    rw [← hu]; rfl
  have hopen : OpenLog u.log := by
    rw [hlog]; exact ⟨_, hlive, rfl, rfl, hi, by simp [pageRecords], by simp [hf]⟩
  obtain ⟨a, b, c, d⟩ := drain_log s.log.queue u (.inl hopen) (by rw [hlog])
  rw [hlog] at a b
  split
  · rename_i hc
    simp only [Bool.and_eq_true] at hc
    rcases d with d | ⟨i, -, hn, -⟩
    · exact writeSummary_logOk d.1 d.2
    · rw [hn] at hc; simp at hc
  · rename_i hc
    simp only [Bool.and_eq_true, List.isEmpty_iff, not_and] at hc
    refine (logOk_iff _).2 ⟨le_trans c hq, by rw [a, b]; exact hl, .inr ?_⟩
    rcases d with d | d
    · refine .inl ⟨d.1, d.2, ?_⟩
      obtain ⟨p, -, hp', -⟩ := d.1
      by_contra hn
      exact hc ⟨by simpa using hn, by simp [hp']⟩ d.2
    · exact .inr d

theorem handOver_logOk {s : State} {p : OpenPage} (hp : s.log.page = some p) (h : LogOk s.log) :
    LogOk (handOver p.index s).log := by
  rw [logOk_iff] at h
  obtain ⟨hq, hl, h⟩ := h
  rcases h with h | ⟨⟨q, hlive, -⟩, he, hn⟩ | ⟨i, -, hn, -⟩
  · rw [h.2.1] at hp; cases hp
  · obtain ⟨⟨a, b, c⟩, d⟩ := handOver_log p.index hlive
    refine (logOk_iff _).2 ⟨by rw [a]; exact hq, by rw [b, c]; exact hl, .inr ?_⟩
    rcases d with d | d
    · exact .inl ⟨d, by rw [a, he], by rw [b, hn]⟩
    · exact .inr d
  · rw [hn] at hp; cases hp

/-- After a link-up the log is LIVE and its invariant holds, whatever it held before (R115). -/
theorem logLinkUp_logOk (s : State) : LogOk (logLinkUp s).log := by
  unfold logLinkUp
  refine append_logOk _ ((logOk_iff _).2 ⟨?_, ?_, .inr (.inl ⟨⟨_, rfl, rfl, rfl, ?_, ?_, ?_⟩, rfl, rfl⟩)⟩)
  · simp [touchStatus, openPage]
  · simp [touchStatus, openPage]
  · simp
  · simp [pageRecords]
  · simp [touchStatus, openPage]

theorem logLinkDown_logOk (s : State) : LogOk (logLinkDown s).log :=
  (logOk_iff _).2 ⟨by simp [logLinkDown, touchStatus], by simp [logLinkDown, touchStatus], .inl ⟨rfl, rfl, rfl, rfl, rfl, rfl⟩⟩

/-! ### LIVE and DORMANT -/

theorem handOver_live (i : Nat) (s : State) : (handOver i s).log.live = s.log.live := by
  unfold handOver
  dsimp only
  have hf (g : EventLog) (m : Memory) : (raiseCause .log ((s.setMem m).setLog g)).log = g :=
    (raiseCause_frame _ _).log (by decide)
  rcases lookAtPage_log ((i + 1) % 16) (raiseCause .log ((s.setMem (((clearUnnamed i s.mem).writeBytes (pageBase i + 4)
    (leBytes 2 s.log.nextSeq.toNat)).write (pageBase i) ownerTablet)).setLog
      { s.log with nextSeq := s.log.nextSeq + 1, flush := none, page := none })) with e | e <;> rw [e, hf]

theorem placeOn_live (p : OpenPage) (r : Record) (s : State) : (placeOn p r s).log.live = s.log.live := by
  unfold placeOn
  dsimp only
  split
  · rw [handOver_live]; rfl
  · rfl

/-- Appending leaves the log LIVE or DORMANT as it is. -/
theorem append_live (r : Record) (s : State) : (append r s).log.live = s.log.live := by
  unfold append
  split
  · split
    · exact placeOn_live _ _ _
    · split
      · rfl
      · unfold loseRecord
        split
        · rfl
        · rw [touchAndRaise_log]; rfl
  · rfl

theorem appendAll_live (rs : List Record) (s : State) : (appendAll rs s).log.live = s.log.live := by
  induction rs generalizing s with
  | nil => rfl
  | cons r rs ih => exact (ih _).trans (append_live r s)

theorem drain_live (rs : List Record) (s : State) : (drain rs s).log.live = s.log.live := by
  induction rs generalizing s with
  | nil => rfl
  | cons r rs ih =>
    unfold drain
    split
    · exact (ih _).trans (placeOn_live _ _ _)
    · rfl

theorem pageReturned_live (i : Nat) (s : State) : (pageReturned i s).log.live = s.log.live := by
  have h1 : (drain s.log.queue ((openPage i s).setLog { (openPage i s).log with queue := [] })).log.live = s.log.live := by
    rw [drain_live]; rfl
  unfold pageReturned
  dsimp only
  split
  · unfold writeSummary
    rw [touchAndRaise_log, appendAll_live]
    exact h1
  · exact h1

/-! ### What an append reads -/

/-- Two states agree in all that the event log reads and writes. -/
def SameLog (s t : State) : Prop := t.log = s.log ∧ t.mem = s.mem ∧ t.ms = s.ms

theorem Frame.sameLog {fs : List Field} {s t : State} (h : Frame fs s t) (a : Field.log ∉ fs := by decide)
    (b : Field.mem ∉ fs := by decide) (c : Field.ms ∉ fs := by decide) : SameLog s t := ⟨h.log a, h.mem b, h.ms c⟩

theorem SameLog.handOver {s t : State} (h : SameLog s t) (i : Nat) : SameLog (handOver i s) (handOver i t) := by
  obtain ⟨h1, h2, h3⟩ := h
  have hr (u : State) : (raiseCause .log u).log = u.log ∧ (raiseCause .log u).mem = u.mem ∧ (raiseCause .log u).ms = u.ms :=
    (raiseCause_frame .log u).sameLog
  simp only [SameLog, Machine.handOver, lookAtPage, openPage, h1, h2]
  simp only [(hr _).1, (hr _).2.1, State.setLog_log, State.setMem_mem, State.setLog_mem]
  split <;> simp [hr, h3]

/-- What an append does to log and memory rests on log, memory and counter alone. -/
theorem SameLog.append {s t : State} (h : SameLog s t) (r : Record) : SameLog (append r s) (append r t) := by
  have ht (u : State) : (touchAndRaise u).log = u.log ∧ (touchAndRaise u).mem = u.mem ∧ (touchAndRaise u).ms = u.ms :=
    (touchAndRaise_frame u).sameLog
  obtain ⟨h1, h2, h3⟩ := h
  unfold Machine.append
  rw [h1]
  split
  · split
    · unfold placeOn
      simp only [h1, h2, h3]
      split
      · exact SameLog.handOver ⟨by simp, by simp, by simp [h3]⟩ _
      · simp [SameLog, h3]
    · split
      · simp [SameLog, h2, h3]
      · unfold loseRecord
        rw [h1]
        split
        · simp [SameLog, h2, h3]
        · simp [SameLog, ht, h2, h3]
  · exact ⟨h1, h2, h3⟩

end Sys2Proof.Machine
end

