-- ==== Sys2Proof/Laws/Commands.lean ====
section
/-! SUPPORT. Every command as a chain of changes: what one step can do, said once. -/

set_option Elab.async false

namespace Sys2Proof.Machine

/-- The fields an event may change: all but the reset mark, the millisecond counter and the queue of commands. -/
abbrev eventFields : List Field :=
  [.scan, .keys, .keymap, .steer, .chords, .rep, .wake, .log, .bus, .motion, .latch, .legend, .ind, .light, .supply, .link,
   .irq, .req, .mem, .changeCount, .statusDirty, .freeCount]

/-- A chain of changes that may touch every block. -/
abbrev Event (s t : State) : Prop := Run eventFields s t

theorem Path.event {fs : List Field} {s t : State} (h : Path Move fs s t) (w : within fs eventFields = true := by rfl) :
    Event s t := h.run.mono w

theorem Path.more {fs : List Field} {s t u : State} (k : Path Move fs t u) (h : Event s t)
    (w : within fs eventFields = true := by rfl) : Event s u := .after k.run h w

/-- One move. -/
theorem fire {fs : List Field} {s t : State} (m : Move fs s t) (w : within fs eventFields = true := by rfl) : Event s t :=
  .one (.move m) w

/-- The last move, and the chain before it. -/
theorem fireLast {fs : List Field} {s t u : State} (m : Move fs t u) (h : Event s t)
    (w : within fs eventFields = true := by rfl) : Event s u := .last (.move m) h w

theorem Event.then {s t u : State} (k : Event t u) (h : Event s t) : Event s u := .after k h

theorem Change.event {fs : List Field} {s t : State} (c : Change fs s t) (w : within fs eventFields = true := by rfl) :
    Event s t := .one c w

/-! ### Vehicle path -/

theorem moveTo_run (m : MotionState) (r : Option Time) (t : Time) (s : State) : Event s (moveTo m r t s) :=
  (Change.settle (s := s) { s.motion with state := m, run := r } t rfl fun _ => rfl).event

theorem speedArrival_run (v : Nat) (t : Time) (s : State) : Event s (speedArrival v t s) := by
  unfold speedArrival
  dsimp only
  repeat' split
  all_goals exact moveTo_run _ _ _ _

theorem parkArrival_run (v : Nat) (t : Time) (s : State) : Event s (parkArrival v t s) := by
  unfold parkArrival
  split
  · split
    · exact moveTo_run _ _ _ _
    · exact .refl
  · exact .refl

theorem motionUnknown_run (t : Time) (s : State) : Event s (motionUnknown t s) := moveTo_run _ _ _ _

theorem handOnSignal_run (role : Role) (v : Option Nat) (t : Time) (s : State) : Event s (handOnSignal role v t s) := by
  unfold handOnSignal
  split
  · exact speedArrival_run _ _ _
  · exact motionUnknown_run _ _
  · exact parkArrival_run _ _ _
  · exact .refl
  · exact (evalNight_way _).event
  · exact .refl
  · exact .refl

theorem serveEntry_run (i : Nat) (g : Signal) (v : Nat) (t : Time) (s : State) : Event s (serveEntry i g v t s) := by
  unfold serveEntry
  extract_lets reports r s1 s2 s3
  have w1 : Event s s1 := (putValue_way _ _ _).event
  have w2 : Event s s2 := by
    show Event s (if _ then _ else _)
    split
    · exact (append_way _ _).more w1
    · exact w1
  have w3 : Event s s3 := by
    show Event s (if _ then _ else _)
    split
    · exact w2
    · exact fireLast .touch w2
  exact (handOnSignal_run _ _ _ _).then w3

theorem arriveAt_run (f : CanFrame) (t : Time) (i : Nat) (s : State) : Event s (arriveAt f t i s) := by
  unfold arriveAt
  split
  · split
    · exact serveEntry_run _ _ _ _ _
    · exact .refl
  · exact .refl

theorem foldl_run {α : Type} (l : List α) (f : State → α → State) (s : State) (h : ∀ a ∈ l, ∀ s, Event s (f s a)) :
    Event s (l.foldl f s) := by
  induction l generalizing s with
  | nil => exact .refl
  | cons a l ih => exact (ih (f s a) fun b hb => h b (by simp [hb])).then (h a (by simp) s)

theorem forPositions_run (ps : List Nat) (f : Nat → State → State) (s : State) (h : ∀ p ∈ ps, ∀ s, Event s (f p s)) :
    Event s (forPositions ps f s) := foldl_run ps (fun t p => f p t) s h

theorem goStale_run (i : Nat) (g : Signal) (t : Time) (s : State) : Event s (goStale i g t s) := by
  unfold goStale
  extract_lets src s1 s2
  exact (handOnSignal_run _ _ _ _).then
    (fireLast .touch ((append_way _ _).more (s := s) (t := s1) (putValue_way _ _ _).event))

/-! ### Key path -/

/-- An entry that is not DOWN takes another condition than DOWN. -/
theorem condition_way (p : Nat) (c : Condition) (s : State) (h : ∀ l, (s.entry p).cond ≠ .down l) (hc : ∀ l, c ≠ .down l) :
    Way [.keys] s (s.putEntry p { s.entry p with cond := c }) := by
  refine putEntry_way p _ s ?_ fun k => k.entry p
  have hn (e : KeyEntry) (he : ∀ l, e.cond ≠ .down l) : e.latched? = none := by
    unfold KeyEntry.latched?
    split
    · exact absurd ‹_› (he _)
    · rfl
  rw [hn _ hc, hn _ h]

theorem takePress_run (f : List Sample) (p : Nat) (hp : p < 144) (s : State) (h : (s.entry p).cond = .up) :
    Event s (takePress f p s) := by
  unfold takePress
  split
  · exact (Change.press p hp (by simp [h])).event
  · exact (condition_way p .blocked s (by simp [h]) (by simp)).event

theorem atTransition_run (f : List Sample) (p : Nat) (hp : p < 144) (s : State) : Event s (atTransition f p s) := by
  unfold atTransition
  dsimp only
  split
  · split
    · exact takePress_run f p hp s ‹_›
    · exact .refl
  · exact (releaseEntry_way _ _ _ _).event
  · rename_i h
    exact (condition_way p .up s (by simp [h]) (by simp)).event
  · exact .refl

theorem withoutTransition_run (f : List Sample) (p : Nat) (hp : p < 144) (s : State) :
    Event s (withoutTransition f p s) := by
  unfold withoutTransition
  dsimp only
  split
  · split
    · exact takePress_run f p hp s ‹_›
    · exact .refl
  · rename_i h
    split
    · exact (Change.press p hp (by simp [h])).event
    · exact .refl
  · exact .refl
  · exact .refl

/-- The filter keeps the condition and the score (R21). -/
theorem filterSample_keeps (g : FilterSettings) (x : Sample) (e : KeyEntry) :
    (filterSample g x e).1.cond = e.cond ∧ (filterSample g x e).1.score = e.score := by
  unfold filterSample
  repeat' split
  all_goals exact ⟨rfl, rfl⟩

theorem filterSample_filter (g : FilterSettings) (x : Sample) (e : KeyEntry) (hp : g.press ≤ 8) (hr : g.release ≤ 8)
    (h : e.filter ≤ 7) : (filterSample g x e).1.filter ≤ 7 := by
  unfold filterSample
  repeat' split
  all_goals first
    | exact h
    | exact Nat.zero_le _
    | (dsimp only; omega)

theorem framePosition_run (f : List Sample) (p : Nat) (hp : p < 144) (s : State) : Event s (framePosition f p s) := by
  unfold framePosition
  extract_lets x y e s1
  have hk := filterSample_keeps s.keys.settings (f.getD p .notSampled) (s.entry p)
  have hf (k : KeysOk s.keys) : x.1.filter ≤ 7 :=
    filterSample_filter _ _ _ k.2.1.2 k.2.2.1.2 (k.entry p).1
  have lat (z : KeyEntry) (h : z.cond = x.1.cond) : z.latched? = (s.entry p).latched? := by
    simp only [KeyEntry.latched?, h]; rw [hk.1]
  have w1 : Event s s1 :=
    (putEntry_way p e s (lat e rfl) fun k => ⟨hf k, Nat.min_le_right _ _⟩).event
  split
  · split
    · exact (quarantine_way _ _ _).more w1
    · exact (atTransition_run f p hp s1).then w1
  · exact (withoutTransition_run f p hp _).then
      ((putEntry_way p x.1 s (lat x.1 rfl) fun k => ⟨hf k, by rw [hk.2]; exact (k.entry p).2⟩).event)

theorem positions_lt {p : Nat} (h : p ∈ positions) : p < 144 := by simpa [positions] using h

theorem deliverFrame_run (f : List Sample) (s : State) : Event s (deliverFrame f s) :=
  (countFrame_way _).more (forPositions_run positions (framePosition f) _ fun p hp u =>
    framePosition_run f p (positions_lt hp) u)

/-! ### Scanner -/

theorem applyChange_scan (c : ScanSettings) (s : State) :
    (applyChange c s).scan.mode = s.scan.mode ∧ (applyChange c s).scan.pass = s.scan.pass ∧
    (applyChange c s).scan.timer = s.scan.timer ∧ (applyChange c s).scan.change = none := by
  unfold applyChange
  dsimp only
  split
  · simp
  · have h := (forPositions_way (newlyMasked s.scan.settings.mask c.mask) (maskPosition s.ms) s
      fun p _ u => maskPosition_way s.ms p u).sameFields.scan (by decide)
    simp [h]

theorem applyPending_scan (s : State) :
    (applyPending s).scan.mode = s.scan.mode ∧ (applyPending s).scan.pass = s.scan.pass ∧
    (applyPending s).scan.timer = s.scan.timer ∧ (applyPending s).scan.change = none := by
  unfold applyPending
  split
  · exact applyChange_scan _ _
  · exact ⟨rfl, rfl, rfl, ‹_›⟩

/-- A frame start, where the scanner is not HELD (R5). -/
theorem frameStart_way (s : State) (h : s.scan.mode ≠ .held) : Way [.scan] s (frameStart s) := by
  refine .one (.scan _ fun k n => ?_)
  have := (k n).2.2.2
  refine ⟨by simp, by simp, by simp, ?_⟩
  simp only [State.setScan_scan, State.setScan_supply, reduceCtorEq, false_iff]
  exact fun hd => h (this.2 hd)

/-- What one position of a frame may change. -/
theorem framePosition_frame (f : List Sample) {p : Nat} (hp : p < 144) (u : State) :
    Frame pressTouched u (framePosition f p u) := by
  have rel (l : Latched) (v : State) : Frame pressTouched v (releaseEntry l v.ms p v) :=
    (releaseEntry_way _ _ _ _).sameFields.mono rfl
  have put (v : State) (e : KeyEntry) : Frame pressTouched v (v.putEntry p e) := (setKeys_frame _ _).mono rfl
  have tp (v : State) : Frame pressTouched v (takePress f p v) := by
    unfold takePress
    split
    · exact acceptPress_frame _ _ hp
    · exact put _ _
  have at' (v : State) : Frame pressTouched v (atTransition f p v) := by
    unfold atTransition
    dsimp only
    split
    · split
      · exact tp _
      · exact .refl _ _
    · exact rel _ _
    · exact put _ _
    · exact .refl _ _
  have wo (v : State) : Frame pressTouched v (withoutTransition f p v) := by
    unfold withoutTransition
    dsimp only
    split
    · split
      · exact tp _
      · exact .refl _ _
    · split
      · exact acceptPress_frame _ _ hp
      · exact .refl _ _
    · exact .refl _ _
    · exact .refl _ _
  unfold framePosition
  dsimp only
  split
  · split
    · exact (put _ _).next (quarantine_way _ _ _).sameFields rfl
    · exact (put _ _).trans (at' _)
  · exact (put _ _).trans (wo _)

/-- The scanner's fields that an operation on the key table leaves. -/
theorem deliverFrame_frame (f : List Sample) (s : State) :
    (deliverFrame f s).scan = s.scan ∧ (deliverFrame f s).supply = s.supply := by
  have h2 (ps : List Nat) (hps : ∀ p ∈ ps, p ∈ positions) (u : State) :
      Frame pressTouched u (forPositions ps (framePosition f) u) := by
    induction ps generalizing u with
    | nil => exact .refl _ _
    | cons p ps ih => exact (framePosition_frame f (positions_lt (hps p (by simp))) u).trans (ih (fun q hq => hps q (by simp [hq])) _)
  have h3 := (h2 positions (fun _ hp => hp) s).next (countFrame_way _).sameFields rfl
  exact ⟨h3.scan (by decide), h3.supply (by decide)⟩

theorem watchTest_run (b : Bool) (s : State) (hm : s.scan.mode = .scanning) (hp : s.scan.pass = false)
    (hc : s.scan.change = none) : Event s (watchTest b s) := by
  unfold watchTest
  split
  · split
    · exact (frameStart_way s (by simp [hm])).event
    · refine fire (.scan _ fun k n => ?_)
      have := (k n).2.2.2
      simp only [hm, reduceCtorEq, false_iff] at this
      simp [hp, hc, this]
  · exact .refl

theorem frameBoundary_run (f : List Sample) (b : Bool) (s : State) (hm : s.scan.mode = .scanning) :
    Event s (frameBoundary f b s) := by
  unfold frameBoundary
  generalize hu : s.setScan { s.scan with pass := false } = u
  have hum : u.scan.mode = .scanning := by rw [← hu]; exact hm
  have hup : u.scan.pass = false := by rw [← hu]; rfl
  have h0 := (deliverFrame_frame f u).1
  have h1 := applyPending_scan (idleTest f (deliverFrame f u))
  have h2 : (idleTest f (deliverFrame f u)).scan.mode = .scanning := by simp [idleTest, h0, hum]
  have h3 : (idleTest f (deliverFrame f u)).scan.pass = false := by simp [idleTest, h0, hup]
  refine (watchTest_run b _ (by rw [h1.1, h2]) (by rw [h1.2.1, h3]) h1.2.2.2).then ?_
  refine (applyPending_way _).more ((idleTest_way f _).more ((deliverFrame_run f _).then ?_))
  rw [← hu]
  refine fire (.scan _ fun k n => ?_)
  have := k n
  simp only [State.setScan_scan, State.setScan_supply] at this ⊢
  exact ⟨this.1, by simp, this.2.2.1, this.2.2.2⟩

theorem takeFrame_run (f : List Sample) (b : Bool) (s : State) : Event s (takeFrame f b s) := by
  unfold takeFrame
  split
  · exact frameBoundary_run _ _ _ (by tauto)
  · exact .refl

theorem frameTimerExpired_run (e : Time) (s : State) (hm : s.scan.mode = .scanning) :
    Event s (frameTimerExpired e s) := by
  have h1 (u : State) (hu : u.scan.mode = .scanning) (c : Scanner) (hcm : c.mode = .scanning)
      (ht : c.timer.isSome = true) : Way [.scan] u (u.setScan c) := by
    refine .one (.scan _ fun k n => ?_)
    have := (k n).2.2.2
    simp only [hu, reduceCtorEq, false_iff] at this
    simp [hcm, ht, this]
  unfold frameTimerExpired
  extract_lets src s1 n src2 s2
  have w1 : Event s s1 := Path.event (h1 s hm _ hm rfl)
  split
  · have w2 : Event s s2 := Path.more (h1 s1 hm _ hm rfl) w1
    split
    · exact w2
    · exact fireLast .touch w2
  · exact Path.more (h1 s1 hm _ hm rfl) w1

theorem placeChange_run (c : ScanSettings) (s : State) : Event s (placeChange c s) := by
  unfold placeChange
  split
  · rename_i hm
    refine fire (.scan _ fun k n => ?_)
    have := k n
    simp only [State.setScan_scan, State.setScan_supply] at this ⊢
    exact ⟨this.1, this.2.1, fun _ => hm, this.2.2.2⟩
  · rename_i hm
    split
    · refine (frameStart_way _ ?_).more (applyChange_way _ _).event
      rw [(applyChange_scan c s).1, hm]; simp
    · exact (applyChange_way _ _).event
  · exact (applyChange_way _ _).event

theorem scannerReset_run (s : State) : Event s (scannerReset s) := by
  unfold scannerReset
  split
  · rename_i hm
    refine (frameStart_way _ ?_).more ((applyPending_way _).more ?_)
    · rw [(applyPending_scan _).1]; simp [hm]
    · refine fire (.scan _ fun k n => ?_)
      have := k n
      simp only [State.setScan_scan, State.setScan_supply] at this ⊢
      exact ⟨this.1, by simp, this.2.2.1, this.2.2.2⟩
  · rename_i hm
    exact (frameStart_way _ (by simp [hm])).event
  · exact .refl

/-! ### Requests -/

theorem setScan_run (ps : List Word) (s : State) : Event s (setScan ps s).1 := by
  unfold setScan
  dsimp only
  split
  · exact .refl
  · exact placeChange_run _ _

theorem clamp_le (l h v : Nat) (k : l ≤ h) : l ≤ clamp l h v ∧ clamp l h v ≤ h := by unfold clamp; omega

theorem setFilter_run (ps : List Word) (s : State) : Event s (setFilter ps s).1 := by
  unfold setFilter
  extract_lets g s1
  refine fire (Move.keys (s := s) _ ?_ fun k => ?_)
  · exact latches_map s.keys _ fun _ => rfl
  · refine ⟨(List.length_map _).trans k.1, clamp_le _ _ _ (by omega), clamp_le _ _ _ (by omega), clamp_le _ _ _ (by omega),
      ⟨(clamp_le _ _ _ (by omega)).1, (clamp_le _ _ _ (by omega)).2, k.2.2.2.2.1.2.2⟩, ?_⟩
    intro e he
    obtain ⟨y, hy, rfl⟩ := List.mem_map.1 he
    exact ⟨(k.2.2.2.2.2 y hy).1, Nat.min_le_right _ _⟩

theorem clearEntry_latched (e : KeyEntry) : (clearEntry e).latched? = e.latched? := by
  unfold clearEntry
  split
  · rename_i h; simp [KeyEntry.latched?, h]
  · rfl

theorem clearEntry_counts (e : KeyEntry) (n : Nat) (h : e.filter ≤ 7) (k : e.score ≤ n) :
    (clearEntry e).filter ≤ 7 ∧ (clearEntry e).score ≤ n := by
  unfold clearEntry
  split
  · exact ⟨by simp, by simp⟩
  · exact ⟨h, k⟩

theorem clearQuarantine_run (ps : List Word) (s : State) : Event s (clearQuarantine ps s).1 := by
  unfold clearQuarantine
  extract_lets p s1
  have w1 : Way [.keys] s s1 := by
    show Way _ s (if _ then _ else _)
    split
    · exact mapEntries_way _ _ clearEntry_latched fun e => clearEntry_counts e _
    · exact putEntry_way _ _ _ (clearEntry_latched _) fun k => clearEntry_counts _ _ (k.entry p).1 (k.entry p).2
  split
  · exact fireLast .touch w1.event
  · exact .refl

theorem clearCounter_way (s : State) :
    Way [.keys] s (s.setKeys { s.keys with decayCounter := 0 }) := .one (.keys _ rfl KeysOk.clearCounter)

theorem resetKeypath_run (s : State) : Event s (resetKeypath s) := by
  unfold resetKeypath
  extract_lets s1 s2 s3 src s4
  have w1 : Event s s1 := (forPositions_way positions (forceRelease .reset s.ms) s
    fun p _ u => forceRelease_way .reset s.ms p u).event
  have w2 : Event s s2 := (stopRepeat_way _).more ((endAttention_way _ _ _).more w1)
  have w3 : Event s s3 := fireLast (.clear _ rfl) w2
  have w4 : Event s s4 := fireLast .touch ((clearCounter_way _).more w3)
  exact (scannerReset_run _).then w4

theorem loadKeymap_run (ps : List Word) (s : State) : Event s (loadKeymap ps s).1 := by
  unfold loadKeymap
  dsimp only
  repeat' split
  all_goals first
    | exact .refl
    | exact fire (.keymap _)

theorem loadSteering_run (ps : List Word) (s : State) : Event s (loadSteering ps s).1 := by
  unfold loadSteering
  dsimp only
  split
  · exact .refl
  · rename_i h
    repeat' split
    all_goals first
      | exact .refl
      | exact fire (.steer _ fun l => absurd l h)

theorem lockPolicy_run (ps : List Word) (s : State) : Event s (lockPolicy ps s).1 := by
  unfold lockPolicy
  dsimp only
  split
  · exact .refl
  · exact fireLast .touch (fire (.steer _ fun _ => ⟨rfl, rfl⟩))

theorem setRepeat_run (ps : List Word) (s : State) : Event s (setRepeat ps s).1 := by
  unfold setRepeat
  extract_lets delay period src s1
  split
  · exact .refl
  · rename_i h1
    split
    · exact fire (.rep _ fun _ _ => by simp [RepeatOk])
    · rename_i h0
      refine fire (.rep _ fun _ k => ?_)
      have : param ps 1 = 1 := by omega
      revert k
      simp only [RepeatOk, State.setRep_rep, this]
      show _ → (match s.rep.running with
        | none => s.rep.count = 0
        | some r => (1 == 1) = true ∧
          match (s.entry r.position).cond with
          | .down l => l.pressTime = r.pressTime ∧ l.orphaned = false
          | _ => False)
      cases s.rep.running with
      | none => exact id
      | some r => exact fun k => ⟨rfl, k.2⟩

theorem setWakeHold_run (ps : List Word) (s : State) : Event s (setWakeHold ps s).1 :=
  fire (.wake _ fun k => k)

theorem armChord_run (ps : List Word) (s : State) : Event s (armChord ps s).1 := by
  unfold armChord
  extract_lets i n codes src stored
  have w (cs : List Nat) : Event s (stored cs) := fire (.chords _ fun h => .inl h)
  repeat' split
  all_goals first
    | exact .refl
    | exact w _

theorem ackAttention_run (ps : List Word) (s : State) : Event s (ackAttention ps s).1 := by
  unfold ackAttention
  split
  · exact (endAttention_way _ _ _).event
  · exact .refl

theorem setAttention_run (ps : List Word) (s : State) : Event s (setAttention ps s).1 :=
  fire (.chords _ fun h => .inl h)

theorem logFlush_run (ps : List Word) (s : State) : Event s (logFlush ps s).1 := by
  unfold logFlush
  split
  · rename_i p hp
    split
    · rename_i h
      simp only [Bool.and_eq_true, decide_eq_true_eq] at h
      exact fire (.handOver p hp h.2)
    · exact .refl
  · exact .refl

theorem setFlushDelay_run (ps : List Word) (s : State) : Event s (setFlushDelay ps s).1 :=
  fire (.flushDelay _)

theorem takeSnapshot_run (ps : List Word) (s : State) : Event s (takeSnapshot ps s).1 := by
  unfold takeSnapshot
  dsimp only
  split
  · exact (Path.last (.free _) (.one (.mem _ fun h => Memory.wf_writeBytes h _ _)) : Way [.mem, .freeCount] s _).event
  · exact .refl

theorem changeRate_run (r : Nat) (s : State) (h : s.steer.lock = false) : Event s (changeRate r s) := by
  unfold changeRate
  extract_lets s1 s2
  have w1 : Event s s1 := fire (.bus _ fun l => by rw [h] at l; cases l)
  have w2 : Event s s2 := by
    show Event s (if _ then _ else _)
    split
    · exact w1
    · exact fireLast .touch w1
  exact (motionUnknown_run _ _).then ((evalNight_way _).more w2)

theorem setVehicleBus_run (ps : List Word) (s : State) : Event s (setVehicleBus ps s).1 := by
  unfold setVehicleBus
  dsimp only
  split
  · exact .refl
  · rename_i h
    repeat' split
    all_goals first
      | exact .refl
      | exact changeRate_run _ _ (by simpa using h)

theorem installSignals_run (gs : List Signal) (s : State) (h : s.steer.lock = false) : Event s (installSignals gs s) :=
  (motionUnknown_run _ _).then ((evalNight_way _).more (fireLast .touch (fire (.bus _ fun l => by rw [h] at l; cases l))))

theorem loadSignals_run (ps : List Word) (s : State) : Event s (loadSignals ps s).1 := by
  unfold loadSignals
  dsimp only
  split
  · exact .refl
  · rename_i h
    repeat' split
    all_goals first
      | exact .refl
      | exact installSignals_run _ _ (by simpa using h)

theorem setMotion_run (ps : List Word) (s : State) : Event s (setMotion ps s).1 := by
  unfold setMotion
  dsimp only
  split
  · exact .refl
  · rename_i h
    repeat' split
    all_goals first
      | exact .refl
      | exact Change.event (.settle _ s.ms rfl fun l => absurd l h)

theorem latchAnswer_run (ps : List Word) (s : State) : Event s (latchAnswer ps s).1 := by
  unfold latchAnswer
  split
  · exact .refl
  · split
    · rename_i e h
      dsimp only
      split
      · exact (startRelease_way _ _ _ (.inl (by simp [h, LatchState.place]))).event
      · exact (changeLatch_way _ _ _ _ (by simp [LatchState.place])).event
    · exact .refl

theorem takeCooldown_run (s : State) : Event s (takeCooldown s) := by
  unfold takeCooldown
  split
  · split
    · exact (cooldownExpired_way _ _).event
    · exact .refl
  · exact .refl

theorem undockStart_run (ps : List Word) (s : State) : Event s (undockStart ps s).1 := by
  unfold undockStart
  refine Event.then ?_ (.last (.move .finish) (takeCooldown_run s))
  generalize endEvent (takeCooldown s) = u
  dsimp only
  split
  · rename_i hl
    split
    · exact .refl
    · rename_i hm
      split
      · exact .refl
      · exact (startRelease_way _ _ _ (.inr ⟨by simp [hl, LatchState.place], by simpa using hm, ‹_›⟩)).event
  · exact .refl

theorem setLatchTimes_run (ps : List Word) (s : State) : Event s (setLatchTimes ps s).1 :=
  Path.event (latchInputs_way s _ rfl rfl rfl)

theorem loadLegends_run (ps : List Word) (s : State) : Event s (loadLegends ps s).1 := by
  unfold loadLegends
  extract_lets n off cells bad src i s1
  have w1 : Event s s1 := fire (.legend _ rfl)
  split
  · exact .refl
  · split
    · exact .refl
    · split
      · exact .refl
      · dsimp only
        split
        · exact (refreshNeed_way _ _).more w1
        · exact w1

theorem setIndicators_run (ps : List Word) (s : State) : Event s (setIndicators ps s).1 := by
  unfold setIndicators
  repeat' split
  all_goals first
    | exact .refl
    | exact fire (.ind _)

theorem setLightLevels_run (ps : List Word) (s : State) : Event s (setLightLevels ps s).1 := by
  unfold setLightLevels
  dsimp only
  split
  · exact .refl
  · exact (setNightMode_way _ _).more ((setLegendStep_way _ _ fun _ => Nat.min_le_right _ _).more
      ((setKeysStep_way _ _ fun _ => Nat.min_le_right _ _).more
        (setPanelStep_way _ _ fun _ => Nat.min_le_right _ _).event))

theorem setLightLimits_run (ps : List Word) (s : State) : Event s (setLightLimits ps s).1 := by
  unfold setLightLimits
  dsimp only
  split
  · exact .refl
  · rename_i h
    refine (evalNight_way _).more (fire (.light _ fun k => ⟨k.1, k.2.1, k.2.2.1, ?_, k.2.2.2.2⟩))
    have := clamp_le 1 1000 (param ps 5) (by omega)
    refine ⟨Nat.lt_of_not_le h, ?_, ?_, ?_, this.1, this.2, ?_⟩ <;> exact Nat.min_le_right _ _

/-- A level table without a fault is in rising order (R169). -/
theorem orderFaults_nil {ls : List Nat} (h : ls.length = 16) (k : orderFaults ls = []) : ls.Pairwise (· ≤ ·) := by
  have step (i : Nat) (hi : i + 1 < 16) : ls.getD i 0 ≤ ls.getD (i + 1) 0 := by
    have := List.filter_eq_nil_iff.1 k (i + 1) (List.mem_range.2 hi)
    simp only [Nat.add_sub_cancel, Nat.zero_lt_succ, decide_true, Bool.true_and, decide_eq_true_eq] at this
    omega
  have up (i n : Nat) (hn : i + n < 16) : ls.getD i 0 ≤ ls.getD (i + n) 0 := by
    induction n with
    | zero => exact le_rfl
    | succ n ih => exact (ih (by omega)).trans (step (i + n) hn)
  rw [List.pairwise_iff_getElem]
  intro i j hi hj hij
  have := up i (j - i) (by omega)
  rw [show i + (j - i) = j by omega, List.getD_eq_getElem _ _ hi, List.getD_eq_getElem _ _ hj] at this
  exact this

theorem loadLightTable_run (ps : List Word) (s : State) : Event s (loadLightTable ps s).1 := by
  unfold loadLightTable
  dsimp only
  split
  · exact .refl
  · split
    · exact .refl
    · rename_i h
      have hl : ((s.mem.fields (param ps 1) 2 16).map fun v => min v 1000).length = 16 := by simp [Memory.fields]
      refine fire (.light _ fun k => ⟨k.1, k.2.1, ⟨hl, ?_, orderFaults_nil hl h⟩, k.2.2.2⟩)
      intro d hd
      obtain ⟨v, -, rfl⟩ := List.mem_map.1 hd
      exact Nat.min_le_right _ _

theorem setThresholds_run (ps : List Word) (s : State) : Event s (setThresholds ps s).1 := by
  unfold setThresholds
  dsimp only
  repeat' split
  all_goals first
    | exact .refl
    | exact fire (.supply _ rfl)

theorem request_run (kind count : Nat) (body : Body) (s : State) (h : ∀ ps u, Event u (body ps u).1) :
    Event s (request kind count body s) := by
  unfold request
  split
  · split
    · split
      · exact (complete_way _ _ _).more (h _ _)
      · exact (complete_way _ _ _).event
    · exact .refl
  · exact .refl

/-! ### Window -/

theorem storeCell_way (c : Nat × Byte) (s : State) : Way [.mem] s (storeCell c s) := by
  unfold storeCell
  split
  · exact .one (.mem _ fun h => Memory.wf_write h _ _)
  · exact .refl

theorem cellEvent_way (c : Nat × Byte) (s : State) : Way logTouched s (cellEvent c s) := by
  unfold cellEvent
  split
  · rename_i i hi
    split
    · refine .one (.returned i ?_)
      unfold waitingOwner at hi
      split at hi
      · split at hi
        · cases hi; assumption
        · cases hi
      · cases hi
    · exact .refl
  · split
    · unfold writeMask
      dsimp only
      have h1 : Way [.irq] s (s.setIrq { s.irq with mask := c.2.setWidth 3 }) := .one (.irq _ fun h => .inl h)
      split
      · exact .after (vectorDue_way _) h1.mono
      · exact h1.mono
    · split
      · exact .one (.irq _ fun h => .inl h)
      · exact .refl

theorem tabletWrite_run (off : Nat) (a : Access) (s : State) : Event s (tabletWrite off a s) := by
  unfold tabletWrite accessEvents storeCells
  dsimp only
  refine (foldl_run _ _ _ fun c _ u => (cellEvent_way c u).event).then ?_
  split
  · exact (examine_way _).more (foldl_run _ _ _ fun c _ u => (storeCell_way c u).event)
  · exact foldl_run _ _ _ fun c _ u => (storeCell_way c u).event

theorem carriedWrite_run (off : Nat) (a : Access) (s : State) : Event s (carriedWrite off a s) := by
  unfold carriedWrite accessed
  split
  · rename_i t h
    split at h
    · cases h
    · cases h; exact tabletWrite_run _ _ _
    · cases h; exact (tabletWrite_run _ _ _).then (Change.bringActive ‹_›).event
  · exact foldl_run _ _ _ fun c _ u => (storeCell_way c u).event

/-! ### Supply monitor -/

theorem sampleNormal_run (mv : Nat) (s : State) (h : s.supply.dip = false) : Event s (sampleNormal mv s) := by
  unfold sampleNormal
  split
  · split
    · exact fire (.supply _ rfl)
    · exact (Change.startDip mv h).event
  · exact fire (.supply _ rfl)

theorem sampleDip_run (mv : Nat) (s : State) (h : s.supply.dip = true) : Event s (sampleDip mv s) := by
  unfold sampleDip
  extract_lets s1
  have w1 : Event s s1 := (lowerMinimum_way _ _).event
  have w2 (n : Nat) : Event s (s1.setSupply { s1.supply with recRun := n }) :=
    fireLast (.supply _ rfl) w1
  split
  · split
    · exact w2 _
    · exact (Change.endDip (s := s1) h).event.then w1
  · exact w2 _

end Sys2Proof.Machine
end

