-- ==== Sys2Proof/Laws/Step.lean ====
section
/-! SUPPORT. Every command as a chain of changes: what one command, and one step, can do, said once. -/

set_option Elab.async false

namespace Sys2Proof.Machine

/-- What a command whose event function is `f` answers. -/
theorem event_cases {f : State → State} {s t : State} (h : event f s = .next t) (k : Event s (f s)) :
    t = s ∨ s.inReset = false ∧ Event s t := by
  unfold event at h
  cases h
  split
  · exact .inl rfl
  · rename_i hr
    exact .inr ⟨by simpa using hr, .last (.move .finish) k⟩

theorem request_cases {kind count : Nat} {body : Body} {s t : State} (h : event (request kind count body) s = .next t)
    (k : ∀ ps u, Event u (body ps u).1) : t = s ∨ s.inReset = false ∧ Event s t :=
  event_cases h (request_run _ _ _ _ k)

theorem windowWrite_cases {off : Nat} {a : Access} {s t : State} (h : windowWrite off a s = .next t) :
    t = s ∨ s.inReset = false ∧ Event s t := by
  unfold windowWrite at h
  split at h
  · exact event_cases h (carriedWrite_run _ _ _)
  · cases h

/-- What a supply sample does: power reset below 6000 mV, else a chain of changes. -/
theorem takeSample_cases (mv : Nat) (s : State) : takeSample mv s = powerReset s ∨ Event s (takeSample mv s) := by
  unfold takeSample
  split
  · exact .inl rfl
  · split
    · exact .inr (sampleDip_run _ _ ‹_›)
    · rename_i h
      exact .inr (sampleNormal_run _ _ (by simpa using h))

/-- What one command can do: nothing, a power reset, the release of power reset, or a chain of changes. -/
theorem exec_cases {i : Instr} {s t : State} (h : exec i s = .next t) :
    t = s ∨ t = powerReset s ∨
    (s.inReset = true ∧ ∃ (p l b : Bool) (a : Nat), t = releaseReset p l b a s) ∨ (s.inReset = false ∧ Event s t) := by
  have both (k : t = s ∨ s.inReset = false ∧ Event s t) : t = s ∨ t = powerReset s ∨
      (s.inReset = true ∧ ∃ (p l b : Bool) (a : Nat), t = releaseReset p l b a s) ∨ (s.inReset = false ∧ Event s t) :=
    k.imp id fun x => .inr (.inr x)
  have sample (f : State → State) (k : event f s = .next t) (c : f s = powerReset s ∨ Event s (f s)) :
      t = s ∨ t = powerReset s ∨
      (s.inReset = true ∧ ∃ (p l b : Bool) (a : Nat), t = releaseReset p l b a s) ∨ (s.inReset = false ∧ Event s t) := by
    rcases c with c | c
    · unfold event at k
      cases k
      split
      · exact .inl rfl
      · exact .inr (.inl (by rw [c]; rfl))
    · exact both (event_cases k c)
  cases i with
  | powerReset => cases h; exact .inr (.inl rfl)
  | resetRelease p l b a =>
    simp only [exec, execResetRelease] at h
    cases h
    split
    · exact .inr (.inr (.inl ⟨‹_›, p, l, b, a.toNat, rfl⟩))
    · exact .inl rfl
  | supplySample mv =>
    dsimp only [exec, execSupplySample] at h
    exact sample _ h (takeSample_cases _ _)
  | dipStart mv =>
    dsimp only [exec, execDipStart] at h
    refine sample _ h ?_
    split
    · exact takeSample_cases _ _
    · exact .inr .refl
  | dipEnd mv =>
    dsimp only [exec, execDipEnd] at h
    refine sample _ h ?_
    split
    · exact takeSample_cases _ _
    · exact .inr .refl
  | ownerMarkWrite off a =>
    dsimp only [exec, execOwnerMarkWrite] at h
    exact both (windowWrite_cases h)
  | noticeWrite l a =>
    dsimp only [exec, execNoticeWrite] at h
    exact both (windowWrite_cases h)
  | intMaskWrite l a =>
    dsimp only [exec, execIntMaskWrite] at h
    exact both (windowWrite_cases h)
  | intPendingWrite l a =>
    dsimp only [exec, execIntPendingWrite] at h
    exact both (windowWrite_cases h)
  | registerWriteDiscarded l a =>
    dsimp only [exec, execRegisterWriteDiscarded] at h
    exact both (windowWrite_cases h)
  | nop =>
    dsimp only [exec, execNop] at h
    exact both (request_cases h fun _ _ => .refl)
  | setScan =>
    dsimp only [exec, execSetScan] at h
    exact both (request_cases h setScan_run)
  | setFilter =>
    dsimp only [exec, execSetFilter] at h
    exact both (request_cases h setFilter_run)
  | clearQuarantine =>
    dsimp only [exec, execClearQuarantine] at h
    exact both (request_cases h clearQuarantine_run)
  | resetKeypath =>
    dsimp only [exec, execResetKeypath] at h
    exact both (request_cases h (by intro _ u; dsimp only; exact resetKeypath_run u))
  | loadKeymap =>
    dsimp only [exec, execLoadKeymap] at h
    exact both (request_cases h loadKeymap_run)
  | loadSteering =>
    dsimp only [exec, execLoadSteering] at h
    exact both (request_cases h loadSteering_run)
  | lockPolicy =>
    dsimp only [exec, execLockPolicy] at h
    exact both (request_cases h lockPolicy_run)
  | armChord =>
    dsimp only [exec, execArmChord] at h
    exact both (request_cases h armChord_run)
  | ackAttention =>
    dsimp only [exec, execAckAttention] at h
    exact both (request_cases h ackAttention_run)
  | setAttention =>
    dsimp only [exec, execSetAttention] at h
    exact both (request_cases h setAttention_run)
  | setRepeat =>
    dsimp only [exec, execSetRepeat] at h
    exact both (request_cases h setRepeat_run)
  | setWake =>
    dsimp only [exec, execSetWake] at h
    exact both (request_cases h setWakeHold_run)
  | logFlush =>
    dsimp only [exec, execLogFlush] at h
    exact both (request_cases h logFlush_run)
  | setLog =>
    dsimp only [exec, execSetLog] at h
    exact both (request_cases h setFlushDelay_run)
  | snapshot =>
    dsimp only [exec, execSnapshot] at h
    exact both (request_cases h takeSnapshot_run)
  | setVehicleBus =>
    dsimp only [exec, execSetVehicleBus] at h
    exact both (request_cases h setVehicleBus_run)
  | loadSignals =>
    dsimp only [exec, execLoadSignals] at h
    exact both (request_cases h loadSignals_run)
  | setMotion =>
    dsimp only [exec, execSetMotion] at h
    exact both (request_cases h setMotion_run)
  | latchAnswer =>
    dsimp only [exec, execLatchAnswer] at h
    exact both (request_cases h latchAnswer_run)
  | undockStart =>
    dsimp only [exec, execUndockStart] at h
    exact both (request_cases h undockStart_run)
  | setLatch =>
    dsimp only [exec, execSetLatch] at h
    exact both (request_cases h setLatchTimes_run)
  | loadLegends =>
    dsimp only [exec, execLoadLegends] at h
    exact both (request_cases h loadLegends_run)
  | setIndicators =>
    dsimp only [exec, execSetIndicators] at h
    exact both (request_cases h setIndicators_run)
  | setLightLevels =>
    dsimp only [exec, execSetLightLevels] at h
    exact both (request_cases h setLightLevels_run)
  | setLightLimits =>
    dsimp only [exec, execSetLightLimits] at h
    exact both (request_cases h setLightLimits_run)
  | loadLightTable =>
    dsimp only [exec, execLoadLightTable] at h
    exact both (request_cases h loadLightTable_run)
  | setSupply =>
    dsimp only [exec, execSetSupply] at h
    exact both (request_cases h setThresholds_run)
  | unknownKind =>
    dsimp only [exec, execUnknownKind] at h
    refine both (event_cases h ?_)
    split
    · split
      · exact (complete_way _ _ _).event
      · exact .refl
    · exact .refl
  | frameTimerExpiry =>
    dsimp only [exec, execFrameTimerExpiry] at h
    refine both (event_cases h ?_)
    split
    · split
      · exact frameTimerExpired_run _ _ (by tauto)
      · exact .refl
    · exact .refl
  | frameBoundary r b =>
    dsimp only [exec, execFrameBoundary] at h
    exact both (event_cases h (takeFrame_run _ _ _))
  | senseLineActive =>
    dsimp only [exec, execSenseLineActive] at h
    refine both (event_cases h ?_)
    split
    · exact (frameStart_way _ (by simp [*])).event
    · exact .refl
  | chatterDecay =>
    dsimp only [exec, execChatterDecay] at h
    refine both (event_cases h ?_)
    split
    · exact takeFrame_run _ _ _
    · exact .refl
  | attentionTimerExpiry =>
    dsimp only [exec, execAttentionTimerExpiry] at h
    refine both (event_cases h ?_)
    split
    · split
      · exact (endAttention_way _ _ _).event
      · exact .refl
    · exact .refl
  | repeatIntervalExpiry =>
    dsimp only [exec, execRepeatIntervalExpiry] at h
    refine both (event_cases h ?_)
    split
    · split
      · exact (repeatExpired_way _ _ ‹_›).event
      · exact .refl
    · exact .refl
  | wakeHoldExpiry =>
    dsimp only [exec, execWakeHoldExpiry] at h
    refine both (event_cases h ?_)
    have w1 : Way [.wake] s (s.setWake { s.wake with timer := none }) :=
      .one (.wake _ fun k c => k (.inl (by simpa using c)))
    split
    · split
      · split
        · rename_i hw
          exact (Path.after (assertWake_way _ _ (by simp only [Bool.and_eq_true] at hw; exact hw.2)) w1).event
        · exact w1.event
      · exact .refl
    · exact .refl
  | wakeLimitExpiry =>
    dsimp only [exec, execWakeLimitExpiry] at h
    refine both (event_cases h ?_)
    split
    · split
      · exact fire (.wake _ fun k c => k (.inr (by simpa using c)))
      · exact .refl
    · exact .refl
  | flushTimerExpiry =>
    dsimp only [exec, execFlushTimerExpiry] at h
    refine both (event_cases h ?_)
    split
    · rename_i e p he hp
      split
      · rename_i hc
        simp only [Bool.and_eq_true, decide_eq_true_eq] at hc
        exact fire (.handOver p hp hc.2)
      · exact .refl
    · exact .refl
  | canFrameArrival f =>
    dsimp only [exec, execCanFrameArrival] at h
    refine both (event_cases h ?_)
    split
    · exact foldl_run _ _ _ fun i _ u => arriveAt_run _ _ _ _
    · exact .refl
  | staleTimerExpiry e =>
    dsimp only [exec, execStaleTimerExpiry] at h
    refine both (event_cases h ?_)
    split
    · split
      · split
        · exact goStale_run _ _ _ _
        · exact .refl
      · exact .refl
    · exact .refl
  | latchInputRead p l b =>
    dsimp only [exec, execLatchInputRead] at h
    refine both (event_cases h ?_)
    exact Path.more (latchInputs_way _ _ rfl rfl rfl) (takeDueChanges_way s).event
  | presentSwitchChange =>
    dsimp only [exec, execPresentSwitchChange] at h
    exact both (event_cases h (takePresentChange_way _).event)
  | latchSenseChange =>
    dsimp only [exec, execLatchSenseChange] at h
    exact both (event_cases h (takeSenseChange_way _).event)
  | buttonPress =>
    dsimp only [exec, execButtonPress] at h
    exact both (event_cases h (takeButtonPress_way _).event)
  | buttonReleased =>
    dsimp only [exec, execButtonReleased] at h
    exact both (event_cases h (takeButtonRelease_way _).event)
  | askTimerExpiry =>
    dsimp only [exec, execAskTimerExpiry] at h
    refine both (event_cases h ?_)
    split
    · rename_i e he
      split
      · exact (startRelease_way _ _ _ (.inl (by simp [he, LatchState.place]))).event
      · exact .refl
    · exact .refl
  | releaseWindowExpiry =>
    dsimp only [exec, execReleaseWindowExpiry] at h
    refine both (event_cases h ?_)
    split
    · split
      · exact (changeLatch_way _ _ _ _ fun k => by have := bySense_place s.latch; tauto).event
      · exact .refl
    · exact .refl
  | cooldownExpiry =>
    dsimp only [exec, execCooldownExpiry] at h
    exact both (event_cases h (takeCooldown_run _))
  | stripAcknowledge =>
    dsimp only [exec, execStripAcknowledge] at h
    exact both (event_cases h (stripAcknowledged_way _).event)
  | acknowledgeTimerExpiry =>
    dsimp only [exec, execAcknowledgeTimerExpiry] at h
    refine both (event_cases h ?_)
    split
    · split
      · exact (transferFailed_way _ _).event
      · exact .refl
    · exact .refl
  | retryTimerExpiry =>
    dsimp only [exec, execRetryTimerExpiry] at h
    refine both (event_cases h ?_)
    split
    · split
      · exact Path.more (beginTransfer_way _ _) (fire (.legend _ rfl))
      · exact .refl
    · exact .refl
  | ambientReading r =>
    dsimp only [exec, execAmbientReading] at h
    exact both (event_cases h (takeAmbient_way _ _ fun k => by simp [k.2.2.2.2]).event)
  | outputUpdate =>
    dsimp only [exec, execOutputUpdate] at h
    exact both (event_cases h (updateOutputs_way _).event)
  | linkUp =>
    dsimp only [exec, execLinkUp] at h
    refine both (event_cases h ?_)
    split
    · exact (Change.goUp ‹_›).event
    · exact .refl
  | linkDown =>
    dsimp only [exec, execLinkDown] at h
    refine both (event_cases h ?_)
    split
    · exact .refl
    · exact (Change.goDown ‹_›).event
  | linkLowPower =>
    dsimp only [exec, execLinkLowPower] at h
    refine both (event_cases h ?_)
    split
    · exact (Change.lowPower ‹_›).event
    · exact .refl
  | linkActive =>
    dsimp only [exec, execLinkActive] at h
    refine both (event_cases h ?_)
    split
    · exact (Change.bringActive ‹_›).event
    · exact .refl
  | sweepTimerExpiry =>
    dsimp only [exec, execSweepTimerExpiry] at h
    refine both (event_cases h ?_)
    split
    · split
      · exact Path.more (examine_way _) (fire (.req _ id))
      · exact .refl
    · exact .refl
  | elevenRecessiveBits =>
    dsimp only [exec, execElevenRecessiveBits] at h
    exact both (event_cases h (fire (.bus _ fun _ => ⟨rfl, rfl⟩)))

/-- What one step can do: a millisecond on an empty queue, else what the front command can do. -/
theorem step_cases {s t : State} (h : step s = .next t) :
    (s.pending = [] ∧ t = tick s) ∨ ∃ c rest, s.pending = c :: rest ∧ exec c (s.setPending rest) = .next t := by
  unfold step at h
  split at h
  · rename_i c rest hp
    exact .inr ⟨c, rest, hp, h⟩
  · cases h
    exact .inl ⟨‹_›, rfl⟩

/-- An invariant of the part that does not read the queue and the counter is kept by every step if the release of power
reset and every change keep it and the reset state has it. -/
theorem step_keeps {P : State → Prop} (queue : ∀ s q, P s → P (s.setPending q)) (ms : ∀ s m, P s → P (s.setMs m))
    (reset : P .reset) (release : ∀ s p l b a, s.inReset = true → P s → P (releaseReset p l b a s))
    (change : ∀ fs s t, Change fs s t → s.inReset = false → P s → P t) {s t : State} (h : step s = .next t) (hs : P s) :
    P t := by
  rcases step_cases h with ⟨_, rfl⟩ | ⟨c, rest, _, hc⟩
  · unfold tick
    split
    · exact hs
    · exact ms _ _ hs
  · have hq := queue s rest hs
    rcases exec_cases hc with rfl | rfl | ⟨hr, p, l, b, a, rfl⟩ | ⟨hr, he⟩
    · exact hq
    · exact queue _ _ reset
    · exact release _ _ _ _ _ hr hq
    · have := he.keeps (P := fun u => u.inReset = false ∧ P u)
        (fun fs u v w m k => ⟨by rw [m.frame.inReset fun n => absurd (within_mem w n) (by decide)]; exact k.1,
          change fs u v m k.1 k.2⟩) ⟨hr, hq⟩
      exact this.2

end Sys2Proof.Machine
end

