-- ==== Sys2Proof/Laws/Invariants.lean ====
section
/-! SUPPORT. The invariants of Safety.lean, move by move and change by change. -/

set_option Elab.async false

namespace Sys2Proof.Machine

/-! ### How a change keeps an invariant that its moves keep -/

/-- The supply state becoming DIP. -/
theorem startDip_keeps {P : State → Prop} (move : ∀ fs s t, Move fs s t → P s → P t)
    (supply : ∀ s g, P s → P (s.setSupply g)) (scan : ∀ s c, P s → P (s.setScan c)) (mv : Nat) {s : State} (h : P s) :
    P (startDip mv s) := by
  have way {fs : List Field} {s t : State} (w : Way fs s t) : P s → P t := w.keeps fun fs s t _ m => move fs s t m
  unfold startDip
  dsimp only
  refine way (outputsToTargets_way _) ?_
  unfold enterHeld
  dsimp only
  refine way (zeroFilters_way _) (way (applyPending_way _) (scan _ _ ?_))
  exact way (touchAndRaise_way _) (way (append_way _ _) (supply _ _ h))

/-- The supply state becoming NORMAL. -/
theorem endDip_keeps {P : State → Prop} (move : ∀ fs s t, Move fs s t → P s → P t)
    (supply : ∀ s g, P s → P (s.setSupply g)) (scan : ∀ s c, P s → P (s.setScan c)) {s : State} (h : P s) :
    P (endDip s) := by
  have way {fs : List Field} {s t : State} (w : Way fs s t) : P s → P t := w.keeps fun fs s t _ m => move fs s t m
  unfold endDip
  dsimp only
  refine scan _ _ ?_
  exact way (touchAndRaise_way _) (way (append_way _ _) (supply _ _ h))

/-- A change of motion. -/
theorem settle_keeps {P : State → Prop} (move : ∀ fs s t, Move fs s t → P s → P t)
    (motion : ∀ s m, P s → P (s.setMotion m)) (before m : Motion) (t : Time) {s : State} (h : P s) :
    P (settleMotion before t (s.setMotion m)) :=
  (settleMotion_way before t (s.setMotion m)).keeps (fun fs s t _ m => move fs s t m) (motion _ _ (motion _ _ h))

/-- An accepted press. -/
theorem press_keeps {P : State → Prop} (move : ∀ fs s t, Move fs s t → P s → P t) {p : Nat} (hp : p < 144) {s : State}
    (h : P (latchedPress p s)) : P (acceptPress p s) :=
  (acceptPress_way p s hp).keeps (fun fs s t _ m => move fs s t m) h

/-- A link-up. -/
theorem goUp_keeps {P : State → Prop} (move : ∀ fs s t, Move fs s t → P s → P t) {s : State}
    (h : P (logLinkUp (s.setLink .active))) : P (goUp s) :=
  (goUp_way s).keeps (fun fs s t _ m => move fs s t m) h

/-- A link DOWN. -/
theorem goDown_keeps {P : State → Prop} (move : ∀ fs s t, Move fs s t → P s → P t) {s : State}
    (h : P (logLinkDown (s.setLink .down))) : P (goDown s) :=
  (goDown_way s).keeps (fun fs s t _ m => move fs s t m) h

/-- The end of LOW_POWER. -/
theorem bringActive_keeps {P : State → Prop} (move : ∀ fs s t, Move fs s t → P s → P t) {s : State}
    (h : P (s.setLink .active)) : P (bringActive s) :=
  (bringActive_way s).keeps (fun fs s t _ m => move fs s t m) h

/-! ### Exchange memory -/

theorem changeLatch_mem {s : State} (st : LatchState) (c : LatchCause) (t : Time) (h : MemOk s) :
    MemOk (changeLatch st c t s) := by
  unfold MemOk changeLatch
  dsimp only
  rw [(wakeToldLatch_frame _ _ _).mem (by decide)]
  refine touchAndRaise_mem (append_mem _ ?_)
  exact h

theorem Move.keeps_mem {fs : List Field} {s t : State} (m : Move fs s t) (h : MemOk s) : MemOk t := by
  have same {gs : List Field} {u : State} (f : Frame gs s u) (n : Field.mem ∉ gs) : MemOk u := by
    unfold MemOk; rw [f.mem n]; exact h
  cases m with
  | append r => exact append_mem r h
  | handOver p hp n => exact handOver_mem _ h
  | returned i hi => exact pageReturned_mem i h
  | mem m k => exact k h
  | latch st c t k => exact changeLatch_mem st c t h
  | finish => exact same (endEvent_frame _) (by decide)
  | orphan p => exact same (orphan_frame _ _) (by decide)
  | leave c t p k => exact same (leaveDown_frame _ _ _ _) (by decide)
  | clear t k => exact same (Move.clear (s := s) t k).frame (by decide)
  | evalShown t => exact same (evalShownSet_frame _ _) (by decide)
  | _ => exact h

theorem Change.keeps_mem {fs : List Field} {s t : State} (c : Change fs s t) (h : MemOk s) : MemOk t := by
  have move (fs : List Field) (s t : State) (m : Move fs s t) : MemOk s → MemOk t := m.keeps_mem
  cases c with
  | move m => exact m.keeps_mem h
  | press p hp k =>
    refine press_keeps move hp ?_
    unfold MemOk; rw [(latchedPress_frame p s).mem (by decide)]; exact h
  | settle m t k l => exact settle_keeps move (fun _ _ k => k) _ m t h
  | goUp k => exact goUp_keeps move (logLinkUp_mem h)
  | goDown k => exact goDown_keeps move h
  | lowPower k => exact h
  | bringActive k => exact bringActive_keeps move h
  | startDip mv k => exact startDip_keeps move (fun _ _ k => k) (fun _ _ k => k) mv h
  | endDip k => exact endDip_keeps move (fun _ _ k => k) (fun _ _ k => k) h

/-! ### The event log -/

theorem changeLatch_log (st : LatchState) (c : LatchCause) (t : Time) (s : State) :
    ∃ r u, u.log = s.log ∧ (changeLatch st c t s).log = (append r u).log := by
  have h : (changeLatch st c t s).log = (append { time := t, body := .latch c st.place } (s.setLatch
      { s.latch with state := st, cooldown := cooldownAfter s.latch st t, heldPress := heldAfter s.latch st })).log := by
    unfold changeLatch
    dsimp only
    rw [(wakeToldLatch_frame _ _ _).log (by decide), touchAndRaise_log]
  refine ⟨_, _, ?_, h⟩
  rfl

theorem Move.keeps_log {fs : List Field} {s t : State} (m : Move fs s t) (h : LogOk s.log) : LogOk t.log := by
  have same {gs : List Field} {u : State} (f : Frame gs s u) (n : Field.log ∉ gs) : LogOk u.log := by
    rw [f.log n]; exact h
  cases m with
  | append r => exact append_logOk r h
  | handOver p hp n => exact handOver_logOk hp h
  | returned i hi => exact pageReturned_logOk i hi h
  | flushDelay v => exact h
  | latch st c t k =>
    obtain ⟨r, u, hu, e⟩ := changeLatch_log st c t s
    rw [e]
    exact append_logOk r (hu ▸ h)
  | finish => exact same (endEvent_frame _) (by decide)
  | orphan p => exact same (orphan_frame _ _) (by decide)
  | leave c t p k => exact same (leaveDown_frame _ _ _ _) (by decide)
  | clear t k => exact same (Move.clear (s := s) t k).frame (by decide)
  | evalShown t => exact same (evalShownSet_frame _ _) (by decide)
  | _ => exact h

theorem Change.keeps_log {fs : List Field} {s t : State} (c : Change fs s t) (h : LogOk s.log) : LogOk t.log := by
  have move (fs : List Field) (s t : State) (m : Move fs s t) : LogOk s.log → LogOk t.log := m.keeps_log
  cases c with
  | move m => exact m.keeps_log h
  | press p hp k =>
    refine press_keeps (P := fun s => LogOk s.log) move hp ?_
    rw [(latchedPress_frame p s).log (by decide)]; exact h
  | settle m t k l => exact settle_keeps (P := fun s => LogOk s.log) move (fun _ _ k => k) _ m t h
  | goUp k => exact goUp_keeps (P := fun s => LogOk s.log) move (logLinkUp_logOk _)
  | goDown k => exact goDown_keeps (P := fun s => LogOk s.log) move (logLinkDown_logOk _)
  | lowPower k => exact h
  | bringActive k => exact bringActive_keeps (P := fun s => LogOk s.log) move h
  | startDip mv k => exact startDip_keeps (P := fun s => LogOk s.log) move (fun _ _ k => k) (fun _ _ k => k) mv h
  | endDip k => exact endDip_keeps (P := fun s => LogOk s.log) move (fun _ _ k => k) (fun _ _ k => k) h

/-- A move leaves the link, and the log LIVE or DORMANT. -/
theorem Move.link_live {fs : List Field} {s t : State} (m : Move fs s t) : t.link = s.link ∧ t.log.live = s.log.live := by
  have same {gs : List Field} {u : State} (f : Frame gs s u) (n : Field.log ∉ gs) (k : Field.link ∉ gs) :
      u.link = s.link ∧ u.log.live = s.log.live := ⟨f.link k, by rw [f.log n]⟩
  cases m with
  | append r => exact ⟨(append_frame _ _).link (by decide), append_live _ _⟩
  | handOver p hp n => exact ⟨(handOver_frame _ _).link (by decide), handOver_live _ _⟩
  | returned i hi => exact ⟨(pageReturned_frame _ _).link (by decide), pageReturned_live _ _⟩
  | latch st c t k =>
    obtain ⟨r, u, hu, e⟩ := changeLatch_log st c t s
    exact ⟨(changeLatch_frame _ _ _ _).link (by decide), by rw [e, append_live, hu]⟩
  | finish => exact same (endEvent_frame _) (by decide) (by decide)
  | orphan p => exact same (orphan_frame _ _) (by decide) (by decide)
  | leave c t p k => exact same (leaveDown_frame _ _ _ _) (by decide) (by decide)
  | clear t k => exact same (Move.clear (s := s) t k).frame (by decide) (by decide)
  | evalShown t => exact same (evalShownSet_frame _ _) (by decide) (by decide)
  | _ => exact ⟨rfl, rfl⟩

theorem Move.keeps_live {fs : List Field} {s t : State} (m : Move fs s t) (h : LiveOk s) : LiveOk t := by
  unfold LiveOk
  rw [m.link_live.1, m.link_live.2]
  exact h

theorem logLinkUp_live (s : State) : (logLinkUp s).log.live = true := by
  unfold logLinkUp
  rw [append_live]
  rfl

theorem Change.keeps_live {fs : List Field} {s t : State} (c : Change fs s t) (h : LiveOk s) : LiveOk t := by
  have move (fs : List Field) (s t : State) (m : Move fs s t) : LiveOk s → LiveOk t := m.keeps_live
  cases c with
  | move m => exact m.keeps_live h
  | press p hp k =>
    refine press_keeps move hp ?_
    unfold LiveOk; rw [(latchedPress_frame p s).log (by decide), (latchedPress_frame p s).link (by decide)]; exact h
  | settle m t k l => exact settle_keeps move (fun _ _ k => k) _ m t h
  | goUp k =>
    refine goUp_keeps move ?_
    unfold LiveOk
    rw [logLinkUp_live, (logLinkUp_frame _).link (by decide)]
    simp
  | goDown k => exact goDown_keeps move (by simp [LiveOk, logLinkDown, touchStatus])
  | lowPower k => simpa [LiveOk, k] using h
  | bringActive k =>
    refine bringActive_keeps move ?_
    simpa [LiveOk, k] using h
  | startDip mv k => exact startDip_keeps move (fun _ _ k => k) (fun _ _ k => k) mv h
  | endDip k => exact endDip_keeps move (fun _ _ k => k) (fun _ _ k => k) h

/-! ### The key table -/

/-- The latched part kept by a table with the same latched parts. -/
theorem latched_of_latches {k k' : KeyTable} (h : k'.latches = k.latches) (p : Nat) :
    (k'.entries.getD p KeyEntry.reset).latched? = (k.entries.getD p KeyEntry.reset).latched? := by
  have e (x : KeyTable) : (x.entries.getD p KeyEntry.reset).latched? = (x.latches.getD p none) := by
    simp only [KeyTable.latches, List.getD_eq_getElem?_getD, List.getElem?_map]
    cases x.entries[p]? <;> rfl
  rw [e, e, h]

theorem owned_eq (e : KeyEntry) : e.owned = (e.latched?.map Latched.owned).getD false := by
  unfold KeyEntry.owned KeyEntry.latched?
  cases e.cond <;> rfl

theorem layerKey_eq (e : KeyEntry) : e.layerKey = (e.latched?.map fun l => l.code == codeFN && l.route.dock).getD false := by
  unfold KeyEntry.layerKey KeyEntry.latched?
  cases e.cond <;> rfl

theorem heldForward_of_latches {k k' : KeyTable} (h : k'.latches = k.latches) : k'.heldForward = k.heldForward := by
  have e (x : KeyTable) : x.heldForward = x.latches.countP fun l => (l.map Latched.owned).getD false := by
    simp only [KeyTable.heldForward, KeyTable.latches, List.countP_map]
    congr 1
    funext e
    exact owned_eq e
  rw [e, e, h]

theorem layer_of_latches {k k' : KeyTable} (h : k'.latches = k.latches) : k'.layer = k.layer := by
  have e (x : KeyTable) : x.entries.any KeyEntry.layerKey =
      x.latches.any fun l => (l.map fun l => l.code == codeFN && l.route.dock).getD false := by
    simp only [KeyTable.latches, List.any_map]
    congr 1
    funext e
    exact layerKey_eq e
  unfold KeyTable.layer
  rw [e, e, h]

/-- The key table with an entry replaced. -/
def KeyTable.put (k : KeyTable) (p : Nat) (e : KeyEntry) : KeyTable := { k with entries := k.entries.set p e }

/-- What orphaning does to the key table (R29). -/
theorem orphan_keys (p : Nat) (s : State) :
    (orphan p s).keys = s.keys ∨ ∃ l, (s.entry p).cond = .down l ∧ l.owned = true ∧
      (orphan p s).keys = s.keys.put p { s.entry p with cond := .down { l with orphaned := true } } := by
  unfold orphan
  dsimp only
  split
  · rename_i l hl
    split
    · refine .inr ⟨l, hl, ‹_›, ?_⟩
      rw [(stopRepeatOf_frame _ _).keys (by decide)]
      rfl
    · exact .inl rfl
  · exact .inl rfl

theorem leaveDown_keys (c : Condition) (t : Time) (p : Nat) (s : State) :
    (leaveDown c t p s).keys = s.keys.put p { s.entry p with cond := c } := by
  unfold leaveDown
  rw [(evalShownSet_frame _ _).keys (by decide), (stopRepeatOf_frame _ _).keys (by decide)]
  rfl

theorem clear_keys (t : Time) (s : State) :
    (evalShownSet t (mapEntries KeyEntry.cleared s)).keys = { s.keys with entries := s.keys.entries.map KeyEntry.cleared } := by
  rw [(evalShownSet_frame _ _).keys (by decide)]
  rfl

theorem Move.keeps_keys {fs : List Field} {s t : State} (m : Move fs s t) (h : KeysOk s.keys) : KeysOk t.keys := by
  have same {gs : List Field} {u : State} (f : Frame gs s u) (n : Field.keys ∉ gs) : KeysOk u.keys := by
    rw [f.keys n]; exact h
  cases m with
  | append r => exact same (append_frame _ _) (by decide)
  | handOver p hp n => exact same (handOver_frame _ _) (by decide)
  | returned i hi => exact same (pageReturned_frame _ _) (by decide)
  | latch st c t k => exact same (changeLatch_frame _ _ _ _) (by decide)
  | finish => exact same (endEvent_frame _) (by decide)
  | keys k hk o => exact o h
  | orphan p =>
    rcases orphan_keys p s with e | ⟨l, -, -, e⟩ <;> rw [e]
    · exact h
    · exact h.setEntry p _ (h.entry p)
  | leave c t p k =>
    rw [leaveDown_keys]
    exact h.setEntry p _ (h.entry p)
  | clear t k =>
    rw [clear_keys]
    exact h.mapEntries _ fun e _ _ => ⟨by simp [KeyEntry.cleared], by simp [KeyEntry.cleared]⟩
  | evalShown t => exact same (evalShownSet_frame _ _) (by decide)
  | _ => exact h

/-- What an accepted press does to the key table (R26). -/
theorem latchedPress_keys (p : Nat) (s : State) :
    ∃ l, l.route = (routeOf s (lookup s p).1).route ∧ l.orphaned = false ∧ l.code = (lookup s p).1 ∧
      l.layer = (lookup s p).2 ∧ l.pressTime = s.ms ∧
      (latchedPress p s).keys = s.keys.put p { s.entry p with cond := .down l } := by
  refine ⟨{ code := (lookup s p).1, layer := (lookup s p).2, route := (routeOf s (lookup s p).1).route, orphaned := false
            pressTime := s.ms }, rfl, rfl, rfl, rfl, rfl, ?_⟩
  unfold latchedPress
  dsimp only
  have hk := (countWithheld_way (routeOf s (lookup s p).1).withheld s).sameFields.keys (by decide)
  simp only [State.putEntry, State.setKeys_keys, State.entry, hk, KeyTable.put]

theorem latchedPress_keysOk {p : Nat} {s : State} (h : KeysOk s.keys) : KeysOk (latchedPress p s).keys := by
  obtain ⟨l, -, -, -, -, -, e⟩ := latchedPress_keys p s
  rw [e]
  exact h.setEntry p _ (h.entry p)

theorem Change.keeps_keys {fs : List Field} {s t : State} (c : Change fs s t) (h : KeysOk s.keys) : KeysOk t.keys := by
  have move (fs : List Field) (s t : State) (m : Move fs s t) : KeysOk s.keys → KeysOk t.keys := m.keeps_keys
  cases c with
  | move m => exact m.keeps_keys h
  | press p hp k => exact press_keeps (P := fun s => KeysOk s.keys) move hp (latchedPress_keysOk h)
  | settle m t k l => exact settle_keeps (P := fun s => KeysOk s.keys) move (fun _ _ k => k) _ m t h
  | goUp k =>
    refine goUp_keeps (P := fun s => KeysOk s.keys) move ?_
    rw [(logLinkUp_frame _).keys (by decide)]; exact h
  | goDown k => exact goDown_keeps (P := fun s => KeysOk s.keys) move h
  | lowPower k => exact h
  | bringActive k => exact bringActive_keeps (P := fun s => KeysOk s.keys) move h
  | startDip mv k => exact startDip_keeps (P := fun s => KeysOk s.keys) move (fun _ _ k => k) (fun _ _ k => k) mv h
  | endDip k => exact endDip_keeps (P := fun s => KeysOk s.keys) move (fun _ _ k => k) (fun _ _ k => k) h

/-! ### Held forward -/

theorem countP_set_le (es : List KeyEntry) (p : Nat) (x : KeyEntry) (q : KeyEntry → Bool)
    (h : q x = true → q (es.getD p KeyEntry.reset) = true) : (es.set p x).countP q ≤ es.countP q := by
  induction es generalizing p with
  | nil => simp
  | cons e es ih =>
    cases p with
    | zero =>
      simp only [List.set_cons_zero, List.countP_cons]
      simp only [List.getD_cons_zero] at h
      by_cases hx : q x = true
      · simp [hx, h hx]
      · simp [hx]
    | succ p =>
      simp only [List.set_cons_succ, List.countP_cons]
      have := ih p (by simpa using h)
      omega

theorem countP_set_succ (es : List KeyEntry) (p : Nat) (x : KeyEntry) (q : KeyEntry → Bool) :
    (es.set p x).countP q ≤ es.countP q + 1 := by
  induction es generalizing p with
  | nil => simp
  | cons e es ih =>
    cases p with
    | zero =>
      simp only [List.set_cons_zero, List.countP_cons]
      split <;> split <;> omega
    | succ p =>
      simp only [List.set_cons_succ, List.countP_cons]
      have := ih p
      omega

/-- No move adds to the entries held forward. -/
theorem Move.heldForward_le {fs : List Field} {s t : State} (m : Move fs s t) : t.keys.heldForward ≤ s.keys.heldForward := by
  have same {gs : List Field} {u : State} (f : Frame gs s u) (n : Field.keys ∉ gs) :
      u.keys.heldForward ≤ s.keys.heldForward := by rw [f.keys n]
  cases m with
  | append r => exact same (append_frame _ _) (by decide)
  | handOver p hp n => exact same (handOver_frame _ _) (by decide)
  | returned i hi => exact same (pageReturned_frame _ _) (by decide)
  | latch st c t k => exact same (changeLatch_frame _ _ _ _) (by decide)
  | finish => exact same (endEvent_frame _) (by decide)
  | keys k hk o => exact (heldForward_of_latches hk).le
  | orphan p =>
    rcases orphan_keys p s with e | ⟨l, -, -, e⟩ <;> rw [e]
    exact countP_set_le _ _ _ _ (by simp [KeyEntry.owned, Latched.owned])
  | leave c t p k =>
    rw [leaveDown_keys]
    refine countP_set_le _ _ _ _ ?_
    unfold KeyEntry.owned
    cases c with
    | down l => exact absurd rfl (k l)
    | _ => simp
  | clear t k =>
    rw [clear_keys]
    simp [KeyTable.heldForward, List.countP_map, KeyEntry.owned, KeyEntry.cleared, Function.comp_def]
  | evalShown t => exact same (evalShownSet_frame _ _) (by decide)
  | _ => exact le_rfl

theorem Move.keeps_held {fs : List Field} {s t : State} (m : Move fs s t) (h : HeldOk s) : HeldOk t :=
  le_trans m.heldForward_le h

/-- What an accepted press adds to the entries held forward (R28, R57). -/
theorem latchedPress_held (p : Nat) (s : State) :
    (latchedPress p s).keys.heldForward ≤ s.keys.heldForward ∨
    ((latchedPress p s).keys.heldForward ≤ s.keys.heldForward + 1 ∧ s.keys.heldForward < rolloverLimit ∧ s.link ≠ .down) := by
  obtain ⟨l, hr, ho, -, -, -, e⟩ := latchedPress_keys p s
  rw [e]
  cases hf : l.route.forward with
  | false => exact .inl (countP_set_le _ _ _ _ (by simp [KeyEntry.owned, Latched.owned, hf]))
  | true =>
    refine .inr ⟨countP_set_succ _ _ _ _, ?_⟩
    exact routeOf_forward s (lookup s p).1 (by rw [← hr]; exact hf)

theorem Change.keeps_held {fs : List Field} {s t : State} (c : Change fs s t) (h : HeldOk s) : HeldOk t := by
  have move (fs : List Field) (s t : State) (m : Move fs s t) : HeldOk s → HeldOk t := m.keeps_held
  cases c with
  | move m => exact m.keeps_held h
  | press p hp k =>
    refine press_keeps move hp ?_
    unfold HeldOk at h ⊢
    rcases latchedPress_held p s with k | ⟨k, k', -⟩ <;> omega
  | settle m t k l => exact settle_keeps move (fun _ _ k => k) _ m t h
  | goUp k =>
    refine goUp_keeps move ?_
    unfold HeldOk; rw [(logLinkUp_frame _).keys (by decide)]; exact h
  | goDown k => exact goDown_keeps move h
  | lowPower k => exact h
  | bringActive k => exact bringActive_keeps move h
  | startDip mv k => exact startDip_keeps move (fun _ _ k => k) (fun _ _ k => k) mv h
  | endDip k => exact endDip_keeps move (fun _ _ k => k) (fun _ _ k => k) h

theorem Move.keeps_orphan {fs : List Field} {s t : State} (m : Move fs s t) (h : OrphanOk s) : OrphanOk t := by
  intro hd
  have := m.heldForward_le
  rw [h (by rw [← m.link_live.1]; exact hd)] at this
  omega

/-- Orphaning every position of a full table leaves no entry to the tablet (R29). -/
theorem orphanAll_held (s : State) (h : s.keys.entries.length = 144) :
    (forPositions positions orphan s).keys.heldForward = 0 := by
  have len (u : State) (p : Nat) : (orphan p u).keys.entries.length = u.keys.entries.length := by
    rcases orphan_keys p u with e | ⟨l, -, -, e⟩ <;> rw [e]
    simp [KeyTable.put]
  have own (u : State) (p q : Nat) (hq : ((orphan p u).keys.entries.getD q KeyEntry.reset).owned = true) :
      (u.keys.entries.getD q KeyEntry.reset).owned = true ∧ (q = p → u.keys.entries.length ≤ p) := by
    rcases orphan_keys p u with e | ⟨l, hl, ho, e⟩
    · rw [e] at hq
      refine ⟨hq, fun hqp => ?_⟩
      subst hqp
      by_contra hlt
      unfold orphan at e
      dsimp only at e
      have hq' : (u.entry q).owned = true := hq
      unfold KeyEntry.owned at hq'
      split at hq'
      · rename_i l hl
        rw [hl] at e
        dsimp only at e
        rw [if_pos hq', (stopRepeatOf_frame _ _).keys (by decide)] at e
        have e2 := congrArg (fun k : KeyTable => (k.entries.getD q KeyEntry.reset).owned) e
        simp only [State.putEntry, State.setKeys_keys] at e2
        rw [hq] at e2
        simp [List.getD_eq_getElem?_getD, List.getElem?_set_self (not_le.1 hlt), KeyEntry.owned, Latched.owned] at e2
      · cases hq'
    · rw [e, KeyTable.put] at hq
      by_cases hqp : q = p
      · subst hqp
        by_cases hlt : q < u.keys.entries.length
        · simp [List.getD_eq_getElem?_getD, List.getElem?_set_self hlt, KeyEntry.owned, Latched.owned] at hq
        · refine ⟨?_, fun _ => by omega⟩
          rwa [List.set_eq_of_length_le (by omega)] at hq
      · refine ⟨?_, fun k => absurd k hqp⟩
        simpa [List.getD_eq_getElem?_getD, List.getElem?_set_ne (fun k => hqp k.symm)] using hq
  have all (ps : List Nat) (u : State) (hu : u.keys.entries.length = 144) (q : Nat) (hq : q < 144)
      (ho : ((forPositions ps orphan u).keys.entries.getD q KeyEntry.reset).owned = true) :
      (u.keys.entries.getD q KeyEntry.reset).owned = true ∧ q ∉ ps := by
    induction ps generalizing u with
    | nil => exact ⟨ho, by simp⟩
    | cons p ps ih =>
      obtain ⟨h1, h2⟩ := ih (orphan p u) (by rw [len, hu]) ho
      obtain ⟨h3, h4⟩ := own u p q h1
      refine ⟨h3, ?_⟩
      simp only [List.mem_cons, not_or]
      exact ⟨fun k => by have := h4 k; omega, h2⟩
  have flen (ps : List Nat) (u : State) : (forPositions ps orphan u).keys.entries.length = u.keys.entries.length := by
    induction ps generalizing u with
    | nil => rfl
    | cons p ps ih => exact (ih _).trans (len u p)
  unfold KeyTable.heldForward
  rw [List.countP_eq_zero]
  intro e he ho
  obtain ⟨q, hq, rfl⟩ := List.getElem_of_mem he
  have hq' : q < 144 := by rw [flen, h] at hq; exact hq
  refine (all positions s h q hq' ?_).2 (by simpa [positions] using hq')
  rw [List.getD_eq_getElem _ _ hq]
  exact ho

theorem Change.keeps_orphan {fs : List Field} {s t : State} (c : Change fs s t) (h : KeysOk s.keys ∧ OrphanOk s) :
    KeysOk t.keys ∧ OrphanOk t := by
  have move (fs : List Field) (s t : State) (m : Move fs s t) : OrphanOk s → OrphanOk t := m.keeps_orphan
  refine ⟨c.keeps_keys h.1, ?_⟩
  obtain ⟨hk, h⟩ := h
  cases c with
  | move m => exact m.keeps_orphan h
  | press p hp k =>
    refine press_keeps move hp ?_
    intro hd
    rw [(latchedPress_frame p s).link (by decide)] at hd
    rcases latchedPress_held p s with k | ⟨-, -, k⟩
    · have := h hd; omega
    · exact absurd hd k
  | settle m t k l => exact settle_keeps move (fun _ _ k => k) _ m t h
  | goUp k =>
    intro hd
    have := (goUp_way s).keeps (P := fun u => u.link = .active)
      (fun fs u v _ m k => by rw [m.link_live.1]; exact k) ((logLinkUp_frame _).link (by decide))
    rw [this] at hd
    cases hd
  | goDown k =>
    intro _
    have h0 := orphanAll_held (logLinkDown (s.setLink .down)) hk.1
    unfold Machine.goDown
    dsimp only
    have hw := (Path.after (evalShownSet_way s.ms _) (Path.last (.ind .allOff) (.after (stopRepeat_way _)
      (dropAttention_way (forPositions positions orphan (logLinkDown (s.setLink .down)))).mono)) :
      Way [.legend, .ind, .rep, .chords, .statusDirty] _ _).sameFields
    rw [(setIrq_frame _ _).keys (by decide), hw.keys (by decide)]
    exact h0
  | lowPower k => intro hd; simp at hd
  | bringActive k => exact bringActive_keeps move (by intro hd; simp at hd)
  | startDip mv k => exact startDip_keeps move (fun _ _ k => k) (fun _ _ k => k) mv h
  | endDip k => exact endDip_keeps move (fun _ _ k => k) (fun _ _ k => k) h

end Sys2Proof.Machine
end

