-- ==== Sys2Proof/Laws/Blocks.lean ====
section
/-! SUPPORT. The invariants of Safety.lean that tie blocks together, move by move and change by change. -/

set_option Elab.async false

namespace Sys2Proof.Machine

/-! ### Attention and link -/

theorem Move.keeps_attention {fs : List Field} {s t : State} (m : Move fs s t) (h : AttentionOk s) : AttentionOk t := by
  have hl := m.link_live.1
  have frame {gs : List Field} (f : Frame gs s t) (n : Field.chords ∉ gs) : AttentionOk t := by
    intro k; rw [hl]; exact h (by rw [← f.chords n]; exact k)
  have f := m.frame
  cases m with
  | chords c k => intro a; exact (k a).elim h id
  | _ => exact frame f (by decide)

theorem goDown_chords (s : State) : (goDown s).chords.attention = none := by
  unfold goDown
  dsimp only
  rw [(setIrq_frame _ _).chords (by decide), (evalShownSet_frame _ _).chords (by decide),
    (setInd_frame _ _).chords (by decide), (stopRepeat_way _).sameFields.chords (by decide)]
  unfold dropAttention
  split
  · rfl
  · rename_i h; simpa using h

theorem Change.keeps_attention {fs : List Field} {s t : State} (c : Change fs s t) (h : AttentionOk s) :
    AttentionOk t := by
  have move (fs : List Field) (s t : State) (m : Move fs s t) : AttentionOk s → AttentionOk t := m.keeps_attention
  cases c with
  | move m => exact m.keeps_attention h
  | press p hp k =>
    refine press_keeps move hp ?_
    unfold AttentionOk
    rw [(latchedPress_frame p s).chords (by decide), (latchedPress_frame p s).link (by decide)]
    exact h
  | settle m t k l => exact settle_keeps move (fun _ _ k => k) _ m t h
  | goUp k =>
    refine goUp_keeps move ?_
    intro _
    rw [(logLinkUp_frame _).link (by decide)]
    simp
  | goDown k => intro ha; rw [goDown_chords] at ha; cases ha
  | lowPower k => intro _; simp
  | bringActive k => exact bringActive_keeps move (by intro _; simp)
  | startDip mv k => exact startDip_keeps move (fun _ _ k => k) (fun _ _ k => k) mv h
  | endDip k => exact endDip_keeps move (fun _ _ k => k) (fun _ _ k => k) h

/-! ### The request pointer -/

theorem Move.keeps_pointer {fs : List Field} {s t : State} (m : Move fs s t) (h : PointerOk s) : PointerOk t := by
  have frame {gs : List Field} (f : Frame gs s t) (n : Field.req ∉ gs) : PointerOk t := by
    unfold PointerOk; rw [f.req n]; exact h
  have f := m.frame
  cases m with
  | req r k => exact k h
  | _ => exact frame f (by decide)

theorem Change.keeps_pointer {fs : List Field} {s t : State} (c : Change fs s t) (h : PointerOk s) : PointerOk t := by
  have move (fs : List Field) (s t : State) (m : Move fs s t) : PointerOk s → PointerOk t := m.keeps_pointer
  have same {gs : List Field} {u : State} (f : Frame gs s u) (n : Field.req ∉ gs) : PointerOk u := by
    unfold PointerOk; rw [f.req n]; exact h
  cases c with
  | move m => exact m.keeps_pointer h
  | press p hp k => exact press_keeps move hp (same (latchedPress_frame p s) (by decide))
  | settle m t k l => exact settle_keeps move (fun _ _ k => k) _ m t h
  | goUp k => exact goUp_keeps move (same (((setLink_frame _ _).mono rfl).next (logLinkUp_frame _) rfl :
      Frame (.link :: logTouched) _ _) (by decide))
  | goDown k => exact goDown_keeps move h
  | lowPower k => exact h
  | bringActive k => exact bringActive_keeps move h
  | startDip mv k => exact startDip_keeps move (fun _ _ k => k) (fun _ _ k => k) mv h
  | endDip k => exact endDip_keeps move (fun _ _ k => k) (fun _ _ k => k) h

/-! ### The motion lockout flag -/

theorem Move.motion_same {fs : List Field} {s t : State} (m : Move fs s t) : t.motion = s.motion := by
  have frame {gs : List Field} (f : Frame gs s t) (n : Field.motion ∉ gs) : t.motion = s.motion := f.motion n
  have f := m.frame
  cases m with
  | _ => exact frame f (by decide)

theorem settleMotion_motion (before m : Motion) (t : Time) (s : State) :
    (settleMotion before t (s.setMotion m)).motion = { m with lockout := lockoutOf m } :=
  (settleMotion_way before t (s.setMotion m)).sameFields.motion (by decide)

theorem Change.keeps_motion {fs : List Field} {s t : State} (c : Change fs s t) (h : MotionOk s) : MotionOk t := by
  have same {gs : List Field} {u : State} (f : Frame gs s u) (n : Field.motion ∉ gs) : MotionOk u := by
    unfold MotionOk; rw [f.motion n]; exact h
  cases c with
  | move m => unfold MotionOk; rw [m.motion_same]; exact h
  | press p hp k => exact same (acceptPress_frame p s hp) (by decide)
  | settle m t k l => unfold MotionOk; rw [settleMotion_motion]; rfl
  | goUp k => exact same (goUp_frame s) (by decide)
  | goDown k => exact same (goDown_frame s) (by decide)
  | lowPower k => exact h
  | bringActive k => exact same (bringActive_frame s) (by decide)
  | startDip mv k => exact same (startDip_frame mv s) (by decide)
  | endDip k => exact same (endDip_frame s) (by decide)

/-! ### The shown set -/

theorem shownSetOf_congr {s t : State} (l : t.link = .down ↔ s.link = .down) (m : t.motion.lockout = s.motion.lockout)
    (k : t.keys.layer = s.keys.layer) : shownSetOf t = shownSetOf s := by
  unfold shownSetOf; simp only [l, m, k]

theorem refreshNeed_shown (t : Time) (s : State) : (refreshNeed t s).legend.shown = s.legend.shown := by
  unfold refreshNeed
  split <;> rfl

/-- Working the shown set out afresh makes it the one that link, lockout and layer give (R158). -/
theorem evalShownSet_shown (t : Time) (s : State) : ShownOk (evalShownSet t s) := by
  have f := evalShownSet_frame t s
  unfold ShownOk
  rw [shownSetOf_congr (s := s) (t := evalShownSet t s) (by rw [f.link (by decide)]) (by rw [f.motion (by decide)]) (by rw [f.keys (by decide)])]
  unfold evalShownSet
  split
  · exact Eq.symm ‹_›
  · rw [refreshNeed_shown]; rfl

theorem shown_of_frame {gs : List Field} {s t : State} (f : Frame gs s t) (n : Field.legend ∉ gs ∧ Field.link ∉ gs ∧
    Field.motion ∉ gs ∧ Field.keys ∉ gs) (h : ShownOk s) : ShownOk t := by
  unfold ShownOk
  rw [shownSetOf_congr (s := s) (t := t) (by rw [f.link n.2.1]) (by rw [f.motion n.2.2.1]) (by rw [f.keys n.2.2.2]), f.legend n.1]
  exact h

/-- Orphaning leaves the layer keys (R44). -/
theorem orphan_layer (p : Nat) (s : State) : (orphan p s).keys.layer = s.keys.layer := by
  rcases orphan_keys p s with e | ⟨l, hl, -, e⟩ <;> rw [e]
  unfold KeyTable.layer KeyTable.put
  congr 1
  have h (es : List KeyEntry) (q : Nat) (x : KeyEntry) (hx : x.layerKey = (es.getD q KeyEntry.reset).layerKey) :
      (es.set q x).any KeyEntry.layerKey = es.any KeyEntry.layerKey := by
    induction es generalizing q with
    | nil => rfl
    | cons e es ih =>
      cases q with
      | zero => simp at hx; simp [hx]
      | succ q => simp only [List.set_cons_succ, List.any_cons]; rw [ih q (by simpa using hx)]
  rw [h]
  unfold State.entry at hl
  simp only [KeyEntry.layerKey, hl]

theorem Move.keeps_shown {fs : List Field} {s t : State} (m : Move fs s t) (h : ShownOk s) : ShownOk t := by
  have frame {gs : List Field} (f : Frame gs s t) (n : Field.legend ∉ gs ∧ Field.link ∉ gs ∧
    Field.motion ∉ gs ∧ Field.keys ∉ gs) : ShownOk t := shown_of_frame f n h
  have f := m.frame
  cases m with
  | keys k hk o =>
    unfold ShownOk
    rw [shownSetOf_congr (s := s) (t := s.setKeys k) Iff.rfl rfl (layer_of_latches hk)]
    exact h
  | orphan p =>
    unfold ShownOk
    rw [shownSetOf_congr (s := s) (t := Machine.orphan p s) (by rw [(orphan_frame p s).link (by decide)]) (by rw [(orphan_frame p s).motion (by decide)])
      (orphan_layer p s), (orphan_frame p s).legend (by decide)]
    exact h
  | leave c t p k => exact evalShownSet_shown _ _
  | clear t k => exact evalShownSet_shown _ _
  | legend g k =>
    unfold ShownOk
    rw [shownSetOf_congr (s := s) (t := s.setLegend g) Iff.rfl rfl rfl]
    exact k.trans h
  | evalShown t => exact evalShownSet_shown _ _
  | _ => exact frame f (by decide)

theorem Change.keeps_shown {fs : List Field} {s t : State} (c : Change fs s t) (h : ShownOk s) : ShownOk t := by
  have move (fs : List Field) (s t : State) (m : Move fs s t) : ShownOk s → ShownOk t := m.keeps_shown
  have way {fs : List Field} {s t : State} (w : Way fs s t) : ShownOk s → ShownOk t := w.keeps fun fs s t _ m => move fs s t m
  cases c with
  | move m => exact m.keeps_shown h
  | press p hp k => exact evalShownSet_shown _ _
  | settle m t k l =>
    unfold settleMotion
    extract_lets flag x s1 record s2
    have same (e : flag = s.motion.lockout) : ShownOk s1 := by
      unfold ShownOk
      show s.legend.shown = shownSetOf s1
      rw [shownSetOf_congr (s := s) (t := s1) Iff.rfl e rfl]
      exact h
    split
    · exact same (And.right ‹_›)
    · split
      · exact way (touchAndRaise_way _) (way (append_way _ _) (same ‹_›))
      · split
        · exact evalShownSet_shown _ _
        · exact evalShownSet_shown _ _
  | goUp k => exact way (examine_way _) (evalShownSet_shown _ _)
  | goDown k => exact shown_of_frame (setIrq_frame _ _) (by decide) (evalShownSet_shown _ _)
  | lowPower k => exact h.trans (shownSetOf_congr (s := s) (t := s.setLink .lowPower) (by simp [k]) rfl rfl).symm
  | bringActive k => exact bringActive_keeps move (h.trans (shownSetOf_congr (s := s) (t := s.setLink .active) (by simp [k]) rfl rfl).symm)
  | startDip mv k => exact startDip_keeps move (fun _ _ k => k) (fun _ _ k => k) mv h
  | endDip k => exact endDip_keeps move (fun _ _ k => k) (fun _ _ k => k) h

/-! ### The latch -/

theorem changeLatch_latch (st : LatchState) (c : LatchCause) (t : Time) (s : State) :
    (changeLatch st c t s).latch =
      { s.latch with state := st, cooldown := cooldownAfter s.latch st t, heldPress := heldAfter s.latch st } := by
  unfold changeLatch
  dsimp only
  rw [(wakeToldLatch_frame _ _ _).latch (by decide), (touchAndRaise_frame _).latch (by decide),
    (append_frame _ _).latch (by decide)]
  rfl

theorem changeLatch_latchOk {st : LatchState} {c : LatchCause} {t : Time} {s : State}
    (k : st.place = .asked ∨ st.place = .releasing → s.latch.state.place = .asked ∨
      (s.latch.state.place = .latched ∧ s.motion.lockout = false ∧ s.latch.cooldown = none))
    (h : LatchOk s) : LatchOk (changeLatch st c t s) := by
  have hm : (changeLatch st c t s).motion = s.motion := (changeLatch_frame _ _ _ _).motion (by decide)
  unfold LatchOk at h ⊢
  rw [hm, changeLatch_latch]
  obtain ⟨h1, h2⟩ := h
  constructor
  · intro a
    have b := k a
    simp only [cooldownAfter]
    rcases b with b | ⟨b, b1, b2⟩
    · have := h1 (.inl b); simp [b, this]
    · simp [b, b1, b2]
  · intro a
    simp only [heldAfter] at a
    split at a
    · cases a
    · rename_i hn
      have b := h2 a
      simp only [cooldownAfter, b.2]
      refine ⟨by simpa using b.1, ?_⟩
      simp only [b.2] at hn
      cases hp : st.place with
      | latched => rfl
      | empty => simp [hp] at hn
      | unseated => simp [hp] at hn
      | asked => have := k (.inl hp); rw [b.2] at this; have b1 := b.1; simp at this; simp [this.2] at b1
      | releasing => have := k (.inr hp); rw [b.2] at this; have b1 := b.1; simp at this; simp [this.2] at b1

theorem latchOk_of_frame {gs : List Field} {s t : State} (f : Frame gs s t) (n : Field.latch ∉ gs ∧ Field.motion ∉ gs)
    (h : LatchOk s) : LatchOk t := by
  unfold LatchOk; rw [f.latch n.1, f.motion n.2]; exact h

theorem Move.keeps_latch {fs : List Field} {s t : State} (m : Move fs s t) (h : LatchOk s) : LatchOk t := by
  have frame {gs : List Field} (f : Frame gs s t) (n : Field.latch ∉ gs ∧ Field.motion ∉ gs) : LatchOk t :=
    latchOk_of_frame f n h
  have f := m.frame
  cases m with
  | latch st c t k => exact changeLatch_latchOk k h
  | latchRest g e k => exact k h
  | _ => exact frame f (by decide)

/-- When the lockout flag becomes active, ASKED and RELEASING are cancelled (R151). -/
theorem latchLockout_latchOk (t : Time) {s : State}
    (h : s.latch.heldPress.isSome = true → s.latch.cooldown.isSome = true ∧ s.latch.state.place = .latched) :
    LatchOk (latchLockout t s) := by
  have at_ (st : LatchState) (c : LatchCause) (hn : st.place ≠ .asked ∧ st.place ≠ .releasing)
      (hl : s.latch.state.place ≠ .latched) : LatchOk (changeLatch st c t s) := by
    refine ⟨?_, ?_⟩
    · rw [changeLatch_latch]; intro a; simp only at a; tauto
    · rw [changeLatch_latch]
      intro a
      simp only [heldAfter] at a
      split at a
      · cases a
      · exact absurd (h a).2 hl
  unfold latchLockout
  split
  · rename_i e he
    exact at_ _ _ (by simp [LatchState.place]) (by simp [he, LatchState.place])
  · rename_i e he
    exact at_ _ _ ⟨(bySense_place _).1, (bySense_place _).2.1⟩ (by simp [he, LatchState.place])
  · rename_i h1 h2
    refine ⟨?_, h⟩
    intro a
    cases hs : s.latch.state with
    | asked e => exact absurd hs (h1 e)
    | releasing e => exact absurd hs (h2 e)
    | _ => simp [hs, LatchState.place] at a

theorem Change.keeps_latch {fs : List Field} {s t : State} (c : Change fs s t) (h : LatchOk s) : LatchOk t := by
  have move (fs : List Field) (s t : State) (m : Move fs s t) : LatchOk s → LatchOk t := m.keeps_latch
  cases c with
  | move m => exact m.keeps_latch h
  | press p hp k => exact press_keeps move hp (latchOk_of_frame (latchedPress_frame p s) (by decide) h)
  | settle m t k l =>
    unfold settleMotion
    extract_lets flag x s1 record s2
    have same (e : flag = s.motion.lockout) : LatchOk s1 := by
      unfold LatchOk
      show (_ → flag = false ∧ _) ∧ _
      rw [e]
      exact h
    have f2 : Frame logTouched s1 s2 := ((append_frame record s1).mono rfl).next (touchAndRaise_frame _) rfl
    split
    · exact same (And.right ‹_›)
    · split
      · exact latchOk_of_frame f2 (by decide) (same ‹_›)
      · split
        · unfold lockoutEngaged
          refine latchOk_of_frame (evalShownSet_frame _ _) (by decide) (latchLockout_latchOk _ ?_)
          have w := (forPositions_way positions (engageAt t) s2 fun p _ u => engageAt_way t p u).sameFields
          rw [w.latch (by decide), f2.latch (by decide)]
          exact h.2
        · unfold lockoutEnded
          have w : LatchOk s2 := by
            refine latchOk_of_frame f2 (by decide) ⟨fun a => ⟨?_, (h.1 a).2⟩, h.2⟩
            show flag = false
            simpa using ‹¬ flag = true›
          exact latchOk_of_frame (evalShownSet_frame _ _) (by decide)
            (latchOk_of_frame (touchStatus_frame _) (by decide) w)
  | goUp k => exact latchOk_of_frame (goUp_frame s) (by decide) h
  | goDown k => exact latchOk_of_frame (goDown_frame s) (by decide) h
  | lowPower k => exact h
  | bringActive k => exact latchOk_of_frame (bringActive_frame s) (by decide) h
  | startDip mv k => exact latchOk_of_frame (startDip_frame mv s) (by decide) h
  | endDip k => exact latchOk_of_frame (endDip_frame s) (by decide) h

/-! ### The wake unit -/

theorem wakeApplies_congr {s t : State} (l : t.latch.state = s.latch.state) (k : t.link = s.link) :
    wakeApplies t = wakeApplies s := by
  unfold wakeApplies; rw [l, k]

theorem wakeOk_of_frame {gs : List Field} {s t : State} (f : Frame gs s t) (n : Field.latch ∉ gs ∧ Field.link ∉ gs ∧
    Field.wake ∉ gs) (h : WakeOk s) : WakeOk t := by
  unfold WakeOk
  rw [f.wake n.2.2, wakeApplies_congr (by rw [f.latch n.1]) (f.link n.2.1)]
  exact h

theorem releaseWake_wakeOk (s : State) : WakeOk (releaseWake s) := by
  intro a; simp [releaseWake] at a

/-- A change of the latch state that does not end in EMPTY leaves wake applying where it applied (R90, R144). -/
theorem wakeToldLatch_wakeOk {st : LatchState} {s u : State} (hl : u.latch.state = st) (hk : u.link = s.link)
    (hw : u.wake = s.wake) (t : Time) (h : WakeOk s) : WakeOk (wakeToldLatch st t u) := by
  have ne (hst : st ≠ .empty) : WakeOk u := by
    intro a
    rw [hw] at a
    have b := h a
    unfold wakeApplies at b ⊢
    simp only [Bool.and_eq_true, bne_iff_ne] at b ⊢
    rw [hl, hk]
    exact ⟨hst, b.2⟩
  cases st with
  | asked e =>
    show WakeOk (urgentWake t u)
    unfold urgentWake
    split
    · rename_i hw
      exact fun _ => hw
    · exact ne (by simp)
  | empty => exact releaseWake_wakeOk _
  | unseated => exact ne (by simp)
  | latched => exact ne (by simp)
  | releasing e => exact ne (by simp)

theorem changeLatch_wakeOk (st : LatchState) (c : LatchCause) (t : Time) {s : State} (h : WakeOk s) :
    WakeOk (changeLatch st c t s) := by
  unfold changeLatch
  dsimp only
  refine wakeToldLatch_wakeOk (s := s) ?_ ?_ ?_ t h
  · rw [(touchAndRaise_frame _).latch (by decide), (append_frame _ _).latch (by decide)]; rfl
  · rw [(touchAndRaise_frame _).link (by decide), (append_frame _ _).link (by decide)]; rfl
  · rw [(touchAndRaise_frame _).wake (by decide), (append_frame _ _).wake (by decide)]; rfl

theorem Move.keeps_wake {fs : List Field} {s t : State} (m : Move fs s t) (h : WakeOk s) : WakeOk t := by
  have frame {gs : List Field} (f : Frame gs s t) (n : Field.latch ∉ gs ∧ Field.link ∉ gs ∧ Field.wake ∉ gs) :
    WakeOk t := wakeOk_of_frame f n h
  have f := m.frame
  cases m with
  | wake w k => exact k h
  | latch st c t k => exact changeLatch_wakeOk _ _ _ h
  | latchRest g e k =>
    intro a
    rw [wakeApplies_congr (s := s) (t := s.setLatch g) e rfl]
    exact h a
  | _ => exact frame f (by decide)

theorem Change.keeps_wake {fs : List Field} {s t : State} (c : Change fs s t) (h : WakeOk s) : WakeOk t := by
  have move (fs : List Field) (s t : State) (m : Move fs s t) : WakeOk s → WakeOk t := m.keeps_wake
  have way {fs : List Field} {s t : State} (w : Way fs s t) : WakeOk s → WakeOk t := w.keeps fun fs s t _ m => move fs s t m
  cases c with
  | move m => exact m.keeps_wake h
  | press p hp k => exact press_keeps move hp (wakeOk_of_frame (latchedPress_frame p s) (by decide) h)
  | settle m t k l => exact settle_keeps move (fun _ _ k => k) _ m t h
  | goUp k => exact way (examine_way _) (way (evalShownSet_way _ _) (releaseWake_wakeOk _))
  | goDown k =>
    refine goDown_keeps move ?_
    intro a
    have b := h a
    unfold wakeApplies at b ⊢
    simp only [Bool.and_eq_true] at b
    simp only [Bool.and_eq_true]
    exact ⟨b.1, rfl⟩
  | lowPower k =>
    intro a
    have b := h a
    unfold wakeApplies at b
    simp [k] at b
  | bringActive k =>
    unfold Machine.bringActive sendHeldVector
    split
    · exact wakeOk_of_frame (setIrq_frame _ _) (by decide) (releaseWake_wakeOk _)
    · exact releaseWake_wakeOk _
  | startDip mv k => exact startDip_keeps move (fun _ _ k => k) (fun _ _ k => k) mv h
  | endDip k => exact endDip_keeps move (fun _ _ k => k) (fun _ _ k => k) h

/-! ### The held vector -/

theorem vectorOk_of_frame {gs : List Field} {s t : State} (f : Frame gs s t) (n : Field.irq ∉ gs ∧ Field.link ∉ gs)
    (h : VectorOk s) : VectorOk t := by
  unfold VectorOk; rw [f.irq n.1, f.link n.2]; exact h

theorem raiseCause_vectorOk (c : Cause) {s : State} (h : VectorOk s) : VectorOk (raiseCause c s) := by
  have due (u : State) (hu : VectorOk u) : VectorOk (vectorDue u) := by
    unfold vectorDue
    split
    · exact hu
    · intro _; simpa using ‹_›
    · exact hu
  unfold raiseCause
  split
  · exact h
  · dsimp only
    split
    · exact due _ h
    · exact h

theorem touchAndRaise_vectorOk {s : State} (h : VectorOk s) : VectorOk (touchAndRaise s) := raiseCause_vectorOk _ h

theorem lookAtPage_vectorOk (i : Nat) {s : State} (h : VectorOk s) : VectorOk (lookAtPage i s) :=
  vectorOk_of_frame (lookAtPage_frame i s) (by decide) h

theorem handOver_vectorOk (i : Nat) {s : State} (h : VectorOk s) : VectorOk (handOver i s) :=
  lookAtPage_vectorOk _ (raiseCause_vectorOk _ h)

theorem placeOn_vectorOk (p : OpenPage) (r : Record) {s : State} (h : VectorOk s) : VectorOk (placeOn p r s) := by
  unfold placeOn
  dsimp only
  split
  · exact handOver_vectorOk _ h
  · exact h

theorem append_vectorOk (r : Record) {s : State} (h : VectorOk s) : VectorOk (append r s) := by
  unfold append
  split
  · split
    · exact placeOn_vectorOk _ _ h
    · split
      · exact h
      · unfold loseRecord
        split
        · exact h
        · exact touchAndRaise_vectorOk h
  · exact h

theorem appendAll_vectorOk (rs : List Record) {s : State} (h : VectorOk s) : VectorOk (appendAll rs s) := by
  unfold appendAll
  induction rs generalizing s with
  | nil => exact h
  | cons r rs ih => exact ih (append_vectorOk r h)

theorem drain_vectorOk (rs : List Record) {s : State} (h : VectorOk s) : VectorOk (drain rs s) := by
  induction rs generalizing s with
  | nil => exact h
  | cons r rs ih =>
    unfold drain
    split
    · exact ih (placeOn_vectorOk _ _ h)
    · exact h

theorem pageReturned_vectorOk (i : Nat) {s : State} (h : VectorOk s) : VectorOk (pageReturned i s) := by
  unfold pageReturned
  dsimp only
  have h2 : VectorOk (drain s.log.queue ((openPage i s).setLog { (openPage i s).log with queue := [] })) :=
    drain_vectorOk _ h
  split
  · exact touchAndRaise_vectorOk (appendAll_vectorOk _ h2)
  · exact h2

theorem changeLatch_vectorOk (st : LatchState) (c : LatchCause) (t : Time) {s : State} (h : VectorOk s) :
    VectorOk (changeLatch st c t s) :=
  vectorOk_of_frame (wakeToldLatch_frame _ _ _) (by decide) (touchAndRaise_vectorOk (append_vectorOk _ h))

theorem Move.keeps_vector {fs : List Field} {s t : State} (m : Move fs s t) (h : VectorOk s) : VectorOk t := by
  have frame {gs : List Field} (f : Frame gs s t) (n : Field.irq ∉ gs ∧ Field.link ∉ gs) : VectorOk t :=
    vectorOk_of_frame f n h
  have f := m.frame
  cases m with
  | irq q k => intro a; exact (k a).elim h id
  | append r => exact append_vectorOk r h
  | handOver p hp n => exact handOver_vectorOk _ h
  | returned i hi => exact pageReturned_vectorOk i h
  | latch st c t k => exact changeLatch_vectorOk _ _ _ h
  | _ => exact frame f (by decide)

theorem Change.keeps_vector {fs : List Field} {s t : State} (c : Change fs s t) (h : VectorOk s) : VectorOk t := by
  have move (fs : List Field) (s t : State) (m : Move fs s t) : VectorOk s → VectorOk t := m.keeps_vector
  cases c with
  | move m => exact m.keeps_vector h
  | press p hp k => exact press_keeps move hp (vectorOk_of_frame (latchedPress_frame p s) (by decide) h)
  | settle m t k l => exact settle_keeps move (fun _ _ k => k) _ m t h
  | goUp k =>
    refine goUp_keeps move (append_vectorOk _ ?_)
    intro a
    have := h a
    rw [k] at this
    cases this
  | goDown k => intro a; simp [Machine.goDown] at a
  | lowPower k => intro _; rfl
  | bringActive k =>
    intro a
    unfold Machine.bringActive sendHeldVector at a
    split at a
    · simp at a
    · exact absurd a ‹_›
  | startDip mv k => exact startDip_keeps move (fun _ _ k => k) (fun _ _ k => k) mv h
  | endDip k => exact endDip_keeps move (fun _ _ k => k) (fun _ _ k => k) h

/-! ### The lighting controller -/

theorem Move.keeps_light {fs : List Field} {s t : State} (m : Move fs s t) (h : LightOk s.light) : LightOk t.light := by
  have frame {gs : List Field} (f : Frame gs s t) (n : Field.light ∉ gs) : LightOk t.light := by rw [f.light n]; exact h
  have f := m.frame
  cases m with
  | light l k => exact k h
  | _ => exact frame f (by decide)

theorem Change.keeps_light {fs : List Field} {s t : State} (c : Change fs s t) (h : LightOk s.light) : LightOk t.light := by
  have move (fs : List Field) (s t : State) (m : Move fs s t) : LightOk s.light → LightOk t.light := m.keeps_light
  cases c with
  | move m => exact m.keeps_light h
  | press p hp k =>
    refine press_keeps (P := fun s => LightOk s.light) move hp ?_
    rw [(latchedPress_frame p s).light (by decide)]; exact h
  | settle m t k l => exact settle_keeps (P := fun s => LightOk s.light) move (fun _ _ k => k) _ m t h
  | goUp k =>
    refine goUp_keeps (P := fun s => LightOk s.light) move ?_
    rw [(logLinkUp_frame _).light (by decide)]; exact h
  | goDown k => exact goDown_keeps (P := fun s => LightOk s.light) move h
  | lowPower k => exact h
  | bringActive k => exact bringActive_keeps (P := fun s => LightOk s.light) move h
  | startDip mv k => exact startDip_keeps (P := fun s => LightOk s.light) move (fun _ _ k => k) (fun _ _ k => k) mv h
  | endDip k => exact endDip_keeps (P := fun s => LightOk s.light) move (fun _ _ k => k) (fun _ _ k => k) h

/-! ### The policy lock -/

/-- The policy lock is set, and what it keeps is this (R70): steering table, motion settings, bit rate, signal
descriptions. -/
def LockedAt (table : List Segment) (g : MotionSettings) (rate : Nat) (ds : List SignalDesc) (s : State) : Prop :=
  s.steer.lock = true ∧ s.steer.table = table ∧ s.motion.settings = g ∧ s.bus.rate = rate ∧
    s.bus.signals.map Signal.desc = ds

section

variable {table : List Segment} {g : MotionSettings} {rate : Nat} {ds : List SignalDesc}

theorem lockedAt_of_frame {fs : List Field} {s t : State} (f : Frame fs s t) (a : Field.steer ∉ fs) (b : Field.motion ∉ fs)
    (c : Field.bus ∉ fs) (h : LockedAt table g rate ds s) : LockedAt table g rate ds t := by
  unfold LockedAt
  rw [f.steer a, f.motion b, f.bus c]
  exact h

theorem Move.keeps_locked {fs : List Field} {s t : State} (m : Move fs s t) (h : LockedAt table g rate ds s) :
    LockedAt table g rate ds t := by
  have f := m.frame
  cases m with
  | steer x k => exact ⟨(k h.1).1, (k h.1).2.trans h.2.1, h.2.2⟩
  | bus b k => exact ⟨h.1, h.2.1, h.2.2.1, (k h.1).1.trans h.2.2.2.1, (k h.1).2.trans h.2.2.2.2⟩
  | _ => exact lockedAt_of_frame f (by decide) (by decide) (by decide) h

theorem Change.keeps_locked {fs : List Field} {s t : State} (c : Change fs s t) (h : LockedAt table g rate ds s) :
    LockedAt table g rate ds t := by
  have move (fs : List Field) (s t : State) (m : Move fs s t) : LockedAt table g rate ds s → LockedAt table g rate ds t :=
    m.keeps_locked
  have way {fs : List Field} {s t : State} (w : Way fs s t) : LockedAt table g rate ds s → LockedAt table g rate ds t :=
    w.keeps fun fs s t _ m => move fs s t m
  cases c with
  | move m => exact m.keeps_locked h
  | press p hp k =>
    refine press_keeps move hp ?_
    exact lockedAt_of_frame (setKeys_frame _ _) (by decide) (by decide) (by decide) (way (countWithheld_way _ s) h)
  | settle m t k l =>
    refine way (settleMotion_way s.motion t (s.setMotion m)) ?_
    exact ⟨h.1, h.2.1, (l h.1).trans h.2.2.1, h.2.2.2⟩
  | goUp k =>
    refine goUp_keeps move ?_
    exact lockedAt_of_frame ((setLink_frame s .active).mono rfl |>.next (logLinkUp_frame _) rfl) (fs := .link :: logTouched)
      (by decide) (by decide) (by decide) h
  | goDown k => exact goDown_keeps move h
  | lowPower k => exact h
  | bringActive k => exact bringActive_keeps move h
  | startDip mv k => exact startDip_keeps move (fun _ _ k => k) (fun _ _ k => k) mv h
  | endDip k => exact endDip_keeps move (fun _ _ k => k) (fun _ _ k => k) h

end

/-! ### The repeat timer -/

/-- What RepeatOk says of a key table and a repeat timer. -/
theorem repeatOk_iff (s : State) : RepeatOk s ↔
    match s.rep.running with
    | none => s.rep.count = 0
    | some r => s.rep.enabled = true ∧ ∃ l, (s.entry r.position).latched? = some l ∧ l.pressTime = r.pressTime ∧
      l.orphaned = false := by
  unfold RepeatOk
  cases s.rep.running with
  | none => rfl
  | some r =>
    dsimp only
    unfold KeyEntry.latched?
    cases (s.entry r.position).cond <;> simp

theorem repeatOk_congr {s t : State} (r : t.rep = s.rep) (k : t.keys.latches = s.keys.latches) (h : RepeatOk s) :
    RepeatOk t := by
  rw [repeatOk_iff] at h ⊢
  have e (p : Nat) : (t.entry p).latched? = (s.entry p).latched? := latched_of_latches k p
  simpa only [r, e] using h

theorem repeatOk_of_frame {gs : List Field} {s t : State} (f : Frame gs s t) (n : Field.keys ∉ gs ∧ Field.rep ∉ gs)
    (h : RepeatOk s) : RepeatOk t := repeatOk_congr (f.rep n.2) (by rw [f.keys n.1]) h

/-- Once a repeat on the position is stopped, the entry may become anything. -/
theorem stopRepeatOf_repeatOk (p : Nat) (e : KeyEntry) {s : State} (h : RepeatOk s) :
    RepeatOk (stopRepeatOf p (s.putEntry p e)) := by
  unfold stopRepeatOf
  cases hr : s.rep.running with
  | none =>
    have : (s.putEntry p e).rep.running = none := hr
    rw [this]
    unfold RepeatOk at h ⊢
    rw [this]
    rw [hr] at h
    exact h
  | some r =>
    have k : (s.putEntry p e).rep.running = some r := hr
    rw [k]
    dsimp only
    split
    · simp [RepeatOk, stopRepeat]
    · rename_i hn
      unfold RepeatOk at h ⊢
      rw [k]
      rw [hr] at h
      dsimp only at h ⊢
      rw [entry_putEntry_other _ _ _ _ (fun q => hn q.symm)]
      exact h

theorem Move.keeps_repeat {fs : List Field} {s t : State} (m : Move fs s t) (hk : KeysOk s.keys) (h : RepeatOk s) :
    RepeatOk t := by
  have frame {gs : List Field} (f : Frame gs s t) (n : Field.keys ∉ gs ∧ Field.rep ∉ gs) : RepeatOk t :=
    repeatOk_of_frame f n h
  have f := m.frame
  cases m with
  | keys k e o => exact repeatOk_congr (s := s) (t := s.setKeys k) rfl e h
  | orphan p =>
    unfold Machine.orphan
    dsimp only
    split
    · split
      · exact stopRepeatOf_repeatOk _ _ h
      · exact h
    · exact h
  | leave c t p k => exact repeatOk_of_frame (evalShownSet_frame _ _) (by decide) (stopRepeatOf_repeatOk _ _ h)
  | clear t k =>
    have : (evalShownSet t (mapEntries KeyEntry.cleared s)).rep = s.rep := f.rep (by decide)
    unfold RepeatOk at h ⊢
    rw [this, k]
    simpa [k] using h
  | rep r k => exact k hk h
  | _ => exact frame f (by decide)

theorem Change.keeps_repeat {fs : List Field} {s t : State} (c : Change fs s t) (h : KeysOk s.keys ∧ RepeatOk s) :
    KeysOk t.keys ∧ RepeatOk t := by
  have move (fs : List Field) (s t : State) (m : Move fs s t) : KeysOk s.keys ∧ RepeatOk s → KeysOk t.keys ∧ RepeatOk t :=
    fun k => ⟨m.keeps_keys k.1, m.keeps_repeat k.1 k.2⟩
  cases c with
  | move m => exact move _ _ _ m h
  | press p hp k =>
    refine press_keeps (P := fun s => KeysOk s.keys ∧ RepeatOk s) move hp ⟨latchedPress_keysOk h.1, ?_⟩
    have hr := h.2
    obtain ⟨l, -, -, -, -, -, e⟩ := latchedPress_keys p s
    have e' (q : Nat) (hq : p ≠ q) : (latchedPress p s).entry q = s.entry q := by
      unfold State.entry
      rw [e]
      simp [KeyTable.put, List.getElem?_set_ne hq]
    unfold RepeatOk at hr ⊢
    rw [(latchedPress_frame p s).rep (by decide)]
    cases hrun : s.rep.running with
    | none => simpa [hrun] using hr
    | some r =>
      simp only [hrun] at hr ⊢
      by_cases hp' : p = r.position
      · subst hp'
        split at hr
        · exact absurd ‹_› (k _)
        · exact hr.2.elim
      · rw [e' _ hp']; exact hr
  | settle m t k l => exact settle_keeps (P := fun s => KeysOk s.keys ∧ RepeatOk s) move (fun _ _ k => k) _ m t h
  | goUp k =>
    refine goUp_keeps (P := fun s => KeysOk s.keys ∧ RepeatOk s) move ⟨?_, repeatOk_of_frame (logLinkUp_frame _) (by decide) h.2⟩
    rw [(logLinkUp_frame _).keys (by decide)]; exact h.1
  | goDown k => exact goDown_keeps (P := fun s => KeysOk s.keys ∧ RepeatOk s) move h
  | lowPower k => exact h
  | bringActive k => exact bringActive_keeps (P := fun s => KeysOk s.keys ∧ RepeatOk s) move h
  | startDip mv k =>
    exact startDip_keeps (P := fun s => KeysOk s.keys ∧ RepeatOk s) move (fun _ _ k => k) (fun _ _ k => k) mv h
  | endDip k => exact endDip_keeps (P := fun s => KeysOk s.keys ∧ RepeatOk s) move (fun _ _ k => k) (fun _ _ k => k) h

/-! ### The scanner -/

theorem scanOk_of_frame {gs : List Field} {s t : State} (f : Frame gs s t)
    (n : Field.inReset ∉ gs ∧ Field.scan ∉ gs ∧ Field.supply ∉ gs) (h : ScanOk s) : ScanOk t := by
  unfold ScanOk; rw [f.inReset n.1, f.scan n.2.1, f.supply n.2.2]; exact h

theorem Move.keeps_scan {fs : List Field} {s t : State} (m : Move fs s t) (h : ScanOk s) : ScanOk t := by
  have frame {gs : List Field} (f : Frame gs s t) (n : Field.inReset ∉ gs ∧ Field.scan ∉ gs ∧ Field.supply ∉ gs) :
    ScanOk t := scanOk_of_frame f n h
  have f := m.frame
  cases m with
  | scan c k => exact k h
  | supply g k => unfold ScanOk at h ⊢; simpa [k] using h
  | _ => exact frame f (by decide)

/-- The scanner as a dip starts: HELD, nothing running, nothing pending (R14). -/
theorem startDip_scanOk (mv : Nat) (s : State) : ScanOk (startDip mv s) := by
  have hd : (startDip mv s).supply.dip = true := by
    unfold startDip
    dsimp only
    rw [(outputsToTargets_way _).sameFields.supply (by decide), (enterHeld_frame _).supply (by decide),
      (touchAndRaise_frame _).supply (by decide), (append_frame _ _).supply (by decide)]
    rfl
  intro _
  rw [hd]
  unfold startDip
  dsimp only
  rw [(outputsToTargets_way _).sameFields.scan (by decide)]
  unfold enterHeld
  dsimp only
  rw [(zeroFilters_way _).sameFields.scan (by decide)]
  obtain ⟨h1, h2, h3, h4⟩ := applyPending_scan ((touchAndRaise (append _ _)).setScan _)
  rw [h1, h2, h3, h4]
  simp

/-- The scanner as a dip ends: SCANNING from a frame start (R15). -/
theorem endDip_scanOk (s : State) : ScanOk (endDip s) := by
  have hd : (endDip s).supply.dip = false := by
    unfold endDip leaveHeld frameStart
    dsimp only
    rw [State.setScan_supply, (touchAndRaise_frame _).supply (by decide), (append_frame _ _).supply (by decide)]
    rfl
  intro _
  rw [hd]
  unfold endDip leaveHeld frameStart
  simp

theorem Change.keeps_scan {fs : List Field} {s t : State} (c : Change fs s t) (h : ScanOk s) : ScanOk t := by
  cases c with
  | move m => exact m.keeps_scan h
  | press p hp k => exact scanOk_of_frame (acceptPress_frame p s hp) (by decide) h
  | settle m t k l =>
    exact scanOk_of_frame (settleMotion_frame _ _ _) (by decide) (scanOk_of_frame (setMotion_frame s m) (by decide) h)
  | goUp k => exact scanOk_of_frame (goUp_frame s) (by decide) h
  | goDown k => exact scanOk_of_frame (goDown_frame s) (by decide) h
  | lowPower k => exact scanOk_of_frame (setLink_frame s _) (by decide) h
  | bringActive k => exact scanOk_of_frame (bringActive_frame s) (by decide) h
  | startDip mv k => exact startDip_scanOk mv s
  | endDip k => exact endDip_scanOk s

end Sys2Proof.Machine
end

