-- ==== Sys2Proof/Laws/Layout.lean ====
section
/-! SUPPORT. Structures of the window laid out field after field (11.6): their length, and each field read back at its
offset. -/

namespace Sys2Proof.Machine

theorem layout_append (fs gs : List (Nat × Nat)) : layout (fs ++ gs) = layout fs ++ layout gs := List.flatMap_append

/-- The length of a structure is the sum of the sizes of its fields. -/
theorem layout_length (fs : List (Nat × Nat)) : (layout fs).length = (fs.map Prod.fst).sum := by
  induction fs with
  | nil => rfl
  | cons f fs ih =>
    rw [show layout (f :: fs) = leBytes f.1 f.2 ++ layout fs from rfl, List.length_append, leBytes_length, ih]
    rfl

/-- A field read at the place to which the fields before it reach is its value, modulo its size. -/
theorem layout_field (before after : List (Nat × Nat)) (n v : Nat) :
    leValue (((layout (before ++ (n, v) :: after)).drop (before.map Prod.fst).sum).take n) = v % 256 ^ n := by
  rw [layout_append, ← layout_length, List.drop_left,
    show layout ((n, v) :: after) = leBytes n v ++ layout after from rfl, List.take_left' (leBytes_length n v), leValue_leBytes]

end Sys2Proof.Machine
end

