-- ==== Sys2Proof/Laws/Release.lean ====
section
/-! SUPPORT. The release of power reset, said once. -/

set_option Elab.async false

namespace Sys2Proof.Machine

theorem firstAmbient_way (n : Nat) (s : State) : Way [.light] s (firstAmbient n s) :=
  .one (.light _ fun k => ⟨k.1, k.2.1, k.2.2.1, k.2.2.2.1, List.length_replicate⟩)

/-- What the release of power reset changes besides the reset mark and the latch controller. -/
abbrev releaseTouched : List Field := [.scan, .light, .legend, .req]

/-- The release of power reset is a chain of moves from the first readings, where the scanner is not HELD. -/
theorem releaseReset_way (p l b : Bool) (a : Nat) (s : State) (h : s.scan.mode ≠ .held) :
    Way releaseTouched (firstReadings p l b (s.setInReset false)) (releaseReset p l b a s) := by
  have w := firstAmbient_way a (firstReadings p l b (s.setInReset false))
  refine .last (.req _ fun k => k) (.after (beginTransfer_way _ _) (.after (frameStart_way _ ?_) w.mono))
  rw [w.sameFields.scan (by decide)]
  exact h

theorem releaseReset_frame (p l b : Bool) (a : Nat) (s : State) :
    Frame (.inReset :: .latch :: releaseTouched) s (releaseReset p l b a s) := by
  have h1 : Frame (.inReset :: .latch :: releaseTouched) s (firstReadings p l b (s.setInReset false)) :=
    ((setInReset_frame _ _).mono rfl).next (setLatch_frame _ _) rfl
  exact (((h1.next (firstAmbient_way a _).sameFields rfl).next (setScan_frame _ _) rfl).next
    (beginTransfer_frame _ _) rfl).next (setReq_frame _ _) rfl

/-- The release leaves the change count (R184). -/
theorem releaseReset_changeCount (p l b : Bool) (a : Nat) (s : State) :
    (releaseReset p l b a s).changeCount = s.changeCount := (releaseReset_frame p l b a s).changeCount (by decide)

theorem releaseReset_shown (p l b : Bool) (a : Nat) (s : State) :
    (releaseReset p l b a s).legend.shown = s.legend.shown := by
  unfold releaseReset beginTransfer
  dsimp only
  show (firstAmbient a (firstReadings p l b (s.setInReset false))).legend.shown = _
  rw [(firstAmbient_way _ _).sameFields.legend (by decide)]
  rfl

/-- The reset state with a queue, its reset mark cleared and its latch inputs read. -/
theorem firstReadings_latch (p l b : Bool) (s : State) :
    (firstReadings p l b s).latch.state = latchFromSwitches p l ∧ (firstReadings p l b s).latch.cooldown = s.latch.cooldown ∧
    (firstReadings p l b s).latch.heldPress = s.latch.heldPress := ⟨rfl, rfl, rfl⟩

theorem latchFromSwitches_place (p l : Bool) :
    (latchFromSwitches p l).place ≠ .asked ∧ (latchFromSwitches p l).place ≠ .releasing := by
  cases p <;> cases l <;> decide

/-- An invariant that the moves keep holds at the release if it holds right after the first readings. -/
theorem releaseReset_keeps {P : State → Prop} (move : ∀ fs s t, Move fs s t → P s → P t) (p l b : Bool) (a : Nat)
    {s : State} (h : s.scan.mode ≠ .held) (k : P (firstReadings p l b (s.setInReset false))) :
    P (releaseReset p l b a s) :=
  (releaseReset_way p l b a s h).keeps (fun fs s t _ m => move fs s t m) k

end Sys2Proof.Machine
end

