-- ==== Sys2Proof/Laws/Status.lean ====
section
/-! SUPPORT. The change count: an operation that leaves a status field with another value has marked the block rewritten
(R184), said once per operation. -/

set_option Elab.async false

namespace Sys2Proof.Machine

/-- The fields of the status block but the ID and the change count. -/
def statusRest (s : State) : List (Nat × Nat) := (statusFields s).drop 2

/-- Past its first 8 bytes the status block shows those fields. -/
theorem statusBytes_getD (s : State) (x : Nat) (h : 8 ≤ x) : (statusBytes s).getD x 0 = (layout (statusRest s)).getD (x - 8) 0 := by
  have h8 : (layout [(4, idWord), (4, s.changeCount.toNat)]).length = 8 := rfl
  have e : statusBytes s = layout [(4, idWord), (4, s.changeCount.toNat)] ++ layout (statusRest s) := by
    rw [layout, layout, ← List.flatMap_append]; rfl
  rw [e, List.getD_append_right _ _ _ _ (by omega), h8]

/-- Inside an event: the change count stays, a mark stays, and without a mark every field shows what it showed. -/
structure Marks (s t : State) : Prop where
  count : t.changeCount = s.changeCount
  kept : s.statusDirty = true → t.statusDirty = true
  shown : t.statusDirty = false → statusRest t = statusRest s

namespace Marks

variable {s t u : State}

theorem refl : Marks s s := ⟨rfl, id, fun _ => rfl⟩

/-- One operation after others. -/
theorem after (k : Marks t u) (h : Marks s t) : Marks s u where
  count := k.count.trans h.count
  kept d := k.kept (h.kept d)
  shown d := (k.shown d).trans (h.shown (by
    cases e : t.statusDirty with
    | false => rfl
    | true => rw [k.kept e] at d; cases d))

/-- An operation that changes no field of the status block. -/
theorem quiet (c : t.changeCount = s.changeCount) (d : t.statusDirty = s.statusDirty) (h : statusRest t = statusRest s) :
    Marks s t := ⟨c, fun k => d.trans k, fun _ => h⟩

/-- An operation that marks the block. -/
theorem touched (c : t.changeCount = s.changeCount) (d : t.statusDirty = true) : Marks s t :=
  ⟨c, fun _ => d, fun k => by rw [d] at k; cases k⟩

/-- An operation that leaves every block which the status block shows. -/
theorem ofFrame (h : Frame [.inReset, .ms, .keymap, .rep, .wake, .ind, .link, .irq, .req, .mem, .freeCount, .pending] s t) :
    Marks s t := by
  refine .quiet (h.changeCount (by decide)) (h.statusDirty (by decide)) ?_
  simp only [statusRest, statusFields, h.log (by decide), h.motion (by decide), h.latch (by decide), h.chords (by decide),
    h.supply (by decide), h.steer (by decide), h.legend (by decide), h.keys (by decide), h.scan (by decide),
    h.light (by decide), h.bus (by decide), List.drop, List.cons_append]

end Marks

theorem forPositions_marks (ps : List Nat) (f : Nat → State → State) (s : State) (h : ∀ p ∈ ps, ∀ s, Marks s (f p s)) :
    Marks s (forPositions ps f s) := by
  induction ps generalizing s with
  | nil => exact .refl
  | cons p ps ih => exact .after (ih _ fun q hq => h q (by simp [hq])) (h p (by simp) s)

/-! ### Interrupt, log -/

theorem touchStatus_marks (s : State) : Marks s (touchStatus s) := .touched rfl rfl

theorem raiseCause_marks (c : Cause) (s : State) : Marks s (raiseCause c s) := .ofFrame ((raiseCause_frame c s).mono rfl)

theorem raiseCause_dirty (c : Cause) (s : State) : (raiseCause c s).statusDirty = s.statusDirty :=
  (raiseCause_frame c s).statusDirty (by decide)

theorem touchAndRaise_dirty (s : State) : (touchAndRaise s).statusDirty = true := raiseCause_dirty _ _

/-- Whatever came before in the event, the block is marked. -/
theorem touchAndRaise_after (s t : State) (h : t.changeCount = s.changeCount) : Marks s (touchAndRaise t) :=
  .touched (((touchAndRaise_frame t).changeCount (by decide)).trans h) (touchAndRaise_dirty t)

theorem touchStatus_after (s t : State) (h : t.changeCount = s.changeCount) : Marks s (touchStatus t) := .touched h rfl

theorem setMem_marks (s : State) (m : Memory) : Marks s (s.setMem m) := .quiet rfl rfl rfl

/-- The log's state changes, with the epoch, LIVE and the loss as they were. -/
theorem setLog_marks (s : State) (g : EventLog) (h : g.epoch = s.log.epoch) (k : g.live = s.log.live)
    (l : g.inLoss = s.log.inLoss) : Marks s (s.setLog g) :=
  .quiet rfl rfl (by simp only [statusRest, statusFields, State.setLog, h, k, l])

theorem openPage_marks (i : Nat) (s : State) : Marks s (openPage i s) :=
  .after (setLog_marks _ _ rfl rfl rfl) (setMem_marks _ _)

theorem lookAtPage_marks (i : Nat) (s : State) : Marks s (lookAtPage i s) := by
  unfold lookAtPage
  split
  · exact openPage_marks _ _
  · exact setLog_marks _ _ rfl rfl rfl

theorem handOver_marks (i : Nat) (s : State) : Marks s (handOver i s) :=
  .after (lookAtPage_marks _ _) (.after (raiseCause_marks _ _) (.after (setLog_marks _ _ rfl rfl rfl) (setMem_marks _ _)))

theorem placeOn_marks (p : OpenPage) (r : Record) (s : State) : Marks s (placeOn p r s) := by
  unfold placeOn
  dsimp only
  split
  · exact .after (handOver_marks _ _) (.after (setLog_marks _ _ rfl rfl rfl) (setMem_marks _ _))
  · exact .after (setLog_marks _ _ rfl rfl rfl) (setMem_marks _ _)

theorem append_marks (r : Record) (s : State) : Marks s (append r s) := by
  unfold append
  split
  · split
    · exact placeOn_marks _ _ _
    · split
      · exact setLog_marks _ _ rfl rfl rfl
      · unfold loseRecord
        split
        · exact setLog_marks _ _ rfl rfl rfl
        · exact touchAndRaise_after _ _ rfl
  · exact .refl

theorem appendAll_marks (rs : List Record) (s : State) : Marks s (appendAll rs s) := by
  induction rs generalizing s with
  | nil => exact .refl
  | cons r rs ih => exact .after (ih _) (append_marks r s)

theorem drain_marks (rs : List Record) (s : State) : Marks s (drain rs s) := by
  induction rs generalizing s with
  | nil => exact .refl
  | cons r rs ih =>
    unfold drain
    split
    · exact .after (ih _) (placeOn_marks _ _ _)
    · exact setLog_marks _ _ rfl rfl rfl

theorem writeSummary_marks (s : State) : Marks s (writeSummary s) :=
  touchAndRaise_after _ _ ((appendAll_marks _ _).count)

theorem pageReturned_marks (i : Nat) (s : State) : Marks s (pageReturned i s) := by
  unfold pageReturned
  dsimp only
  have h : Marks s (drain s.log.queue ((openPage i s).setLog { (openPage i s).log with queue := [] })) :=
    .after (drain_marks _ _) (.after (setLog_marks _ _ rfl rfl rfl) (openPage_marks _ _))
  split
  · exact .after (writeSummary_marks _) h
  · exact h

/-- What follows the mark of a state keeps it. -/
theorem Marks.last {s t u : State} (k : Marks t u) (c : t.changeCount = s.changeCount) (d : t.statusDirty = true) :
    Marks s u := .touched (k.count.trans c) (k.kept d)

theorem logLinkUp_marks (s : State) : Marks s (logLinkUp s) := by
  refine .last (append_marks _ _) ?_ rfl
  rw [(touchStatus_frame _).changeCount (by decide), (openPage_frame _ _).changeCount (by decide),
    State.setLog_changeCount, State.setMem_changeCount]

theorem logLinkDown_marks (s : State) : Marks s (logLinkDown s) := .touched rfl rfl

/-! ### Legend driver -/

/-- The legend driver changes with the strip state as it was. -/
theorem setLegend_marks (s : State) (g : Legend) (h : g.online = s.legend.online) : Marks s (s.setLegend g) :=
  .quiet rfl rfl (by simp only [statusRest, statusFields, State.setLegend, Legend.stripBit, h])

theorem beginTransfer_marks (t : Time) (s : State) : Marks s (beginTransfer t s) := setLegend_marks _ _ rfl

theorem refreshNeed_marks (t : Time) (s : State) : Marks s (refreshNeed t s) := by
  unfold refreshNeed
  split
  · exact .after (beginTransfer_marks _ _) (setLegend_marks _ _ rfl)
  · exact setLegend_marks _ _ rfl

theorem evalShownSet_marks (t : Time) (s : State) : Marks s (evalShownSet t s) := by
  unfold evalShownSet
  split
  · exact .refl
  · exact .after (refreshNeed_marks _ _) (setLegend_marks _ _ rfl)

theorem stripAcknowledged_marks (s : State) : Marks s (stripAcknowledged s) := by
  unfold stripAcknowledged
  split
  · exact .refl
  · dsimp only
    have h : Marks s (if s.legend.online then
        s.setLegend { s.legend with transfer := .idle, failures := 0, online := true, again := false, retry := none }
      else touchStatus
        (s.setLegend { s.legend with transfer := .idle, failures := 0, online := true, again := false, retry := none })) := by
      split
      · exact setLegend_marks _ _ (Eq.symm ‹_›)
      · exact .touched rfl rfl
    split
    · exact .after (beginTransfer_marks _ _) h
    · exact h

theorem transferFailed_marks (t : Time) (s : State) : Marks s (transferFailed t s) := by
  unfold transferFailed
  dsimp only
  split
  · exact .after (beginTransfer_marks _ _) (setLegend_marks _ _ rfl)
  · split
    · exact .touched rfl rfl
    · rename_i h
      exact .after (setLegend_marks _ _ (by simpa using h)) (setLegend_marks _ _ rfl)

/-! ### Lighting controller -/

/-- The lighting controller changes with all that the status block shows of it as it was. -/
theorem setLight_marks (s : State) (l : Lighting) (n : l.night = s.light.night) (p : l.panel = s.light.panel)
    (k : l.keys = s.light.keys) (g : l.legend = s.light.legend) (a : l.average = s.light.average) : Marks s (s.setLight l) :=
  .quiet rfl rfl (by simp only [statusRest, statusFields, State.setLight, n, p, k, g, a])

theorem evalNight_marks (s : State) : Marks s (evalNight s) := by
  unfold evalNight
  dsimp only
  split
  · exact .refl
  · exact .touched rfl rfl

theorem setPanelStep_marks (n : Nat) (s : State) : Marks s (setPanelStep n s) := by
  unfold setPanelStep
  split
  · exact .refl
  · exact .touched rfl rfl

theorem setKeysStep_marks (n : Nat) (s : State) : Marks s (setKeysStep n s) := by
  unfold setKeysStep
  split
  · exact .refl
  · exact .touched rfl rfl

theorem setLegendStep_marks (n : Nat) (s : State) : Marks s (setLegendStep n s) := by
  unfold setLegendStep
  split
  · exact .refl
  · exact .touched rfl rfl

theorem setNightMode_marks (m : NightMode) (s : State) : Marks s (setNightMode m s) :=
  .after (evalNight_marks _) (setLight_marks _ _ rfl rfl rfl rfl rfl)

theorem setOutputs_marks (a b c : Nat) (s : State) : Marks s (setOutputs a b c s) := by
  unfold setOutputs
  dsimp only
  split
  · rename_i h
    simp only [Bool.and_eq_true, decide_eq_true_eq] at h
    obtain ⟨⟨rfl, rfl⟩, rfl⟩ := h
    exact setLight_marks _ _ rfl rfl rfl rfl rfl
  · exact .touched rfl rfl

theorem outputsToTargets_marks (s : State) : Marks s (outputsToTargets s) := setOutputs_marks _ _ _ _

theorem updateOutputs_marks (s : State) : Marks s (updateOutputs s) := setOutputs_marks _ _ _ _

theorem takeAmbient_marks (rs : List Nat) (s : State) : Marks s (takeAmbient rs s) := by
  unfold takeAmbient
  dsimp only
  split
  · exact setLight_marks _ _ rfl rfl rfl rfl ‹_›
  · exact .last (evalNight_marks _) rfl rfl

/-! ### Wake unit, repeat timer, request unit -/

theorem urgentWake_marks (t : Time) (s : State) : Marks s (urgentWake t s) := .ofFrame ((urgentWake_frame t s).mono rfl)

theorem wakeNotice_marks (p : Nat) (q : Bool) (t : Time) (s : State) : Marks s (wakeNotice p q t s) :=
  .ofFrame ((wakeNotice_way p q t s).sameFields.mono rfl)

theorem releaseWake_marks (s : State) : Marks s (releaseWake s) := .ofFrame ((releaseWake_way s).sameFields.mono rfl)

theorem stopRepeat_marks (s : State) : Marks s (stopRepeat s) := .ofFrame ((stopRepeat_way s).sameFields.mono rfl)

theorem stopRepeatOf_marks (p : Nat) (s : State) : Marks s (stopRepeatOf p s) := .ofFrame ((stopRepeatOf_frame p s).mono rfl)

theorem repeatNotice_marks (p : Nat) (r : Route) (t : Time) (s : State) : Marks s (repeatNotice p r t s) := by
  unfold repeatNotice
  split
  · exact .ofFrame ((setRep_frame _ _).mono rfl)
  · exact .refl

theorem examine_marks (s : State) : Marks s (examine s) := .ofFrame ((examine_way s).sameFields.mono rfl)

theorem complete_marks (q : Request) (r : Reply) (s : State) : Marks s (complete q r s) :=
  .ofFrame ((complete_way q r s).sameFields.mono rfl)

/-! ### Key table -/

/-- The key table changes with the number of quarantined entries as it was. -/
theorem setKeys_marks (s : State) (k : KeyTable) (h : k.quarantinedCount = s.keys.quarantinedCount) : Marks s (s.setKeys k) :=
  .quiet rfl rfl (by simp only [statusRest, statusFields, State.setKeys, h])

theorem countP_set_same {α : Type} (p : α → Bool) (l : List α) (i : Nat) (x d : α) (h : p x = p (l.getD i d)) :
    (l.set i x).countP p = l.countP p := by
  induction l generalizing i with
  | nil => rfl
  | cons a l ih =>
    cases i with
    | zero => simp only [List.set_cons_zero, List.countP_cons]; rw [h]; rfl
    | succ i => simp only [List.set_cons_succ, List.countP_cons]; rw [ih i (by simpa using h)]

theorem putEntry_marks (p : Nat) (e : KeyEntry) (s : State)
    (h : (e.cond == .quarantined) = ((s.entry p).cond == .quarantined)) : Marks s (s.putEntry p e) :=
  setKeys_marks _ _ (countP_set_same _ _ _ _ KeyEntry.reset h)

theorem mapEntries_marks (f : KeyEntry → KeyEntry) (s : State) (h : ∀ e, (f e).cond = e.cond) : Marks s (mapEntries f s) :=
  setKeys_marks _ _ (by
    simp only [KeyTable.quarantinedCount, List.countP_map]
    refine List.countP_congr fun e _ => ?_
    simp [h e])

theorem zeroFilters_marks (s : State) : Marks s (zeroFilters s) := mapEntries_marks _ _ fun _ => rfl

theorem countFrame_marks (s : State) : Marks s (countFrame s) := by
  unfold countFrame
  split
  · exact .after (setKeys_marks _ _ rfl) (mapEntries_marks _ _ fun _ => rfl)
  · exact setKeys_marks _ _ rfl

theorem orphan_marks (p : Nat) (s : State) : Marks s (orphan p s) := by
  unfold orphan
  dsimp only
  split
  · rename_i l h
    split
    · refine .after (stopRepeatOf_marks _ _) (putEntry_marks _ _ _ ?_)
      rw [h]; rfl
    · exact .refl
  · exact .refl

theorem forceRelease_marks (c : ReleaseCause) (t : Time) (p : Nat) (s : State) : Marks s (forceRelease c t p s) := by
  unfold forceRelease
  split
  · split
    · exact .after (orphan_marks _ _) (append_marks _ _)
    · exact .refl
  · exact .refl

/-- The condition of an entry after its forced release: DOWN if it was. -/
theorem forceRelease_down (c : ReleaseCause) (t : Time) (p q : Nat) (s : State) (l : Latched)
    (h : (s.entry q).cond = .down l) : ∃ l', ((forceRelease c t p s).entry q).cond = .down l' := by
  unfold forceRelease
  split
  · split
    · generalize hu : append _ s = u
      have hk : u.keys = s.keys := by rw [← hu]; exact (append_frame _ _).keys (by decide)
      have he (x : Nat) : u.entry x = s.entry x := by unfold State.entry; rw [hk]
      unfold orphan
      dsimp only
      split
      · rename_i l1 h1
        split
        · have hr : (stopRepeatOf p (u.putEntry p { u.entry p with cond := .down { l1 with orphaned := true } })).keys =
              (u.putEntry p { u.entry p with cond := .down { l1 with orphaned := true } }).keys :=
            (stopRepeatOf_frame _ _).keys (by decide)
          have hq : (stopRepeatOf p (u.putEntry p { u.entry p with cond := .down { l1 with orphaned := true } })).entry q =
              (u.putEntry p { u.entry p with cond := .down { l1 with orphaned := true } }).entry q :=
            congrArg (fun k => k.entries.getD q KeyEntry.reset) hr
          rw [hq]
          by_cases hpq : p = q
          · subst hpq
            by_cases hp : p < u.keys.entries.length
            · exact ⟨_, by rw [entry_putEntry_self _ _ _ hp]⟩
            · exfalso
              rw [← he p, State.entry, List.getD_eq_default _ _ (by omega)] at h
              cases h
          · exact ⟨l, by rw [entry_putEntry_other _ _ _ _ hpq, he]; exact h⟩
        · exact ⟨l, by rw [he]; exact h⟩
      · exact ⟨l, by rw [he]; exact h⟩
    · exact ⟨l, h⟩
  · exact ⟨l, h⟩

/-- A DOWN entry leaves DOWN, not into quarantine. -/
theorem leaveDown_marks (c : Condition) (t : Time) (p : Nat) (s : State) (hc : c ≠ .quarantined)
    (h : (s.entry p).cond ≠ .quarantined) : Marks s (leaveDown c t p s) :=
  .after (evalShownSet_marks _ _) (.after (stopRepeatOf_marks _ _) (putEntry_marks _ _ _ (by simp [hc, h])))

theorem releaseEntry_marks (l : Latched) (t : Time) (p : Nat) (s : State) (h : (s.entry p).cond = .down l) :
    Marks s (releaseEntry l t p s) := by
  unfold releaseEntry
  dsimp only
  split
  · refine .after (leaveDown_marks _ _ _ _ (by simp) ?_) (append_marks _ _)
    unfold State.entry
    rw [(append_frame _ _).keys (by decide)]
    show (s.entry p).cond ≠ _
    rw [h]; simp
  · exact leaveDown_marks _ _ _ _ (by simp) (by rw [h]; simp)

theorem quarantine_marks (t : Time) (p : Nat) (s : State) : Marks s (quarantine t p s) := by
  refine .touched ?_ rfl
  show (append _ (leaveDown _ t p (forceRelease _ t p s))).changeCount = _
  rw [(append_frame _ _).changeCount (by decide), (leaveDown_frame _ _ _ _).changeCount (by decide)]
  exact (forceRelease_marks _ _ _ _).count

/-! ### Latch controller -/

/-- The latch controller changes with its state as it was. -/
theorem setLatch_marks (s : State) (g : Latch) (h : g.state = s.latch.state) : Marks s (s.setLatch g) :=
  .quiet rfl rfl (by simp only [statusRest, statusFields, State.setLatch, h])

theorem changeLatch_marks (st : LatchState) (c : LatchCause) (t : Time) (s : State) : Marks s (changeLatch st c t s) := by
  have h (u : State) : Marks u (wakeToldLatch st t u) := .ofFrame ((wakeToldLatch_frame st t u).mono rfl)
  refine .last (h _) ?_ (touchAndRaise_dirty _)
  rw [(touchAndRaise_frame _).changeCount (by decide), (append_frame _ _).changeCount (by decide)]
  rfl

theorem releaseRequest_marks (src : PressSource) (t : Time) (s : State) : Marks s (releaseRequest src t s) := by
  unfold releaseRequest
  split
  · split
    · exact setLatch_marks _ _ rfl
    · split
      · exact append_marks _ _
      · exact changeLatch_marks _ _ _ _
  · exact .refl

theorem startRelease_marks (c : LatchCause) (t : Time) (s : State) : Marks s (startRelease c t s) := changeLatch_marks _ _ _ _

theorem latchLockout_marks (t : Time) (s : State) : Marks s (latchLockout t s) := by
  unfold latchLockout
  split
  all_goals first
    | exact changeLatch_marks _ _ _ _
    | exact .refl

theorem presentMoved_marks (t : Time) (s : State) : Marks s (presentMoved t s) := by
  unfold presentMoved
  split <;> split
  all_goals first
    | exact changeLatch_marks _ _ _ _
    | exact .refl

theorem senseMoved_marks (t : Time) (s : State) : Marks s (senseMoved t s) := by
  unfold senseMoved
  split <;> split
  all_goals first
    | exact changeLatch_marks _ _ _ _
    | exact .refl

theorem takePresentChange_marks (s : State) : Marks s (takePresentChange s) := by
  unfold takePresentChange
  split
  · exact .after (presentMoved_marks _ _) (setLatch_marks _ _ rfl)
  · exact .refl

theorem takeSenseChange_marks (s : State) : Marks s (takeSenseChange s) := by
  unfold takeSenseChange
  split
  · exact .after (senseMoved_marks _ _) (setLatch_marks _ _ rfl)
  · exact .refl

theorem takeButtonPress_marks (s : State) : Marks s (takeButtonPress s) := by
  unfold takeButtonPress
  split
  · split
    · exact .refl
    · exact .after (releaseRequest_marks _ _ _) (setLatch_marks _ _ rfl)
  · exact .refl

theorem takeButtonRelease_marks (s : State) : Marks s (takeButtonRelease s) := by
  unfold takeButtonRelease
  split
  · split
    · exact setLatch_marks _ _ rfl
    · exact .refl
  · exact .refl

theorem takeCooldown_marks (s : State) : Marks s (takeCooldown s) := by
  unfold takeCooldown
  split
  · split
    · unfold cooldownExpired
      dsimp only
      split
      · exact .after (releaseRequest_marks _ _ _) (setLatch_marks _ _ rfl)
      · exact setLatch_marks _ _ rfl
    · exact .refl
  · exact .refl

/-! ### Chord unit, steering unit -/

theorem beginAttention_marks (k : Nat) (s : State) : Marks s (beginAttention k s) := by
  unfold beginAttention
  extract_lets t src s1 s2
  have h : Marks s s2 := touchAndRaise_after _ _ ((append_frame _ s1).changeCount (by decide))
  exact .after (urgentWake_marks _ _) (.after (stopRepeat_marks _) h)

theorem endAttention_marks (c : EndCause) (t : Time) (s : State) : Marks s (endAttention c t s) := by
  unfold endAttention
  split
  · exact touchAndRaise_after _ _ ((append_frame _ _).changeCount (by decide))
  · exact .refl

theorem dropAttention_marks (s : State) : Marks s (dropAttention s) := by
  unfold dropAttention
  split
  · exact .touched rfl rfl
  · exact .refl

/-- The chord unit changes with its attention as it was. -/
theorem setChords_marks (s : State) (c : Chords) (h : c.attention = s.chords.attention) : Marks s (s.setChords c) :=
  .quiet rfl rfl (by simp only [statusRest, statusFields, State.setChords, h])

theorem countWithheld_marks (w : Withheld) (s : State) : Marks s (countWithheld w s) := by
  have h (g : Steering) : Marks s (if g = s.steer then s else touchStatus (s.setSteer g)) := by
    split
    · exact .refl
    · exact .touched rfl rfl
  exact h _

theorem panelStep_marks (c : Nat) (t : Time) (s : State) : Marks s (panelStep c t s) :=
  .after (append_marks _ _) (setPanelStep_marks _ _)

theorem dockFunction_marks (c : Nat) (t : Time) (s : State) : Marks s (dockFunction c t s) := by
  unfold dockFunction
  dsimp only
  split
  · exact panelStep_marks _ _ _
  · split
    · exact .after (append_marks _ _) (setKeysStep_marks _ _)
    · split
      · exact .after (append_marks _ _) (setNightMode_marks _ _)
      · split
        · exact .after (append_marks _ _) (releaseRequest_marks _ _ _)
        · exact .refl

theorem handOnPress_marks (p : Nat) (l : Latched) (o : RouteOutcome) (s : State) : Marks s (handOnPress p l o s) := by
  unfold handOnPress
  extract_lets t s1 s2 s3 s4
  have w1 : Marks s s1 := by
    show Marks s (if _ then _ else _)
    split
    · exact append_marks _ _
    · exact .refl
  have w2 : Marks s s2 := by
    show Marks s (if _ then _ else _)
    split
    · exact .after (dockFunction_marks _ _ _) w1
    · exact w1
  have w3 : Marks s s3 := by
    show Marks s (match o.chord with | some k => _ | none => _)
    split
    · exact .after (beginAttention_marks _ _) w2
    · exact w2
  exact .after (evalShownSet_marks _ _) (.after (wakeNotice_marks _ _ _ _) (.after (repeatNotice_marks _ _ _ _) w3))

/-- A press is accepted of an entry that is not quarantined. -/
theorem acceptPress_marks (p : Nat) (s : State) (h : (s.entry p).cond ≠ .quarantined) : Marks s (acceptPress p s) := by
  unfold acceptPress
  extract_lets found o l s1
  refine .after (handOnPress_marks _ _ _ _) (.after (putEntry_marks _ _ _ ?_) (countWithheld_marks _ _))
  have : s1.entry p = s.entry p := by
    unfold State.entry; rw [(countWithheld_way _ s).sameFields.keys (by decide)]
  rw [this]
  simp [h]

theorem repeatExpired_marks (r : Repeating) (s : State) : Marks s (repeatExpired r s) := by
  unfold repeatExpired
  extract_lets n src s1
  have w : Marks s s1 := .ofFrame ((setRep_frame _ _).mono rfl)
  refine .after ?_ w
  unfold dispatchRepeat
  split
  · dsimp only
    have h1 (l : Latched) (n t q) (u : State) :
        Marks u (if l.owned then append { time := t, body := .keyRepeat q l.code n } u else u) := by
      split
      · exact append_marks _ _
      · exact .refl
    split
    · exact .after (panelStep_marks _ _ _) (h1 _ _ _ _ _)
    · exact h1 _ _ _ _ _
  · exact .refl

/-! ### Scanner -/

/-- The scanner changes with the skipped count as it was. -/
theorem setScan_marks (s : State) (c : Scanner) (h : c.skipped = s.scan.skipped) : Marks s (s.setScan c) :=
  .quiet rfl rfl (by simp only [statusRest, statusFields, State.setScan, h])

theorem frameStart_marks (s : State) : Marks s (frameStart s) := setScan_marks _ _ rfl

theorem maskPosition_marks (t : Time) (p : Nat) (s : State) : Marks s (maskPosition t p s) := by
  unfold maskPosition
  extract_lets s1
  refine .after (putEntry_marks _ _ _ rfl) ?_
  show Marks s (match (s.entry p).cond with | .down _ => _ | .blocked => _ | .up => _ | .quarantined => _)
  split
  · rename_i l h
    obtain ⟨l', h'⟩ := forceRelease_down .masked t p p s l h
    exact .after (leaveDown_marks _ _ _ _ (by simp) (by rw [h']; simp)) (forceRelease_marks _ _ _ _)
  · rename_i h
    exact putEntry_marks _ _ _ (by rw [h]; rfl)
  · exact .refl
  · exact .refl

theorem applyChange_marks (c : ScanSettings) (s : State) : Marks s (applyChange c s) := by
  unfold applyChange
  dsimp only
  split
  · exact setScan_marks _ _ rfl
  · exact .after (setScan_marks _ _ rfl) (.after (setScan_marks _ _ rfl)
      (forPositions_marks _ _ _ fun p _ u => maskPosition_marks _ p u))

theorem applyPending_marks (s : State) : Marks s (applyPending s) := by
  unfold applyPending
  split
  · exact applyChange_marks _ _
  · exact .refl

theorem takePress_marks (f : List Sample) (p : Nat) (s : State) (h : (s.entry p).cond = .up) : Marks s (takePress f p s) := by
  unfold takePress
  split
  · exact acceptPress_marks _ _ (by rw [h]; simp)
  · exact putEntry_marks _ _ _ (by rw [h]; rfl)

theorem atTransition_marks (f : List Sample) (p : Nat) (s : State) : Marks s (atTransition f p s) := by
  unfold atTransition
  dsimp only
  split
  · split
    · exact takePress_marks _ _ _ ‹_›
    · exact .refl
  · exact releaseEntry_marks _ _ _ _ ‹_›
  · rename_i h
    exact putEntry_marks _ _ _ (by rw [h]; rfl)
  · exact .refl

theorem withoutTransition_marks (f : List Sample) (p : Nat) (s : State) : Marks s (withoutTransition f p s) := by
  unfold withoutTransition
  dsimp only
  split
  · split
    · exact takePress_marks _ _ _ ‹_›
    · exact .refl
  · rename_i h
    split
    · exact acceptPress_marks _ _ (by rw [h]; simp)
    · exact .refl
  · exact .refl
  · exact .refl

theorem filterSample_cond (g : FilterSettings) (x : Sample) (e : KeyEntry) : (filterSample g x e).1.cond = e.cond := by
  unfold filterSample
  repeat' split
  all_goals rfl

theorem framePosition_marks (f : List Sample) (p : Nat) (s : State) : Marks s (framePosition f p s) := by
  unfold framePosition
  extract_lets x y e s1
  have hx : x.1.cond = (s.entry p).cond := filterSample_cond _ _ _
  have w1 : Marks s s1 := putEntry_marks _ _ _ (by
    show (x.1.cond == _) = _
    rw [hx])
  split
  · split
    · exact .after (quarantine_marks _ _ _) w1
    · exact .after (atTransition_marks _ _ _) w1
  · exact .after (withoutTransition_marks _ _ _) (putEntry_marks _ _ _ (by rw [hx]))

theorem deliverFrame_marks (f : List Sample) (s : State) : Marks s (deliverFrame f s) :=
  .after (countFrame_marks _) (forPositions_marks _ _ _ fun p _ u => framePosition_marks f p u)

theorem watchTest_marks (b : Bool) (s : State) : Marks s (watchTest b s) := by
  unfold watchTest
  split
  · split
    · exact frameStart_marks _
    · exact setScan_marks _ _ rfl
  · exact .refl

theorem frameBoundary_marks (f : List Sample) (b : Bool) (s : State) : Marks s (frameBoundary f b s) :=
  .after (watchTest_marks _ _) (.after (applyPending_marks _) (.after (setScan_marks _ _ rfl)
    (.after (deliverFrame_marks _ _) (setScan_marks _ _ rfl))))

theorem frameTimerExpired_marks (e : Time) (s : State) : Marks s (frameTimerExpired e s) := by
  unfold frameTimerExpired
  dsimp only
  split
  · split
    · rename_i h
      exact .after (setScan_marks _ _ h) (setScan_marks _ _ rfl)
    · exact .touched rfl rfl
  · exact .after (setScan_marks _ _ rfl) (setScan_marks _ _ rfl)

theorem enterHeld_marks (s : State) : Marks s (enterHeld s) :=
  .after (zeroFilters_marks _) (.after (applyPending_marks _) (setScan_marks _ _ rfl))

theorem placeChange_marks (c : ScanSettings) (s : State) : Marks s (placeChange c s) := by
  unfold placeChange
  split
  · exact setScan_marks _ _ rfl
  · split
    · exact .after (frameStart_marks _) (applyChange_marks _ _)
    · exact applyChange_marks _ _
  · exact applyChange_marks _ _

theorem scannerReset_marks (s : State) : Marks s (scannerReset s) := by
  unfold scannerReset
  split
  · exact .after (frameStart_marks _) (.after (applyPending_marks _) (setScan_marks _ _ rfl))
  · exact frameStart_marks _
  · exact .refl

theorem resetKeypath_marks (s : State) : Marks s (resetKeypath s) := by
  unfold resetKeypath
  extract_lets s1 s2 s3 src s4
  have w1 : Marks s s1 := forPositions_marks _ _ _ fun p _ u => forceRelease_marks .reset _ p u
  have w2 : Marks s s2 := .after (stopRepeat_marks _) (.after (endAttention_marks _ _ _) w1)
  have w3 : s3.changeCount = s.changeCount := by
    show (evalShownSet _ _).changeCount = _
    rw [(evalShownSet_frame _ _).changeCount (by decide), mapEntries, State.setKeys_changeCount, w2.count]
  refine .after (scannerReset_marks _) (touchStatus_after _ _ ?_)
  rw [State.setKeys_changeCount, w3]

/-! ### Motion unit, vehicle bus receiver -/

theorem settleMotion_marks (before : Motion) (t : Time) (s : State) (u : State)
    (hs : ∃ m : Motion, s = u.setMotion m) (h : before = u.motion) : Marks u (settleMotion before t s) := by
  obtain ⟨m, rfl⟩ := hs
  subst h
  unfold settleMotion
  extract_lets flag mm s1 record s2
  have w : Marks u s2 := touchAndRaise_after _ _ ((append_frame _ _).changeCount (by decide))
  split
  · rename_i h
    refine .quiet rfl rfl ?_
    obtain ⟨h1, h2⟩ := h
    simp only [State.setMotion_motion] at h1
    simp only [statusRest, statusFields, s1, mm, State.setMotion, h1, h2]
  · split
    · exact w
    · split
      · refine .after (.after (evalShownSet_marks _ _) (.after (latchLockout_marks _ _) ?_)) w
        refine forPositions_marks _ _ _ fun p _ v => ?_
        unfold engageAt
        split
        · exact forceRelease_marks _ _ _ _
        · exact .refl
      · have : Marks s2 (lockoutEnded t s2) := .last (evalShownSet_marks _ _) rfl rfl
        exact .after this w

theorem moveTo_marks (m : MotionState) (r : Option Time) (t : Time) (s : State) : Marks s (moveTo m r t s) :=
  settleMotion_marks _ _ _ _ ⟨_, rfl⟩ rfl

theorem motionUnknown_marks (t : Time) (s : State) : Marks s (motionUnknown t s) := moveTo_marks _ _ _ _

theorem handOnSignal_marks (role : Role) (v : Option Nat) (t : Time) (s : State) : Marks s (handOnSignal role v t s) := by
  unfold handOnSignal
  split
  · unfold speedArrival
    dsimp only
    repeat' split
    all_goals exact moveTo_marks _ _ _ _
  · exact motionUnknown_marks _ _
  · unfold parkArrival
    repeat' split
    all_goals first
      | exact moveTo_marks _ _ _ _
      | exact .refl
  · exact .refl
  · exact evalNight_marks _
  · exact .refl
  · exact .refl

/-- The vehicle bus receiver changes with every place of the signal table as it was. -/
theorem setBus_marks (s : State) (b : VehicleBus)
    (h : ∀ i : Nat, signalPlace b.signals[i]? = signalPlace s.bus.signals[i]?) : Marks s (s.setBus b) :=
  .quiet rfl rfl (by simp only [statusRest, statusFields, State.setBus, h])

theorem serveEntry_marks (i : Nat) (g : Signal) (v : Nat) (t : Time) (s : State) (hg : s.bus.signals[i]? = some g) :
    Marks s (serveEntry i g v t s) := by
  unfold serveEntry
  extract_lets reports r s1 s2 s3
  refine .after (handOnSignal_marks _ _ _ _) ?_
  have w2 : Marks s1 s2 := by
    show Marks s1 (if _ then _ else _)
    split
    · exact append_marks _ _
    · exact .refl
  show Marks s (if _ then _ else _)
  split
  · rename_i h
    refine .after w2 (setBus_marks _ _ fun j => ?_)
    simp only [List.getElem?_modify]
    by_cases hj : i = j
    · subst hj
      simp only [if_true, hg, signalPlace, r, h.1, h.2, Option.map_eq_map, Option.map_some]
    · simp [hj]
  · exact .touched (w2.count.trans rfl) rfl

theorem arriveAt_marks (f : CanFrame) (t : Time) (i : Nat) (s : State) : Marks s (arriveAt f t i s) := by
  unfold arriveAt
  split
  · split
    · exact serveEntry_marks _ _ _ _ _ ‹_›
    · exact .refl
  · exact .refl

theorem goStale_marks (i : Nat) (g : Signal) (t : Time) (s : State) : Marks s (goStale i g t s) := by
  unfold goStale
  refine .last (handOnSignal_marks _ _ _ _) ?_ rfl
  show (append _ _).changeCount = _
  rw [(append_frame _ _).changeCount (by decide)]; rfl

theorem changeRate_marks (r : Nat) (s : State) : Marks s (changeRate r s) := by
  unfold changeRate
  extract_lets s1 s2
  refine .after (motionUnknown_marks _ _) (.after (evalNight_marks _) ?_)
  show Marks s (if _ then _ else _)
  split
  · rename_i h
    refine setBus_marks _ _ fun i => ?_
    rw [List.isEmpty_iff.1 h]; rfl
  · exact .touched rfl rfl

theorem installSignals_marks (gs : List Signal) (s : State) : Marks s (installSignals gs s) :=
  .after (motionUnknown_marks _ _) (.last (evalNight_marks _) rfl rfl)

/-! ### Link, supply -/

theorem sendHeldVector_marks (s : State) : Marks s (sendHeldVector s) := by
  unfold sendHeldVector
  split
  · exact .ofFrame ((setIrq_frame _ _).mono rfl)
  · exact .refl

theorem bringActive_marks (s : State) : Marks s (bringActive s) := .ofFrame ((bringActive_frame s).mono rfl)

theorem goUp_marks (s : State) : Marks s (goUp s) := by
  unfold goUp
  extract_lets s1
  refine .after (examine_marks _) (.after (evalShownSet_marks _ _) (.after (releaseWake_marks _) (touchStatus_after _ _ ?_)))
  rw [(linkUpRequests_way s1).sameFields.changeCount (by decide)]
  show (clearDiscarded _).changeCount = _
  rw [clearDiscarded, State.setSteer_changeCount, (logLinkUp_frame _).changeCount (by decide), State.setLink_changeCount]

theorem goDown_marks (s : State) : Marks s (goDown s) := by
  unfold goDown
  extract_lets s1 s2 s3
  have w1 : Marks s s1 := .after (forPositions_marks _ _ _ fun p _ u => orphan_marks p u)
    (.after (logLinkDown_marks _) (.ofFrame ((setLink_frame _ _).mono rfl)))
  have w2 : Marks s s2 := .after (stopRepeat_marks _) (.after (dropAttention_marks _) w1)
  exact .after (.ofFrame ((setIrq_frame _ _).mono rfl)) (.after (evalShownSet_marks _ _)
    (.after (.ofFrame ((setInd_frame _ _).mono rfl)) w2))

/-- The supply monitor changes with the supply state as it was. -/
theorem setSupply_marks (s : State) (g : Supply) (h : g.dip = s.supply.dip) : Marks s (s.setSupply g) :=
  .quiet rfl rfl (by simp only [statusRest, statusFields, State.setSupply, h])

theorem startDip_marks (mv : Nat) (s : State) : Marks s (startDip mv s) :=
  .after (outputsToTargets_marks _) (.after (enterHeld_marks _)
    (touchAndRaise_after _ _ (((append_frame _ _).changeCount (by decide)).trans rfl)))

theorem endDip_marks (s : State) : Marks s (endDip s) :=
  .after (frameStart_marks _) (touchAndRaise_after _ _ ((append_frame _ _).changeCount (by decide)))

theorem sampleNormal_marks (mv : Nat) (s : State) : Marks s (sampleNormal mv s) := by
  unfold sampleNormal
  repeat' split
  all_goals first
    | exact startDip_marks _ _
    | exact setSupply_marks _ _ rfl

theorem sampleDip_marks (mv : Nat) (s : State) : Marks s (sampleDip mv s) := by
  unfold sampleDip
  extract_lets s1
  have w : Marks s s1 := setSupply_marks _ _ rfl
  repeat' split
  all_goals first
    | exact .after (endDip_marks _) w
    | exact .after (setSupply_marks _ _ rfl) w

/-! ### Requests and accesses -/

theorem setFilter_marks (ps : List Word) (s : State) : Marks s (setFilter ps s).1 :=
  .after (setKeys_marks _ _ rfl) (mapEntries_marks _ _ fun _ => rfl)

theorem clearQuarantine_marks (ps : List Word) (s : State) : Marks s (clearQuarantine ps s).1 := by
  unfold clearQuarantine
  extract_lets p s1
  split
  · refine touchStatus_after _ _ ?_
    show (if _ then _ else _ : State).changeCount = _
    split <;> rfl
  · exact .refl

theorem loadSteering_marks (ps : List Word) (s : State) : Marks s (loadSteering ps s).1 := by
  unfold loadSteering
  dsimp only
  repeat' split
  all_goals first
    | exact .refl
    | exact .quiet rfl rfl rfl

theorem lockPolicy_marks (ps : List Word) (s : State) : Marks s (lockPolicy ps s).1 := by
  unfold lockPolicy
  dsimp only
  split
  · exact .refl
  · exact touchStatus_after _ _ rfl

theorem armChord_marks (ps : List Word) (s : State) : Marks s (armChord ps s).1 := by
  unfold armChord
  extract_lets i n codes src stored
  repeat' split
  all_goals first
    | exact .refl
    | exact setChords_marks _ _ rfl

theorem ackAttention_marks (ps : List Word) (s : State) : Marks s (ackAttention ps s).1 := by
  unfold ackAttention
  split
  · exact endAttention_marks _ _ _
  · exact .refl

theorem logFlush_marks (ps : List Word) (s : State) : Marks s (logFlush ps s).1 := by
  unfold logFlush
  repeat' split
  all_goals first
    | exact handOver_marks _ _
    | exact .refl

theorem takeSnapshot_marks (ps : List Word) (s : State) : Marks s (takeSnapshot ps s).1 := by
  unfold takeSnapshot
  dsimp only
  split
  · exact .ofFrame (((setMem_frame _ _).mono rfl).next (setFreeCount_frame _ _) rfl)
  · exact .refl

theorem setVehicleBus_marks (ps : List Word) (s : State) : Marks s (setVehicleBus ps s).1 := by
  unfold setVehicleBus
  dsimp only
  repeat' split
  all_goals first
    | exact .refl
    | exact changeRate_marks _ _

theorem loadSignals_marks (ps : List Word) (s : State) : Marks s (loadSignals ps s).1 := by
  unfold loadSignals
  dsimp only
  repeat' split
  all_goals first
    | exact .refl
    | exact installSignals_marks _ _

theorem setMotion_marks (ps : List Word) (s : State) : Marks s (setMotion ps s).1 := by
  unfold setMotion
  dsimp only
  repeat' split
  all_goals first
    | exact .refl
    | exact settleMotion_marks _ _ _ _ ⟨_, rfl⟩ rfl

theorem latchAnswer_marks (ps : List Word) (s : State) : Marks s (latchAnswer ps s).1 := by
  unfold latchAnswer
  split
  · exact .refl
  · split
    · dsimp only
      split
      · exact startRelease_marks _ _ _
      · exact changeLatch_marks _ _ _ _
    · exact .refl

theorem loadLegends_marks (ps : List Word) (s : State) : Marks s (loadLegends ps s).1 := by
  unfold loadLegends
  extract_lets n off cells bad src i s1
  have w : Marks s s1 := setLegend_marks _ _ rfl
  repeat' split
  all_goals first
    | exact .refl
    | exact .after (refreshNeed_marks _ _) w
    | exact w

theorem setLightLevels_marks (ps : List Word) (s : State) : Marks s (setLightLevels ps s).1 := by
  unfold setLightLevels
  dsimp only
  split
  · exact .refl
  · exact .after (setNightMode_marks _ _) (.after (setLegendStep_marks _ _)
      (.after (setKeysStep_marks _ _) (setPanelStep_marks _ _)))

theorem setLightLimits_marks (ps : List Word) (s : State) : Marks s (setLightLimits ps s).1 := by
  unfold setLightLimits
  dsimp only
  split
  · exact .refl
  · exact .after (evalNight_marks _) (setLight_marks _ _ rfl rfl rfl rfl rfl)

theorem loadLightTable_marks (ps : List Word) (s : State) : Marks s (loadLightTable ps s).1 := by
  unfold loadLightTable
  dsimp only
  repeat' split
  all_goals first
    | exact .refl
    | exact setLight_marks _ _ rfl rfl rfl rfl rfl

theorem setThresholds_marks (ps : List Word) (s : State) : Marks s (setThresholds ps s).1 := by
  unfold setThresholds
  dsimp only
  repeat' split
  all_goals first
    | exact .refl
    | exact setSupply_marks _ _ rfl

/-- A request marks the block as its body does. -/
theorem request_marks (kind count : Nat) (body : Body) (s : State) (h : ∀ ps, Marks s (body ps s).1) :
    Marks s (request kind count body s) := by
  unfold request
  split
  · split
    · split
      · exact .after (complete_marks _ _ _) (h _)
      · exact complete_marks _ _ _
    · exact .refl
  · exact .refl

theorem storeCell_marks (c : Nat × Byte) (s : State) : Marks s (storeCell c s) :=
  .ofFrame ((storeCell_way c s).sameFields.mono rfl)

theorem cellEvent_marks (c : Nat × Byte) (s : State) : Marks s (cellEvent c s) := by
  unfold cellEvent
  split
  · split
    · exact pageReturned_marks _ _
    · exact .refl
  · split
    · unfold writeMask
      dsimp only
      split
      · exact .ofFrame (((setIrq_frame _ _).trans (vectorDue_frame _)).mono rfl)
      · exact .ofFrame ((setIrq_frame _ _).mono rfl)
    · split
      · exact .ofFrame ((setIrq_frame _ _).mono rfl)
      · exact .refl

theorem foldl_marks {α : Type} (l : List α) (f : State → α → State) (s : State) (h : ∀ a s, Marks s (f s a)) :
    Marks s (l.foldl f s) := by
  induction l generalizing s with
  | nil => exact .refl
  | cons a l ih => exact .after (ih _) (h a s)

theorem carriedWrite_marks (off : Nat) (a : Access) (s : State) : Marks s (carriedWrite off a s) := by
  have w (u : State) : Marks u (tabletWrite off a u) := by
    unfold tabletWrite accessEvents storeCells
    dsimp only
    refine .after (foldl_marks _ _ _ fun c u => cellEvent_marks c u) ?_
    split
    · exact .after (examine_marks _) (foldl_marks _ _ _ fun c u => storeCell_marks c u)
    · exact foldl_marks _ _ _ fun c u => storeCell_marks c u
  unfold carriedWrite accessed
  split
  · rename_i t h
    split at h
    · cases h
    · cases h; exact w _
    · cases h; exact .after (w _) (bringActive_marks _)
  · exact foldl_marks _ _ _ fun c u => storeCell_marks c u

/-! ### Events -/

/-- Between events the block is unmarked; the change count has risen at most `k` times, and where it has not risen every
field shows what it showed. -/
def Raises (k : Nat) (s t : State) : Prop :=
  s.statusDirty = false → t.statusDirty = false ∧
    ∃ n, n ≤ k ∧ t.changeCount = s.changeCount + BitVec.ofNat 32 n ∧ (n = 0 → statusRest t = statusRest s)

/-- The end of an event (R184). -/
theorem Marks.raises {s t : State} (h : Marks s t) : Raises 1 s (endEvent t) := by
  intro _
  unfold endEvent
  split
  · exact ⟨rfl, 1, le_rfl, by rw [State.setChangeCount_changeCount, h.count]; rfl, by omega⟩
  · rename_i hd
    have hd : t.statusDirty = false := by simpa using hd
    exact ⟨hd, 0, by omega, by rw [h.count]; simp, fun _ => h.shown hd⟩

/-- The end of an event in which nothing of the block was rewritten or changed. -/
theorem Marks.still {s t : State} (h : Marks s t) (d : t.statusDirty = s.statusDirty) : Raises 0 s (endEvent t) := by
  intro hs
  rw [hs] at d
  have : endEvent t = t := by unfold endEvent; rw [d]; rfl
  rw [this]
  exact ⟨d, 0, le_rfl, by rw [h.count]; simp, fun _ => h.shown d⟩

theorem Raises.refl (s : State) : Raises 0 s s := fun h => ⟨h, 0, le_rfl, by simp, fun _ => rfl⟩

theorem Raises.mono {j k : Nat} {s t : State} (h : Raises j s t) (w : j ≤ k) : Raises k s t := fun hs => by
  obtain ⟨a, n, b, c, d⟩ := h hs
  exact ⟨a, n, b.trans w, c, d⟩

/-- One event after others. -/
theorem Raises.after {j k : Nat} {s t u : State} (h2 : Raises k t u) (h : Raises j s t) : Raises (j + k) s u := fun hs => by
  obtain ⟨a, n, b, c, d⟩ := h hs
  obtain ⟨a', n', b', c', d'⟩ := h2 a
  refine ⟨a', n + n', by omega, ?_, fun e => ?_⟩
  · rw [c', c, BitVec.add_assoc, BitVec.ofNat_add]
  · exact (d' (by omega)).trans (d (by omega))

theorem takeDueChanges_raises (s : State) : Raises 4 s (takeDueChanges s) :=
  (takeButtonRelease_marks _).raises.after ((takeButtonPress_marks _).raises.after
    ((takeSenseChange_marks _).raises.after (takePresentChange_marks s).raises))

end Sys2Proof.Machine
end

