-- ==== Sys2Proof/Tests/Slice0.lean ====
section
/-! SUPPORT. Tests of the model: well-formedness, the spec's worked examples, one step of the commands, and a witness for the
hypotheses of each statement. -/

set_option Elab.async false

namespace Sys2Proof.Tests

open Sys2Proof Sys2Proof.Machine Sys2Proof.Claims

/-! ### Well-formedness: each check refuses an ill-formed term -/

theorem test_frame_needs_18_slots : (Instr.frameBoundary (List.replicate 17 0) false).wellFormed = false := by decide

theorem test_standard_identifier_has_11_bits :
    (Instr.canFrameArrival { kind := .data, extended := false, ident := 2048, dlc := 0, data := [] }).wellFormed = false := by
  decide

theorem test_frame_carries_its_length :
    (Instr.canFrameArrival { kind := .data, extended := true, ident := 2048, dlc := 9, data := [1] }).wellFormed = false := by
  decide

theorem test_signal_table_has_six_places : (Instr.staleTimerExpiry 6).wellFormed = false := by decide

theorem test_samples_are_6000_or_more :
    (Instr.supplySample 5999).wellFormed = false ∧ (Instr.dipStart 5999).wellFormed = false ∧
      (Instr.dipEnd 5999).wellFormed = false := by decide

theorem test_write_past_the_window : (Instr.ownerMarkWrite 0xFFFF (.half 0)).wellFormed = false := by decide

theorem test_pending_write_past_the_window : (Instr.intPendingWrite 1 (.word 0)).wellFormed = false := by decide

theorem test_last_byte_of_the_window :
    (Instr.ownerMarkWrite 0xFFFF (.byte 0)).wellFormed = true ∧ (Instr.intPendingWrite 3 (.byte 0)).wellFormed = true := by
  decide

/-! ### States -/

/-- A docked part, link ACTIVE, at 1000 ms, with page 0 open and holding the DOCKED record's place. -/
def docked : State :=
  { State.reset with
    inReset := false
    ms := 1000
    link := .active
    scan := { Scanner.reset with pass := true, timer := some 1000 }
    latch := { Latch.reset with
      state := .latched, present := { value := true, run := 0, due := none }
      sense := { value := true, run := 0, due := none } }
    legend := { Legend.reset with shown := .base }
    log := { EventLog.reset with live := true, epoch := 1, page := some { index := 0, count := 1 }, flush := some 1000 }
    mem := [(0x0800, 1), (0x0802, 1), (0x0A00, 1)]
    req := { RequestUnit.reset with sweep := some 1000 } }

/-- A request with its parameters. -/
def query (kind : Nat) (ps : List Word) : Request :=
  { kind := kind, count := ps.length, params := ps, notify := true, mark := false }

/-- The docked part with a request in execution. -/
def asked (kind : Nat) (ps : List Word) (s : State := docked) : State :=
  { s with req := { s.req with current := some (query kind ps) } }

/-- The state after a command, where it answers one. -/
def run (c : Instr) (s : State) : State :=
  match exec c s with
  | .next t => t
  | _ => s

/-- The result code and result words in the cell of the last request taken. -/
def reply (s : State) : Nat × Nat × Nat :=
  let base := 0x0100 + 0x80 * s.req.pointer
  (s.mem.readLe (base + 8) 2, s.mem.readLe (base + 0x40) 4, s.mem.readLe (base + 0x44) 4)

/-- An entry that is DOWN. -/
def held (code : Nat) (route : Route) (time : Time) : KeyEntry :=
  { cond := .down { code := code, layer := .base, route := route, orphaned := false, pressTime := time }
    pressed := true, filter := 0, score := 1 }

def forwards : Route := { forward := true, dock := false, hold := false, chord := false }
def acts : Route := { forward := false, dock := true, hold := false, chord := false }
def holds : Route := { forward := true, dock := false, hold := true, chord := false }

/-- The docked part with an entry replaced. -/
def withEntry (p : Nat) (e : KeyEntry) (s : State := docked) : State := s.putEntry p e

/-- The docked part with the decay counter at `n` and position 3 in quarantine. -/
def counting (n : Nat) : State :=
  let s := withEntry 3 { cond := .quarantined, pressed := false, filter := 0, score := 12 }
  { s with keys := { s.keys with decayCounter := n } }

/-- The frame in which these positions read down. -/
def reading (ps : List Nat) : List Sample :=
  (List.range 144).map fun p => if ps.contains p then .downRead else .upRead

/-! ### The spec's worked examples -/

/-- R132: the table of scaled values. -/
theorem test_scaling_table :
    scaled 2100 5 7 0 = 82 ∧ scaled 65535 65535 0 0 = 65535 ∧ scaled 10 5 7 (-50) = 0 ∧ scaled 127 1 7 0 = 0 ∧
      scaled 300 3 0 32767 = 33667 ∧ scaled 1 1 0 1 = 2 := by decide

/-- R131: 12h and 34h give 4660 BIG at 7, 13330 LITTLE at 0, and 8 BIG at 3 over 6 bits. -/
theorem test_extraction_examples :
    rawField [0x12, 0x34] true 7 16 = 4660 ∧ rawField [0x12, 0x34] false 0 16 = 13330 ∧
      rawField [0x12, 0x34] true 3 6 = 8 ∧ lastByte true 60 8 = 8 ∧ lastByte false 58 6 = 7 ∧ lastByte false 60 8 = 8 := by
  decide

/-- R172: step 9 with the built-in table: 330 by day, 132 at night, 100 at night in a dip; step 1 raised to 20. -/
theorem test_target_table :
    targetDuty Lighting.reset false { step := 9, output := 0 } = 330 ∧
      targetDuty { Lighting.reset with night := true } false { step := 9, output := 0 } = 132 ∧
      targetDuty { Lighting.reset with night := true } true { step := 9, output := 0 } = 100 ∧
      targetDuty { Lighting.reset with night := true } false { step := 1, output := 0 } = 20 := by decide

/-- R21: with press samples 3 the run D D U D D D is accepted at the sixth frame and not the fifth. -/
theorem test_filter_run :
    let after (smps : List Sample) : KeyEntry :=
      smps.foldl (fun e smp => (filterSample KeyTable.reset.settings smp e).1) KeyEntry.reset
    (after [.downRead, .downRead, .upRead, .downRead, .downRead]).pressed = false ∧
      (after [.downRead, .downRead, .upRead, .downRead, .downRead, .downRead]).pressed = true := by decide

/-- R113: 16 held codes make RESYNC records of 5, 5, 5 and 1. -/
theorem test_resync_groups : (resyncBodies 17 (List.range 16)).map (fun b => b.index) = [5, 5, 5, 1] := by decide

/-- R181, R182: the ID register reads 00010264h in ACTIVE, and no read is carried while DOWN. -/
theorem test_id_register :
    (docked.tabletRead 0xFFF0 4).1 = some [0x64, 0x02, 0x01, 0x00] ∧
      ({ docked with link := .down } : State).tabletRead 0xFFF0 4 = (none, { docked with link := .down }) := by
  decide +kernel

/-- R181: a read begun in LOW_POWER brings the link back to ACTIVE and releases WAKE. -/
theorem test_read_wakes_link :
    let s := { docked with link := .lowPower, wake := { Wake.reset with line := some 3000 } }
    (s.tabletRead 0x0800 1) = (some [1], docked) := by decide +kernel

/-- R2: lines 2 and 17 enabled make two slots, and in the second line 17 is asserted alone. -/
theorem test_slots_of_a_pass :
    let s := { docked with scan := { docked.scan with settings := { docked.scan.settings with mask := 0x20004 } } }
    passSlots 0x20004 = [2, 17] ∧ s.assertedLines 1 = 0x20000 ∧
      ({ s with scan := { s.scan with pass := false } } : State).assertedLines 1 = 0 := by decide +kernel

/-- R24: positions 0, 1 and 8 down make 9 a ghost; with 8 up it is none. -/
theorem test_ghost_corner : ghostPasses (reading [0, 1, 8]) 9 = false ∧ ghostPasses (reading [0, 1]) 9 = true := by
  decide +kernel

/-! ### One step of each command -/

/-- R179. -/
theorem test_power_reset : (run .powerReset docked).inReset = true ∧ (run .powerReset docked).mem = [] := by decide +kernel

/-- R154, R171, R184: seated with the hook open, 199 is night, the change count is 0. -/
theorem test_reset_release :
    let t := run (.resetRelease true false false 199) State.reset
    t.latch.state = .unseated ∧ t.light.night = true ∧ t.light.average = 199 ∧ t.changeCount = 0 := by decide +kernel

/-- R4: an expiry under a running pass is skipped and counted. -/
theorem test_frame_timer_skips : (run .frameTimerExpiry docked).scan.skipped = 1 := by decide +kernel

/-- R4: an expiry without a pass begins one, the next 2 ms later. -/
theorem test_frame_timer_begins :
    let t := run .frameTimerExpiry { docked with scan := { docked.scan with pass := false } }
    t.scan.pass = true ∧ t.scan.timer = some 1002 := by decide +kernel

/-- The docked part with position 5 pressed in two frames already. -/
def nearlyPressed : State := withEntry 5 { cond := .up, pressed := false, filter := 2, score := 0 }

/-- R23, R26, R59: the third frame that reads position 5 down latches code 6 and logs a KEY_PRESS. -/
theorem test_frame_takes_press :
    let t := run (.frameBoundary (32 :: List.replicate 17 0) false) nearlyPressed
    ((t.entry 5).latched?.map Latched.code) = some 6 ∧ t.mem.readLe 0x0820 4 = 0x00050001 := by decide +kernel

/-- R11: the frame that makes the idle run 64 enters WATCH. -/
theorem test_frame_enters_watch :
    (run (.frameBoundary (List.replicate 18 0) false) { docked with scan := { docked.scan with idleRun := 63 } }).scan.mode
      = .watch := by decide +kernel

/-- R12. -/
theorem test_sense_leaves_watch :
    (run .senseLineActive { docked with scan := { docked.scan with mode := .watch, pass := false, timer := none } }).scan.timer
      = some 1002 := by decide +kernel

/-- R33: the decay falls in the event of the frame that makes the counter 32, and not in the one before it. -/
theorem test_decay_in_its_frame :
    let t (n : Nat) := run (.frameBoundary (List.replicate 18 0) false) (counting n)
    ((t 30).entry 3).score = 12 ∧ (t 30).keys.decayCounter = 31 ∧
      ((t 31).entry 3).score = 11 ∧ (t 31).keys.decayCounter = 0 := by decide +kernel

/-- R33: CHATTER_DECAY is such a frame; after it, and after the frame boundary that had the decay, it is none. -/
theorem test_decay_command :
    ((run .chatterDecay (counting 31)).entry 3).score = 11 ∧
      run .chatterDecay (run (.frameBoundary (List.replicate 18 0) false) (counting 31)) =
        run (.frameBoundary (List.replicate 18 0) false) (counting 31) := by decide +kernel

/-- R83. -/
theorem test_attention_times_out :
    (run .attentionTimerExpiry
      { docked with chords := { Chords.reset with
          attention := some { chord := 2, started := 0, expiry := 1000 } } }).chords.attention = none := by decide +kernel

/-- The docked part with key 5 held and repeating. -/
def repeating : State :=
  { withEntry 5 (held 6 forwards 500) with
    rep := { RepeatTimer.reset with
      enabled := true, running := some { position := 5, pressTime := 500, delay := true, expiry := 1000 } } }

/-- R88: the first repeat carries count 1 and the next comes 100 ms later. -/
theorem test_first_repeat :
    let t := run .repeatIntervalExpiry repeating
    t.rep.count = 1 ∧ (t.rep.running.map Repeating.expiry) = some 1100 ∧ t.mem.readLe 0x082A 2 = 1 := by decide +kernel

/-- A sleeping tablet with key 5 held. -/
def sleeping : State :=
  { withEntry 5 (held 6 forwards 750) with
    link := .lowPower, wake := { Wake.reset with timer := some { position := 5, pressTime := 750, expiry := 1000 } } }

/-- R91, R92: a key held through the wake hold asserts WAKE for 2000 ms. -/
theorem test_wake : (run .wakeHoldExpiry sleeping).wake.line = some 3000 := by decide +kernel

/-- R93. -/
theorem test_wake_limit :
    (run .wakeLimitExpiry { sleeping with wake := { Wake.reset with line := some 1000 } }).wake.line = none := by
  decide +kernel

/-- R101, R103: the flush timer hands page 0 over and opens page 1. -/
theorem test_flush :
    let t := run .flushTimerExpiry docked
    t.mem.read 0x0800 = 2 ∧ t.log.page = some { index := 1, count := 0 } ∧ t.irq.pending = 1 := by decide +kernel

/-- R191: a word write into staging. -/
theorem test_staging_write :
    ((run (.ownerMarkWrite 0x4001 (.word 0x04030201)) docked).mem.readBytes 0x4000 5) = [0, 1, 2, 3, 4] := by decide +kernel

/-- R100: the owner field of the open page cannot be written. -/
theorem test_open_owner_kept : (run (.ownerMarkWrite 0x0800 (.byte 2)) docked).mem.read 0x0800 = 1 := by decide +kernel

/-- R108, R118: while the link is DOWN the owner byte that an access covers is stored, and the byte beside it is not. -/
theorem test_owner_write_while_down :
    let s := { docked with link := .down, log := EventLog.reset }
    (run (.ownerMarkWrite 0x07FF (.word 0x07070707)) s).mem.readBytes 0x07FF 4 = [0, 7, 0, 1] := by decide +kernel

/-- R191: an opened page has 0 in the header bytes 03h and 08h-0Fh, whatever the tablet stored there. -/
theorem test_opened_header_is_zero :
    let t := run .flushTimerExpiry { docked with mem := (docked.mem.write 0x0A03 9).write 0x0A0F 9 }
    t.log.page = some { index := 1, count := 0 } ∧ t.mem.readBytes 0x0A00 16 = [1, 0, 0, 0, 0, 0, 1, 0, 0, 0, 0, 0, 0, 0, 0, 0] := by
  decide +kernel

/-- A signal entry with this role: 16 bits LITTLE at 0, identifier 100h. -/
def signal (role : Role) (value : Nat) (status : SignalStatus) : Signal :=
  { desc :=
      { role := role, extended := false, ident := 0x100, mask := 0x7FF, big := false, start := 0, length := 16, mult := 1
        shift := 0, offset := 0, stale := 100, delta := 20 }
    val := { value := value, status := status, arrival := some 900, timer := some 1000, reported := some value } }

/-- A frame of identifier 100h with two bytes. -/
def hundred (low high : Byte) : CanFrame :=
  { kind := .data, extended := false, ident := 0x100, dlc := 2, data := [low, high] }

/-- The docked part hearing the bus with one signal. -/
def hearing (g : Signal) : State := { docked with bus := { rate := 500, listening := true, signals := [g] } }

/-- R133: with delta 20 and last reported 50 an arrival of 69 writes nothing and one of 70 writes a record. -/
theorem test_report_delta :
    (run (.canFrameArrival (hundred 69 0)) (hearing (signal .aux 50 .fresh))).log.page = some { index := 0, count := 1 } ∧
      (run (.canFrameArrival (hundred 70 0)) (hearing (signal .aux 50 .fresh))).log.page =
        some { index := 0, count := 2 } := by decide +kernel

/-- R137: in UNKNOWN a SPEED at move_off parks and one above it moves. -/
theorem test_first_speed :
    (run (.canFrameArrival (hundred 30 0)) (hearing (signal .speed 0 .never))).motion.state = .parked ∧
      (run (.canFrameArrival (hundred 31 0)) (hearing (signal .speed 0 .never))).motion.state = .moving := by decide +kernel

/-- R134. -/
theorem test_stale :
    ((run (.staleTimerExpiry 0) (hearing (signal .aux 50 .fresh))).bus.signals.map fun g => (g.val.value, g.val.status))
      = [(50, .stale)] := by decide +kernel

/-- R120. -/
theorem test_recessive_bits : (run .elevenRecessiveBits docked).bus.listening = true := by decide +kernel

/-- R141: the third differing reading makes the change due. -/
theorem test_third_reading :
    let s := { docked with latch := { docked.latch with button := { value := false, run := 2, due := none } } }
    (run (.latchInputRead true true true) s).latch.button.due = some 1000 := by decide +kernel

/-- R145: LATCHED, the present switch opens: EMPTY with cause FORCED. -/
theorem test_forced :
    let s := { docked with latch := { docked.latch with present := { value := true, run := 0, due := some 1000 } } }
    let t := run .presentSwitchChange s
    t.latch.state = .empty ∧ t.mem.readLe 0x0820 2 = 0x0908 := by decide +kernel

/-- R145: in RELEASING the hook opening changes nothing. -/
theorem test_hook_opens :
    let s := { docked with latch := { docked.latch with
      state := .releasing 5000, sense := { value := true, run := 0, due := some 1000 } } }
    (run .latchSenseChange s).latch.state = .releasing 5000 := by decide +kernel

/-- The docked part with a button press due. -/
def pressing : State :=
  { docked with latch := { docked.latch with button := { value := false, run := 0, due := some 1000 } } }

/-- R146: a button press asks for 5 s, and its urgent record hands the page over. -/
theorem test_button_asks :
    let t := run .buttonPress pressing
    t.latch.state = .asked 6000 ∧ t.mem.read 0x0800 = 2 := by decide +kernel

/-- R147: in cooldown the press is held. -/
theorem test_button_in_cooldown :
    (run .buttonPress { pressing with latch := { pressing.latch with cooldown := some 9000 } }).latch.heldPress =
      some .button := by decide +kernel

/-- R141. -/
theorem test_button_released :
    let s := { docked with latch := { docked.latch with button := { value := true, run := 0, due := some 1000 } } }
    (run .buttonReleased s).latch.button.value = false := by decide +kernel

/-- The docked part asked for release. -/
def askedFor : State := { docked with latch := { docked.latch with state := .asked 1000 } }

/-- R148: an unanswered ask releases for the 4 s of the window. -/
theorem test_ask_times_out : (run .askTimerExpiry askedFor).latch.state = .releasing 5000 := by decide +kernel

/-- R143, R150: a tablet not taken is LATCHED again, in cooldown for 10 s. -/
theorem test_window_ends :
    let t := run .releaseWindowExpiry { docked with latch := { docked.latch with state := .releasing 1000 } }
    t.latch.state = .latched ∧ t.latch.cooldown = some 11000 := by decide +kernel

/-- R147: a press held from the key is served at the expiry. -/
theorem test_cooldown_serves :
    let t := run .cooldownExpiry
      { docked with latch := { docked.latch with cooldown := some 1000, heldPress := some .key } }
    t.latch.state = .asked 6000 ∧ t.latch.heldPress = none := by decide +kernel

/-- The docked part sending to the strip. -/
def sending : State := { docked with legend := { docked.legend with transfer := .sending 1000, failures := 2 } }

/-- R160. -/
theorem test_acknowledge :
    let t := run .stripAcknowledge sending
    t.legend.transfer = .idle ∧ t.legend.failures = 0 := by decide +kernel

/-- R161: the third failure makes the strip OFFLINE with the retry 5000 ms later. -/
theorem test_third_failure :
    let t := run .acknowledgeTimerExpiry sending
    t.legend.online = false ∧ t.legend.retry = some 6000 := by decide +kernel

/-- R161. -/
theorem test_retry :
    (run .retryTimerExpiry { docked with legend := { docked.legend with retry := some 1000, online := false } }).legend.transfer
      = .sending 1020 := by decide +kernel

/-- R171: the average is the floor of the eighth of the sum. -/
theorem test_ambient :
    let s := { docked with light := { docked.light with ambient := List.replicate 8 100 } }
    (run (.ambientReading 115) s).light.average = 101 := by decide +kernel

/-- R173: from 0 toward 330 the PANEL output moves by 25. -/
theorem test_output_slews : (run .outputUpdate docked).light.panel.output = 25 := by decide +kernel

/-- The docked part one low sample short of a dip. -/
def sagging : State := { docked with supply := { Supply.reset with lowRun := 2, lowMin := 8800 } }

/-- The docked part one good sample short of the end of a dip. -/
def recovering : State :=
  { docked with
    scan := { docked.scan with mode := .held, pass := false, timer := none }
    supply := { Supply.reset with dip := true, recRun := 49, record := some { minimum := 8700, start := 400 } } }

/-- R176: the third sample below warn begins the dip with the lowest of the three. -/
theorem test_dip_starts :
    (run (.supplySample 8999) sagging).supply.record = some { minimum := 8800, start := 1000 } ∧
      (run (.dipStart 8700) sagging).supply.record = some { minimum := 8700, start := 1000 } := by decide +kernel

/-- R177: the 50th sample at recover ends it; one below does not. -/
theorem test_dip_ends :
    (run (.dipEnd 10000) recovering).supply.dip = false ∧ (run (.supplySample 9999) recovering).supply.recRun = 0 := by
  decide +kernel

/-- The undocked part. -/
def undocked : State := { docked with link := .down, log := EventLog.reset, legend := { docked.legend with shown := .undocked } }

/-- R115, R116: the first epoch is 1 and DOCKED is its first record. -/
theorem test_link_up :
    let t := run .linkUp undocked
    t.log.epoch = 1 ∧ t.mem.readLe 0x0810 4 = 0x0001000B ∧ t.log.flush = some 1008 := by decide +kernel

/-- R29: a forwarded key is orphaned at link DOWN. -/
theorem test_link_down :
    (((run .linkDown repeating).entry 5).latched?.map Latched.orphaned) = some true ∧
      (run .linkDown repeating).rep.running = none := by decide +kernel

/-- R181. -/
theorem test_link_sleeps : (run .linkLowPower docked).link = .lowPower ∧ (run .linkActive sleeping).link = .active := by
  decide +kernel

/-- R186: a NOTICE write takes the POSTED cell after the last one. -/
theorem test_notice :
    let t := run (.noticeWrite 0 (.word 5)) { docked with mem := docked.mem.write 0x0180 1 }
    t.req.pointer = 1 ∧ t.mem.read 0x0180 = 2 := by decide +kernel

/-- R186. -/
theorem test_sweep :
    let t := run .sweepTimerExpiry { docked with mem := docked.mem.write 0x0100 1 }
    t.req.pointer = 0 ∧ t.req.sweep = some 1020 := by decide +kernel

/-- R183: unmasking a pending cause sends the vector. -/
theorem test_unmask :
    let t := run (.intMaskWrite 0 (.byte 0xFF)) { docked with irq := { Interrupts.reset with pending := 4 } }
    t.irq.mask = 7 ∧ t.irq.sent = 1 := by decide +kernel

/-- R182: bits written 1 clear their causes. -/
theorem test_clear_cause :
    (run (.intPendingWrite 0 (.byte 2)) { docked with irq := { Interrupts.reset with pending := 7 } }).irq.pending = 5 := by
  decide +kernel

/-- R182. -/
theorem test_id_write : run (.registerWriteDiscarded 0 (.word 7)) docked = docked := by decide +kernel

/-- R187: kind 28 completes ERR_KIND. -/
theorem test_unknown_kind : reply (run .unknownKind { asked 28 [] with req := { (asked 28 []).req with pointer := 0 } }) = (2, 0, 0) := by
  decide +kernel

/-- R187. -/
theorem test_nop : reply (run .nop (asked 0 [])) = (0, 0, 0) ∧ (run .nop (asked 0 [])).irq.pending = 2 := by decide +kernel

/-- R6: period 3 becomes 2 and the request completes OK_CLAMPED. -/
theorem test_set_scan :
    let t := run .setScan (asked 1 [1, 3, 64])
    (reply t).1 = 1 ∧ t.scan.change = some { mask := 1, period := 2, watchEntry := 64 } := by decide +kernel

/-- R37: a lower limit brings the scores down. -/
theorem test_set_filter :
    let t := run .setFilter (asked 2 [3, 2, 4, 32] (withEntry 7 { cond := .quarantined, pressed := true, filter := 1, score := 12 }))
    (t.entry 7) = { cond := .quarantined, pressed := true, filter := 1, score := 4 } := by decide +kernel

/-- R38: result word 1 counts what was cleared. -/
theorem test_clear_quarantine :
    let s := withEntry 7 { cond := .quarantined, pressed := true, filter := 1, score := 12 }
    reply (run .clearQuarantine (asked 3 [255] s)) = (0, 1, 0) ∧
      reply (run .clearQuarantine (asked 3 [144] s)) = (4, 0, 0) := by decide +kernel

/-- R39: a held key becomes UP and stays PRESSED. -/
theorem test_reset_keypath :
    (run .resetKeypath (asked 4 [] repeating)).entry 5 = { cond := .up, pressed := true, filter := 0, score := 0 } := by
  decide +kernel

/-- R50: an offset of 7EE1h is past the last allowed. -/
theorem test_load_keymap :
    (reply (run .loadKeymap (asked 5 [1, 0x7EE1]))).1 = 10 ∧ (reply (run .loadKeymap (asked 5 [1, 0x7EE0]))).1 = 0 := by
  decide +kernel

/-- R72: HOLD without forward is bad. -/
theorem test_load_steering :
    reply (run .loadSteering (asked 6 [0x4000] { docked with mem := docked.mem.write 0x4003 4 })) = (5, 3, 4) := by
  decide +kernel

/-- R69, R70. -/
theorem test_lock :
    (run .lockPolicy (asked 7 [])).steer.lock = true ∧
      (reply (run .loadSteering (asked 6 [0x4000] { docked with steer := { docked.steer with lock := true } }))).1 = 6 := by
  decide +kernel

/-- R78: two equal codes are refused. -/
theorem test_arm_chord :
    (run .armChord (asked 8 [3, 2, 511, 1, 0, 0])).chords.entries = [[], [], [], [511, 1]] ∧
      (reply (run .armChord (asked 8 [3, 2, 9, 9, 0, 0]))).1 = 4 := by decide +kernel

/-- The docked part with chord 1 in attention. -/
def alerted : State :=
  { docked with chords := { Chords.reset with attention := some { chord := 1, started := 0, expiry := 10000 } } }

/-- R82. -/
theorem test_ack_attention :
    (run .ackAttention (asked 9 [1] alerted)).chords.attention = none ∧
      (reply (run .ackAttention (asked 9 [2] alerted))).1 = 7 := by decide +kernel

/-- R84: 61 seconds is taken as 60. -/
theorem test_set_attention :
    (run .setAttention (asked 10 [61])).chords.timeout = 60 ∧ (reply (run .setAttention (asked 10 [61]))).1 = 1 := by
  decide +kernel

/-- R86: disabling stops a running repeat. -/
theorem test_set_repeat :
    (run .setRepeat (asked 11 [0, 300, 50] repeating)).rep =
      { enabled := false, delay := 300, period := 50, running := none, count := 0 } := by decide +kernel

/-- R90, R106, R153: times are clamped. -/
theorem test_times :
    (run .setWake (asked 12 [49])).wake.hold = 50 ∧ (run .setLog (asked 14 [51])).log.flushDelay = 50 ∧
      (run .setLatch (asked 21 [0, 11])).latch.askTimeout = 1 ∧ (run .setLatch (asked 21 [0, 11])).latch.window = 10 := by
  decide +kernel

/-- R105. -/
theorem test_log_flush : reply (run .logFlush (asked 13 [])) = (0, 1, 0) := by decide +kernel

/-- R190: one byte past the last allowed offset. -/
theorem test_snapshot_range : (reply (run .snapshot (asked 15 [0xB769]))).1 = 10 := by decide +kernel

/-- R121: 250 is a new rate, 251 is none. -/
theorem test_set_vehicle_bus :
    (run .setVehicleBus (asked 16 [250])).bus.rate = 250 ∧ (reply (run .setVehicleBus (asked 16 [251]))).1 = 4 := by
  decide +kernel

/-- R125, R127: an empty table is accepted whatever the offset. -/
theorem test_load_signals :
    let t := run .loadSignals (asked 17 [0, 0] (hearing (signal .speed 9 .fresh)))
    t.bus.signals = [] ∧ t.motion.state = .unknown ∧ (reply t).1 = 0 := by decide +kernel

/-- R136, R140: the source VEHICLE in UNKNOWN under AS_MOVING makes the lockout active. -/
theorem test_set_motion :
    (run .setMotion (asked 18 [80, 30, 2000, 5000, 0, 1])).motion.lockout = true ∧
      (reply (run .setMotion (asked 18 [30, 30, 0, 0, 0, 0]))).1 = 4 := by decide +kernel

/-- R66: at engagement a forwarded HOLD key is orphaned and one without HOLD is not. -/
theorem test_lockout_engages :
    let s := withEntry 20 (held 21 holds 800) (withEntry 5 (held 6 forwards 800))
    let t := run .setMotion (asked 18 [80, 30, 2000, 5000, 0, 1] s)
    ((t.entry 20).latched?.map Latched.orphaned) = some true ∧ ((t.entry 5).latched?.map Latched.orphaned) = some false := by
  decide +kernel

/-- R149: GRANT releases; no state but ASKED takes an answer. -/
theorem test_latch_answer :
    (run .latchAnswer (asked 19 [0] askedFor)).latch.state = .releasing 5000 ∧
      (reply (run .latchAnswer (asked 19 [0]))).1 = 7 := by decide +kernel

/-- R152: a cooldown answers ERR_BUSY with the milliseconds left. -/
theorem test_undock_start :
    (run .undockStart (asked 20 [])).latch.state = .releasing 5000 ∧
      reply (run .undockStart (asked 20 [] { docked with latch := { docked.latch with cooldown := some 1250 } })) =
        (9, 250, 0) := by decide +kernel

/-- R152, R147: at the millisecond of the cooldown's expiry, and past it, the cooldown is over and the command undocks. -/
theorem test_undock_start_at_expiry :
    (run .undockStart (asked 20 [] { docked with latch := { docked.latch with cooldown := some 1000 } })).latch.state =
        .releasing 5000 ∧
      (run .undockStart (asked 20 [] { docked with latch := { docked.latch with cooldown := some 999 } })).latch.cooldown =
        none := by decide +kernel

/-- R157: 120 characters of 0 are all outside 32-126. -/
theorem test_load_legends : reply (run .loadLegends (asked 22 [1, 0x7F7C])) = (0, 120, 0) := by decide +kernel

/-- R163. -/
theorem test_set_indicators :
    (run .setIndicators (asked 23 [1, 2, 3, 0])).ind = { caps := .on, num := .slow, scroll := .fast, aux := .off } := by
  decide +kernel

/-- R174: step 16 is taken as 15, and NIGHT is night. -/
theorem test_set_light_levels :
    let t := run .setLightLevels (asked 24 [16, 0, 7, 1])
    t.light.panel.step = 15 ∧ t.light.night = true ∧ (reply t).1 = 1 := by decide +kernel

/-- R175: night_on 4095 is always refused. -/
theorem test_set_light_limits : (reply (run .setLightLimits (asked 25 [4095, 9000, 40, 20, 25, 100]))).1 = 4 := by
  decide +kernel

/-- R169: a field lower than the one before it is a fault. -/
theorem test_load_light_table :
    reply (run .loadLightTable (asked 26 [0x4000] { docked with mem := docked.mem.write 0x4002 7 })) = (5, 2, 0) := by
  decide +kernel

/-- R178: recover lies at least 500 above warn. -/
theorem test_set_supply :
    (reply (run .setSupply (asked 27 [9000, 9499]))).1 = 4 ∧ (run .setSupply (asked 27 [9000, 9500])).supply.recover = 9500 := by
  decide +kernel

/-! ### Witnesses: a state and operands that meet the hypotheses of each statement, at the boundaries of its clauses -/

/-- The docked part with a command waiting. -/
def waiting (c : Instr) (s : State := docked) : State := { s with pending := [c] }

/-- A docked part with a key held for the tablet and repeating, about to lose the link. -/
def losing : State := waiting .linkDown { repeating with wake := Wake.reset }

theorem witness_StepRunsTheFrontCommand : (waiting .nop).pending = .nop :: [] := rfl

theorem witness_ClockAndQueue : docked.pending = [] ∧ ∃ t, exec .nop docked = .next t := ⟨rfl, _, rfl⟩

theorem witness_OnlyAccessesPastTheWindowStop :
    (Instr.ownerMarkWrite 0xFFFE (.half 0)).wellFormed = true ∧ 65536 < (0xFFFF : BitVec 16).toNat + (Access.half 0).size ∧
      4 < (1 : BitVec 2).toNat + (Access.word 0).size := by decide

theorem witness_NothingHappensInPowerReset :
    State.reset.inReset = true ∧ (Instr.supplySample 6000).wellFormed = true ∧ Instr.supplySample 6000 ≠ .powerReset ∧
      ∀ p l b a, Instr.supplySample 6000 ≠ .resetRelease p l b a := by
  refine ⟨rfl, by decide, by decide, ?_⟩
  intro p l b a h
  cases h

theorem witness_PowerResetRestoresEveryBlock : docked.inReset = false ∧ (5999 : Half).toNat < 6000 := by decide

theorem witness_ReleaseOfPowerReset :
    (waiting .nop State.reset).inReset = true ∧
      waiting .nop State.reset = { State.reset with pending := (waiting .nop State.reset).pending } := ⟨rfl, rfl⟩

theorem witness_StepKeepsMemoryForm : MemOk losing ∧ ∃ t, step losing = .next t := by
  refine ⟨by unfold MemOk; decide +kernel, _, rfl⟩

theorem witness_StepKeepsLogRules : LogOk losing.log ∧ LiveOk losing ∧ ∃ t, step losing = .next t := by
  refine ⟨?_, ?_, _, rfl⟩
  · refine ⟨by decide +kernel, by decide +kernel, ?_⟩
    show 0 < 16 ∧ 1 < pageRecords ∧ ([] : List Record) = [] ∧ false = false ∧ (_ ↔ 0 < 1)
    decide
  · unfold LiveOk; decide +kernel

theorem losing_keys : KeysOk losing.keys := by unfold KeysOk; decide +kernel

theorem losing_reset : ResetOk losing := fun h => nomatch h

theorem witness_StepKeepsTheKeyTable :
    KeysOk losing.keys ∧ HeldOk losing ∧ LightOk losing.light ∧ ∃ t, step losing = .next t := by
  refine ⟨losing_keys, ?_, ?_, _, rfl⟩
  · unfold HeldOk; decide +kernel
  · unfold LightOk; decide +kernel

theorem witness_StepKeepsNothingForTheTabletWhileDown :
    KeysOk losing.keys ∧ OrphanOk losing ∧ AttentionOk losing ∧ VectorOk losing ∧ ∃ t, step losing = .next t := by
  refine ⟨losing_keys, ?_, ?_, ?_, _, rfl⟩
  · unfold OrphanOk; decide +kernel
  · unfold AttentionOk; decide +kernel
  · unfold VectorOk; decide +kernel

theorem witness_StepKeepsLockoutFlagAndShownSet :
    (MotionOk losing ∧ ShownOk losing ∧ ∃ t, step losing = .next t) ∧
    (let s := withEntry 139 (held 496 acts 500)
     s.link ≠ .down ∧ s.motion.lockout = false ∧
       ∃ e ∈ s.keys.entries, ∃ l, e.cond = .down l ∧ l.code = 496 ∧ l.route.dock = true) ∧
    undocked.link = .down ∧ ({ docked.motion with lockout := true } : Motion).lockout = true ∧
    docked.link ≠ .down ∧ docked.motion.lockout = false ∧ ∀ e ∈ docked.keys.entries, e.cond = .up := by
  refine ⟨⟨?_, ?_, _, rfl⟩, ⟨by decide, rfl, held 496 acts 500, by decide +kernel, _, rfl, rfl, rfl⟩, by decide +kernel⟩
  · unfold MotionOk; decide +kernel
  · unfold ShownOk; decide +kernel

theorem witness_StepKeepsLatchSafe :
    ResetOk (waiting .askTimerExpiry askedFor) ∧ LatchOk (waiting .askTimerExpiry askedFor) ∧
      ∃ t, step (waiting .askTimerExpiry askedFor) = .next t := by
  refine ⟨fun h => absurd h (by decide), ?_, _, rfl⟩
  unfold LatchOk; decide +kernel

theorem witness_StepKeepsWakeAndRepeat :
    ResetOk losing ∧ KeysOk losing.keys ∧ WakeOk losing ∧ RepeatOk losing ∧ ∃ t, step losing = .next t := by
  refine ⟨losing_reset, losing_keys, ?_, ?_, _, rfl⟩
  · unfold WakeOk; decide +kernel
  · unfold RepeatOk
    exact ⟨rfl, rfl, rfl⟩

theorem witness_StepKeepsScannerAndPowerReset :
    ResetOk losing ∧ ScanOk losing ∧ PointerOk losing ∧ ∃ t, step losing = .next t := by
  refine ⟨losing_reset, ?_, ?_, _, rfl⟩
  · unfold ScanOk; decide +kernel
  · unfold PointerOk; decide +kernel

/-- A cause raised: pending already; masked, or the link DOWN; sent in ACTIVE; held in LOW_POWER. -/
theorem witness_RaisingACause :
    (let s := { docked with irq := { Interrupts.reset with pending := 1 } }
     s.irq.pending.getLsbD Cause.log.bit = true) ∧
    (docked.irq.pending.getLsbD Cause.status.bit = false ∧ docked.irq.mask.getLsbD Cause.status.bit = false) ∧
    (undocked.irq.pending.getLsbD Cause.log.bit = false ∧ undocked.link = .down) ∧
    (let s := { docked with irq := { Interrupts.reset with mask := 4 } }
     s.irq.pending.getLsbD Cause.status.bit = false ∧ s.irq.mask.getLsbD Cause.status.bit = true ∧ s.link = .active) ∧
    (let s := { sleeping with irq := { Interrupts.reset with mask := 1 } }
     s.irq.pending.getLsbD Cause.log.bit = false ∧ s.irq.mask.getLsbD Cause.log.bit = true ∧ s.link = .lowPower) := by
  decide

theorem witness_ChangeCountRisesAtTheEventEnd :
    ({ docked with statusDirty := true } : State).statusDirty = true ∧ docked.statusDirty = false ∧ docked.inReset = false ∧
      (State.reset.inReset = true ∧ ∃ t, exec (.resetRelease true true false 199) State.reset = .next t) ∧
      exec .frameTimerExpiry docked = .next (run .frameTimerExpiry docked) ∧
      run .frameTimerExpiry docked ≠ { State.reset with pending := docked.pending } ∧
      ∃ x, 8 ≤ x ∧ (statusBytes (run .frameTimerExpiry docked)).getD x 0 ≠ (statusBytes docked).getD x 0 :=
  ⟨rfl, rfl, rfl, ⟨rfl, _, rfl⟩, rfl, by decide +kernel, 0x16, by decide, by decide +kernel⟩

/-- An access of the last byte of INT_PENDING ends at the end of the window. -/
theorem witness_RegisterWrites :
    docked.inReset = false ∧ docked.link = .active ∧ (3 : BitVec 2).toNat + (Access.byte 0).size ≤ 4 := by decide

/-- A register row, and an OWNER_MARK_WRITE that covers the owner field of page 15. -/
theorem witness_WriteAccessesMeetTheLink :
    isWrite (.noticeWrite 3 (.word 0)) = true ∧ (Instr.noticeWrite 3 (.word 0)).wellFormed = true ∧
      (∀ off a, Instr.noticeWrite 3 (.word 0) ≠ .ownerMarkWrite off a) ∧
      (isWrite (.ownerMarkWrite 0x25FD (.word 0)) = true ∧ (Instr.ownerMarkWrite 0x25FD (.word 0)).wellFormed = true ∧
        (0x25FD : BitVec 16).toNat ≤ 0x2600 ∧ 0x2600 < (0x25FD : BitVec 16).toNat + (Access.word 0).size ∧
        0x2600 = 0x0800 + 0x200 * 15 ∧ undocked.log.page = none) ∧
      (undocked.inReset = false ∧ undocked.statusDirty = false ∧ undocked.link = .down) ∧
      (sleeping.inReset = false ∧ sleeping.statusDirty = false ∧ sleeping.link = .lowPower) :=
  ⟨by decide, by decide, fun _ _ h => (nomatch h), by decide, by decide, by decide⟩

/-- The docked part with no page open, page 3 waited for. -/
def full : State :=
  { docked with log := { docked.log with page := none, waiting := some 3, flush := none }, mem := [(0x0E00, 2)] }

/-- The last access below the registers but ID, one that covers the waiting owner field with PART and one that covers it with
another value, and the first and last accesses of the registers. -/
theorem witness_WriteAccessesAreStored :
    full.inReset = false ∧ full.link = .active ∧ full.statusDirty = false ∧
      (0xFFF0 : BitVec 16).toNat + (Access.word 0).size ≤ 0xFFF4 ∧
      (∀ i, full.log.waiting = some i →
        ¬((0xFFF0 : BitVec 16).toNat ≤ pageBase i ∧ pageBase i < (0xFFF0 : BitVec 16).toNat + (Access.word 0).size)) ∧
      (full.log.waiting = some 3 ∧ (0x0DFE : BitVec 16).toNat ≤ pageBase 3 ∧
        pageBase 3 < (0x0DFE : BitVec 16).toNat + (Access.word 0x00010000).size ∧
        (accessBytes (.word 0x00010000)).getD (pageBase 3 - (0x0DFE : BitVec 16).toNat) 0 = 1 ∧
        (accessBytes (.word 0x00020000)).getD (pageBase 3 - (0x0DFE : BitVec 16).toNat) 0 ≠ 1) ∧
      (0xFFF0 : BitVec 16).toNat = 0xFFF0 + (0 : BitVec 2).toNat ∧
      (0xFFFF : BitVec 16).toNat = 0xFFFC + (3 : BitVec 2).toNat := by
  refine ⟨rfl, rfl, rfl, by decide, ?_, by decide, by decide, by decide⟩
  intro i h
  cases h
  decide

/-- PART and another value, with the queue empty. -/
theorem witness_ReturnOfTheWaitingPage :
    3 < 16 ∧ full.inReset = false ∧ full.link = .active ∧ full.statusDirty = false ∧ full.log.waiting = some 3 ∧
      full.log.live = true ∧ full.log.page = none ∧ full.log.queue = [] ∧ (1 : Byte) = 1 ∧ (0 : Byte) ≠ 1 := by decide

/-- R108, R112: two queued records are placed on the page returned, and the loss is then summarised after them. -/
theorem test_return_drains_and_summarises :
    let r : Record := { time := 7, body := .signal 2 true .aux 5 }
    let t := run (.ownerMarkWrite 0x0E00 (.byte 1))
      { full with log := { full.log with queue := [r, r], inLoss := true, lost := 9 } }
    t.log.page = some { index := 3, count := 4 } ∧ t.log.queue = [] ∧ t.log.inLoss = false ∧
      t.mem.read 0x0E10 = 6 ∧ t.mem.readLe 0x0E24 4 = 7 ∧ t.mem.read 0x0E30 = 12 ∧ t.mem.read 0x0E38 = 9 ∧
      t.mem.read 0x0E40 = 13 := by decide +kernel

/-- The boundaries of the regions of the window, and an entry of the signal table. -/
theorem witness_TabletReads :
    0xFF < 0x0100 ∧ (0x0100 ≤ 0x04FF ∧ 0x04FF < 0x0500) ∧ (0x0500 ≤ 0x07FF ∧ 0x07FF < 0x0800) ∧
      (0xFFF4 ≤ 0xFFF7 ∧ 0xFFF7 < 0xFFF8) ∧ (0xFFFD ≤ 0xFFFF ∧ 0xFFFF < 0x10000) ∧
      (docked.inReset = false ∧ docked.link = .active ∧ sleeping.inReset = false ∧ sleeping.link = .lowPower ∧
        undocked.link = .down ∧ 65535 + 1 ≤ 65536 ∧ 65536 < 65535 + 2) ∧
      (hearing (signal .aux 5 .fresh)).bus.signals[0]? = some (signal .aux 5 .fresh) ∧
      docked.bus.signals.length ≤ 5 :=
  ⟨by decide, by decide, by decide, by decide, by decide, by decide, rfl, by decide⟩

/-- Fields and records at the ends of their ranges. -/
theorem witness_LittleEndianFields :
    1 < 2 ∧ (RecordBody.keyPress 143 511 .fn = .keyPress 143 511 .fn ∧ 143 < 144 ∧ 511 < 512) ∧ 65535 < 65536 ∧
      ([511, 1, 2, 3, 4].length ≤ 5 ∧ (∀ c ∈ [511, 1, 2, 3, 4], c < 512)) ∧ ([] : List Nat).length ≤ 5 ∧
      (3 < 4 ∧ 255 < 256 ∧ 5 < 6) := by decide

theorem witness_CompletionWritesTheCell :
    docked.req.pointer < 8 ∧ (query 0 []).mark = false ∧ ({ query 0 [] with mark := true } : Request).mark = true ∧ 3 < 4 := by
  decide

/-- A busy unit; no cell POSTED; cell 7, the last of the search, POSTED alone. -/
theorem witness_ExaminationTakesTheNextPostedCell :
    (asked 0 []).req.current.isSome = true ∧ (∀ k, k < 8 → docked.mem.read (0x0100 + 0x80 * ((7 + 1 + k) % 8)) ≠ 1) ∧
    (let s := { docked with mem := docked.mem.write 0x0480 1 }
     s.req.current = none ∧ s.link ≠ .down ∧ s.mem.read (0x0100 + 0x80 * ((s.req.pointer + 1 + 7) % 8)) = 1 ∧
       ∀ j, j < 7 → s.mem.read (0x0100 + 0x80 * ((s.req.pointer + 1 + j) % 8)) ≠ 1) := by
  decide +kernel

theorem witness_RequestsWithoutAnOwner :
    (docked.req.sweep = some 1000 ∧ due 1000 docked.ms = true) ∧ InExecution (asked 0 []) (query 0 []) 0 0 ∧
      ((asked 28 []).req.current = some (query 28 []) ∧ 27 < (query 28 []).kind) ∧
      (catalogue .setScan = some (1, 3) ∧ (query 1 [1]).kind = 1 ∧ (query 1 [1]).count ≠ 3) ∧ (query 2 []).kind ≠ 1 ∧
      docked.req.current = none :=
  ⟨by decide, ⟨rfl, rfl, rfl, rfl⟩, by decide, by decide, by decide, rfl⟩

/-- A request in execution in a state made for it. -/
theorem asked_in_execution (kind : Nat) (ps : List Word) (s : State) (h : s.inReset = false) :
    InExecution (asked kind ps s) (query kind ps) kind ps.length := ⟨h, rfl, rfl, rfl⟩

theorem witness_SetAttentionRule :
    InExecution (asked 10 [0]) (query 10 [0]) 10 1 ∧ InExecution (asked 10 [61]) (query 10 [61]) 10 1 :=
  ⟨asked_in_execution _ _ _ rfl, asked_in_execution _ _ _ rfl⟩

theorem witness_SettingsOfTimers :
    InExecution (asked 12 [49]) (query 12 [49]) 12 1 ∧ InExecution (asked 14 [51]) (query 14 [51]) 14 1 ∧
      InExecution (asked 21 [0, 11]) (query 21 [0, 11]) 21 2 ∧
      (InExecution (asked 11 [2, 0, 0]) (query 11 [2, 0, 0]) 11 3 ∧ 1 < param (query 11 [2, 0, 0]).params 1) ∧
      (InExecution (asked 11 [1, 250, 33]) (query 11 [1, 250, 33]) 11 3 ∧ param (query 11 [1, 250, 33]).params 1 = 1) ∧
      (InExecution (asked 11 [0, 1, 1]) (query 11 [0, 1, 1]) 11 3 ∧ param (query 11 [0, 1, 1]).params 1 = 0) := by
  refine ⟨?_, ?_, ?_, ⟨?_, by decide⟩, ⟨?_, by decide⟩, ?_, by decide⟩ <;> exact asked_in_execution _ _ _ rfl

/-- The docked part in WATCH. -/
def watching : State := { docked with scan := { docked.scan with mode := .watch, pass := false, timer := none } }

/-- The docked part in a dip. -/
def dipping : State := recovering

/-- Masks 0 and 2^18 are refused, 1 and 2^18 - 1 taken, in each scan state. -/
theorem witness_ScanChanges :
    (InExecution (asked 1 [0, 2, 64]) (query 1 [0, 2, 64]) 1 3 ∧ param (query 1 [0, 2, 64]).params 1 = 0) ∧
    2 ^ 18 ≤ param (query 1 [0x40000, 2, 64]).params 1 ∧
    (0 < param (query 1 [0x3FFFF, 2, 64]).params 1 ∧ param (query 1 [0x3FFFF, 2, 64]).params 1 < 2 ^ 18 ∧
      (asked 1 [0x3FFFF, 2, 64]).scan.mode = .scanning) ∧
    (InExecution (asked 1 [1, 2, 1] watching) (query 1 [1, 2, 1]) 1 3 ∧ (asked 1 [1, 2, 1] watching).scan.mode = .watch ∧
      0 < param (query 1 [1, 2, 1]).params 3 ∧ param (query 1 [1, 2, 0]).params 3 = 0) ∧
    (InExecution (asked 1 [1, 2, 1] dipping) (query 1 [1, 2, 1]) 1 3 ∧ (asked 1 [1, 2, 1] dipping).scan.mode = .held) ∧
    (repeating.keys.entries.length = 144 ∧ repeating.scan.settings.mask.getLsbD (5 / 8) = true ∧
      (0x3FFFE : BitVec 18).getLsbD (5 / 8) = false ∧ (0x1FFFF : BitVec 18).getLsbD (5 / 8) = true ∧
      ∃ r l, repeating.rep.running = some r ∧ r.position = 5 ∧ (repeating.entry r.position).cond = .down l) := by
  refine ⟨⟨asked_in_execution _ _ _ rfl, by decide⟩, by decide, by decide, ⟨asked_in_execution _ _ _ rfl, by decide⟩,
    ⟨asked_in_execution _ _ _ rfl, by decide⟩, by decide +kernel, by decide, by decide, by decide, _, _, rfl, rfl, rfl⟩

theorem witness_FilterAndQuarantineRequests :
    InExecution (asked 2 [0, 9, 3, 256]) (query 2 [0, 9, 3, 256]) 2 4 ∧
    (InExecution (asked 3 [143]) (query 3 [143]) 3 1 ∧ (asked 3 [143]).keys.entries.length = 144 ∧
      param (query 3 [143]).params 1 < 144) ∧
    param (query 3 [255]).params 1 = 255 ∧ 144 ≤ param (query 3 [256]).params 1 ∧ param (query 3 [256]).params 1 ≠ 255 :=
  ⟨asked_in_execution _ _ _ rfl, ⟨asked_in_execution _ _ _ rfl, by decide +kernel, by decide⟩, by decide, by decide,
    by decide⟩

/-- In SCANNING and in HELD, in attention and not, with a change pending and none. -/
theorem witness_ResetKeypathRule :
    InExecution (asked 4 [] repeating) (query 4 []) 4 0 ∧ (asked 4 [] repeating).keys.entries.length = 144 ∧
      (asked 4 [] repeating).scan.change = none ∧ (asked 4 [] repeating).scan.mode ≠ .held ∧
      (InExecution (asked 4 [] dipping) (query 4 []) 4 0 ∧ (asked 4 [] dipping).scan.mode = .held) ∧
      (InExecution (asked 4 [] alerted) (query 4 []) 4 0 ∧ (asked 4 [] alerted).chords.attention.isSome = true) ∧
      (let s := { repeating with scan := { repeating.scan with change := some Scanner.reset.settings } }
       InExecution (asked 4 [] s) (query 4 []) 4 0 ∧ (asked 4 [] s).scan.mode = .scanning ∧
         (asked 4 [] s).scan.change.isSome = true) :=
  ⟨asked_in_execution _ _ _ rfl, by decide +kernel, rfl, by decide, ⟨asked_in_execution _ _ _ rfl, rfl⟩,
    ⟨asked_in_execution _ _ _ rfl, rfl⟩, asked_in_execution _ _ _ rfl, rfl, rfl⟩

/-- The fields of staging as LOAD_KEYMAP reads them. -/
def codesAt (s : State) (off : Nat) : List Nat := (List.range 144).map fun i => s.mem.readLe (off + 2 * i) 2

/-- Layer 2; the offsets just outside; the last allowed offset with a bad code in front, and with none. -/
theorem witness_LoadKeymapRule :
    InExecution (asked 5 [2, 0x4000]) (query 5 [2, 0x4000]) 5 2 ∧ 1 < param (query 5 [2, 0x4000]).params 1 ∧
    param (query 5 [1, 0x3FFF]).params 2 < 0x4000 ∧ 0x8000 < param (query 5 [1, 0x7EE1]).params 2 + 288 ∧
    (let s := { docked with mem := [(0x7EE1, 2)] }
     ∃ rest, (List.range 144).filter (fun i => 511 < (codesAt s 0x7EE0).getD i 0) = 0 :: rest) ∧
    (List.range 144).filter (fun i => 511 < (codesAt docked 0x4000).getD i 0) = [] := by
  refine ⟨asked_in_execution _ _ _ rfl, by decide, by decide, by decide, ⟨[], by decide +kernel⟩, by decide +kernel⟩

theorem witness_LoadSteeringAndLockPolicy :
    (let s := { docked with steer := { docked.steer with lock := true } }
     InExecution (asked 6 [0x4000] s) (query 6 [0x4000]) 6 1 ∧ (asked 6 [0x4000] s).steer.lock = true) ∧
    (InExecution (asked 6 [0x7FE0]) (query 6 [0x7FE0]) 6 1 ∧ (asked 6 [0x7FE0]).steer.lock = false ∧
      0x4000 ≤ param (query 6 [0x7FE0]).params 1 ∧ param (query 6 [0x7FE0]).params 1 + 32 ≤ 0x8000) ∧
    0x8000 < param (query 6 [0x7FE1]).params 1 + 32 ∧ param (query 6 [0x3FFF]).params 1 < 0x4000 ∧
    (let values (m : Memory) := (List.range 32).map fun i => (m.read (0x7FE0 + i)).toNat
     let bad (m : Memory) :=
       (List.range 32).filter fun i => 7 < (values m).getD i 0 ∨ (values m).getD i 0 = 4 ∨ (values m).getD i 0 = 6
     bad [(0x7FFF, 8)] = [31] ∧ bad docked.mem = []) ∧
    InExecution (asked 7 []) (query 7 []) 7 0 ∧
    (let s : State := { docked with steer := { docked.steer with lock := true } }
     s.steer.lock = true ∧ ∃ t, exec .frameTimerExpiry s = .next t ∧ t ≠ { State.reset with pending := s.pending }) := by
  refine ⟨⟨asked_in_execution _ _ _ rfl, rfl⟩, ⟨asked_in_execution _ _ _ rfl, rfl, by decide, by decide⟩, by decide,
    by decide, by decide +kernel, asked_in_execution _ _ _ rfl, rfl, _, rfl, by decide +kernel⟩

theorem witness_ArmChordRule :
    InExecution (asked 8 [4, 2, 1, 2, 0, 0] alerted) (query 8 [4, 2, 1, 2, 0, 0]) 8 6 ∧
    (∃ a, (asked 8 [1, 0, 0, 0, 0, 0] alerted).chords.attention = some a ∧
      a.chord = param (query 8 [1, 0, 0, 0, 0, 0]).params 1) ∧
    (let codes := [1, 511]
     (∀ c ∈ codes, 1 ≤ c ∧ c ≤ 511) ∧ codes.Nodup) ∧
    ¬((∀ c ∈ [512, 1], 1 ≤ c ∧ c ≤ 511) ∧ [512, 1].Nodup) := by
  refine ⟨asked_in_execution _ _ _ rfl, ⟨_, rfl, by decide⟩, by decide, by decide⟩

theorem witness_AttentionEnds :
    InExecution (asked 9 [1] alerted) (query 9 [1]) 9 1 ∧ (asked 9 [1] alerted).chords.attention.isSome = true ∧
      param (query 9 [1]).params 1 = 1 ∧ param (query 9 [2]).params 1 ≠ 1 ∧ docked.chords.attention = none ∧
      due 10000 { alerted with ms := 10000 }.ms = true :=
  ⟨asked_in_execution _ _ _ rfl, rfl, by decide, by decide, rfl, by decide⟩

/-- Each timer of the key path due, and each kind of held key that repeats. -/
theorem witness_TimersOfTheKeyPath :
    (docked.inReset = false ∧ docked.scan.mode = .scanning ∧ docked.scan.timer = some 1000 ∧ due 1000 docked.ms = true ∧
      docked.scan.pass = true ∧ docked.scan.skipped < 65535) ∧
    ({ docked with scan := { docked.scan with skipped := 65535 } } : State).scan.skipped = 65535 ∧
    watching.scan.mode ≠ .scanning ∧ watching.scan.mode = .watch ∧
    ((counting 31).scan.mode = .scanning ∧ (counting 31).scan.pass = true ∧ (counting 31).keys.entries.length = 144 ∧
      (counting 31).keys.settings.decay = 31 + 1 ∧ ¬(counting 30).keys.settings.decay ≤ 30 + 1) ∧
    (∃ a, sleeping.wake.timer = some a ∧ due a.expiry sleeping.ms = true ∧
      (∃ l, (sleeping.entry a.position).cond = .down l ∧ l.pressTime = a.pressTime) ∧
      sleeping.latch.state ≠ .empty ∧ sleeping.link ≠ .active) ∧
    ({ sleeping with wake := { Wake.reset with line := some 1000 } } : State).wake.line = some 1000 ∧
    (∃ r l, repeating.rep.running = some r ∧ due r.expiry repeating.ms = true ∧
      (repeating.entry r.position).cond = .down l ∧ l.route.forward = true ∧ l.orphaned = false ∧ l.route.dock = false) ∧
    (let s := { repeating with keys := { repeating.keys with entries := repeating.keys.entries.set 5 (held 498 acts 500) } }
     ∃ r l, s.rep.running = some r ∧ (s.entry r.position).cond = .down l ∧ l.route.forward = false ∧ l.route.dock = true ∧
       l.code = 498) ∧
    (let s := { repeating with keys := { repeating.keys with entries := repeating.keys.entries.set 5 (held 496 acts 500) } }
     ∃ r l, s.rep.running = some r ∧ (s.entry r.position).cond = .down l ∧ l.route.forward = false ∧ l.route.dock = true ∧
       l.code ≠ 497 ∧ l.code ≠ 498) ∧
    (let both : Route := { forwards with dock := true }
     let s := { repeating with keys := { repeating.keys with entries := repeating.keys.entries.set 5 (held 497 both 500) } }
     ∃ r l, s.rep.running = some r ∧ (s.entry r.position).cond = .down l ∧ l.route.forward = true ∧ l.route.dock = true ∧
       l.orphaned = false ∧ l.code = 497) := by
  refine ⟨by decide, rfl, by decide, rfl, by decide +kernel, ⟨_, rfl, by decide, ⟨_, rfl, rfl⟩, by decide, by decide⟩, rfl,
    ⟨_, _, rfl, by decide, rfl, rfl, rfl, rfl⟩, ⟨_, _, rfl, rfl, rfl, rfl, rfl⟩, ⟨_, _, rfl, rfl, rfl, rfl, by decide, by decide⟩,
    ⟨_, _, rfl, rfl, rfl, rfl, rfl, rfl⟩⟩

/-- The quiet frame that makes the idle run 64, and the one before it; a frame in which position 5 reads down. -/
theorem witness_FrameBoundaryRule :
    (docked.inReset = false ∧ docked.keys.entries.length = 144 ∧ docked.scan.mode = .scanning ∧ docked.scan.pass = true ∧
      docked.scan.change = none ∧ docked.keys.decayCounter + 1 < docked.keys.settings.decay ∧ (∀ k ∈ docked.keys.entries, k.pressed = false) ∧
      Sample.downRead ∉ frameSamples docked.scan.settings.mask (List.replicate 18 0)) ∧
    Sample.downRead ∈ frameSamples docked.scan.settings.mask (32 :: List.replicate 17 0) ∧
    min (62 + 1) 1000 < docked.scan.settings.watchEntry ∧ docked.scan.settings.watchEntry ≤ min (63 + 1) 1000 ∧
    ¬(watching.scan.mode = .scanning ∧ watching.scan.pass = true) ∧
    ((passSlots (BitVec.allOnes 18))[17]? = some 17 ∧ 17 < 18 ∧ dipping.scan.mode = .held ∧ watching.scan.mode = .watch) ∧
    (let s := { docked with scan := { docked.scan with change := some Scanner.reset.settings } }
     s.scan.mode = .scanning ∧ s.scan.pass = true ∧ s.scan.change.isSome = true) ∧
    ((counting 31).keys.settings.decay ≤ (counting 31).keys.decayCounter + 1 ∧
      ∀ p, p < 144 → ((List.replicate 18 (0 : Byte)).getD (p / 8) 0).getLsbD (p % 8) = ((counting 31).entry p).pressed) := by
  decide +kernel

theorem witness_GhostCheckRule : 17 < 18 ∧ 7 < 8 ∧ ghostPasses (reading [0, 7, 136]) (8 * 17 + 7) = false := by
  decide +kernel

/-- One entry for each clause: masked, agreeing, taken anew, short, UP released, DOWN, at the limit. -/
theorem witness_OnePositionOfAFrame :
    143 < 144 ∧ docked.keys.entries.length = 144 ∧ (List.replicate 144 Sample.notSampled)[143]? = some .notSampled ∧
    (let e := docked.entry 5
     e.pressed = false ∧ (reading [])[5]? = some .upRead ∧ (reading [5])[5]? = some .downRead ∧ e.filter + 1 < 3) ∧
    (let e := (withEntry 5 { KeyEntry.reset with cond := .blocked, pressed := true }).entry 5
     (reading [5])[5]? = some .downRead ∧ e.pressed = true ∧ e.cond = .blocked) ∧
    (let e := nearlyPressed.entry 5
     e.cond = .up ∧ e.pressed = false ∧ 3 ≤ e.filter + 1 ∧ e.score + 1 < 12 ∧ ghostPasses (reading [5]) 5 = true) ∧
    (let e : KeyEntry := { held 6 forwards 500 with filter := 1 }
     (∃ l, e.cond = .down l) ∧ e.pressed = true ∧ 2 ≤ e.filter + 1 ∧ e.score + 1 < 12 ∧
       12 ≤ ({ e with score := 11 } : KeyEntry).score + 1 ∧ e.cond ≠ .quarantined) := by
  refine ⟨by decide, by decide +kernel, by decide +kernel, by decide +kernel, by decide +kernel, by decide +kernel, ⟨_, rfl⟩, rfl, by decide,
    by decide, by decide, by decide⟩

/-- The docked part with 16 forwarded keys held. -/
def crowded : State :=
  { docked with keys := { docked.keys with
      entries := List.replicate 16 (held 6 forwards 500) ++ List.replicate 128 KeyEntry.reset } }

/-- The docked part with chord 1 armed on codes 6 and 7 and code 6 held. -/
def nearlyAlerted : State :=
  { withEntry 5 (held 6 forwards 500) with chords := { Chords.reset with entries := [[], [6, 7], [], []] } }

/-- A layer key held; attention; a chord completed; each withholding. -/
theorem witness_LookupAndRoute :
    (let s := withEntry 139 (held 496 acts 500)
     ∃ e ∈ s.keys.entries, ∃ l, e.cond = .down l ∧ l.code = 496 ∧ l.route.dock = true) ∧
    alerted.chords.attention.isSome = true ∧
    (nearlyAlerted.chords.attention = none ∧ nearlyAlerted.link ≠ .down ∧ (routeOf nearlyAlerted 7).chord = some 1) ∧
    (docked.chords.attention = none ∧ (∀ k, k < 4 → docked.chords.entries.getD k [] = [])) ∧
    (511 < 512 ∧ docked.steer.table.length = 32) ∧
    (segmentOf docked 1).forward = true ∧ (segmentOf docked 496).forward = false ∧
    (let s := { docked with
      steer := { docked.steer with table := [{ forward := true, dock := false, hold := true }] }
      motion := { docked.motion with lockout := true } }
     (segmentOf s 1).forward = true ∧ (segmentOf s 1).hold = true ∧ s.motion.lockout = true) ∧
    16 ≤ crowded.keys.heldForward ∧ docked.keys.heldForward < 16 ∧ undocked.link = .down := by
  refine ⟨⟨held 496 acts 500, by decide +kernel, _, rfl, rfl, rfl⟩, by decide +kernel⟩

/-- The docked part whose steering makes every code a BOTH route. -/
def bothWays : State :=
  { docked with steer := { docked.steer with table := List.replicate 32 { forward := true, dock := true, hold := false } } }

/-- A forwarded press, of an UP entry and of a BLOCKED one, and one of both ways with repeat off and on, asleep, withheld
for a lost link and in attention; each dock function; and a press that completes a chord. -/
theorem witness_PressIsLatched :
    (docked.keys.entries.length = 144 ∧ (docked.entry 143).cond = .up ∧ docked.rep.enabled = false ∧ docked.link = .active ∧
      (routeOf docked (lookup docked 5).1).route = forwards ∧ ShownOk docked) ∧
    (let s := withEntry 5 { KeyEntry.reset with cond := .blocked, pressed := true }
     s.keys.entries.length = 144 ∧ (s.entry 5).cond = .blocked ∧ (routeOf s (lookup s 5).1).route = forwards ∧ ShownOk s) ∧
    ({ docked with rep := { RepeatTimer.reset with enabled := true } } : State).rep.enabled = true ∧
    (sleeping.link = .lowPower ∧ sleeping.latch.state ≠ .empty ∧ (sleeping.entry 6).cond = .up ∧
      (routeOf sleeping (lookup sleeping 6).1).route = forwards) ∧
    ((routeOf undocked (lookup undocked 5).1).withheld = .undocked ∧ undocked.latch.state ≠ .empty ∧
      (routeOf alerted (lookup alerted 5).1).route = Route.swallow) ∧
    ((lookup docked 140).1 = 496 ∧ (lookup docked 141).1 = 497 ∧ (lookup docked 142).1 = 498 ∧
      (lookup docked 143).1 = 501 ∧ ∀ c, c ∈ [496, 497, 498, 499, 500, 501] → (routeOf docked c).route = acts) ∧
    (docked.latch.state = .latched ∧ docked.latch.cooldown = none ∧ docked.motion.lockout = false) ∧
    ((nearlyAlerted.entry 6).cond = .up ∧ (routeOf nearlyAlerted (lookup nearlyAlerted 6).1).chord = some 1) ∧
    ((bothWays.entry 142).cond = .up ∧ bothWays.keys.entries.length = 144 ∧
      ∀ c, c ∈ [1, 497, 501] → (routeOf bothWays c).route = { forwards with dock := true }) := by
  unfold ShownOk
  decide +kernel

/-- DORMANT; queued, lost and the first loss; the first place of a page, its last place, and an urgent record. -/
theorem witness_WhereARecordGoes :
    undocked.log.live = false ∧
    (full.log.live = true ∧ full.log.page = none ∧ full.log.inLoss = false ∧ full.log.queue.length < 32) ∧
    ({ full with log := { full.log with inLoss := true } } : State).log.inLoss = true ∧
    32 ≤ (List.replicate 32 ({ time := 0, body := .overflow 1 } : Record)).length ∧
    (docked.log.page = some { index := 0, count := 1 } ∧ 0 < 16 ∧ 30 < 31 ∧ 15 < 16) := by decide

theorem witness_PageHandover :
    15 < 16 ∧ docked.mem.read (0x0800 + 0x200 * ((0 + 1) % 16)) = 1 ∧ docked.mem.read (0x0800 + 0x200 * ((1 + 1) % 16)) ≠ 1 ∧
    (docked.inReset = false ∧ docked.log.flush = some 1000 ∧ due 1000 docked.ms = true ∧
      docked.log.page = some { index := 0, count := 1 } ∧ 0 < 1) ∧
    InExecution (asked 13 []) (query 13 []) 13 0 ∧ docked.log.live = true ∧ undocked.log.live = false ∧
      full.log.page = none := by
  refine ⟨by decide, by decide +kernel, by decide +kernel, by decide, asked_in_execution _ _ _ rfl, rfl, rfl, rfl⟩

/-- A loss with 16 keys held: three full RESYNC records and a last one. -/
theorem witness_LossSummary :
    (summaryRecords crowded).length = 5 ∧ crowded.log.queue = [] ∧
      (crowded.keys.entries.filterMap fun e => match e.cond with
        | .down l => if l.route.forward ∧ ¬l.orphaned then some l.code else none
        | _ => none).length ≤ 16 := by decide +kernel

/-- Offsets at both ends of the area and past them; an entry of each condition, every place of the signal table, and each
optional item present. -/
theorem witness_SnapshotRule :
    (withEntry 143 (held 6 forwards 500) |>.entry 143).cond =
        .down { code := 6, layer := .base, route := forwards, orphaned := false, pressTime := 500 } ∧
      (∀ l, (docked.entry 143).cond ≠ .down l) ∧ (∃ a, alerted.chords.attention = some a) ∧ docked.chords.attention = none ∧
      (hearing (signal .aux 50 .fresh)).bus.signals[0]? = some (signal .aux 50 .fresh) ∧ docked.bus.signals.length ≤ 5 ∧
      (∃ d, recovering.supply.record = some d) ∧
    InExecution (asked 15 [0xB768]) (query 15 [0xB768]) 15 1 ∧ 0x8000 ≤ param (query 15 [0xB768]).params 1 ∧
      param (query 15 [0xB768]).params 1 + 2200 ≤ 0xC000 ∧ param (query 15 [0x7FFF]).params 1 < 0x8000 ∧
      0xC000 < param (query 15 [0xB769]).params 1 + 2200 ∧ 143 < 144 ∧ 3 < 4 :=
  ⟨by decide +kernel, fun l h => (nomatch h), ⟨_, rfl⟩, rfl, rfl, by decide, ⟨_, rfl⟩, asked_in_execution _ _ _ rfl, by decide, by decide, by decide, by decide, by decide, by decide⟩

/-- A 16-bit field at each end, and sums below, inside and above the range. -/
theorem witness_FieldExtractionAndScaling :
    0 < 16 ∧ ((0 : Int) + (-1) < 0) ∧ ((65535 : Int) < 65536 + 0) ∧ ¬((65535 : Int) < 65535 + 0) := by decide

/-- A frame served by one entry that reports a step, one that does not, an entry gone stale, and frames that serve none. -/
theorem witness_VehicleFrames :
    (let s := hearing (signal .aux 50 .fresh)
     let f := hundred 70 0
     s.inReset = false ∧ f.kind = .data ∧ s.bus.listening = true ∧ s.bus.signals[0]? = some (signal .aux 50 .fresh) ∧
       (f.extended = false ∧ (∀ b, b < 32 → (0x7FF : Word).getLsbD b = true →
         (f.ident.setWidth 32).getLsbD b = (0x100 : Word).getLsbD b) ∧ lastByte false 0 16 < min f.dlc.toNat 8) ∧
       50 + 20 ≤ scaled (rawField f.data false 0 16) 1 0 0 ∧ ¬(50 + 20 ≤ scaled (rawField (hundred 69 0).data false 0 16) 1 0 0)) ∧
    (∀ j h, j ≠ 0 → (hearing (signal .aux 50 .fresh)).bus.signals[j]? = some h → False) ∧
    (signal .aux 0 .never).val.status ≠ .fresh ∧ due 1000 docked.ms = true ∧ docked.bus.listening = false ∧
    ({ hundred 1 1 with kind := .remote } : CanFrame).kind ≠ .data := by
  refine ⟨⟨by decide, by decide, by decide, rfl, by decide +kernel, by decide, by decide⟩, ?_, by decide, by decide, by decide,
    by decide⟩
  intro j h hj hs
  cases j with
  | zero => exact hj rfl
  | succ n => simp [hearing] at hs

/-- Each motion state at its thresholds, with and without a fresh PARK. -/
theorem witness_MotionStateRule :
    (let on : Signal := signal .park 1 .fresh
     let slow : Signal := signal .speed 30 .fresh
     let s : State := { docked with
       motion := { Motion.reset with state := .moving, run := some 500 }
       bus := { rate := 500, listening := true, signals := [slow, on] } }
     s.motion.state = .moving ∧ 30 ≤ s.motion.settings.moveOff ∧ on ∈ s.bus.signals ∧ on.desc.role = .park ∧
       on.val.status = .fresh ∧ on.val.value ≠ 0 ∧ slow ∈ s.bus.signals ∧ slow.desc.role = .speed ∧
       slow.val.status = .fresh ∧ (∀ y ∈ s.bus.signals, y.desc.role = .speed → y = slow) ∧
       slow.val.value ≤ s.motion.settings.moveOff ∧ s.motion.settings.moveOff < 31) ∧
    (Motion.reset.state = .unknown ∧ Motion.reset.settings.moveOn ≤ 80 ∧ 79 < Motion.reset.settings.moveOn) ∧
    (docked.bus.signals = [] ∧ ({ Motion.reset with state := .parked } : Motion).state = .parked) := by
  decide

/-- The motion unit with the source VEHICLE, MOVING. -/
def driving : Motion := { Motion.reset with settings := { Motion.reset.settings with vehicle := true }, state := .moving }

/-- No change, a changed state alone, a flag become active with a HOLD key held, one become inactive; SET_MOTION locked,
refused at equal thresholds, and taken. -/
theorem witness_MotionChangeIsHandedOn :
    (docked.keys.entries.length = 144 ∧ docked.motion.state = Motion.reset.state ∧ Motion.reset.lockout = false) ∧
    driving.state ≠ Motion.reset.state ∧
    (let s := { withEntry 143 (held 6 holds 500) with motion := driving }
     (s.motion.settings.vehicle && (s.motion.state == .moving || (s.motion.state == .unknown && !s.motion.settings.asParked))) = true ∧
       Motion.reset.lockout = false ∧ 143 < 144 ∧ (∃ l, (s.entry 143).cond = .down l ∧ l.route.forward = true ∧
         l.route.hold = true ∧ l.orphaned = false)) ∧
    (let s := { repeating with motion := driving, keys := { repeating.keys with entries := repeating.keys.entries.set 5 (held 6 holds 500) } }
     ∃ r l, s.rep.running = some r ∧ r.position < 144 ∧ (s.entry r.position).cond = .down l ∧ l.route.forward = true ∧
       l.route.hold = true ∧ l.orphaned = false) ∧
    ({ driving with lockout := true } : Motion).lockout = true ∧ askedFor.latch.state = .asked 1000 ∧
    InExecution (asked 18 [80, 30, 10001, 0, 0, 1]) (query 18 [80, 30, 10001, 0, 0, 1]) 18 6 ∧
    (let p (i : Nat) := param (query 18 [80, 30, 10001, 0, 0, 1]).params i
     p 5 ≤ 1 ∧ p 6 ≤ 1 ∧ p 1 ≤ 65535 ∧ p 2 < p 1 ∧ p 1 = 80 ∧ p 2 = 30) ∧
    ¬(param (query 18 [65536, 30, 0, 0, 0, 0]).params 1 ≤ 65535) ∧ docked.steer.lock = false := by
  refine ⟨⟨by decide +kernel, by decide, by decide⟩, by decide, ⟨by decide, by decide, by decide, _, rfl, rfl, rfl, rfl⟩,
    ⟨_, _, rfl, by decide, rfl, rfl, rfl, rfl⟩, by decide, rfl, asked_in_execution _ _ _ rfl, by decide, by decide, rfl⟩

/-- A staged table whose second entry repeats the role SPEED, and the empty area, whose entries have length 0. -/
theorem witness_VehicleBusRequests :
    (InExecution (asked 16 [250]) (query 16 [250]) 16 1 ∧ (asked 16 [250]).steer.lock = false ∧
      param (query 16 [250]).params 1 ≠ (asked 16 [250]).bus.rate ∧ param (query 16 [500]).params 1 = docked.bus.rate) ∧
    (InExecution (asked 17 [6, 0x7F70]) (query 17 [6, 0x7F70]) 17 2 ∧ param (query 17 [6, 0x7F70]).params 1 ≤ 6 ∧
      param (query 17 [6, 0x7F70]).params 2 + 24 * 6 ≤ 0x8000 ∧ 0x8000 < param (query 17 [6, 0x7F71]).params 2 + 24 * 6 ∧
      6 < param (query 17 [7, 0x4000]).params 1 ∧ param (query 17 [0, 0]).params 1 = 0) ∧
    (let good : Memory := [(0x4000, 4), (0x4004, 1), (0x4010, 1), (0x4014, 50), (0x4018, 4), (0x401C, 1), (0x4028, 1), (0x402C, 50)]
     let bad (m : Memory) := (List.range 2).filter fun i => (stagedFaults m 0x4000 i).any id
     bad good = [] ∧ bad [] = [0, 1]) := by
  refine ⟨⟨asked_in_execution _ _ _ rfl, rfl, by decide, by decide⟩, ⟨asked_in_execution _ _ _ rfl, by decide, by decide, by decide,
    by decide, by decide⟩, by decide +kernel⟩

theorem witness_LatchInputs :
    (docked.inReset = false ∧ docked.statusDirty = false ∧ docked.latch.present.due = none ∧ docked.latch.sense.due = none ∧
      docked.latch.button.due = none) ∧
    (let waiting : InputFilter := { value := true, run := 0, due := some 1000 }
     let s : State := { docked with latch := { docked.latch with present := waiting, sense := waiting } }
     s.inReset = false ∧ s.latch.present.due = some 1000 ∧ s.latch.sense.due = some 1000) ∧
    (∃ t, ({ docked.latch with present := { value := true, run := 0, due := some 1000 } } : Latch).present.due = some t) ∧
    (∃ t, ({ docked.latch with sense := { value := true, run := 0, due := some 1000 } } : Latch).sense.due = some t) ∧
    (pressing.latch.button.due = some 1000 ∧ pressing.latch.button.value = false ∧ pressing.latch.state = .latched ∧
      pressing.latch.cooldown = none ∧ pressing.motion.lockout = false) ∧
    ({ pressing.motion with lockout := true } : Motion).lockout = true ∧
    ({ pressing.latch with cooldown := some 9000 } : Latch).cooldown.isSome = true ∧
    ({ pressing.latch with state := .unseated } : Latch).state ≠ .latched ∧
    ({ value := true, run := 0, due := some 1000 } : InputFilter).value = true :=
  ⟨by decide, by decide, ⟨_, rfl⟩, ⟨_, rfl⟩, by decide, rfl, rfl, by decide, rfl⟩

theorem witness_LatchTimersAndRequests :
    (askedFor.inReset = false ∧ askedFor.latch.state = .asked 1000 ∧ due 1000 askedFor.ms = true) ∧
    ({ docked.latch with state := .releasing 1000 } : Latch).state = .releasing 1000 ∧
    (let g : Latch := { docked.latch with cooldown := some 1000, heldPress := some .key }
     g.cooldown = some 1000 ∧ g.heldPress = some .key ∧ g.state = .latched) ∧
    (InExecution (asked 19 [1] askedFor) (query 19 [1]) 19 1 ∧ param (query 19 [1]).params 1 = 1 ∧
      param (query 19 [0]).params 1 = 0 ∧ 1 < param (query 19 [2]).params 1 ∧ docked.latch.state.place ≠ .asked) ∧
    (InExecution (asked 20 []) (query 20 []) 20 0 ∧ docked.latch.state = .latched ∧ docked.motion.lockout = false ∧
      docked.latch.cooldown = none ∧ docked.statusDirty = false) ∧
    (due 1000 docked.ms = true ∧ due 1001 docked.ms = false ∧ min ((1001 : Time) - docked.ms).toNat 10000 = 1) :=
  ⟨by decide, rfl, by decide, ⟨asked_in_execution _ _ _ rfl, by decide, by decide, by decide, by decide⟩,
    ⟨asked_in_execution _ _ _ rfl, rfl, rfl, rfl, rfl⟩, by decide⟩

/-- Sets 3 and 4, the last allowed offset and the next, a bad attribute and none, and the shown set BASE idle and sending. -/
theorem witness_StripTransfers :
    docked.legend.transfer = .idle ∧ (sending.legend.transfer = .sending 1000 ∧ due 1000 sending.ms = true ∧
      2 ≤ sending.legend.failures ∧ sending.legend.again = false) ∧
    ({ sending.legend with failures := 1, again := true } : Legend).failures < 2 ∧
    ({ docked.legend with retry := some 1000 } : Legend).retry = some 1000 ∧
    InExecution (asked 22 [0, 0x7F7C]) (query 22 [0, 0x7F7C]) 22 2 ∧ param (query 22 [0, 0x7F7C]).params 2 + 132 ≤ 0x8000 ∧
    0x8000 < param (query 22 [0, 0x7F7D]).params 2 + 132 ∧ 3 < param (query 22 [4, 0x4000]).params 1 ∧
    docked.legend.shown = .base ∧
    (let bad (m : Memory) := (List.range 12).filter fun c => decide (3 < (m.read (0x7F7C + 11 * c + 10)).toNat)
     bad [(0x7FFF, 4)] = [11] ∧ bad [] = []) := by
  refine ⟨rfl, by decide, by decide, rfl, asked_in_execution _ _ _ rfl, by decide, by decide, by decide, rfl, by decide +kernel⟩

theorem witness_Indicators :
    InExecution (asked 23 [3, 0, 1, 2]) (query 23 [3, 0, 1, 2]) 23 4 ∧ docked.link ≠ .down ∧
    (InExecution (asked 23 [3, 0, 1, 2] undocked) (query 23 [3, 0, 1, 2]) 23 4 ∧ undocked.link = .down) ∧
    ¬(param (query 23 [0, 0, 0, 4]).params 4 ≤ 3) ∧ driving.settings.vehicle = true ∧ 7 < 8 :=
  ⟨asked_in_execution _ _ _ rfl, by decide, ⟨asked_in_execution _ _ _ rfl, rfl⟩, by decide, rfl, by decide⟩

/-- A fresh HEADLAMP alone of its role; averages kept and changed. -/
theorem witness_LightingRules :
    (let x := signal .headlamp 1 .fresh
     let b := (hearing x).bus
     x ∈ b.signals ∧ x.desc.role = .headlamp ∧ x.val.status = .fresh ∧
       ∀ y, y ∈ b.signals ∧ y.desc.role = .headlamp ∧ y.val.status = .fresh → y = x) ∧
    docked.light.mode = .auto ∧ docked.bus.signals = [] ∧ docked.inReset = false ∧
    (docked.light.ambient.drop 1 ++ [7]).sum / 8 = docked.light.ambient.sum / 8 ∧
    (docked.light.ambient.drop 1 ++ [8]).sum / 8 ≠ docked.light.ambient.sum / 8 := by
  refine ⟨⟨by simp [hearing], rfl, rfl, ?_⟩, rfl, rfl, rfl, by decide, by decide⟩
  rintro y ⟨hy, -, -⟩
  simpa [hearing] using hy

theorem witness_LightingAndSupplyRequests :
    (InExecution (asked 24 [16, 15, 0, 2]) (query 24 [16, 15, 0, 2]) 24 4 ∧ param (query 24 [16, 15, 0, 2]).params 4 ≤ 2 ∧
      2 < param (query 24 [0, 0, 0, 3]).params 4) ∧
    (InExecution (asked 25 [200, 201, 101, 0, 0, 1001]) (query 25 [200, 201, 101, 0, 0, 1001]) 25 6 ∧
      min (param (query 25 [4095, 4096, 0, 0, 1, 0]).params 2) 4095 ≤
        min (param (query 25 [4095, 4096, 0, 0, 1, 0]).params 1) 4095) ∧
    (InExecution (asked 26 [0x7FE0]) (query 26 [0x7FE0]) 26 1 ∧ param (query 26 [0x7FE0]).params 1 + 32 ≤ 0x8000 ∧
      0x8000 < param (query 26 [0x7FE1]).params 1 + 32 ∧
      (let level (m : Memory) (i : Nat) := min (m.readLe (0x7FE0 + 2 * i) 2) 1000
       let faults (m : Memory) := (List.range 16).filter fun i => decide (0 < i ∧ level m i < level m (i - 1))
       faults [(0x7FFC, 1)] = [15] ∧ faults [(0x7FFE, 1)] = [])) ∧
    (InExecution (asked 27 [6000, 6500]) (query 27 [6000, 6500]) 27 2 ∧
      (let p (i : Nat) := param (query 27 [6000, 6500]).params i
       6000 ≤ p 1 ∧ p 1 ≤ 30000 ∧ 6500 ≤ p 2 ∧ p 2 ≤ 32000 ∧ p 1 + 500 ≤ p 2) ∧
      ¬(6000 ≤ param (query 27 [5999, 6500]).params 1)) := by
  refine ⟨⟨asked_in_execution _ _ _ rfl, by decide, by decide⟩, ⟨asked_in_execution _ _ _ rfl, by decide⟩,
    ⟨asked_in_execution _ _ _ rfl, by decide, by decide, by decide +kernel⟩, asked_in_execution _ _ _ rfl, by decide, by decide⟩

theorem witness_SupplySamples :
    docked.inReset = false ∧ 6000 ≤ (6000 : Half).toNat ∧
    (sagging.supply.dip = false ∧ sagging.supply.lowRun = 2 ∧ (8999 : Half).toNat < sagging.supply.warn ∧
      sagging.supply.warn ≤ (9000 : Half).toNat ∧ docked.supply.lowRun < 2 ∧ sagging.scan.change = none) ∧
    (let c : ScanSettings := { mask := 1, period := 2, watchEntry := 0 }
     ({ sagging with scan := { sagging.scan with change := some c } } : State).scan.change = some c) ∧
    (recovering.supply.dip = true ∧ recovering.supply.recRun = 49 ∧ recovering.supply.recover ≤ (10000 : Half).toNat ∧
      (9999 : Half).toNat < recovering.supply.recover ∧
      recovering.supply.record = some { minimum := 8700, start := 400 }) ∧
    ({ recovering.supply with recRun := 48 } : Supply).recRun < 49 := by decide

theorem witness_LinkChanges :
    docked.inReset = false ∧ docked.keys.entries.length = 144 ∧ docked.link = .active ∧ sleeping.link = .lowPower ∧
      sleeping.link ≠ .active ∧ docked.link ≠ .lowPower ∧ undocked.link = .down ∧ docked.link ≠ .down := by decide +kernel

theorem witness_LinkUp : undocked.inReset = false ∧ undocked.link = .down ∧ 15 < 16 := by decide

end Sys2Proof.Tests
end

section
/-! Every step keeps power reset total, the scanner's rules and the cell pointer. -/

namespace Sys2Proof.Machine

/-! ### Power reset -/

theorem releaseReset_inReset (p l b : Bool) (a : Nat) (s : State) : (releaseReset p l b a s).inReset = false := rfl

/-- A chain of changes leaves the part released, if it was (R179). -/
theorem Event.inReset_eq {s t : State} (h : Event s t) : t.inReset = s.inReset := h.runFields.inReset (by decide)

theorem ResetOk.of_released {s : State} (h : s.inReset = false) : ResetOk s := fun k => by simp [h] at k

theorem ResetOk.setPending {s : State} (h : ResetOk s) (q : List Instr) : ResetOk (s.setPending q) := fun k => by
  rw [h k]; rfl

/-- A command leaves the part either released, or held with every block at its reset values. -/
theorem exec_resetOk {i : Instr} {s t : State} (hs : ResetOk s) (h : exec i s = .next t) : ResetOk t := by
  rcases exec_cases h with rfl | rfl | ⟨_, p, l, b, a, rfl⟩ | ⟨hr, he⟩
  · exact hs
  · exact fun _ => rfl
  · exact .of_released (releaseReset_inReset p l b a s)
  · exact .of_released (he.inReset_eq.trans hr)

theorem tick_resetOk {s : State} (hs : ResetOk s) : ResetOk (tick s) := by
  unfold tick
  split
  · exact hs
  · exact .of_released (by simpa using ‹¬s.inReset = true›)

theorem step_resetOk {s t : State} (hs : ResetOk s) (h : step s = .next t) : ResetOk t := by
  rcases step_cases h with ⟨_, rfl⟩ | ⟨c, rest, _, hc⟩
  · exact tick_resetOk hs
  · exact exec_resetOk (hs.setPending rest) hc

/-! ### The scanner -/

/-- The release makes a frame start (R17) outside a dip, and the scanner's rules hold from there. -/
theorem releaseReset_scanOk (p l b : Bool) (a : Nat) {s : State} (h : s.supply.dip = false) :
    ScanOk (releaseReset p l b a s) := by
  intro _
  have scan : (releaseReset p l b a s).scan = (frameStart s).scan := rfl
  have dip : (releaseReset p l b a s).supply.dip = false := h
  simp [scan, dip, frameStart]

theorem exec_scanOk {i : Instr} {s t : State} (hr : ResetOk s) (hs : ScanOk s) (h : exec i s = .next t) : ScanOk t := by
  rcases exec_cases h with rfl | rfl | ⟨hi, p, l, b, a, rfl⟩ | ⟨_, he⟩
  · exact hs
  · exact nofun
  · exact releaseReset_scanOk p l b a (by rw [hr hi]; rfl)
  · exact he.keeps (fun _ _ _ _ c => c.keeps_scan) hs

theorem tick_scanOk {s : State} (hs : ScanOk s) : ScanOk (tick s) := by
  unfold tick
  split
  · exact hs
  · exact scanOk_of_frame (setMs_frame s _) (by decide) hs

theorem step_scanOk {s t : State} (hr : ResetOk s) (hs : ScanOk s) (h : step s = .next t) : ScanOk t := by
  rcases step_cases h with ⟨_, rfl⟩ | ⟨c, rest, _, hc⟩
  · exact tick_scanOk hs
  · exact exec_scanOk (hr.setPending rest) (scanOk_of_frame (setPending_frame s rest) (by decide) hs) hc

/-! ### The last cell taken -/

theorem step_pointerOk {s t : State} (hs : PointerOk s) (h : step s = .next t) : PointerOk t := by
  refine step_keeps (fun _ _ k => k) (fun _ _ k => k) ?_ ?_ (fun _ _ _ c _ k => c.keeps_pointer k) h hs
  · unfold PointerOk; decide
  · exact fun _ _ _ _ _ _ k => k

end Sys2Proof.Machine

namespace Sys2Proof.Proofs

open Sys2Proof.Machine

/-- Settles O16: each of the three invariants is kept by what a step can do; power reset total gives the release a part
outside a dip, which is all that the scanner's rules need of it. -/
theorem stepKeepsScannerAndPowerReset : Obligations.StepKeepsScannerAndPowerReset := by
  intro s t hr h
  exact ⟨step_resetOk hr h, fun hs => step_scanOk hr hs h, fun hs => step_pointerOk hs h⟩

end Sys2Proof.Proofs
end

section
/-! Power reset: the values it leaves, the invariants that hold of it, and its release. -/

namespace Sys2Proof.Machine

/-! ### The views of the part in power reset -/

theorem reset_entry_up {e : KeyEntry} (h : e ∈ State.reset.keys.entries) : e = KeyEntry.reset := List.eq_of_mem_replicate h

theorem reset_heldForward : State.reset.keys.heldForward = 0 :=
  List.countP_eq_zero.2 fun e he => by rw [reset_entry_up he]; decide

theorem reset_quarantinedCount : State.reset.keys.quarantinedCount = 0 :=
  List.countP_eq_zero.2 fun e he => by rw [reset_entry_up he]; decide

theorem reset_layer : State.reset.keys.layer = .base := by
  have h : State.reset.keys.entries.any KeyEntry.layerKey = false :=
    List.any_eq_false.2 fun e he => by rw [reset_entry_up he]; decide
  simp [KeyTable.layer, h]

/-! ### The invariants -/

theorem reset_logOk : LogOk State.reset.log := ⟨by decide, by decide, rfl, rfl, rfl⟩

theorem reset_keysOk : KeysOk State.reset.keys := by
  refine ⟨List.length_replicate, by decide, by decide, by decide, by decide, fun e he => ?_⟩
  rw [reset_entry_up he]
  decide

theorem reset_lightOk : LightOk State.reset.light := by
  refine ⟨?_, ?_, ?_, ?_, ?_⟩ <;> decide

theorem reset_latchOk : LatchOk State.reset := by unfold LatchOk; decide

theorem reset_wakeOk : WakeOk State.reset := by unfold WakeOk; decide

/-! ### The release -/

/-- With no signal table and in AUTO, eight equal readings make night exactly below the night-on limit, the state being
day before (R170, R171). -/
theorem nightState_reset (n : Nat) (l : Lighting) (h : l = { Lighting.reset with ambient := List.replicate 8 n }) :
    nightState l VehicleBus.reset = decide (n < 200) := by
  subst h
  have average : (List.replicate 8 n).sum / 8 = n := by simp; omega
  simp only [nightState, Lighting.average, Lighting.reset, average]
  simp [headlamp, VehicleBus.reset]

/-- The message of the reset state: twelve blank cells (R155, R159). -/
theorem stripMessage_reset : stripMessage Legend.reset = List.replicate 12 LegendCell.reset := by decide

/-- The release from the reset state, with any queue: what each block has then. -/
theorem releaseReset_reset (p l b : Bool) (n : Nat) (q : List Instr) :
    releaseReset p l b n (State.reset.setPending q) =
      { State.reset with
        pending := q
        inReset := false
        scan := { Scanner.reset with pass := true, timer := some 2 }
        latch := { Latch.reset with
          state := latchFromSwitches p l
          present := { value := p, run := 0, due := none }
          sense := { value := l, run := 0, due := none }
          button := { value := b, run := 0, due := none } }
        light := { Lighting.reset with ambient := List.replicate 8 n, night := decide (n < 200) }
        legend := { Legend.reset with transfer := .sending 20, message := List.replicate 12 LegendCell.reset }
        req := { RequestUnit.reset with sweep := some 20 } } := by
  rw [← nightState_reset n _ rfl, ← stripMessage_reset]
  rfl

end Sys2Proof.Machine

namespace Sys2Proof.Proofs

open Sys2Proof.Machine

/-- Settles O6: the reset values are written out in the blocks' reset definitions, and the counts and the layer in force
are views of 144 entries that are UP. -/
theorem resetValues : Obligations.ResetValues := by
  iterate 12 refine ⟨rfl, ?_⟩
  refine ⟨reset_heldForward, reset_quarantinedCount, reset_layer, ?_⟩
  iterate 28 refine ⟨rfl, ?_⟩
  refine ⟨nofun, nofun, by decide, ?_⟩
  iterate 34 refine ⟨rfl, ?_⟩
  rfl

/-- Settles O8, block by block. -/
theorem invariantsHoldAtReset : Obligations.InvariantsHoldAtReset :=
  ⟨fun _ => rfl, rfl, reset_logOk, ⟨nofun, fun h => absurd rfl h⟩, reset_keysOk,
    reset_heldForward.trans_le (Nat.zero_le _), fun _ => reset_heldForward, rfl, reset_latchOk, reset_wakeOk, nofun, rfl, rfl,
    nofun, nofun, (by decide : 7 < 8), reset_lightOk, rfl⟩

/-- Settles O7: the part in power reset is the reset state with its queue, and the release is worked out on it. -/
theorem releaseOfPowerReset : Obligations.ReleaseOfPowerReset := by
  intro present sense button ambient s hr hs
  have released : exec (.resetRelease present sense button ambient) s =
      .next (releaseReset present sense button ambient.toNat s) := by
    show Host.Outcome.next (if s.inReset then _ else s) = _
    rw [if_pos hr]
  rw [released, hs]
  exact congrArg Host.Outcome.next (releaseReset_reset present sense button ambient.toNat s.pending)

end Sys2Proof.Proofs
end

section
/-! Rules of the key path that its commands share: what a command answers outside power reset, what an append reads
besides the log, forced releases, and a scan change that takes effect. -/

namespace Sys2Proof.Machine

open Sys2Proof.Claims

/-! ### What a command answers -/

/-- A command outside power reset answers its effect and the end of the event. -/
theorem event_next {s : State} (h : s.inReset = false) (f : State → State) : event f s = .next (endEvent (f s)) := by
  simp [event, h]

/-- A request in execution answers what its owning block leaves and replies (R187). -/
theorem event_request {s : State} {q : Request} {kind count : Nat} (h : InExecution s q kind count) (body : Body) :
    event (request kind count body) s =
      .next (answered q (body q.params s).2.code (body q.params s).2.words (body q.params s).1) := by
  obtain ⟨hr, hq, hk, hc⟩ := h
  rw [event_next hr]
  simp only [request, hq, hk, hc, if_true]
  rfl

/-! ### Reports: what the log and the interrupt read and write -/

/-- Two states agree in all that an append and the raising of a cause read and write. -/
def SameReport (s t : State) : Prop := SameLog s t ∧ t.irq = s.irq ∧ t.link = s.link

/-- Whether a vector is sent, held or dropped rests on the interrupt and the link alone (R183). -/
theorem vectorDue_irq_congr {s t : State} (hi : t.irq = s.irq) (hl : t.link = s.link) :
    (vectorDue t).irq = (vectorDue s).irq := by
  unfold vectorDue
  rw [hl]
  cases s.link <;> simp [hi]

theorem raiseCause_irq_congr (c : Cause) {s t : State} (hi : t.irq = s.irq) (hl : t.link = s.link) :
    (raiseCause c t).irq = (raiseCause c s).irq := by
  unfold raiseCause
  dsimp only
  rw [hi]
  split
  · exact hi
  · split
    · exact vectorDue_irq_congr rfl hl
    · rfl

namespace SameReport

variable {s t u : State}

theorem refl (s : State) : SameReport s s := ⟨⟨rfl, rfl, rfl⟩, rfl, rfl⟩

theorem trans (h : SameReport s t) (k : SameReport t u) : SameReport s u := by
  obtain ⟨⟨h1, h2, h3⟩, h4, h5⟩ := h
  obtain ⟨⟨k1, k2, k3⟩, k4, k5⟩ := k
  exact ⟨⟨k1.trans h1, k2.trans h2, k3.trans h3⟩, k4.trans h4, k5.trans h5⟩

theorem log (h : SameReport s t) : t.log = s.log := h.1.1
theorem mem (h : SameReport s t) : t.mem = s.mem := h.1.2.1
theorem irq (h : SameReport s t) : t.irq = s.irq := h.2.1
theorem link (h : SameReport s t) : t.link = s.link := h.2.2

theorem raiseCause (h : SameReport s t) (c : Cause) : SameReport (raiseCause c s) (raiseCause c t) := by
  have frame (u : State) := raiseCause_frame c u
  obtain ⟨⟨hlog, hmem, hms⟩, hirq, hlink⟩ := h
  refine ⟨⟨?_, ?_, ?_⟩, raiseCause_irq_congr c hirq hlink, ?_⟩
  · rw [(frame t).log (by decide), (frame s).log (by decide), hlog]
  · rw [(frame t).mem (by decide), (frame s).mem (by decide), hmem]
  · rw [(frame t).ms (by decide), (frame s).ms (by decide), hms]
  · rw [(frame t).link (by decide), (frame s).link (by decide), hlink]

end SameReport

theorem Frame.sameReport {fs : List Field} {s t : State} (h : Frame fs s t) (a : Field.log ∉ fs := by decide)
    (b : Field.mem ∉ fs := by decide) (c : Field.ms ∉ fs := by decide) (d : Field.irq ∉ fs := by decide)
    (e : Field.link ∉ fs := by decide) : SameReport s t := ⟨h.sameLog a b c, h.irq d, h.link e⟩

namespace SameReport

variable {s t : State}

theorem touchAndRaise (h : SameReport s t) : SameReport (touchAndRaise s) (touchAndRaise t) :=
  raiseCause (s := touchStatus s) (t := touchStatus t) h .status

theorem handOver (h : SameReport s t) (i : Nat) : SameReport (handOver i s) (handOver i t) := by
  have irq : (Machine.handOver i t).irq = (Machine.handOver i s).irq := by
    unfold Machine.handOver
    rw [(lookAtPage_frame _ _).irq (by decide), (lookAtPage_frame _ _).irq (by decide)]
    exact raiseCause_irq_congr .log h.irq h.link
  have link (u : State) : (Machine.handOver i u).link = u.link := (handOver_frame i u).link (by decide)
  exact ⟨h.1.handOver i, irq, by rw [link, link, h.link]⟩

/-- What an append does to log, memory and interrupt rests on these, the counter and the link alone. -/
theorem append (h : SameReport s t) (r : Record) : SameReport (append r s) (append r t) := by
  have link (u : State) : (Machine.append r u).link = u.link := (append_frame r u).link (by decide)
  refine ⟨h.1.append r, ?_, by rw [link, link, h.link]⟩
  obtain ⟨⟨hlog, hmem, hms⟩, hirq, hlink⟩ := h
  unfold Machine.append
  rw [hlog]
  split
  · split
    · unfold placeOn
      simp only [hlog, hmem, hms]
      split
      · exact (handOver ⟨⟨by simp, by simp, by simpa using hms⟩, by simpa using hirq, by simpa using hlink⟩ _).irq
      · exact hirq
    · split
      · exact hirq
      · unfold loseRecord
        rw [hlog]
        split
        · exact hirq
        · exact raiseCause_irq_congr .status hirq hlink
  · exact hirq

end SameReport

/-! ### A cause that stands -/

/-- The pending bit of a cause is set (R182). -/
def Pending (c : Cause) (s : State) : Prop := s.irq.pending.getLsbD c.bit = true

theorem vectorDue_pending (s : State) : (vectorDue s).irq.pending = s.irq.pending := by
  unfold vectorDue
  cases s.link <;> rfl

theorem raiseCause_pending (c : Cause) (s : State) : (raiseCause c s).irq.pending = s.irq.pending ||| c.mask := by
  have set : s.irq.pending.getLsbD c.bit = true → s.irq.pending = s.irq.pending ||| c.mask := by
    generalize s.irq.pending = m
    revert m
    cases c <;> decide
  unfold raiseCause
  dsimp only
  split
  · exact set ‹_›
  · split
    · rw [vectorDue_pending]; rfl
    · rfl

theorem Pending.of_irq {c : Cause} {s t : State} (h : Pending c s) (e : t.irq = s.irq) : Pending c t := by
  unfold Pending at h ⊢
  rw [e, h]

theorem Pending.raiseCause {c : Cause} {s : State} (h : Pending c s) (d : Cause) : Pending c (raiseCause d s) := by
  unfold Pending at h ⊢
  rw [raiseCause_pending, BitVec.getLsbD_or, h, Bool.true_or]

theorem pending_raised (c : Cause) (s : State) : Pending c (raiseCause c s) := by
  unfold Pending
  rw [raiseCause_pending, BitVec.getLsbD_or]
  cases c <;> simp [Cause.mask, Cause.bit]

theorem Pending.handOver {c : Cause} {s : State} (h : Pending c s) (i : Nat) : Pending c (handOver i s) := by
  refine Pending.of_irq (Pending.raiseCause (h.of_irq ?_) .log) ((lookAtPage_frame _ _).irq (by decide))
  rfl

/-- An append takes no cause back. -/
theorem Pending.append {c : Cause} {s : State} (h : Pending c s) (r : Record) : Pending c (append r s) := by
  unfold Machine.append
  split
  · split
    · unfold placeOn
      dsimp only
      split
      · refine Pending.handOver (h.of_irq ?_) _
        rfl
      · exact h.of_irq rfl
    · split
      · exact h.of_irq rfl
      · unfold loseRecord
        split
        · exact h.of_irq rfl
        · refine Pending.raiseCause (h.of_irq ?_) .status
          rfl
  · exact h

end Sys2Proof.Machine
end

section
/-! Forced releases and a scan change that takes effect: the key table, the repeat and the reports they leave. -/

namespace Sys2Proof.Machine

open Sys2Proof.Claims

/-! ### Entries of the key table -/

/-- The entry of a position; past the table, the reset entry. -/
def KeyTable.at (k : KeyTable) (p : Nat) : KeyEntry := k.entries.getD p KeyEntry.reset

theorem State.entry_eq (s : State) (p : Nat) : s.entry p = s.keys.at p := rfl

theorem Frame.entry {fs : List Field} {s t : State} (h : Frame fs s t) (p : Nat) (n : Field.keys ∉ fs := by decide) :
    t.entry p = s.entry p := by rw [State.entry_eq, h.keys n, State.entry_eq]

theorem State.putEntry_eq (s : State) (p : Nat) (e : KeyEntry) : s.putEntry p e = s.setKeys (s.keys.put p e) := rfl

theorem KeyTable.put_put (k : KeyTable) (p : Nat) (a b : KeyEntry) : (k.put p a).put p b = k.put p b := by
  simp [KeyTable.put]

/-- Past the table nothing is put. -/
theorem KeyTable.put_past (k : KeyTable) {p : Nat} (e : KeyEntry) (h : k.entries.length ≤ p) : k.put p e = k := by
  simp [KeyTable.put, List.set_eq_of_length_le h]

theorem KeyTable.put_at (k : KeyTable) (p : Nat) : k.put p (k.at p) = k := by
  by_cases h : p < k.entries.length
  · simp [KeyTable.put, KeyTable.at, h]
  · exact k.put_past _ (by omega)

theorem KeyTable.at_put_same (k : KeyTable) {p : Nat} (e : KeyEntry) (h : p < k.entries.length) : (k.put p e).at p = e := by
  simp [KeyTable.at, KeyTable.put, h]

theorem KeyTable.at_put_other (k : KeyTable) {p q : Nat} (e : KeyEntry) (h : q ≠ p) : (k.put p e).at q = k.at q := by
  simp [KeyTable.at, KeyTable.put, List.getElem?_set_ne (Ne.symm h)]

theorem KeyTable.at_put (k : KeyTable) (p q : Nat) (e : KeyEntry) : (k.put p e).at q = e ∨ (k.put p e).at q = k.at q := by
  by_cases h : p < k.entries.length
  · by_cases hq : q = p
    · exact .inl (by rw [hq, k.at_put_same e h])
    · exact .inr (k.at_put_other e hq)
  · exact .inr (by rw [k.put_past e (by omega)])

theorem KeyTable.at_past (k : KeyTable) {p : Nat} (h : k.entries.length ≤ p) : k.at p = KeyEntry.reset := by
  simp [KeyTable.at, h]

/-- The entries at some positions changed alike. -/
def KeyTable.mapAt (k : KeyTable) (ps : List Nat) (f : KeyEntry → KeyEntry) : KeyTable :=
  { k with entries := k.entries.mapIdx fun p e => if p ∈ ps then f e else e }

theorem KeyTable.mapAt_nil (k : KeyTable) (f : KeyEntry → KeyEntry) : k.mapAt [] f = k := by
  have h : k.entries.mapIdx (fun _ e => e) = k.entries := List.ext_getElem (by simp) (by simp)
  simp [KeyTable.mapAt, h]

/-- One position more: an entry changed twice stands as changed once. -/
theorem KeyTable.mapAt_put (k : KeyTable) (p : Nat) (ps : List Nat) (f : KeyEntry → KeyEntry) (hf : ∀ e, f (f e) = f e) :
    (k.put p (f (k.at p))).mapAt ps f = k.mapAt (p :: ps) f := by
  unfold KeyTable.mapAt KeyTable.put
  congr 1
  refine List.ext_getElem (by simp) fun i h _ => ?_
  have hi : i < k.entries.length := by simpa using h
  simp only [List.getElem_mapIdx, List.getElem_set, List.mem_cons]
  by_cases hp : p = i
  · subst hp
    simp [KeyTable.at, hi, hf]
  · simp [hp, Ne.symm hp]

theorem KeyTable.at_mapAt (k : KeyTable) (ps : List Nat) (f : KeyEntry → KeyEntry) {p : Nat} (h : p < k.entries.length) :
    (k.mapAt ps f).at p = if p ∈ ps then f (k.at p) else k.at p := by
  simp [KeyTable.mapAt, KeyTable.at, h]

/-! ### The repeat -/

/-- The repeat timer after the repeat at one of some positions stops (R89). -/
def RepeatTimer.stopAt (g : RepeatTimer) (stops : Nat → Bool) : RepeatTimer :=
  match g.running with
  | some r => if stops r.position then { g with running := none, count := 0 } else g
  | none => g

theorem RepeatTimer.stopAt_none (g : RepeatTimer) (stops : Nat → Bool) (h : ∀ p, stops p = false) : g.stopAt stops = g := by
  unfold RepeatTimer.stopAt
  cases g.running <;> simp [h]

theorem RepeatTimer.stopAt_stopAt (g : RepeatTimer) (a b : Nat → Bool) :
    (g.stopAt a).stopAt b = g.stopAt fun p => a p || b p := by
  unfold RepeatTimer.stopAt
  cases hr : g.running with
  | none => simp [hr]
  | some r => cases ha : a r.position <;> simp [hr, ha]

theorem stopRepeatOf_rep (p : Nat) (s : State) : (stopRepeatOf p s).rep = s.rep.stopAt (· == p) := by
  unfold stopRepeatOf RepeatTimer.stopAt stopRepeat
  cases s.rep.running with
  | none => rfl
  | some r => by_cases h : r.position = p <;> simp [h]

/-! ### Forced release -/

/-- The entry is DOWN (R18). -/
def KeyEntry.isDown (e : KeyEntry) : Bool := e.latched?.isSome

theorem KeyEntry.isDown_iff {e : KeyEntry} : e.isDown = true ↔ ∃ l, e.cond = .down l := by
  unfold KeyEntry.isDown KeyEntry.latched?
  cases e.cond <;> simp

/-- The record of a forced release of an entry (R30): one if it is DOWN with forward and not orphaned. -/
def reportRelease (cause : ReleaseCause) (t : Time) (p : Nat) (e : KeyEntry) (s : State) : State :=
  match e.cond with
  | .down l => if l.owned then append { time := t, body := .keyRelease p l.code cause } s else s
  | _ => s

theorem SameReport.reportRelease {s u : State} (h : SameReport s u) (cause : ReleaseCause) (t : Time) (p : Nat)
    (e : KeyEntry) : SameReport (reportRelease cause t p e s) (reportRelease cause t p e u) := by
  unfold Machine.reportRelease
  split
  · split
    · exact h.append _
    · exact h
  · exact h

theorem reportRelease_frame (cause : ReleaseCause) (t : Time) (p : Nat) (e : KeyEntry) (s : State) :
    Frame logTouched s (reportRelease cause t p e s) := by
  unfold reportRelease
  split
  · split
    · exact append_frame _ _
    · exact .refl _ _
  · exact .refl _ _

/-- A forced release is its record, then orphaning if the entry was the tablet's (R29, R30). -/
theorem forceRelease_eq (cause : ReleaseCause) (t : Time) (p : Nat) (s : State) :
    forceRelease cause t p s =
      if (s.entry p).owned then orphan p (reportRelease cause t p (s.entry p) s)
      else reportRelease cause t p (s.entry p) s := by
  unfold forceRelease reportRelease KeyEntry.owned
  cases (s.entry p).cond with
  | down l => cases hl : l.owned <;> simp [hl]
  | _ => simp

theorem forceRelease_report (cause : ReleaseCause) (t : Time) (p : Nat) (s : State) :
    SameReport (reportRelease cause t p (s.entry p) s) (forceRelease cause t p s) := by
  rw [forceRelease_eq]
  split
  · exact (orphan_frame p _).sameReport
  · exact .refl _

/-- The forced releases of the statements, over the chosen positions only. -/
theorem forcedReleases_eq (cause : ReleaseCause) (t : Time) (chosen : Nat → Bool) (s : State) :
    forcedReleases cause t (fun p _ => chosen p) s =
      ((List.range 144).filter chosen).foldl (fun u p => reportRelease cause t p (s.entry p) u) s := by
  rw [List.foldl_filter, forcedReleases]
  congr 1
  funext u p
  unfold reportRelease Latched.owned
  cases (s.entry p).cond <;> cases chosen p <;> simp

/-- An operation that reports the forced release of its own position and leaves the other entries reports, position by
position, the forced releases of the entries as they stood at the start. -/
theorem forPositions_report {cause : ReleaseCause} {t : Time} {f : Nat → State → State}
    (report : ∀ p u, SameReport (reportRelease cause t p (u.entry p) u) (f p u))
    (other : ∀ p q u, q ≠ p → (f p u).entry q = u.entry q) (s : State) (ps : List Nat) (hn : ps.Nodup) (v u : State)
    (h : SameReport v u) (he : ∀ p ∈ ps, u.entry p = s.entry p) :
    SameReport (ps.foldl (fun w p => reportRelease cause t p (s.entry p) w) v) (forPositions ps f u) := by
  induction ps generalizing v u with
  | nil => exact h
  | cons p ps ih =>
    obtain ⟨hp, hn⟩ := List.nodup_cons.1 hn
    refine ih hn _ _ ?_ fun q hq => ?_
    · dsimp only
      rw [← he p (by simp)]
      exact (h.reportRelease _ _ _ _).trans (report p u)
    · rw [other p q u fun e => hp (e ▸ hq), he q (by simp [hq])]

/-- What a forced release leaves of the key table: the entry with its latched part orphaned. -/
theorem forceRelease_keys (cause : ReleaseCause) (t : Time) (p : Nat) (s : State) :
    ∃ c, (forceRelease cause t p s).keys = s.keys.put p { s.entry p with cond := c } := by
  have f := reportRelease_frame cause t p (s.entry p) s
  have same : s.keys = s.keys.put p { s.entry p with cond := (s.entry p).cond } := (s.keys.put_at p).symm
  rw [forceRelease_eq]
  split
  · rcases orphan_keys p (reportRelease cause t p (s.entry p) s) with e | ⟨l, -, -, e⟩
    · exact ⟨_, (e.trans (f.keys (by decide))).trans same⟩
    · exact ⟨.down { l with orphaned := true }, by rw [e, f.entry, f.keys (by decide)]⟩
  · exact ⟨_, (f.keys (by decide)).trans same⟩

theorem orphan_rep (p : Nat) (s : State) :
    (orphan p s).rep = s.rep.stopAt fun q => q == p && (s.entry p).owned := by
  unfold orphan KeyEntry.owned
  dsimp only
  split
  · split
    · simp_all [stopRepeatOf_rep, State.putEntry]
    · exact (s.rep.stopAt_none _ (by simp_all)).symm
  · exact (s.rep.stopAt_none _ (by simp)).symm

theorem forceRelease_rep (cause : ReleaseCause) (t : Time) (p : Nat) (s : State) :
    (forceRelease cause t p s).rep = s.rep.stopAt fun q => q == p && (s.entry p).owned := by
  have f := reportRelease_frame cause t p (s.entry p) s
  rw [forceRelease_eq]
  split
  · rw [orphan_rep, f.rep (by decide)]
    rw [f.entry]
  · rw [f.rep (by decide), s.rep.stopAt_none _ (by simp_all)]

/-! ### One position of a newly masked line (R9) -/

/-- An entry on a line that a scan change masks: RELEASED with filter count 0, UP or still QUARANTINED, its score kept. -/
def KeyEntry.masked (e : KeyEntry) : KeyEntry :=
  { cond := if e.cond = .quarantined then .quarantined else .up, pressed := false, filter := 0, score := e.score }

theorem KeyEntry.masked_masked (e : KeyEntry) : e.masked.masked = e.masked := by
  unfold KeyEntry.masked
  split <;> simp

theorem KeyEntry.masked_isDown (e : KeyEntry) : e.masked.isDown = false := by
  unfold KeyEntry.isDown KeyEntry.latched? KeyEntry.masked
  by_cases h : e.cond = .quarantined <;> simp [h]

/-- What masking a position does to a DOWN entry before its filter and physical state are cleared. -/
theorem maskPosition_down (t : Time) (p : Nat) (s : State) {l : Latched} (h : (s.entry p).cond = .down l) :
    maskPosition t p s =
      let s1 := leaveDown .up t p (forceRelease .masked t p s)
      s1.putEntry p { s1.entry p with pressed := false, filter := 0 } := by
  unfold maskPosition
  rw [h]

/-- Masking an entry that is not DOWN touches the key table alone. -/
theorem maskPosition_idle (t : Time) (p : Nat) (s : State) (h : (s.entry p).isDown = false) :
    maskPosition t p s = s.setKeys (s.keys.put p (s.entry p).masked) := by
  unfold maskPosition KeyEntry.masked
  cases hc : (s.entry p).cond with
  | down l => rw [KeyEntry.isDown_iff.2 ⟨l, hc⟩] at h; cases h
  | up => simp [hc, State.putEntry_eq]
  | quarantined => simp [hc, State.putEntry_eq]
  | blocked =>
    simp only [State.putEntry_eq, State.entry_eq, State.setKeys_keys, State.setKeys_setKeys, KeyTable.put_put] at hc ⊢
    by_cases hp : p < s.keys.entries.length
    · rw [KeyTable.at_put_same _ _ hp]
      rfl
    · rw [KeyTable.put_past _ _ (by omega), KeyTable.put_past _ _ (by omega)]

theorem KeyTable.lt_of_down {k : KeyTable} {p : Nat} {l : Latched} (h : (k.at p).cond = .down l) : p < k.entries.length := by
  by_contra hp
  rw [k.at_past (by omega)] at h
  cases h

theorem maskPosition_keys (t : Time) (p : Nat) (s : State) :
    (maskPosition t p s).keys = s.keys.put p (s.entry p).masked := by
  cases hd : (s.entry p).isDown with
  | false => rw [maskPosition_idle t p s hd]; rfl
  | true =>
    obtain ⟨l, hl⟩ := KeyEntry.isDown_iff.1 hd
    have hp : p < s.keys.entries.length := KeyTable.lt_of_down hl
    obtain ⟨c, hc⟩ := forceRelease_keys .masked t p s
    rw [maskPosition_down t p s hl]
    simp only [State.putEntry_eq, State.entry_eq, State.setKeys_keys, leaveDown_keys, hc, KeyTable.put_put]
    rw [KeyTable.at_put_same _ _ hp, KeyTable.at_put_same _ _ hp]
    simp [KeyEntry.masked, ← State.entry_eq, hl]

theorem maskPosition_rep (t : Time) (p : Nat) (s : State) :
    (maskPosition t p s).rep = s.rep.stopAt fun q => q == p && (s.entry p).isDown := by
  cases hd : (s.entry p).isDown with
  | false => rw [maskPosition_idle t p s hd, s.rep.stopAt_none _ (by simp)]; rfl
  | true =>
    obtain ⟨l, hl⟩ := KeyEntry.isDown_iff.1 hd
    rw [maskPosition_down t p s hl]
    simp only [State.putEntry, State.setKeys_rep, leaveDown, (evalShownSet_frame _ _).rep (by decide), stopRepeatOf_rep,
      forceRelease_rep, RepeatTimer.stopAt_stopAt]
    congr 1
    funext q
    cases q == p <;> simp

theorem maskPosition_report (t : Time) (p : Nat) (s : State) :
    SameReport (reportRelease .masked t p (s.entry p) s) (maskPosition t p s) := by
  cases hd : (s.entry p).isDown with
  | false =>
    rw [maskPosition_idle t p s hd]
    unfold reportRelease
    split
    · rw [KeyEntry.isDown_iff.2 ⟨_, ‹_›⟩] at hd
      cases hd
    · exact (setKeys_frame s _).sameReport
  | true =>
    obtain ⟨l, hl⟩ := KeyEntry.isDown_iff.1 hd
    rw [maskPosition_down t p s hl]
    exact ((forceRelease_report .masked t p s).trans (leaveDown_frame _ _ _ _).sameReport).trans
      (setKeys_frame _ _).sameReport

/-! ### The positions of the newly masked lines -/

theorem maskPosition_other (t : Time) (p q : Nat) (s : State) (h : q ≠ p) : (maskPosition t p s).entry q = s.entry q := by
  rw [State.entry_eq, maskPosition_keys, KeyTable.at_put_other _ _ h, State.entry_eq]

theorem forPositions_mask_frame (t : Time) (ps : List Nat) (s : State) :
    Frame [.keys, .rep, .legend, .log, .mem, .irq, .statusDirty] s (forPositions ps (maskPosition t) s) :=
  (forPositions_way ps (maskPosition t) s fun p _ u => maskPosition_way t p u).sameFields

theorem forPositions_mask_keys (t : Time) (ps : List Nat) (s : State) :
    (forPositions ps (maskPosition t) s).keys = s.keys.mapAt ps KeyEntry.masked := by
  induction ps generalizing s with
  | nil => exact (s.keys.mapAt_nil _).symm
  | cons p ps ih =>
    show (forPositions ps (maskPosition t) (maskPosition t p s)).keys = _
    rw [ih, maskPosition_keys, State.entry_eq, KeyTable.mapAt_put _ _ _ _ KeyEntry.masked_masked]

theorem forPositions_mask_rep (t : Time) (ps : List Nat) (hn : ps.Nodup) (s : State) :
    (forPositions ps (maskPosition t) s).rep = s.rep.stopAt fun q => decide (q ∈ ps) && (s.entry q).isDown := by
  induction ps generalizing s with
  | nil => exact (s.rep.stopAt_none _ (by simp)).symm
  | cons p ps ih =>
    obtain ⟨hp, hn⟩ := List.nodup_cons.1 hn
    show (forPositions ps (maskPosition t) (maskPosition t p s)).rep = _
    rw [ih hn, maskPosition_rep, RepeatTimer.stopAt_stopAt]
    congr 1
    funext q
    by_cases hq : q = p
    · subst hq
      simp [hp]
    · rw [maskPosition_other t p q s hq]
      simp [hq]

/-- With no DOWN entry, masking positions touches the key table alone. -/
theorem forPositions_mask_idle (t : Time) (ps : List Nat) (s : State) (h : ∀ p, (s.entry p).isDown = false) :
    Frame [.keys] s (forPositions ps (maskPosition t) s) := by
  induction ps generalizing s with
  | nil => exact .refl _ _
  | cons p ps ih =>
    have step : Frame [.keys] s (maskPosition t p s) := by
      rw [maskPosition_idle t p s (h p)]
      exact setKeys_frame _ _
    refine step.trans (ih _ fun q => ?_)
    rw [State.entry_eq, maskPosition_keys]
    rcases s.keys.at_put p q (s.entry p).masked with e | e <;> rw [e]
    · exact (s.entry p).masked_isDown
    · exact h q

theorem newlyMasked_nodup (a b : BitVec 18) : (newlyMasked a b).Nodup := List.nodup_range.filter _

theorem mem_newlyMasked {a b : BitVec 18} {p : Nat} :
    p ∈ newlyMasked a b ↔ p < 144 ∧ a.getLsbD (p / 8) = true ∧ b.getLsbD (p / 8) = false := by
  simp [newlyMasked, positions]

theorem newlyMasked_self (a : BitVec 18) : newlyMasked a a = [] := by
  simp [newlyMasked]

/-! ### A scan change takes effect -/

/-- A scan change masks the positions of its newly masked lines; the settings are then the new ones (R7, R9, R10). -/
theorem applyChange_eq (c : ScanSettings) (s : State) :
    applyChange c s =
      (forPositions (newlyMasked s.scan.settings.mask c.mask) (maskPosition s.ms) s).setScan
        { s.scan with
          settings := c, change := none, idleRun := if c.mask = s.scan.settings.mask then s.scan.idleRun else 0 } := by
  unfold applyChange
  dsimp only
  split
  · rename_i h
    rw [h, newlyMasked_self]
    rfl
  · rw [State.setScan_scan, (forPositions_mask_frame _ _ _).scan (by decide)]
    rfl

theorem applyChange_keys (c : ScanSettings) (s : State) :
    (applyChange c s).keys = s.keys.mapAt (newlyMasked s.scan.settings.mask c.mask) KeyEntry.masked := by
  rw [applyChange_eq, State.setScan_keys, forPositions_mask_keys]

/-- The records of a scan change are the forced releases with cause MASKED on the lines that it masks (R9). -/
theorem applyChange_report (c : ScanSettings) (s : State) :
    SameReport
      (forcedReleases .masked s.ms (fun p _ => s.scan.settings.mask.getLsbD (p / 8) && !c.mask.getLsbD (p / 8)) s)
      (applyChange c s) := by
  rw [forcedReleases_eq, applyChange_eq]
  exact (forPositions_report (maskPosition_report s.ms) (maskPosition_other s.ms) s _ (newlyMasked_nodup _ _) s s (.refl s)
    fun _ _ => rfl).trans (setScan_frame _ _).sameReport

/-- With no DOWN entry a scan change touches the scanner and the key table alone. -/
theorem applyChange_idle (c : ScanSettings) (s : State) (h : ∀ p, (s.entry p).isDown = false) :
    Frame [.scan, .keys] s (applyChange c s) := by
  rw [applyChange_eq]
  exact ((forPositions_mask_idle _ _ s h).mono rfl).next (setScan_frame _ _) rfl

end Sys2Proof.Machine
end

section
/-! SET_SCAN and the scan change that takes effect (chapter 1). -/

namespace Sys2Proof.Machine

open Sys2Proof.Claims

/-- The reply to values that were brought into range (00_scope.md, Settings). -/
theorem okIf_eq_okUnless (unaltered : Bool) (altered : Prop) [Decidable altered] (h : unaltered = true ↔ ¬altered) :
    okIf unaltered = okUnless altered := by
  unfold okIf okUnless
  by_cases k : altered <;> simp_all

/-- The scan change that SET_SCAN's parameters give (R6). -/
def askedChange (ps : List Word) : ScanSettings :=
  { mask := BitVec.ofNat 18 (param ps 1), period := roundPeriod (param ps 2), watchEntry := min (param ps 3) 1000 }

theorem setScan_refused {ps : List Word} (s : State) (h : param ps 1 = 0 ∨ 2 ^ 18 ≤ param ps 1) :
    setScan ps s = refuse .errParam s := by
  unfold setScan
  rw [if_pos h]

theorem setScan_placed {ps : List Word} (s : State) (h : 0 < param ps 1) (k : param ps 1 < 2 ^ 18) :
    setScan ps s = (placeChange (askedChange ps) s,
      { code := okUnless (roundPeriod (param ps 2) ≠ param ps 2 ∨ 1000 < param ps 3) }) := by
  unfold setScan
  have code := okIf_eq_okUnless ((askedChange ps).period == param ps 2 && (askedChange ps).watchEntry == param ps 3)
    (roundPeriod (param ps 2) ≠ param ps 2 ∨ 1000 < param ps 3) (by simp [askedChange])
  rw [if_neg (by omega), ← code]
  rfl

/-! Where a change goes (R7, R13) -/

theorem placeChange_scanning (c : ScanSettings) {s : State} (h : s.scan.mode = .scanning) :
    placeChange c s = s.setScan { s.scan with change := some c } := by
  unfold placeChange
  rw [h]

theorem placeChange_held (c : ScanSettings) {s : State} (h : s.scan.mode = .held) : placeChange c s = applyChange c s := by
  unfold placeChange
  rw [h]

theorem placeChange_watch (c : ScanSettings) {s : State} (h : s.scan.mode = .watch) :
    placeChange c s = if c.watchEntry = 0 then frameStart (applyChange c s) else applyChange c s := by
  unfold placeChange
  rw [h]

/-- SET_SCAN with an admitted mask: the change is placed as the scan mode says (R7). -/
theorem exec_setScan_placed {s : State} {q : Request} (hq : InExecution s q 1 3) (h : 0 < param q.params 1)
    (k : param q.params 1 < 2 ^ 18) :
    exec .setScan s = .next (answered q
      (okUnless (roundPeriod (param q.params 2) ≠ param q.params 2 ∨ 1000 < param q.params 3)) [] (placeChange (askedChange q.params) s)) := by
  show event (request 1 3 setScan) s = _
  rw [event_request hq, setScan_placed s h k]

theorem applyChange_scan_eq (c : ScanSettings) (s : State) :
    (applyChange c s).scan = { s.scan with
      settings := c, change := none, idleRun := if c.mask = s.scan.settings.mask then s.scan.idleRun else 0 } := by
  rw [applyChange_eq, State.setScan_scan]

theorem applyChange_entry (c : ScanSettings) (s : State) (hl : s.keys.entries.length = 144) {p : Nat} (hp : p < 144) :
    (applyChange c s).entry p =
      if s.scan.settings.mask.getLsbD (p / 8) && !c.mask.getLsbD (p / 8) then (s.entry p).masked else s.entry p := by
  rw [State.entry_eq, applyChange_keys, KeyTable.at_mapAt _ _ _ (by omega), State.entry_eq]
  refine if_congr ?_ rfl rfl
  simp [mem_newlyMasked, hp]

/-- The repeat stops exactly where it runs on a DOWN entry of a line that the change masks (R9, R89). -/
theorem applyChange_rep (c : ScanSettings) (s : State) :
    (applyChange c s).rep = s.rep.stopAt fun p =>
      decide (p ∈ newlyMasked s.scan.settings.mask c.mask) && (s.entry p).isDown := by
  rw [applyChange_eq, State.setScan_rep, forPositions_mask_rep _ _ (newlyMasked_nodup _ _)]

end Sys2Proof.Machine

namespace Sys2Proof.Proofs

open Sys2Proof.Machine Sys2Proof.Claims

/-- Settles O30: where SET_SCAN places a change, and the change as masking each position of the newly masked lines. -/
theorem scanChanges : Obligations.ScanChanges := by
  refine ⟨fun s q hq => ⟨fun h => ?_, fun h k => ?_⟩, fun c s hl => ?_⟩
  · show event (request 1 3 setScan) s = _
    rw [event_request hq, setScan_refused s h]
    rfl
  · have placed := exec_setScan_placed hq h k
    refine ⟨fun m => ?_, fun m => ?_, fun m (w : 0 < param q.params 3) => ?_, fun m (w : param q.params 3 = 0) => ?_⟩
    · rw [placeChange_scanning _ m] at placed
      exact placed
    · rw [placeChange_held _ m] at placed
      exact placed
    · rw [placeChange_watch _ m, if_neg (by simp only [askedChange]; omega)] at placed
      exact placed
    · rw [placeChange_watch _ m, if_pos (by simp only [askedChange]; omega)] at placed
      exact placed
  · have f := (applyChange_way c s).sameFields
    have report := applyChange_report c s
    refine ⟨applyChange_scan_eq c s, fun p hp => applyChange_entry c s hl hp, report.log, report.mem, report.irq, ?_, ?_,
      f.ms (by decide), f.keymap (by decide), f.steer (by decide), f.chords (by decide), f.wake (by decide),
      f.bus (by decide), f.motion (by decide), f.latch (by decide), f.ind (by decide), f.light (by decide),
      f.supply (by decide), f.link (by decide), f.req (by decide)⟩
    · intro r l hr hp hm hd
      have down : (s.entry r.position).isDown = true := KeyEntry.isDown_iff.2 ⟨l, hd⟩
      have masked : r.position ∈ newlyMasked s.scan.settings.mask c.mask := mem_newlyMasked.2 ⟨hp, by simpa using hm⟩
      rw [applyChange_rep, RepeatTimer.stopAt, hr]
      simp [down, masked]
    · intro hn
      rw [applyChange_rep, RepeatTimer.stopAt]
      cases hr : s.rep.running with
      | none => rfl
      | some r =>
        have kept : ¬(r.position ∈ newlyMasked s.scan.settings.mask c.mask ∧ (s.entry r.position).isDown = true) := by
          rintro ⟨hm, hd⟩
          obtain ⟨hp, hb⟩ := mem_newlyMasked.1 hm
          obtain ⟨l, hl⟩ := KeyEntry.isDown_iff.1 hd
          exact hn r l hr hp (by simpa using hb) hl
        simp_all

end Sys2Proof.Proofs
end

section
/-! RESET_KEYPATH (chapter 2), step by step. -/

namespace Sys2Proof.Machine

open Sys2Proof.Claims

/-! ### The forced releases -/

theorem positions_eq : positions = (List.range 144).filter fun _ => true := by simp [positions]

theorem forPositions_release_frame (c : ReleaseCause) (t : Time) (ps : List Nat) (s : State) :
    Frame [.keys, .rep, .log, .mem, .irq, .statusDirty] s (forPositions ps (forceRelease c t) s) :=
  (forPositions_way ps (forceRelease c t) s fun p _ u => forceRelease_way c t p u).sameFields

theorem forceRelease_other (c : ReleaseCause) (t : Time) (p q : Nat) (s : State) (h : q ≠ p) :
    (forceRelease c t p s).entry q = s.entry q := by
  obtain ⟨x, hx⟩ := forceRelease_keys c t p s
  rw [State.entry_eq, hx, KeyTable.at_put_other _ _ h, State.entry_eq]

/-- The forced releases of all positions, as the statements write them (R39 step 1). -/
theorem releaseAll_report (c : ReleaseCause) (s : State) :
    SameReport (forcedReleases c s.ms (fun _ _ => true) s) (forPositions positions (forceRelease c s.ms) s) := by
  rw [forcedReleases_eq c s.ms (fun _ => true), ← positions_eq]
  exact forPositions_report (forceRelease_report c s.ms) (forceRelease_other c s.ms) s _ List.nodup_range s s (.refl s)
    fun _ _ => rfl

/-! ### The entries cleared -/

/-- Every entry UP and cleared (R39 step 5). -/
def KeyTable.cleared (k : KeyTable) : KeyTable := { k with entries := k.entries.map KeyEntry.cleared }

theorem KeyTable.at_cleared (k : KeyTable) (p : Nat) : k.cleared.at p = (k.at p).cleared := by
  by_cases h : p < k.entries.length
  · simp [KeyTable.at, KeyTable.cleared, h]
  · rw [k.at_past (by omega), k.cleared.at_past (by simp [KeyTable.cleared]; omega)]
    rfl

theorem KeyTable.cleared_put (k : KeyTable) (p : Nat) (e : KeyEntry) : (k.put p e).cleared = k.cleared.put p e.cleared := by
  simp [KeyTable.put, KeyTable.cleared, List.map_set]

/-- A cleared entry does not show its condition, and forced releases change nothing else. -/
theorem forceRelease_cleared (c : ReleaseCause) (t : Time) (p : Nat) (s : State) :
    (forceRelease c t p s).keys.cleared = s.keys.cleared := by
  obtain ⟨x, hx⟩ := forceRelease_keys c t p s
  rw [hx, KeyTable.cleared_put]
  have same : ({ s.entry p with cond := x } : KeyEntry).cleared = s.keys.cleared.at p := by
    rw [KeyTable.at_cleared]; rfl
  rw [same, KeyTable.put_at]

theorem forPositions_release_cleared (c : ReleaseCause) (t : Time) (ps : List Nat) (s : State) :
    (forPositions ps (forceRelease c t) s).keys.cleared = s.keys.cleared := by
  induction ps generalizing s with
  | nil => rfl
  | cons p ps ih => exact (ih _).trans (forceRelease_cleared c t p s)

/-! ### Attention and repeat -/

theorem endAttention_chords (c : EndCause) (t : Time) (s : State) :
    (endAttention c t s).chords = { s.chords with attention := none } := by
  unfold endAttention
  split
  · rw [(touchAndRaise_frame _).chords (by decide), (append_frame _ _).chords (by decide)]
    rfl
  · rename_i h
    rw [← h]

/-- A stop after stops leaves what one stop leaves (R89). -/
theorem RepeatTimer.stop_stopAt (g : RepeatTimer) (stops : Nat → Bool) :
    ({ g.stopAt stops with running := none, count := 0 } : RepeatTimer) = { g with running := none, count := 0 } := by
  unfold RepeatTimer.stopAt
  cases g.running with
  | none => rfl
  | some r => cases h : stops r.position <;> simp [h]

theorem forPositions_release_rep (c : ReleaseCause) (t : Time) (ps : List Nat) (s : State) :
    ∃ stops, (forPositions ps (forceRelease c t) s).rep = s.rep.stopAt stops := by
  induction ps generalizing s with
  | nil => exact ⟨fun _ => false, (s.rep.stopAt_none _ fun _ => rfl).symm⟩
  | cons p ps ih =>
    obtain ⟨stops, h⟩ := ih (forceRelease c t p s)
    exact ⟨_, by
      show (forPositions ps (forceRelease c t) (forceRelease c t p s)).rep = _
      rw [h, forceRelease_rep, RepeatTimer.stopAt_stopAt]⟩

/-! ### The key path cleared: RESET_KEYPATH up to the scanner -/

/-- The first steps of RESET_KEYPATH: forced releases, and the end of an attention (R39, R85). -/
def releaseKeypath (s : State) : State := endAttention .reset s.ms (forPositions positions (forceRelease .reset s.ms) s)

/-- The next steps: the repeat stops, every entry is UP and cleared, the decay counter is 0 (R39, R89). -/
def clearEntries (t : Time) (s : State) : State :=
  let s1 := evalShownSet t (mapEntries KeyEntry.cleared (stopRepeat s))
  touchStatus (s1.setKeys { s1.keys with decayCounter := 0 })

theorem resetKeypath_eq (s : State) : resetKeypath s = scannerReset (clearEntries s.ms (releaseKeypath s)) := by
  unfold resetKeypath clearEntries releaseKeypath
  dsimp only

theorem mapEntries_frame (f : KeyEntry → KeyEntry) (s : State) : Frame [.keys] s (mapEntries f s) := setKeys_frame _ _

theorem releaseKeypath_frame (s : State) :
    Frame [.keys, .chords, .rep, .log, .mem, .irq, .statusDirty] s (releaseKeypath s) :=
  ((forPositions_release_frame _ _ _ s).mono rfl).next (endAttention_way _ _ _).sameFields rfl

theorem releaseKeypath_cleared (s : State) : (releaseKeypath s).keys.cleared = s.keys.cleared := by
  unfold releaseKeypath
  rw [(endAttention_way _ _ _).sameFields.keys (by decide), forPositions_release_cleared]

theorem releaseKeypath_chords (s : State) : (releaseKeypath s).chords = { s.chords with attention := none } := by
  unfold releaseKeypath
  rw [endAttention_chords, (forPositions_release_frame _ _ _ _).chords (by decide)]

theorem releaseKeypath_rep (s : State) : ∃ stops, (releaseKeypath s).rep = s.rep.stopAt stops := by
  obtain ⟨stops, h⟩ := forPositions_release_rep .reset s.ms positions s
  exact ⟨stops, ((endAttention_way _ _ _).sameFields.rep (by decide)).trans h⟩

theorem clearEntries_frame (t : Time) (s : State) : Frame [.keys, .rep, .legend, .statusDirty] s (clearEntries t s) := by
  have h1 : Frame [.keys, .rep, .legend, .statusDirty] s (mapEntries KeyEntry.cleared (stopRepeat s)) :=
    ((stopRepeat_way s).sameFields.mono rfl).next (mapEntries_frame _ _) rfl
  exact ((h1.next (evalShownSet_frame t _) rfl).next (setKeys_frame _ _) rfl).next (touchStatus_frame _) rfl

theorem clearEntries_keys (t : Time) (s : State) : (clearEntries t s).keys = { s.keys.cleared with decayCounter := 0 } := by
  unfold clearEntries
  dsimp only
  rw [(touchStatus_frame _).keys (by decide), State.setKeys_keys, clear_keys]
  rfl

theorem clearEntries_rep (t : Time) (s : State) : (clearEntries t s).rep = { s.rep with running := none, count := 0 } := by
  unfold clearEntries
  dsimp only
  rw [(touchStatus_frame _).rep (by decide), State.setKeys_rep, (evalShownSet_frame _ _).rep (by decide),
    (mapEntries_frame _ _).rep (by decide)]
  rfl

theorem clearEntries_statusDirty (t : Time) (s : State) : (clearEntries t s).statusDirty = true := rfl

theorem clearEntries_report (t : Time) (s : State) : SameReport s (clearEntries t s) := (clearEntries_frame t s).sameReport

/-- After it no entry is DOWN. -/
theorem clearEntries_isDown (t : Time) (s : State) (p : Nat) : ((clearEntries t s).entry p).isDown = false := by
  rw [State.entry_eq, clearEntries_keys]
  show (s.keys.cleared.at p).isDown = false
  rw [KeyTable.at_cleared]
  rfl

/-- What the first steps report: the forced releases with cause RESET, then ATTENTION END and STATUS for an attention. -/
theorem releaseKeypath_report (s : State) :
    let released := forcedReleases .reset s.ms (fun _ _ => true) s
    SameReport
      (match s.chords.attention with
        | some a => raiseCause .status (append { time := s.ms, body := .attentionEnd a.chord .reset } released)
        | none => released) (releaseKeypath s) := by
  intro released
  have chords : (forPositions positions (forceRelease .reset s.ms) s).chords = s.chords :=
    (forPositions_release_frame _ _ _ _).chords (by decide)
  have report : SameReport released (forPositions positions (forceRelease .reset s.ms) s) := releaseAll_report .reset s
  unfold releaseKeypath endAttention
  rw [chords]
  cases s.chords.attention with
  | none => exact report
  | some a =>
    have dropped := report.trans (setChords_frame _ { s.chords with attention := none }).sameReport
    exact ((dropped.append _).trans (touchStatus_frame _).sameReport).raiseCause .status

/-! ### The scanner's part (R16) -/

/-- The settings after RESET_KEYPATH: those of a change that waits in SCANNING, else as they are (R16). -/
def Scanner.settled (g : Scanner) : ScanSettings :=
  match g.mode, g.change with
  | .scanning, some c => c
  | _, _ => g.settings

theorem scannerReset_held {s : State} (h : s.scan.mode = .held) : scannerReset s = s := by
  unfold scannerReset
  rw [h]

theorem scannerReset_watch {s : State} (h : s.scan.mode = .watch) : scannerReset s = frameStart s := by
  unfold scannerReset
  rw [h]

theorem scannerReset_scanning {s : State} (h : s.scan.mode = .scanning) :
    scannerReset s = frameStart (applyPending (s.setScan { s.scan with pass := false })) := by
  unfold scannerReset
  rw [h]

theorem applyPending_some {s : State} {c : ScanSettings} (h : s.scan.change = some c) : applyPending s = applyChange c s := by
  unfold applyPending
  rw [h]

theorem applyPending_none {s : State} (h : s.scan.change = none) : applyPending s = s := by
  unfold applyPending
  rw [h]

/-- The scanner's part on a key table without a DOWN entry: what each scan mode leaves. -/
structure ScannerSettled (s t : State) : Prop where
  frame : Frame [.scan, .keys] s t
  keys : t.keys = s.keys.mapAt (newlyMasked s.scan.settings.mask s.scan.settled.mask) KeyEntry.masked
  held : s.scan.mode = .held → t.scan = s.scan
  started : s.scan.mode ≠ .held → t.scan =
    { s.scan with
      settings := s.scan.settled, change := if s.scan.mode = .scanning then none else s.scan.change
      mode := .scanning, pass := true, idleRun := 0, timer := some (after s.ms s.scan.settled.period) }

theorem frameStart_frame (s : State) : Frame [.scan] s (frameStart s) := setScan_frame _ _

theorem scannerReset_settled (s : State) (h : ∀ p, (s.entry p).isDown = false) : ScannerSettled s (scannerReset s) := by
  have unchanged (e : s.scan.settled = s.scan.settings) :
      s.keys = s.keys.mapAt (newlyMasked s.scan.settings.mask s.scan.settled.mask) KeyEntry.masked := by
    rw [e, newlyMasked_self, KeyTable.mapAt_nil]
  cases hm : s.scan.mode with
  | held =>
    rw [scannerReset_held hm]
    exact ⟨.refl _ _, unchanged (by simp [Scanner.settled, hm]), fun _ => rfl, fun n => absurd hm n⟩
  | watch =>
    have e : s.scan.settled = s.scan.settings := by simp [Scanner.settled, hm]
    rw [scannerReset_watch hm]
    exact ⟨(frameStart_frame s).mono rfl, unchanged e, fun n => by simp [hm] at n, fun _ => by simp [frameStart, e, hm]⟩
  | scanning =>
    rw [scannerReset_scanning hm]
    cases hc : s.scan.change with
    | none =>
      have e : s.scan.settled = s.scan.settings := by simp [Scanner.settled, hm, hc]
      rw [applyPending_none (by simpa using hc)]
      exact ⟨((setScan_frame _ _).trans (frameStart_frame _)).mono rfl, unchanged e, fun n => by simp [hm] at n,
        fun _ => by simp [frameStart, e, hm, hc]⟩
    | some c =>
      have e : s.scan.settled = c := by simp [Scanner.settled, hm, hc]
      rw [applyPending_some (by simpa using hc)]
      have f := applyChange_idle c (s.setScan { s.scan with pass := false }) h
      refine ⟨(((setScan_frame _ _).mono rfl).trans f).next (frameStart_frame _) rfl, ?_, fun n => by simp [hm] at n,
        fun _ => ?_⟩
      · rw [(frameStart_frame _).keys (by decide), applyChange_keys, e]
        rfl
      · have ms := f.ms (by decide)
        simp only [frameStart, applyChange_scan_eq, ms]
        simp [e, hm]

/-! ### The whole request -/

/-- What RESET_KEYPATH may change. -/
abbrev resetTouched : List Field := [.scan, .keys, .chords, .rep, .legend, .log, .mem, .irq, .statusDirty]

/-- A request that always completes OK, with no result word. -/
theorem event_request_ok {s : State} {q : Request} {kind count : Nat} (h : InExecution s q kind count) (f : State → State) :
    event (request kind count fun _ u => (f u, { code := .ok })) s = .next (answered q .ok [] (f s)) := event_request h _

theorem exec_resetKeypath {s : State} {q : Request} (hq : InExecution s q 4 0) :
    exec .resetKeypath s = .next (answered q .ok [] (resetKeypath s)) := event_request_ok hq resetKeypath

theorem cleared_mapAt_masked (k : KeyTable) (h : k.entries.length = 144) (a b : BitVec 18) :
    (k.cleared.mapAt (newlyMasked a b) KeyEntry.masked).entries = (List.range 144).map fun p =>
      { cond := .up, pressed := (k.at p).pressed && !(a.getLsbD (p / 8) && !b.getLsbD (p / 8)), filter := 0, score := 0 } := by
  refine List.ext_getElem (by simp [KeyTable.mapAt, KeyTable.cleared, h]) fun p hp _ => ?_
  have hk : p < 144 := by simpa [KeyTable.mapAt, KeyTable.cleared, h] using hp
  simp only [KeyTable.mapAt, KeyTable.cleared, List.getElem_mapIdx, List.getElem_map, List.getElem_range, mem_newlyMasked,
    hk, true_and]
  have at_p : k.at p = k.entries[p]'(by omega) := by simp [KeyTable.at, h, hk]
  rw [at_p]
  cases ha : a.getLsbD (p / 8) <;> cases hb : b.getLsbD (p / 8) <;> simp [KeyEntry.masked, KeyEntry.cleared]

end Sys2Proof.Machine

namespace Sys2Proof.Proofs

open Sys2Proof.Machine Sys2Proof.Claims

/-- Settles O32: the forced releases and the attention's end say what is reported; after them no entry is DOWN, so that the
scan change that waits releases none. -/
theorem resetKeypathRule : Obligations.ResetKeypathRule := by
  intro s q hq hl released ended settings masked
  have cleared := clearEntries_isDown s.ms (releaseKeypath s)
  have f1 := releaseKeypath_frame s
  have f2 := clearEntries_frame s.ms (releaseKeypath s)
  obtain ⟨f3, keys, held, started⟩ := scannerReset_settled _ cleared
  have scan : (clearEntries s.ms (releaseKeypath s)).scan = s.scan := by rw [f2.scan (by decide), f1.scan (by decide)]
  have ms : (clearEntries s.ms (releaseKeypath s)).ms = s.ms := by rw [f2.ms (by decide), f1.ms (by decide)]
  rw [scan] at keys held started
  rw [ms] at started
  rw [← resetKeypath_eq] at f3 keys held started
  have report : SameReport ended (resetKeypath s) :=
    ((releaseKeypath_report s).trans (clearEntries_report _ _)).trans f3.sameReport
  obtain ⟨stops, rep⟩ := releaseKeypath_rep s
  have f := ((f1.mono (fs := resetTouched) rfl).next f2 rfl).next f3 rfl
  refine ⟨resetKeypath s, exec_resetKeypath hq, report.log, report.mem, report.irq, 
    (f3.statusDirty (by decide)).trans (clearEntries_statusDirty _ _), ?_, ?_, ?_,
    f.keymap (by decide), f.steer (by decide), f.wake (by decide), f.bus (by decide), f.motion (by decide),
    f.latch (by decide), f.ind (by decide), f.light (by decide), f.supply (by decide), f.link (by decide),
    f.req (by decide), held, started⟩
  · rw [keys, clearEntries_keys, releaseKeypath_cleared]
    exact congrArg (fun es => ({ s.keys with entries := es, decayCounter := 0 } : KeyTable))
      (cleared_mapAt_masked s.keys hl _ _)
  · rw [f3.chords (by decide), f2.chords (by decide), releaseKeypath_chords]
  · rw [f3.rep (by decide), clearEntries_rep, rep, RepeatTimer.stop_stopAt]

end Sys2Proof.Proofs
end

section
/-! Supply samples: the start and the end of a dip (chapter 10). -/

namespace Sys2Proof.Machine

open Sys2Proof.Claims

/-! ### What a sample of 6000 mV or more does -/

theorem takeSample_normal {mv : Nat} {s : State} (h : 6000 ≤ mv) (d : s.supply.dip = false) :
    takeSample mv s = sampleNormal mv s := by
  simp [takeSample, Nat.not_lt.2 h, d]

theorem takeSample_dip {mv : Nat} {s : State} (h : 6000 ≤ mv) (d : s.supply.dip = true) :
    takeSample mv s = sampleDip mv s := by
  simp [takeSample, Nat.not_lt.2 h, d]

theorem exec_supplySample {s : State} (h : s.inReset = false) (mv : Half) :
    exec (.supplySample mv) s = .next (endEvent (takeSample mv.toNat s)) := event_next h _

/-- DIP_START and DIP_END are the samples that change the supply state, and nothing on others (log entry 12). -/
theorem exec_dipStart {s : State} (h : s.inReset = false) (mv : Half) :
    exec (.dipStart mv) s = if startsDip mv.toNat s then exec (.supplySample mv) s else .next (endEvent s) := by
  rw [exec_supplySample h]
  show event _ s = _
  rw [event_next h]
  split <;> rfl

theorem exec_dipEnd {s : State} (h : s.inReset = false) (mv : Half) :
    exec (.dipEnd mv) s = if endsDip mv.toNat s then exec (.supplySample mv) s else .next (endEvent s) := by
  rw [exec_supplySample h]
  show event _ s = _
  rw [event_next h]
  split <;> rfl

/-! ### Causes that stand through a scan change -/

theorem Pending.forcedReleases {c : Cause} {s : State} (h : Pending c s) (cause : ReleaseCause) (t : Time)
    (chosen : Nat → Latched → Bool) : Pending c (forcedReleases cause t chosen s) := by
  unfold Claims.forcedReleases
  refine List.foldlRecOn _ _ h fun u hu p _ => ?_
  split
  · split
    · exact hu.append _
    · exact hu
  · exact hu

theorem Pending.applyPending {c : Cause} {s : State} (h : Pending c s) : Pending c (applyPending s) := by
  unfold Machine.applyPending
  split
  · exact (h.forcedReleases _ _ _).of_irq (applyChange_report _ s).irq
  · exact h

/-! ### The outputs and the scanner of a dip -/

/-- Each output stands at its target, which no output enters (R172, R173). -/
theorem outputsToTargets_outputs (s : State) :
    let u := outputsToTargets s
    u.light.panel.output = u.panelTarget ∧ u.light.keys.output = u.keysTarget ∧ u.light.legend.output = u.legendTarget := by
  unfold outputsToTargets setOutputs
  dsimp only
  split <;> exact ⟨rfl, rfl, rfl⟩

theorem outputsToTargets_frame (s : State) : Frame [.light, .statusDirty] s (outputsToTargets s) :=
  (outputsToTargets_way s).sameFields

/-- HELD with nothing running (R14), before a pending change takes effect. -/
def holdScan (s : State) : State := s.setScan { s.scan with mode := .held, pass := false, timer := none, idleRun := 0 }

theorem enterHeld_eq (s : State) : enterHeld s = zeroFilters (applyPending (holdScan s)) := rfl

theorem zeroFilters_frame (s : State) : Frame [.keys] s (zeroFilters s) := mapEntries_frame _ s

theorem zeroFilters_filter (s : State) : ∀ k ∈ (zeroFilters s).keys.entries, k.filter = 0 := by
  intro k hk
  obtain ⟨e, _, rfl⟩ := List.mem_map.1 (show k ∈ s.keys.entries.map _ from hk)
  rfl

theorem enterHeld_scan (s : State) :
    (enterHeld s).scan.mode = .held ∧ (enterHeld s).scan.pass = false ∧ (enterHeld s).scan.timer = none ∧
    (enterHeld s).scan.change = none := by
  rw [enterHeld_eq, (zeroFilters_frame _).scan (by decide)]
  obtain ⟨mode, pass, timer, change⟩ := applyPending_scan (holdScan s)
  exact ⟨mode, pass, timer, change⟩

/-- The dip with its start reported: the record, the status field and STATUS (R176). -/
def reportDip (low : Nat) (s : State) : State :=
  touchAndRaise (append { time := s.ms, body := .supply false low 0 } (s.setSupply
    { s.supply with dip := true, lowRun := 0, recRun := 0, record := some { minimum := low, start := s.ms } }))

theorem reportDip_frame (low : Nat) (s : State) : Frame [.supply, .log, .mem, .irq, .statusDirty] s (reportDip low s) :=
  (((setSupply_frame s _).mono rfl).next (append_frame _ _) rfl).next (touchAndRaise_frame _) rfl

/-- The lowest sample of the low run with this one (log entry 28). -/
def lowest (mv : Nat) (g : Supply) : Nat := if g.lowRun = 0 then mv else min g.lowMin mv

theorem startDip_eq (mv : Nat) (s : State) :
    startDip mv s = outputsToTargets (enterHeld (reportDip (lowest mv s.supply) s)) := rfl

theorem startDip_supply (mv : Nat) (s : State) :
    (startDip mv s).supply = { s.supply with
      dip := true, lowRun := 0, recRun := 0, record := some { minimum := lowest mv s.supply, start := s.ms } } := by
  rw [startDip_eq, (outputsToTargets_frame _).supply (by decide), (enterHeld_frame _).supply (by decide)]
  unfold reportDip
  rw [(touchAndRaise_frame _).supply (by decide), (append_frame _ _).supply (by decide)]
  rfl

theorem startDip_pending (mv : Nat) (s : State) : Pending .status (startDip mv s) := by
  have reported : Pending .status (reportDip (lowest mv s.supply) s) := pending_raised _ _
  have held : Pending .status (holdScan (reportDip (lowest mv s.supply) s)) := reported.of_irq rfl
  exact held.applyPending.of_irq ((((zeroFilters_frame _).mono rfl).next (outputsToTargets_frame _) rfl :
    Frame [.keys, .light, .statusDirty] _ _).irq (by decide))

theorem startDip_scan (mv : Nat) (s : State) :
    (startDip mv s).scan.mode = .held ∧ (startDip mv s).scan.timer = none ∧ (startDip mv s).scan.pass = false ∧
    (startDip mv s).scan.change = none := by
  obtain ⟨mode, pass, timer, change⟩ := enterHeld_scan (reportDip (lowest mv s.supply) s)
  rw [startDip_eq, (outputsToTargets_frame _).scan (by decide)]
  exact ⟨mode, timer, pass, change⟩

theorem startDip_filter (mv : Nat) (s : State) : ∀ k ∈ (startDip mv s).keys.entries, k.filter = 0 := by
  rw [startDip_eq, (outputsToTargets_frame _).keys (by decide), enterHeld_eq]
  exact zeroFilters_filter _

/-- After the pending change only filter counts and outputs change (R14, R36, R173). -/
theorem startDip_rest (mv : Nat) (s : State) :
    Frame [.keys, .light, .statusDirty] (applyPending (holdScan (reportDip (lowest mv s.supply) s))) (startDip mv s) :=
  ((zeroFilters_frame _).mono rfl).next (outputsToTargets_frame _) rfl

theorem startDip_keys (mv : Nat) (s : State) :
    let k := (applyPending (holdScan (reportDip (lowest mv s.supply) s))).keys
    (startDip mv s).keys = { k with entries := k.entries.map fun e => { e with filter := 0 } } := by
  rw [startDip_eq, (outputsToTargets_frame _).keys (by decide)]
  rfl

theorem reportDip_log (low : Nat) (s : State) :
    SameLog (append { time := s.ms, body := .supply false low 0 } s) (reportDip low s) := by
  have h := (setSupply_frame s
    { s.supply with dip := true, lowRun := 0, recRun := 0, record := some { minimum := low, start := s.ms } }).sameReport.append
    { time := s.ms, body := .supply false low 0 }
  obtain ⟨a, b, c⟩ := (touchAndRaise_frame (append { time := s.ms, body := .supply false low 0 } (s.setSupply
    { s.supply with dip := true, lowRun := 0, recRun := 0, record := some { minimum := low, start := s.ms } }))).sameLog
  exact ⟨a.trans h.log, b.trans h.mem, c.trans h.1.2.2⟩

theorem holdScan_reportDip (low : Nat) (s : State) :
    holdScan (reportDip low s) =
      { reportDip low s with scan := { s.scan with mode := .held, pass := false, timer := none, idleRun := 0 } } := by
  unfold holdScan
  rw [(reportDip_frame low s).scan (by decide)]
  rfl

theorem holdScan_reportDip_change (low : Nat) (s : State) : (holdScan (reportDip low s)).scan.change = s.scan.change := by
  rw [holdScan_reportDip]

/-- A change that waits at the start of a dip takes effect after its report (R14, R176). -/
theorem applyPending_reportDip_some (low : Nat) {s : State} {c : ScanSettings} (h : s.scan.change = some c) :
    applyPending (holdScan (reportDip low s)) = applyChange c
      { reportDip low s with scan := { s.scan with mode := .held, pass := false, timer := none, idleRun := 0 } } := by
  rw [applyPending_some ((holdScan_reportDip_change low s).trans h), holdScan_reportDip]

theorem applyPending_reportDip_none (low : Nat) {s : State} (h : s.scan.change = none) :
    applyPending (holdScan (reportDip low s)) = holdScan (reportDip low s) :=
  applyPending_none ((holdScan_reportDip_change low s).trans h)

/-! ### The end of a dip -/

/-- The 50th sample: the record with minimum and duration, the status field and STATUS, a frame start (R15, R177). -/
theorem endDip_eq (s : State) {d : DipRecord} (h : s.supply.record = some d) :
    let u := touchAndRaise (append { time := s.ms, body := .supply true d.minimum (s.ms - d.start) }
      (s.setSupply { s.supply with dip := false, recRun := 0 }))
    endDip s = u.setScan { s.scan with
      mode := .scanning, pass := true, idleRun := 0, timer := some (after s.ms s.scan.settings.period) } := by
  intro u
  have f : Frame [.supply, .log, .mem, .irq, .statusDirty] s u :=
    (((setSupply_frame s _).mono rfl).next (append_frame _ _) rfl).next (touchAndRaise_frame _) rfl
  have e : endDip s = frameStart u := by
    unfold endDip
    rw [h]
    rfl
  rw [e, frameStart, f.scan (by decide), f.ms (by decide)]

theorem lowerMinimum_some (mv : Nat) (s : State) {d : DipRecord} (h : s.supply.record = some d) :
    lowerMinimum mv s = s.setSupply { s.supply with record := some { d with minimum := min d.minimum mv } } := by
  unfold lowerMinimum
  rw [h]
  rfl

end Sys2Proof.Machine

namespace Sys2Proof.Proofs

open Sys2Proof.Machine Sys2Proof.Claims

/-- Settles O58: the samples that count, and the two that change the supply state. -/
theorem supplySamples : Obligations.SupplySamples := by
  intro mv s hr hv v g set low starts ends
  have sample := exec_supplySample hr mv
  have startsDip_iff : startsDip v s = true ↔ starts := by simp [startsDip, starts, g, v, and_assoc]
  have endsDip_iff : endsDip v s = true ↔ ends := by simp [endsDip, ends, g, v, and_assoc]
  refine ⟨fun h => ?_, fun h => ?_, fun h => ?_, fun h => ?_, fun hd hw => ?_, fun hd hw hl => ?_,
    fun hs => ?_, fun d hd hrec => ?_⟩
  · rw [exec_dipStart hr, if_pos (startsDip_iff.2 h)]
  · rw [exec_dipStart hr, if_neg (mt startsDip_iff.1 h)]
  · rw [exec_dipEnd hr, if_pos (endsDip_iff.2 h)]
  · rw [exec_dipEnd hr, if_neg (mt endsDip_iff.1 h)]
  · rw [sample, takeSample_normal hv hd, sampleNormal, if_neg (Nat.not_lt.2 hw)]
    rfl
  · rw [sample, takeSample_normal hv hd, sampleNormal, if_pos hw, if_pos hl]
    rfl
  · obtain ⟨hd, h2, hw⟩ := hs
    have third : exec (.supplySample mv) s = .next (endEvent (startDip v s)) := by
      rw [sample, takeSample_normal hv hd, sampleNormal, if_pos hw, if_neg (by rw [h2]; decide)]
    obtain ⟨mode, timer, pass, change⟩ := startDip_scan v s
    obtain ⟨panel, keys, legend⟩ := outputsToTargets_outputs (enterHeld (reportDip (lowest v s.supply) s))
    have f := startDip_frame v s
    refine ⟨startDip v s, third, startDip_supply v s, startDip_pending v s, mode, timer, pass, change, startDip_filter v s,
      panel, keys, legend, f.ms (by decide), f.keymap (by decide), f.steer (by decide), f.chords (by decide),
      f.wake (by decide), f.bus (by decide), f.motion (by decide), f.latch (by decide), f.ind (by decide),
      f.link (by decide), f.req (by decide), fun hc => ?_, fun c hc => ?_⟩
    · have r := startDip_rest v s
      have k := startDip_keys v s
      have q : Frame [.scan, .supply, .log, .mem, .irq, .statusDirty] s (holdScan (reportDip (lowest v s.supply) s)) :=
        ((reportDip_frame _ s).mono rfl).next (setScan_frame _ _) rfl
      obtain ⟨log, mem, _⟩ := reportDip_log (lowest v s.supply) s
      rw [applyPending_reportDip_none _ hc] at r k
      exact ⟨(r.log (by decide)).trans log, (r.mem (by decide)).trans mem, (r.rep (by decide)).trans (q.rep (by decide)),
        (r.legend (by decide)).trans (q.legend (by decide)), k.trans (by rw [q.keys (by decide)])⟩
    · intro began reported applied
      have r := startDip_rest v s
      have k := startDip_keys v s
      rw [applyPending_reportDip_some _ hc] at r k
      exact ⟨r.log (by decide), r.mem (by decide), r.irq (by decide), r.rep (by decide), r.legend (by decide),
        r.scan (by decide), k⟩
  · intro lowered
    have minimum := lowerMinimum_some v s hrec
    rw [sample, takeSample_dip hv hd, sampleDip]
    refine ⟨fun h => ?_, fun h h49 => ?_, fun h => ?_⟩
    · rw [if_neg (Nat.not_le.2 h), minimum]
      rfl
    · rw [if_pos h, if_pos h49, minimum]
      rfl
    · obtain ⟨_, h49, hrec'⟩ := h
      rw [if_pos hrec', if_neg (by rw [h49]; decide), minimum, endDip_eq _ rfl]
      rfl

end Sys2Proof.Proofs
end

section
/-! A frame at the scanner and the key table: the pass and its lines, the boundary in its order, an idle frame, and a frame
that reads every key as it stands (chapters 1 and 2). -/

namespace Sys2Proof.Machine

open Sys2Proof.Claims

/-! ### The pass and the asserted lines (R1, R2, R11) -/

theorem passSlots_ascending (mask : BitVec 18) : (passSlots mask).Pairwise (· < ·) := List.pairwise_lt_range.filter _

theorem mem_passSlots {mask : BitVec 18} {d : Nat} : d ∈ passSlots mask ↔ d < 18 ∧ mask.getLsbD d = true := by
  simp [passSlots]

theorem assertedLines_slot {s : State} {slot d : Nat} (hm : s.scan.mode = .scanning) (hp : s.scan.pass = true)
    (hd : (passSlots s.scan.settings.mask)[slot]? = some d) {k : Nat} (hk : k < 18) :
    (s.assertedLines slot).getLsbD k = decide (k = d) := by
  unfold State.assertedLines
  simp only [hm, hp, if_true, hd]
  rw [BitVec.getLsbD_ofNat, Nat.testBit_two_pow]
  simp [hk, eq_comm]

theorem assertedLines_between {s : State} (slot : Nat) (hm : s.scan.mode = .scanning) (hp : s.scan.pass = false) :
    s.assertedLines slot = 0 := by
  simp [State.assertedLines, hm, hp]

theorem assertedLines_watch {s : State} (slot : Nat) (hm : s.scan.mode = .watch) :
    s.assertedLines slot = s.scan.settings.mask := by
  simp [State.assertedLines, hm]

theorem assertedLines_held {s : State} (slot : Nat) (hm : s.scan.mode = .held) : s.assertedLines slot = 0 := by
  simp [State.assertedLines, hm]

/-! ### The boundary in its order (R8) -/

/-- The key table with a delivered frame counted (R33). -/
def KeyTable.counted (k : KeyTable) : KeyTable :=
  if k.decayCounter + 1 < k.settings.decay then { k with decayCounter := k.decayCounter + 1 }
  else { k with entries := k.entries.map fun e => { e with score := e.score - 1 }, decayCounter := 0 }

theorem decaysNext_iff {k : KeyTable} : k.decaysNext = true ↔ k.settings.decay ≤ k.decayCounter + 1 := decide_eq_true_iff

theorem countFrame_eq (s : State) : countFrame s = s.setKeys s.keys.counted := by
  unfold countFrame KeyTable.counted
  by_cases h : s.keys.settings.decay ≤ s.keys.decayCounter + 1
  · rw [if_pos (decaysNext_iff.2 h), if_neg (by omega)]
    rfl
  · rw [if_neg (mt decaysNext_iff.1 h), if_pos (by omega)]

theorem counted_pressed (k : KeyTable) :
    (k.counted.entries.all fun e => !e.pressed) = k.entries.all fun e => !e.pressed := by
  unfold KeyTable.counted
  split
  · rfl
  · simp [List.all_map, Function.comp_def]

/-- The frame is idle with the table counted exactly where it is with the table before (R10). -/
theorem frameIdle_counted (f : List Sample) (k : KeyTable) :
    frameIdle f k.counted = (!f.contains .downRead && k.entries.all fun e => !e.pressed) := by
  have none_down : (f.all fun x => x != .downRead) = !f.contains .downRead := by
    rw [Bool.eq_iff_iff]
    simp only [List.all_eq_true, bne_iff_ne, Bool.not_eq_true', List.contains_eq_mem, decide_eq_false_iff_not]
    exact ⟨fun h m => h _ m rfl, fun h x hx e => h (e ▸ hx)⟩
  unfold frameIdle
  rw [counted_pressed, none_down]

/-- The positions of a frame in ascending order (R20). -/
def handlePositions (f : List Sample) (s : State) : State := (List.range 144).foldl (fun u p => framePosition f p u) s

theorem deliverFrame_eq (f : List Sample) (s : State) : deliverFrame f s = countFrame (handlePositions f s) := rfl

theorem handlePositions_frame (f : List Sample) (s : State) : Frame pressTouched s (handlePositions f s) := by
  unfold handlePositions
  refine List.foldlRecOn _ _ (.refl _ s) fun u hu p hp => hu.trans (framePosition_frame f (List.mem_range.1 hp) u)

/-- The idle test on a counted frame: the handled state with the table counted and the idle run judged (R8, R10). -/
theorem idleTest_deliverFrame (f : List Sample) (s : State) :
    let u := handlePositions f s
    idleTest f (deliverFrame f s) =
      { u with
        keys := u.keys.counted
        scan := { s.scan with
          idleRun := if !f.contains .downRead && u.keys.entries.all fun e => !e.pressed then min (s.scan.idleRun + 1) 1000
            else 0 } } := by
  intro u
  have scan : u.scan = s.scan := (handlePositions_frame f s).scan (by decide)
  rw [deliverFrame_eq, countFrame_eq]
  unfold idleTest
  rw [State.setKeys_keys, frameIdle_counted, State.setKeys_scan, scan]
  rfl

theorem watchTest_stays (b : Bool) {s : State}
    (h : s.scan.settings.watchEntry = 0 ∨ s.scan.idleRun < s.scan.settings.watchEntry) : watchTest b s = s := by
  unfold watchTest
  rw [if_neg (by omega)]

theorem watchTest_leaves (b : Bool) {s : State} (h : 0 < s.scan.settings.watchEntry)
    (k : s.scan.settings.watchEntry ≤ s.scan.idleRun) :
    watchTest b s = if b then frameStart s else s.setScan { s.scan with mode := .watch, timer := none, idleRun := 0 } := by
  unfold watchTest
  rw [if_pos ⟨by omega, k⟩]

/-- The pass has reached its boundary (R8). -/
def passDone (s : State) : State := s.setScan { s.scan with pass := false }

/-- Where a pass runs, its boundary is taken: handling, idle test, pending change, WATCH test (R8). -/
theorem takeFrame_running (f : List Sample) (b : Bool) {s : State} (h : s.scan.mode = .scanning ∧ s.scan.pass = true) :
    takeFrame f b s = watchTest b (applyPending (idleTest f (deliverFrame f (passDone s)))) := by
  unfold takeFrame
  rw [if_pos (by simpa using h)]
  rfl

theorem takeFrame_idle (f : List Sample) (b : Bool) {s : State} (h : ¬(s.scan.mode = .scanning ∧ s.scan.pass = true)) :
    takeFrame f b s = s := by
  unfold takeFrame
  rw [if_neg (by simpa using h)]

theorem exec_frameBoundary {s : State} (h : s.inReset = false) (readings : List Byte) (b : Bool) :
    exec (.frameBoundary readings b) s =
      .next (endEvent (takeFrame (frameSamples s.scan.settings.mask readings) b s)) :=
  event_next h fun s => takeFrame (frameSamples s.scan.settings.mask readings) b s

/-! ### CHATTER_DECAY (R33, log entry 11) -/

theorem exec_chatterDecay {s : State} (h : s.inReset = false) :
    exec .chatterDecay s = .next (endEvent (if s.keys.decaysNext then takeFrame (steadyFrame s) false s else s)) :=
  event_next h fun s => if s.keys.decaysNext then takeFrame (steadyFrame s) false s else s

/-- Readings that show the physical states as they stand make the steady frame. -/
theorem frameSamples_steady {s : State} {readings : List Byte}
    (h : ∀ p, p < 144 → (readings.getD (p / 8) 0).getLsbD (p % 8) = (s.entry p).pressed) :
    frameSamples s.scan.settings.mask readings = steadyFrame s := by
  rw [frameSamples_eq]
  refine List.map_congr_left fun p hp => ?_
  rw [h p (List.mem_range.1 hp)]

/-! ### A position whose sample agrees with its entry (R21) -/

/-- An entry with filter count 0. -/
def KeyEntry.unfiltered (e : KeyEntry) : KeyEntry := { e with filter := 0 }

theorem filterSample_notSampled (g : FilterSettings) (e : KeyEntry) : filterSample g .notSampled e = (e, false) := rfl

theorem filterSample_agrees (g : FilterSettings) (e : KeyEntry) :
    filterSample g (if e.pressed then .downRead else .upRead) e = (e.unfiltered, false) := by
  cases h : e.pressed <;> simp [filterSample, KeyEntry.unfiltered, h]

/-- Without a transition a position is put with its new filter count, and the condition is looked at (R20, R23, R25). -/
theorem framePosition_still {f : List Sample} {p : Nat} {s : State} {x : KeyEntry}
    (h : filterSample s.keys.settings (f.getD p .notSampled) (s.entry p) = (x, false)) :
    framePosition f p s = withoutTransition f p (s.setKeys (s.keys.put p x)) := by
  unfold framePosition
  rw [h]
  rfl

theorem withoutTransition_released {f : List Sample} {p : Nat} {s : State} (h : (s.entry p).pressed = false) :
    withoutTransition f p s = s := by
  unfold withoutTransition
  simp only [h, Bool.false_and]
  cases (s.entry p).cond <;> rfl

/-- A sample that shows the entry as it stands, or none. -/
def Agrees (x : Sample) (e : KeyEntry) : Prop := x = .notSampled ∨ x = if e.pressed then .downRead else .upRead

theorem filterSample_of_agrees (g : FilterSettings) {x : Sample} {e : KeyEntry} (h : Agrees x e) :
    filterSample g x e = (if x = .notSampled then e else e.unfiltered, false) := by
  rcases h with rfl | rfl
  · rw [filterSample_notSampled, if_pos rfl]
  · rw [filterSample_agrees]
    cases e.pressed <;> rfl

/-! ### An idle frame -/

/-- A position that does not read down, with its key RELEASED: the filter count becomes 0 where it is sampled. -/
theorem framePosition_quiet {f : List Sample} {p : Nat} {s : State} (hf : f.getD p .notSampled ≠ .downRead)
    (hp : (s.entry p).pressed = false) :
    framePosition f p s =
      if f.getD p .notSampled = .notSampled then s else s.setKeys (s.keys.put p (s.entry p).unfiltered) := by
  have agrees : Agrees (f.getD p .notSampled) (s.entry p) := by
    unfold Agrees
    rw [hp]
    cases h : f.getD p .notSampled <;> simp_all
  have released (x : KeyEntry) (hx : x.pressed = false) : ((s.setKeys (s.keys.put p x)).entry p).pressed = false := by
    rcases s.keys.at_put p p x with e | e <;> rw [State.entry_eq, State.setKeys_keys, e]
    · exact hx
    · exact hp
  rw [framePosition_still (filterSample_of_agrees _ agrees)]
  split
  · rw [withoutTransition_released (released _ hp), State.entry_eq, KeyTable.put_at, State.setKeys_self]
  · rw [withoutTransition_released (released (s.entry p).unfiltered hp)]

theorem forPositions_quiet {f : List Sample} (ps : List Nat) (s : State) (hf : ∀ p, f.getD p .notSampled ≠ .downRead)
    (hp : ∀ p, (s.entry p).pressed = false) :
    ps.foldl (fun u p => framePosition f p u) s =
      s.setKeys (s.keys.mapAt (ps.filter fun p => f.getD p .notSampled != .notSampled) KeyEntry.unfiltered) := by
  induction ps generalizing s with
  | nil => rw [List.filter_nil, KeyTable.mapAt_nil]; rfl
  | cons p ps ih =>
    rw [List.foldl_cons, framePosition_quiet (hf p) (hp p)]
    by_cases h : f.getD p .notSampled = .notSampled
    · rw [if_pos h, ih s hp, List.filter_cons_of_neg (by simpa using h)]
    · rw [if_neg h, List.filter_cons_of_pos (by simpa using h), ih _ fun q => ?_]
      · rw [State.setKeys_setKeys, State.setKeys_keys, State.entry_eq,
          KeyTable.mapAt_put _ _ _ KeyEntry.unfiltered fun _ => rfl]
      · rcases s.keys.at_put p q (s.entry p).unfiltered with e | e <;> rw [State.entry_eq, State.setKeys_keys, e]
        · exact hp p
        · exact hp q

/-- A table whose keys are all RELEASED, past its end too. -/
theorem KeyTable.at_released {k : KeyTable} (h : ∀ e ∈ k.entries, e.pressed = false) (p : Nat) : (k.at p).pressed = false := by
  by_cases hp : p < k.entries.length
  · have : k.at p = k.entries[p] := by simp [KeyTable.at, hp]
    rw [this]
    exact h _ (List.getElem_mem hp)
  · rw [k.at_past (by omega)]
    rfl

theorem mapAt_unfiltered_entries (k : KeyTable) (h : k.entries.length = 144) (sampled : Nat → Bool) :
    (k.mapAt ((List.range 144).filter sampled) KeyEntry.unfiltered).entries =
      (List.range 144).map fun p => if sampled p then { k.at p with filter := 0 } else k.at p := by
  refine List.ext_getElem (by simp [KeyTable.mapAt, h]) fun p hp _ => ?_
  have hk : p < 144 := by simpa [KeyTable.mapAt, h] using hp
  have at_p : k.at p = k.entries[p]'(by omega) := by simp [KeyTable.at, h, hk]
  simp [KeyTable.mapAt, at_p, hk, KeyEntry.unfiltered]

/-- A pass samples the positions of its enabled lines (R2, R3). -/
theorem frameSamples_sampled (mask : BitVec 18) (readings : List Byte) {p : Nat} (h : p < 144) :
    ((frameSamples mask readings).getD p .notSampled != .notSampled) = mask.getLsbD (p / 8) := by
  rw [frameSamples_eq, List.getD_eq_getElem _ _ (by simpa using h), List.getElem_map, List.getElem_range]
  cases mask.getLsbD (p / 8) <;> cases (readings.getD (p / 8) 0).getLsbD (p % 8) <;> rfl

/-- An idle frame before which no key was down sets the filter counts on the enabled lines to 0, and does no more. -/
theorem handlePositions_idle {mask : BitVec 18} {readings : List Byte} {s : State}
    (hf : .downRead ∉ frameSamples mask readings) (hk : ∀ k ∈ s.keys.entries, k.pressed = false)
    (hl : s.keys.entries.length = 144) :
    handlePositions (frameSamples mask readings) s = s.setKeys { s.keys with
      entries := (List.range 144).map fun p =>
        if mask.getLsbD (p / 8) then { s.entry p with filter := 0 } else s.entry p } := by
  have none_down (p : Nat) : (frameSamples mask readings).getD p .notSampled ≠ .downRead := by
    by_cases h : p < (frameSamples mask readings).length
    · rw [List.getD_eq_getElem _ _ h]
      exact fun e => hf (e ▸ List.getElem_mem h)
    · rw [List.getD_eq_default _ _ (by omega)]
      exact nofun
  have entries := (mapAt_unfiltered_entries s.keys hl fun p =>
    (frameSamples mask readings).getD p .notSampled != .notSampled).trans
    (List.map_congr_left fun p hp => by rw [frameSamples_sampled mask readings (List.mem_range.1 hp)])
  exact (forPositions_quiet (List.range 144) s none_down (KeyTable.at_released hk)).trans
    (congrArg (fun es => s.setKeys { s.keys with entries := es }) entries)

/-! ### A frame that reads every key as it stands (R33, log entry 11) -/

/-- Two tables with the same settings, decay counter, scores and physical states. -/
structure SameScores (k l : KeyTable) : Prop where
  settings : l.settings = k.settings
  counter : l.decayCounter = k.decayCounter
  score : ∀ p, (l.at p).score = (k.at p).score
  pressed : ∀ p, (l.at p).pressed = (k.at p).pressed

theorem SameScores.refl (k : KeyTable) : SameScores k k := ⟨rfl, rfl, fun _ => rfl, fun _ => rfl⟩

theorem SameScores.trans {k l m : KeyTable} (h : SameScores k l) (g : SameScores l m) : SameScores k m :=
  ⟨g.settings.trans h.settings, g.counter.trans h.counter, fun p => (g.score p).trans (h.score p),
    fun p => (g.pressed p).trans (h.pressed p)⟩

theorem SameScores.put (k : KeyTable) (p : Nat) (e : KeyEntry) (hs : e.score = (k.at p).score)
    (hp : e.pressed = (k.at p).pressed) : SameScores k (k.put p e) := by
  have entry (q : Nat) : ((k.put p e).at q).score = (k.at q).score ∧ ((k.put p e).at q).pressed = (k.at q).pressed := by
    by_cases hq : q = p
    · subst hq
      rcases k.at_put q q e with h | h <;> rw [h]
      · exact ⟨hs, hp⟩
      · exact ⟨rfl, rfl⟩
    · rw [k.at_put_other e hq]
      exact ⟨rfl, rfl⟩
  exact ⟨rfl, rfl, fun q => (entry q).1, fun q => (entry q).2⟩

theorem beginAttention_frame (k : Nat) (s : State) :
    Frame [.chords, .rep, .wake, .log, .mem, .irq, .statusDirty] s (beginAttention k s) :=
  (((((setChords_frame s _).mono rfl).next (append_frame _ _) rfl).next (touchAndRaise_frame _) rfl).next
    (stopRepeat_way _).sameFields rfl).next (urgentWake_frame _ _) rfl

theorem repeatNotice_frame (p : Nat) (r : Route) (t : Time) (s : State) : Frame [.rep] s (repeatNotice p r t s) := by
  unfold repeatNotice
  split
  · exact setRep_frame _ _
  · exact .refl _ _

/-- What a latched press hands on leaves the key table (R59). -/
theorem handOnPress_keys (p : Nat) (l : Latched) (o : RouteOutcome) (s : State) : (handOnPress p l o s).keys = s.keys := by
  unfold handOnPress
  extract_lets t s1 s2 s3 s4
  have h1 : s1.keys = s.keys := by
    show State.keys (if _ then _ else _) = _
    split
    · exact (append_frame _ _).keys (by decide)
    · rfl
  have h2 : s2.keys = s1.keys := by
    show State.keys (if _ then _ else _) = _
    split
    · exact (dockFunction_way _ _ _).sameFields.keys (by decide)
    · rfl
  have h3 : s3.keys = s2.keys := by
    show State.keys (match o.chord with | some k => _ | none => _) = _
    split
    · exact (beginAttention_frame _ _).keys (by decide)
    · rfl
  have h4 : s4.keys = s3.keys := (repeatNotice_frame _ _ _ _).keys (by decide)
  rw [(evalShownSet_frame _ _).keys (by decide), (wakeNotice_way _ _ _ _).sameFields.keys (by decide), h4, h3, h2, h1]

theorem acceptPress_scores (p : Nat) (s : State) : SameScores s.keys (acceptPress p s).keys := by
  obtain ⟨l, -, -, -, -, -, keys⟩ := latchedPress_keys p s
  have e : (acceptPress p s).keys = (latchedPress p s).keys := handOnPress_keys _ _ _ _
  rw [e, keys]
  exact .put _ _ _ rfl rfl

theorem takePress_scores (f : List Sample) (p : Nat) (s : State) : SameScores s.keys (takePress f p s).keys := by
  unfold takePress
  split
  · exact acceptPress_scores p s
  · exact .put _ _ _ rfl rfl

theorem withoutTransition_scores (f : List Sample) (p : Nat) (s : State) :
    SameScores s.keys (withoutTransition f p s).keys := by
  unfold withoutTransition
  dsimp only
  split
  · split
    · exact takePress_scores f p s
    · exact .refl _
  · split
    · exact acceptPress_scores p s
    · exact .refl _
  · exact .refl _
  · exact .refl _

/-- A sample that agrees with its entry moves no score (R32). -/
theorem framePosition_scores {f : List Sample} {p : Nat} {s : State} (h : Agrees (f.getD p .notSampled) (s.entry p)) :
    SameScores s.keys (framePosition f p s).keys := by
  rw [framePosition_still (filterSample_of_agrees _ h)]
  refine SameScores.trans ?_ (withoutTransition_scores f p _)
  split
  · exact .put _ _ _ rfl rfl
  · exact .put _ _ _ rfl rfl

theorem agrees_congr {x : Sample} {e e' : KeyEntry} (h : e'.pressed = e.pressed) (a : Agrees x e) : Agrees x e' := by
  unfold Agrees at a ⊢
  rwa [h]

theorem handlePositions_scores (f : List Sample) (s : State) (h : ∀ p, Agrees (f.getD p .notSampled) (s.entry p)) :
    SameScores s.keys (handlePositions f s).keys := by
  unfold handlePositions
  refine List.foldlRecOn (motive := fun u : State => SameScores s.keys u.keys) _ _ (.refl _) fun u hu p _ => ?_
  exact hu.trans (framePosition_scores (agrees_congr (hu.pressed p) (h p)))

theorem steadyFrame_agrees (s : State) (p : Nat) : Agrees ((steadyFrame s).getD p .notSampled) (s.entry p) := by
  unfold steadyFrame positions
  by_cases hp : p < 144
  · rw [List.getD_eq_getElem _ _ (by simpa using hp), List.getElem_map, List.getElem_range]
    split
    · exact .inr rfl
    · exact .inl rfl
  · exact .inl (by simp [hp])

/-! ### What CHATTER_DECAY does to the scores -/

theorem counted_score (k : KeyTable) (h : k.settings.decay ≤ k.decayCounter + 1) (p : Nat) :
    (k.counted.at p).score = (k.at p).score - 1 := by
  unfold KeyTable.counted
  rw [if_neg (by omega)]
  by_cases hp : p < k.entries.length
  · simp [KeyTable.at, hp]
  · rw [k.at_past (by omega), KeyTable.at_past _ (by simp; omega)]
    rfl

theorem counted_decayCounter {k : KeyTable} (h : k.settings.decay ≤ k.decayCounter + 1) : k.counted.decayCounter = 0 := by
  unfold KeyTable.counted
  rw [if_neg (by omega)]

theorem mapAt_masked_score (k : KeyTable) (ps : List Nat) (p : Nat) :
    ((k.mapAt ps KeyEntry.masked).at p).score = (k.at p).score := by
  by_cases hp : p < k.entries.length
  · rw [k.at_mapAt ps _ hp]
    split <;> rfl
  · rw [k.at_past (by omega), KeyTable.at_past _ (by simp [KeyTable.mapAt]; omega)]

/-- A pending change that takes effect keeps decay counter and scores (R9). -/
theorem applyPending_scores (s : State) : (applyPending s).keys.decayCounter = s.keys.decayCounter ∧
    ∀ p, ((applyPending s).keys.at p).score = (s.keys.at p).score := by
  unfold applyPending
  split
  · rw [applyChange_keys]
    exact ⟨rfl, mapAt_masked_score _ _⟩
  · exact ⟨rfl, fun _ => rfl⟩

theorem watchTest_frame (b : Bool) (s : State) : Frame [.scan] s (watchTest b s) := by
  unfold watchTest
  split
  · split
    · exact frameStart_frame s
    · exact setScan_frame _ _
  · exact .refl _ _

/-- The delivery of a frame that agrees with every entry and brings the decay: every score above 0 loses 1, the counter
becomes 0 (R33). -/
theorem deliverFrame_steady {f : List Sample} {s : State} (h : ∀ p, Agrees (f.getD p .notSampled) (s.entry p))
    (hd : s.keys.settings.decay ≤ s.keys.decayCounter + 1) :
    (deliverFrame f s).keys.decayCounter = 0 ∧ ∀ p, ((deliverFrame f s).keys.at p).score = (s.entry p).score - 1 := by
  have same := handlePositions_scores f s h
  have decays : (handlePositions f s).keys.settings.decay ≤ (handlePositions f s).keys.decayCounter + 1 := by
    rw [same.settings, same.counter]
    exact hd
  rw [deliverFrame_eq, countFrame_eq, State.setKeys_keys]
  refine ⟨counted_decayCounter decays, fun p => ?_⟩
  rw [counted_score _ decays, same.score, State.entry_eq]

/-- The boundary of the steady frame that brings the decay does the same to the scores. -/
theorem takeFrame_steady {s : State} (b : Bool) (h : s.scan.mode = .scanning ∧ s.scan.pass = true)
    (hd : s.keys.settings.decay ≤ s.keys.decayCounter + 1) :
    (takeFrame (steadyFrame s) b s).keys.decayCounter = 0 ∧
    ∀ p, ((takeFrame (steadyFrame s) b s).entry p).score = (s.entry p).score - 1 := by
  obtain ⟨counter, score⟩ := deliverFrame_steady (s := passDone s) (steadyFrame_agrees s) hd
  obtain ⟨counter', score'⟩ := applyPending_scores (idleTest (steadyFrame s) (deliverFrame (steadyFrame s) (passDone s)))
  have judged (u : State) : (idleTest (steadyFrame s) u).keys = u.keys := rfl
  rw [judged] at counter' score'
  have left := watchTest_frame b (applyPending (idleTest (steadyFrame s) (deliverFrame (steadyFrame s) (passDone s))))
  rw [takeFrame_running _ b h, left.keys (by decide), counter', counter]
  refine ⟨rfl, fun p => ?_⟩
  rw [left.entry, State.entry_eq, score', score]
  rfl

end Sys2Proof.Machine

namespace Sys2Proof.Proofs

open Sys2Proof.Machine Sys2Proof.Claims

/-- Settles O38: the boundary in R8's order, the steady frame as a frame of readings, and the idle frame position by
position. -/
theorem frameBoundaryRule : Obligations.FrameBoundaryRule := by
  refine ⟨fun mask s slot => ⟨passSlots_ascending mask, fun d => mem_passSlots,
    fun hm hp d hd k hk => assertedLines_slot hm hp hd hk, assertedLines_between slot, assertedLines_watch slot, assertedLines_held slot⟩, ?_⟩
  intro readings active s hr running sample frame begun handled quiet n counted judged u entered restarted
  have samples : frameSamples s.scan.settings.mask readings = frame := frameSamples_eq _ _
  have boundary : exec (.frameBoundary readings active) s = .next (endEvent (takeFrame frame active s)) := by
    rw [exec_frameBoundary hr, samples]
  have taken (h : running) : takeFrame frame active s = watchTest active u := by
    rw [takeFrame_running frame active h, idleTest_deliverFrame]
    rfl
  refine ⟨fun h => ?_, fun h hw => ?_, fun h hw hi => ?_, fun hd hp => ?_, fun hf hk hl => ?_⟩
  · rw [boundary, takeFrame_idle frame active h]
  · rw [boundary, taken h, watchTest_stays active hw]
  · rw [boundary, taken h, watchTest_leaves active hw hi]
    cases active <;> rfl
  · have steady := frameSamples_steady hp
    rw [exec_chatterDecay hr, if_pos (decaysNext_iff.2 hd), exec_frameBoundary hr, steady]
  · have handled_eq := handlePositions_idle (mask := s.scan.settings.mask) (readings := readings) (s := begun)
      (by rwa [samples]) hk hl
    rw [samples] at handled_eq
    refine ⟨?_, handled_eq⟩
    have released : ∀ k ∈ handled.keys.entries, k.pressed = false := by
      show ∀ k ∈ (handlePositions frame begun).keys.entries, k.pressed = false
      rw [handled_eq, State.setKeys_keys]
      intro k hk'
      obtain ⟨p, _, rfl⟩ := List.mem_map.1 hk'
      split <;> exact KeyTable.at_released hk p
    simp only [quiet, Bool.and_eq_true, Bool.not_eq_true', List.all_eq_true]
    exact ⟨by simpa using hf, released⟩

end Sys2Proof.Proofs
end

section
/-! The timers of the key path: frame timer, sense lines, chatter decay, wake timers, repeat interval. -/

namespace Sys2Proof.Machine

open Sys2Proof.Claims

/-! ### What each expiry answers -/

theorem exec_frameTimerExpiry_due {s : State} (h : s.inReset = false) {e : Time} (ht : s.scan.timer = some e)
    (hm : s.scan.mode = .scanning) (hd : due e s.ms = true) :
    exec .frameTimerExpiry s = .next (endEvent (frameTimerExpired e s)) := by
  show execFrameTimerExpiry s = _
  rw [execFrameTimerExpiry, event_next h]
  simp only [ht]
  rw [if_pos ⟨hm, hd⟩]

theorem exec_frameTimerExpiry_not_scanning {s : State} (h : s.inReset = false) (hm : s.scan.mode ≠ .scanning) :
    exec .frameTimerExpiry s = .next (endEvent s) := by
  show execFrameTimerExpiry s = _
  rw [execFrameTimerExpiry, event_next h]
  cases s.scan.timer <;> simp [hm]

theorem exec_senseLineActive {s : State} (h : s.inReset = false) :
    exec .senseLineActive s = .next (endEvent (if s.scan.mode = .watch then frameStart s else s)) := by
  show execSenseLineActive s = _
  rw [execSenseLineActive, event_next h]

theorem exec_wakeHoldExpiry_due {s : State} (h : s.inReset = false) {a : WakeArm} (ha : s.wake.timer = some a)
    (hd : due a.expiry s.ms = true) :
    exec .wakeHoldExpiry s = .next (endEvent
      (if stillHeld a s && wakeApplies s then assertWake a.expiry (s.setWake { s.wake with timer := none })
        else s.setWake { s.wake with timer := none })) := by
  show execWakeHoldExpiry s = _
  rw [execWakeHoldExpiry, event_next h]
  simp only [ha, hd, if_true]

theorem exec_wakeLimitExpiry_due {s : State} (h : s.inReset = false) {e : Time} (he : s.wake.line = some e)
    (hd : due e s.ms = true) :
    exec .wakeLimitExpiry s = .next (endEvent (s.setWake { s.wake with line := none })) := by
  show execWakeLimitExpiry s = _
  rw [execWakeLimitExpiry, event_next h]
  simp only [he, hd, if_true]

theorem exec_repeatIntervalExpiry_due {s : State} (h : s.inReset = false) {r : Repeating} (hr : s.rep.running = some r)
    (hd : due r.expiry s.ms = true) :
    exec .repeatIntervalExpiry s = .next (endEvent (repeatExpired r s)) := by
  show execRepeatIntervalExpiry s = _
  rw [execRepeatIntervalExpiry, event_next h]
  simp only [hr, hd, if_true]

/-! ### Frame timer (R4) -/

theorem frameTimerExpired_begins (e : Time) {s : State} (h : s.scan.pass = false) :
    frameTimerExpired e s =
      s.setScan { s.scan with timer := some (after e s.scan.settings.period), pass := true } := by
  simp [frameTimerExpired, h]

theorem frameTimerExpired_skips (e : Time) {s : State} (h : s.scan.pass = true) :
    frameTimerExpired e s =
      let t := s.setScan { s.scan with timer := some (after e s.scan.settings.period), skipped := min (s.scan.skipped + 1) 65535 }
      if min (s.scan.skipped + 1) 65535 = s.scan.skipped then t else touchStatus t := by
  simp [frameTimerExpired, h, satSucc, countMax]

/-! ### Wake (R90, R91) -/

theorem stillHeld_iff {a : WakeArm} {s : State} :
    stillHeld a s = true ↔ ∃ l, (s.entry a.position).cond = .down l ∧ l.pressTime = a.pressTime := by
  unfold stillHeld
  cases (s.entry a.position).cond <;> simp

theorem wakeApplies_iff {s : State} : wakeApplies s = true ↔ s.latch.state ≠ .empty ∧ s.link ≠ .active := by
  simp [wakeApplies]

/-! ### The repeat handed on (R62, R88) -/

/-- A repeat goes to the tablet by the latched route, then to the dock with PANEL_UP or PANEL_DOWN. -/
theorem dispatchRepeat_down (p n : Nat) (t : Time) {s : State} {l : Latched} (h : (s.entry p).cond = .down l) :
    dispatchRepeat p n t s =
      let u := if l.owned then append { time := t, body := .keyRepeat p l.code n } s else s
      if l.route.dock && (l.code == 497 || l.code == 498) then panelStep l.code t u else u := by
  unfold dispatchRepeat
  rw [h]

/-- The step action with its LOCAL record, on a state with the lighting of another (R61, R168). -/
theorem panelStep_eq (code : Nat) (t : Time) {s u : State} (h : u.light = s.light) :
    panelStep code t u =
      let step := if code = 497 then min (s.light.panel.step + 1) 15 else s.light.panel.step - 1
      append { time := t, body := .dockLocal code step }
        (if step = s.light.panel.step then u
        else { u with light := { s.light with panel := { s.light.panel with step := step } }, statusDirty := true }) := by
  unfold panelStep localRecord setPanelStep
  rw [h]
  rfl

end Sys2Proof.Machine

namespace Sys2Proof.Proofs

open Sys2Proof.Machine Sys2Proof.Claims

/-- Settles O37, timer by timer. -/
theorem timersOfTheKeyPath : Obligations.TimersOfTheKeyPath := by
  intro s e hr restarted
  refine ⟨fun hm ht hd => ⟨fun hp => ?_, fun hp hs => ?_, fun hp hs => ?_⟩, exec_frameTimerExpiry_not_scanning hr,
    fun hm => ?_, fun hm => ?_, ?_, fun a ha hd => ?_, exec_wakeLimitExpiry_due hr, fun r l hrun hd hl => ?_⟩
  · rw [exec_frameTimerExpiry_due hr ht hm hd, frameTimerExpired_begins e hp]
    rfl
  · rw [exec_frameTimerExpiry_due hr ht hm hd, frameTimerExpired_skips e hp, Nat.min_eq_left (by omega),
      if_neg (by omega)]
    rfl
  · rw [exec_frameTimerExpiry_due hr ht hm hd, frameTimerExpired_skips e hp]
    have full : min (s.scan.skipped + 1) 65535 = s.scan.skipped := by omega
    simp only [full, if_true]
    rfl
  · rw [exec_senseLineActive hr, if_pos hm]
    rfl
  · rw [exec_senseLineActive hr, if_neg hm]
  · intro decays running
    refine ⟨fun h => ?_, fun h => ?_, fun h k _ => ?_, fun h => ?_⟩
    · rw [countFrame_eq, KeyTable.counted, if_neg (by omega)]
      rfl
    · rw [countFrame_eq, KeyTable.counted, if_pos (by omega)]
      rfl
    · obtain ⟨counter, score⟩ := takeFrame_steady false h k
      have f := endEvent_frame (takeFrame (steadyFrame s) false s)
      refine ⟨endEvent (takeFrame (steadyFrame s) false s), ?_, (congrArg _ (f.keys (by decide))).trans counter,
        fun p _ => by rw [f.entry, score]⟩
      rw [exec_chatterDecay hr, if_pos (decaysNext_iff.2 k)]
    · rw [exec_chatterDecay hr]
      by_cases k : decays
      · rw [if_pos (decaysNext_iff.2 k), takeFrame_idle _ _ fun n => h ⟨n, k⟩]
      · rw [if_neg (mt decaysNext_iff.1 k)]
  · intro held applies
    have asserts : (stillHeld a s && wakeApplies s) = true ↔ held ∧ applies := by
      rw [Bool.and_eq_true, stillHeld_iff, wakeApplies_iff]
    rw [exec_wakeHoldExpiry_due hr ha hd]
    refine ⟨fun h => ?_, fun h => ?_⟩
    · rw [if_pos (asserts.2 h)]
      rfl
    · rw [if_neg (mt asserts.1 h)]
      rfl
  · intro n counted u step lit
    rw [exec_repeatIntervalExpiry_due hr hrun hd]
    have expired : repeatExpired r s = dispatchRepeat r.position n r.expiry counted := rfl
    have owned : l.owned = true ↔ l.route.forward = true ∧ l.orphaned = false := by simp [Latched.owned]
    have handed :
        (if l.owned then append { time := r.expiry, body := .keyRepeat r.position l.code n } counted else counted) = u :=
      if_congr owned rfl rfl
    have light : u.light = s.light := by
      rw [← handed]
      split
      · exact (append_frame _ _).light (by decide)
      · rfl
    have steps : (l.route.dock && (l.code == 497 || l.code == 498)) = true ↔
        l.route.dock = true ∧ (l.code = 497 ∨ l.code = 498) := by simp
    rw [expired, dispatchRepeat_down _ _ _ (s := counted) hl]
    simp only [handed, panelStep_eq l.code r.expiry light]
    exact congrArg (fun t => Host.Outcome.next (endEvent t)) (if_congr steps rfl rfl)

end Sys2Proof.Proofs
end

section
/-! The key table, the lighting controller and the lost link: every step keeps their invariants (chapters 2, 10 and 11). -/

namespace Sys2Proof.Machine

/-! ### The key table and the lighting controller -/

theorem step_keysOk {s t : State} (hs : KeysOk s.keys) (h : step s = .next t) : KeysOk t.keys :=
  step_keeps (P := fun s => KeysOk s.keys) (fun _ _ k => k) (fun _ _ k => k) reset_keysOk (fun _ _ _ _ _ _ k => k)
    (fun _ _ _ c _ k => c.keeps_keys k) h hs

theorem step_heldOk {s t : State} (hs : HeldOk s) (h : step s = .next t) : HeldOk t :=
  step_keeps (fun _ _ k => k) (fun _ _ k => k) (reset_heldForward.trans_le (Nat.zero_le _)) (fun _ _ _ _ _ _ k => k)
    (fun _ _ _ c _ k => c.keeps_held k) h hs

/-- The release of power reset fills the 8 ambient readings and keeps the other ranges (R171). -/
theorem releaseReset_lightOk (p l b : Bool) (a : Nat) {s : State} (h : LightOk s.light) :
    LightOk (releaseReset p l b a s).light := by
  obtain ⟨steps, outputs, levels, limits, -⟩ := h
  exact ⟨steps, outputs, levels, limits, List.length_replicate⟩

theorem step_lightOk {s t : State} (hs : LightOk s.light) (h : step s = .next t) : LightOk t.light :=
  step_keeps (P := fun s => LightOk s.light) (fun _ _ k => k) (fun _ _ k => k) reset_lightOk
    (fun _ p l b a _ k => releaseReset_lightOk p l b a k) (fun _ _ _ c _ k => c.keeps_light k) h hs

/-! ### The lost link -/

/-- While the link is DOWN nothing is the tablet's; the key table's ranges are what a lost link counts on to reach every
entry (R29). -/
theorem step_orphanOk {s t : State} (hs : KeysOk s.keys ∧ OrphanOk s) (h : step s = .next t) :
    KeysOk t.keys ∧ OrphanOk t :=
  step_keeps (P := fun s => KeysOk s.keys ∧ OrphanOk s) (fun _ _ k => k) (fun _ _ k => k)
    ⟨reset_keysOk, fun _ => reset_heldForward⟩ (fun _ _ _ _ _ _ k => k) (fun _ _ _ c _ k => c.keeps_orphan k) h hs

theorem step_attentionOk {s t : State} (hs : AttentionOk s) (h : step s = .next t) : AttentionOk t :=
  step_keeps (fun _ _ k => k) (fun _ _ k => k) nofun (fun _ _ _ _ _ _ k => k) (fun _ _ _ c _ k => c.keeps_attention k) h hs

theorem step_vectorOk {s t : State} (hs : VectorOk s) (h : step s = .next t) : VectorOk t :=
  step_keeps (fun _ _ k => k) (fun _ _ k => k) nofun (fun _ _ _ _ _ _ k => k) (fun _ _ _ c _ k => c.keeps_vector k) h hs

end Sys2Proof.Machine

namespace Sys2Proof.Proofs

open Sys2Proof.Machine

/-- Settles O11: each invariant is kept by every change that a step can make; the target duties follow from the ranges of
the lighting controller. -/
theorem stepKeepsTheKeyTable : Obligations.StepKeepsTheKeyTable := by
  intro s t h
  refine ⟨fun hs => step_keysOk hs h, fun hs => step_heldOk hs h, fun hs => ?_⟩
  have light := step_lightOk hs h
  exact ⟨light, targetDuty_le light _ _, targetDuty_le light _ _, targetDuty_le light _ _⟩

/-- Settles O12, invariant by invariant; what orphaning a lost link's entries leaves rests on the full key table. -/
theorem stepKeepsNothingForTheTabletWhileDown : Obligations.StepKeepsNothingForTheTabletWhileDown := by
  intro s t keys orphan attention vector h
  obtain ⟨keys', orphan'⟩ := step_orphanOk ⟨keys, orphan⟩ h
  exact ⟨keys', orphan', step_attentionOk attention h, step_vectorOk vector h⟩

end Sys2Proof.Proofs
end

section
/-! The ghost check (R24). -/

namespace Sys2Proof.Machine

theorem readsDown_iff {f : List Sample} {p : Nat} : readsDown f p = true ↔ f[p]? = some .downRead := by
  unfold readsDown
  rw [List.getD_eq_getElem?_getD, beq_iff_eq]
  cases f[p]? <;> simp

/-- The ghost check of position `8 * d + k`, its drive line `d` and its sense line `k` (R1, R24). -/
theorem ghostPasses_eq_false_iff (f : List Sample) {d k : Nat} (hk : k < 8) :
    ghostPasses f (8 * d + k) = false ↔
      ∃ d' < 18, d' ≠ d ∧ readsDown f (8 * d' + k) = true ∧
        ∃ k' < 8, k' ≠ k ∧ readsDown f (8 * d + k') = true ∧ readsDown f (8 * d' + k') = true := by
  have line : (8 * d + k) / 8 = d := by omega
  have sense : (8 * d + k) % 8 = k := by omega
  unfold ghostPasses
  simp [line, sense, and_assoc]

end Sys2Proof.Machine

namespace Sys2Proof.Proofs

open Sys2Proof.Machine

/-- Settles O39: the two searches of the check range over the drive and the sense lines. -/
theorem ghostCheckRule : Obligations.GhostCheckRule := by
  intro f d k _ hk
  simp only [ghostPasses_eq_false_iff f hk, readsDown_iff]
  constructor
  · rintro ⟨d', hd', nd, corner, k', hk', nk, along, across⟩
    exact ⟨d', k', hd', nd, hk', nk, along, corner, across⟩
  · rintro ⟨d', k', hd', nd, hk', nk, along, corner, across⟩
    exact ⟨d', hd', nd, corner, k', hk', nk, along, across⟩

end Sys2Proof.Proofs
end

section
/-! SET_FILTER and CLEAR_QUARANTINE (R37, R38). -/

namespace Sys2Proof.Machine

open Sys2Proof.Claims

/-! ### SET_FILTER -/

/-- The settings that SET_FILTER's parameters give (R37, Table 2-2). -/
def askedFilter (ps : List Word) : FilterSettings :=
  { press := clamp 1 8 (param ps 1), release := clamp 1 8 (param ps 2)
    limit := clamp 4 30 (param ps 3), decay := clamp 8 255 (param ps 4) }

theorem setFilter_eq (ps : List Word) (s : State) :
    setFilter ps s =
      (s.setKeys { s.keys with
          entries := s.keys.entries.map fun e => { e with score := min e.score (askedFilter ps).limit }
          settings := askedFilter ps },
        { code := okUnless ((askedFilter ps).press ≠ param ps 1 ∨ (askedFilter ps).release ≠ param ps 2 ∨
          (askedFilter ps).limit ≠ param ps 3 ∨ (askedFilter ps).decay ≠ param ps 4) }) := by
  have code := okIf_eq_okUnless ((askedFilter ps).press == param ps 1 && (askedFilter ps).release == param ps 2 &&
      (askedFilter ps).limit == param ps 3 && (askedFilter ps).decay == param ps 4)
    ((askedFilter ps).press ≠ param ps 1 ∨ (askedFilter ps).release ≠ param ps 2 ∨
      (askedFilter ps).limit ≠ param ps 3 ∨ (askedFilter ps).decay ≠ param ps 4) (by simp [and_assoc])
  rw [← code]
  rfl

/-! ### CLEAR_QUARANTINE -/

theorem clearEntry_not_quarantined (e : KeyEntry) : (clearEntry e).cond ≠ .quarantined := by
  unfold clearEntry
  split
  · simp
  · assumption

/-- After every entry is cleared none is QUARANTINED (R38). -/
theorem quarantinedCount_clearAll (k : KeyTable) :
    KeyTable.quarantinedCount { k with entries := k.entries.map clearEntry } = 0 := by
  refine List.countP_eq_zero.2 fun e he => ?_
  obtain ⟨x, _, rfl⟩ := List.mem_map.1 he
  simpa using clearEntry_not_quarantined x

/-- Clearing one entry takes it from the quarantined count, if it was counted (R35, R38). -/
theorem quarantinedCount_clear (k : KeyTable) {p : Nat} (h : p < k.entries.length) :
    k.quarantinedCount - (k.put p (clearEntry (k.at p))).quarantinedCount =
      if (k.at p).cond = .quarantined then 1 else 0 := by
  have at_p : k.at p = k.entries[p] := by simp [KeyTable.at, h]
  have counted : (k.at p).cond = .quarantined → 0 < k.quarantinedCount := fun hq =>
    List.countP_pos_iff.2 ⟨k.entries[p], List.getElem_mem h, by simpa [at_p] using hq⟩
  have left : (k.put p (clearEntry (k.at p))).quarantinedCount =
      k.quarantinedCount - if (k.at p).cond = .quarantined then 1 else 0 := by
    simp [KeyTable.quarantinedCount, KeyTable.put, List.countP_set h, at_p, clearEntry_not_quarantined]
  rw [left]
  split
  · have := counted ‹_›
    omega
  · omega

theorem clearQuarantine_all {ps : List Word} (s : State) (h : param ps 1 = 255) :
    clearQuarantine ps s = (touchStatus (mapEntries clearEntry s), { code := .ok, words := [s.keys.quarantinedCount] }) := by
  have none_left : (mapEntries clearEntry s).keys.quarantinedCount = 0 := quarantinedCount_clearAll s.keys
  unfold clearQuarantine
  simp only [h, if_true, or_true, none_left, Nat.sub_zero]

theorem clearQuarantine_one {ps : List Word} {s : State} (hl : s.keys.entries.length = 144) (h : param ps 1 < 144) :
    clearQuarantine ps s =
      (touchStatus (s.putEntry (param ps 1) (clearEntry (s.entry (param ps 1)))),
        { code := .ok, words := [if (s.entry (param ps 1)).cond = .quarantined then 1 else 0] }) := by
  unfold clearQuarantine
  dsimp only
  rw [if_pos (.inl h), if_neg (show param ps 1 ≠ 255 by omega), State.putEntry_eq, State.setKeys_keys, State.entry_eq,
    quarantinedCount_clear s.keys (by omega)]

theorem clearQuarantine_refused {ps : List Word} (s : State) (h : 144 ≤ param ps 1) (k : param ps 1 ≠ 255) :
    clearQuarantine ps s = refuse .errParam s := by
  unfold clearQuarantine
  dsimp only
  rw [if_neg (by omega)]

end Sys2Proof.Machine

namespace Sys2Proof.Proofs

open Sys2Proof.Machine Sys2Proof.Claims

/-- Settles O31: the settings asked for, and the entry or entries cleared with what the quarantined count loses. -/
theorem filterAndQuarantineRequests : Obligations.FilterAndQuarantineRequests := by
  refine ⟨fun s q hq => ?_, fun s q hq hl => ?_⟩
  · show event (request 2 4 setFilter) s = _
    rw [event_request hq, setFilter_eq]
    rfl
  · intro p cleared
    have answers : exec .clearQuarantine s = event (request 3 1 clearQuarantine) s := rfl
    rw [answers, event_request hq]
    refine ⟨fun h => ?_, fun h => ?_, fun h k => ?_⟩
    · rw [clearQuarantine_one hl h]
      rfl
    · rw [clearQuarantine_all s h]
      rfl
    · rw [clearQuarantine_refused s h k]
      rfl

end Sys2Proof.Proofs
end

section
/-! The keymap lookup and the route of a press (chapters 3 and 4). -/

namespace Sys2Proof.Machine

/-! ### What the entries hold -/

/-- Some entry is DOWN with a latched part of this kind. -/
def KeyTable.HeldWith (k : KeyTable) (P : Latched → Prop) : Prop := ∃ e ∈ k.entries, ∃ l, e.cond = .down l ∧ P l

theorem KeyEntry.layerKey_iff {e : KeyEntry} :
    e.layerKey = true ↔ ∃ l, e.cond = .down l ∧ l.code = 496 ∧ l.route.dock = true := by
  unfold KeyEntry.layerKey
  cases e.cond <;> simp [codeFN]

/-- The layer in force is FN exactly while a layer key is held (R44). -/
theorem layer_eq_fn_iff (k : KeyTable) : k.layer = .fn ↔ k.HeldWith fun l => l.code = 496 ∧ l.route.dock = true := by
  unfold KeyTable.layer KeyTable.HeldWith
  simp only [← KeyEntry.layerKey_iff, ← List.any_eq_true]
  split <;> simp_all

theorem holdsCode_iff (k : KeyTable) (c : Nat) : k.holdsCode c = true ↔ k.HeldWith fun l => l.code = c := by
  unfold KeyTable.holdsCode KeyTable.HeldWith
  rw [List.any_eq_true]
  refine exists_congr fun e => and_congr_right fun _ => ?_
  cases e.cond <;> simp

/-! ### The lookup (R46) -/

theorem lookup_base {s : State} {p : Nat} (h : s.keys.layer ≠ .fn ∨ s.keymap.fn.getD p 0 = 0) :
    lookup s p = (s.keymap.base.getD p 0, .base) := by
  unfold lookup
  split
  · rfl
  · rw [if_pos (h.resolve_left (not_not_intro ‹_›))]

theorem lookup_fn {s : State} {p : Nat} (h : s.keys.layer = .fn) (k : s.keymap.fn.getD p 0 ≠ 0) :
    lookup s p = (s.keymap.fn.getD p 0, .fn) := by
  unfold lookup
  rw [h]
  exact if_neg k

/-! ### The chord completed (R79) -/

theorem completes_iff (k : KeyTable) (c : Nat) (codes : List Nat) :
    completes k c codes = true ↔ c ∈ codes ∧ ∀ d ∈ codes, d ≠ c → k.HeldWith fun l => l.code = d := by
  unfold completes
  simp only [Bool.and_eq_true, List.contains_iff_mem, List.all_eq_true, Bool.or_eq_true, beq_iff_eq, holdsCode_iff,
    or_iff_not_imp_left]

/-- The press completes chord entry `k` (R79). -/
def Completed (s : State) (c k : Nat) : Prop :=
  c ∈ s.chords.entries.getD k [] ∧ ∀ d ∈ s.chords.entries.getD k [], d ≠ c → s.keys.HeldWith fun l => l.code = d

theorem completedChord_eq_none_iff (s : State) (c : Nat) : completedChord s c = none ↔ ∀ k, k < 4 → ¬Completed s c k := by
  unfold completedChord Completed
  simp only [List.find?_eq_none, List.mem_range, completes_iff]

/-- Of several completed entries the one of lowest index counts. -/
theorem completedChord_eq_some {s : State} {c k : Nat} (h : k < 4) (hk : Completed s c k)
    (first : ∀ j, j < k → ¬Completed s c j) : completedChord s c = some k := by
  unfold completedChord
  rw [List.find?_range_eq_some]
  refine ⟨(completes_iff _ _ _).2 hk, List.mem_range.2 h, fun j hj => ?_⟩
  simpa using mt (completes_iff _ _ _).1 (first j hj)

/-! ### The route, rule by rule (R57) -/

/-- No attention, and no chord that the press completes: the segment of the code decides. -/
def NoChord (s : State) (c : Nat) : Prop :=
  s.chords.attention = none ∧ (s.link = .down ∨ ∀ k, k < 4 → ¬Completed s c k)

theorem routeOf_attention {s : State} (c : Nat) (h : s.chords.attention.isSome = true) :
    routeOf s c = { route := .swallow, withheld := .none, chord := none } := by
  unfold routeOf
  exact if_pos h

theorem routeOf_completes {s : State} {c k : Nat} (h : s.chords.attention = none) (hl : s.link ≠ .down)
    (hc : completedChord s c = some k) :
    routeOf s c = { route := { Route.swallow with chord := true }, withheld := .none, chord := some k } := by
  unfold routeOf
  simp [h, hl, hc]

theorem routeOf_noChord {s : State} {c : Nat} (h : NoChord s c) :
    routeOf s c =
      if c = 0 then { route := .swallow, withheld := .none, chord := none } else segmentRoute s (segmentOf s c) := by
  obtain ⟨attention, chord⟩ := h
  have none_completed : (if s.link = .down then none else completedChord s c) = none := by
    split
    · rfl
    · exact (completedChord_eq_none_iff s c).2 (chord.resolve_left ‹_›)
  unfold routeOf
  simp [attention, none_completed]

/-- A press that completes no chord, of a code other than 0: the segment's parts, forward without what withholds it. -/
theorem routeOf_segment {s : State} {c : Nat} (h : NoChord s c) (hc : c ≠ 0) {w : Withheld} {forward : Bool}
    (hw : withheldBy s (segmentOf s c) = w) (hf : ((segmentOf s c).forward && w == .none) = forward) :
    routeOf s c =
      { route := { forward := forward, dock := (segmentOf s c).dock, hold := (segmentOf s c).hold, chord := false }
        withheld := w, chord := none } := by
  rw [routeOf_noChord h, if_neg hc, ← hf, ← hw]
  rfl

/-! What withholds forward (R57, steps 6 to 8) -/

theorem withheldBy_local {s : State} {g : Segment} (h : g.forward = false) : withheldBy s g = .none := by
  simp [withheldBy, h]

theorem withheldBy_lockout {s : State} {g : Segment} (h : g.forward = true) (k : g.hold = true ∧ s.motion.lockout = true) :
    withheldBy s g = .lockout := by
  simp [withheldBy, h, k]

theorem withheldBy_rest {s : State} {g : Segment} (h : g.forward = true) (k : ¬(g.hold = true ∧ s.motion.lockout = true)) :
    withheldBy s g = if rolloverLimit ≤ s.keys.heldForward then .rollover else if s.link = .down then .undocked else .none := by
  have stopped : (g.hold && s.motion.lockout) = false := by simpa using k
  simp [withheldBy, h, stopped]

theorem segmentOf_getElem? {s : State} {c : Nat} (h : c < 512) (k : s.steer.table.length = 32) :
    s.steer.table[c / 16]? = some (segmentOf s c) := by
  have hc : c / 16 < s.steer.table.length := by omega
  simp [segmentOf, hc]

theorem heldForward_eq (k : KeyTable) : k.heldForward = k.entries.countP fun e =>
    match e.cond with | .down l => l.route.forward && !l.orphaned | _ => false := by
  refine congrArg k.entries.countP (funext fun e => ?_)
  unfold KeyEntry.owned Latched.owned
  cases e.cond <;> rfl

end Sys2Proof.Machine

namespace Sys2Proof.Proofs

open Sys2Proof.Machine

/-- Settles O41: the views of the key table that lookup and route read, then the route rule by rule. -/
theorem lookupAndRoute : Obligations.LookupAndRoute := by
  intro s heldWith
  refine ⟨fun c => segmentOf_getElem?, heldForward_eq s.keys, ?_, ?_⟩
  · intro p base fn layerFn
    have layer : s.keys.layer = .fn ↔ layerFn := layer_eq_fn_iff s.keys
    exact ⟨fun h => lookup_base (h.imp_left (mt layer.1)), fun h k => lookup_fn (layer.2 h) k⟩
  intro c g codes completed swallowed routed noChord stopped
  refine ⟨routeOf_attention c, ?_, ?_, ?_, ?_, ?_, ?_, ?_⟩
  · intro h hl k hk hc first
    exact routeOf_completes h hl (completedChord_eq_some hk hc first)
  · intro h hc
    exact (routeOf_noChord h).trans (if_pos hc)
  · intro h hc hf
    exact routeOf_segment h hc (withheldBy_local hf) (by simp [show (segmentOf s c).forward = false from hf])
  · intro h hc hf hs
    exact routeOf_segment h hc (withheldBy_lockout hf hs) (by simp)
  · intro h hc hf hs hr
    exact routeOf_segment h hc ((withheldBy_rest hf hs).trans (if_pos hr)) (by simp)
  · intro h hc hf hs hr hl
    exact routeOf_segment h hc ((withheldBy_rest hf hs).trans ((if_neg (Nat.not_le.2 hr)).trans (if_pos hl))) (by simp)
  · intro h hc hf hs hr hl
    exact routeOf_segment h hc ((withheldBy_rest hf hs).trans ((if_neg (Nat.not_le.2 hr)).trans (if_neg hl)))
      (by simp [show (segmentOf s c).forward = true from hf])

end Sys2Proof.Proofs
end

section
/-! The changes of the link (R181): LOW_POWER and back, and the loss of the link. -/

namespace Sys2Proof.Machine

open Sys2Proof.Claims

/-! ### LOW_POWER and back -/

theorem bringActive_eq (s : State) :
    bringActive s =
      { s with
        link := .active
        wake := { s.wake with timer := none, line := none }
        irq := if s.irq.held then { s.irq with held := false, sent := s.irq.sent + 1 } else s.irq } := by
  unfold bringActive sendHeldVector releaseWake
  cases h : s.irq.held <;> simp [h] <;> rfl

/-! ### Orphaning (R29) -/

/-- An entry that the tablet had, orphaned; another as it was. -/
def KeyEntry.orphaned (e : KeyEntry) : KeyEntry :=
  match e.cond with
  | .down l => { e with cond := .down { l with orphaned := l.orphaned || l.route.forward } }
  | _ => e

theorem KeyEntry.orphaned_orphaned (e : KeyEntry) : e.orphaned.orphaned = e.orphaned := by
  unfold KeyEntry.orphaned
  cases h : e.cond <;> simp [h]

theorem KeyEntry.orphaned_of_owned {e : KeyEntry} {l : Latched} (h : e.cond = .down l) (k : l.owned = true) :
    e.orphaned = { e with cond := .down { l with orphaned := true } } := by
  have forward : l.route.forward = true := by simp [Latched.owned] at k; exact k.1
  simp [KeyEntry.orphaned, h, forward]

theorem KeyEntry.orphaned_of_not_owned {e : KeyEntry} (h : e.owned = false) : e.orphaned = e := by
  unfold KeyEntry.owned at h
  unfold KeyEntry.orphaned
  split
  · rename_i l hl
    rw [hl] at h
    have same : (l.orphaned || l.route.forward) = l.orphaned := by
      revert h
      cases hf : l.route.forward <;> cases ho : l.orphaned <;> simp [Latched.owned, hf, ho]
    rw [same, ← hl]
  · rfl

theorem orphan_keys_eq (p : Nat) (s : State) : (orphan p s).keys = s.keys.put p (s.entry p).orphaned := by
  cases ho : (s.entry p).owned with
  | false =>
    rw [KeyEntry.orphaned_of_not_owned ho, State.entry_eq, KeyTable.put_at]
    unfold orphan
    dsimp only
    split
    · rename_i l hl
      have : l.owned = false := by simpa [KeyEntry.owned, hl] using ho
      simp [this]
    · rfl
  | true =>
    obtain ⟨l, hl⟩ : ∃ l, (s.entry p).cond = .down l := by
      revert ho
      unfold KeyEntry.owned
      cases (s.entry p).cond <;> simp
    have own : l.owned = true := by simpa [KeyEntry.owned, hl] using ho
    rw [KeyEntry.orphaned_of_owned hl own]
    unfold orphan
    simp only [hl, own, if_true]
    rw [(stopRepeatOf_frame _ _).keys (by decide)]
    rfl

/-- A change of all positions is a change of every entry. -/
theorem KeyTable.mapAt_all (k : KeyTable) (ps : List Nat) (f : KeyEntry → KeyEntry) (h : ∀ p, p < k.entries.length → p ∈ ps) :
    k.mapAt ps f = { k with entries := k.entries.map f } := by
  unfold KeyTable.mapAt
  congr 1
  refine List.ext_getElem (by simp) fun p hp _ => ?_
  have hk : p < k.entries.length := by simpa using hp
  simp [h p hk]

theorem forPositions_orphan_frame (ps : List Nat) (s : State) : Frame [.keys, .rep] s (forPositions ps orphan s) :=
  (forPositions_way ps orphan s fun p _ u => .one (.orphan p)).sameFields

theorem forPositions_orphan_keys (ps : List Nat) (s : State) :
    (forPositions ps orphan s).keys = s.keys.mapAt ps KeyEntry.orphaned := by
  induction ps generalizing s with
  | nil => exact (s.keys.mapAt_nil _).symm
  | cons p ps ih =>
    show (forPositions ps orphan (orphan p s)).keys = _
    rw [ih, orphan_keys_eq, State.entry_eq, KeyTable.mapAt_put _ _ _ _ KeyEntry.orphaned_orphaned]

theorem forPositions_orphan_rep (ps : List Nat) (s : State) :
    ∃ stops, (forPositions ps orphan s).rep = s.rep.stopAt stops := by
  induction ps generalizing s with
  | nil => exact ⟨fun _ => false, (s.rep.stopAt_none _ fun _ => rfl).symm⟩
  | cons p ps ih =>
    obtain ⟨stops, h⟩ := ih (orphan p s)
    exact ⟨_, by
      show (forPositions ps orphan (orphan p s)).rep = _
      rw [h, orphan_rep, RepeatTimer.stopAt_stopAt]⟩

/-! ### The loss of the link -/

/-- The event log DORMANT and every entry that the tablet had orphaned (R29, R117). -/
def dropKeys (s : State) : State := forPositions positions orphan (logLinkDown (s.setLink .down))

theorem dropKeys_frame (s : State) : Frame [.link, .log, .keys, .rep, .statusDirty] s (dropKeys s) :=
  (((setLink_frame s _).mono rfl).next (logLinkDown_frame _) rfl).next (forPositions_orphan_frame _ _) rfl

theorem dropAttention_frame (s : State) : Frame [.chords, .statusDirty] s (dropAttention s) :=
  (dropAttention_way s).sameFields

theorem dropAttention_chords (s : State) : (dropAttention s).chords = { s.chords with attention := none } := by
  unfold dropAttention
  split
  · rfl
  · rename_i h
    have none_active : s.chords.attention = none := by simpa using h
    rw [← none_active]

theorem dropAttention_statusDirty {s : State} (h : s.statusDirty = true) : (dropAttention s).statusDirty = true := by
  unfold dropAttention
  split
  · rfl
  · exact h

/-- Attention, repeat and the tablet's lamps ended (R85, R89, R164). -/
def dropSession (s : State) : State := (stopRepeat (dropAttention s)).setInd .allOff

theorem dropSession_frame (s : State) : Frame [.chords, .rep, .ind, .statusDirty] s (dropSession s) :=
  (((dropAttention_frame s).mono rfl).next (stopRepeat_way _).sameFields rfl).next (setInd_frame _ _) rfl

theorem dropSession_chords (s : State) : (dropSession s).chords = { s.chords with attention := none } :=
  dropAttention_chords s

theorem dropSession_rep (s : State) : (dropSession s).rep = { s.rep with running := none, count := 0 } := by
  have stopped : (dropSession s).rep = { (dropAttention s).rep with running := none, count := 0 } := rfl
  rw [stopped, (dropAttention_frame s).rep (by decide)]

theorem dropSession_statusDirty {s : State} (h : s.statusDirty = true) : (dropSession s).statusDirty = true :=
  dropAttention_statusDirty h

/-- A vector held over LOW_POWER is dropped (R183). -/
def dropVector (s : State) : State := s.setIrq { s.irq with held := false }

theorem goDown_eq (s : State) : goDown s = dropVector (evalShownSet s.ms (dropSession (dropKeys s))) := by
  unfold goDown dropVector dropSession dropKeys
  dsimp only

/-- What the loss of the link may change besides the legend strip and the held vector. -/
theorem dropSession_dropKeys_frame (s : State) :
    Frame [.link, .log, .keys, .chords, .rep, .ind, .statusDirty] s (dropSession (dropKeys s)) :=
  ((dropKeys_frame s).mono rfl).next (dropSession_frame _) rfl

/-- The end of the loss: the shown set and the held vector. -/
theorem goDown_last (s : State) : Frame [.legend, .irq] (dropSession (dropKeys s)) (goDown s) := by
  rw [goDown_eq]
  exact ((evalShownSet_frame s.ms _).mono rfl).next (setIrq_frame _ _) rfl

theorem goDown_lost (s : State) :
    Frame [.link, .log, .keys, .chords, .rep, .ind, .legend, .irq, .statusDirty] s (goDown s) :=
  ((dropSession_dropKeys_frame s).mono rfl).next (goDown_last s) rfl

theorem goDown_irq (s : State) : (goDown s).irq = { s.irq with held := false } := by
  have kept : (evalShownSet s.ms (dropSession (dropKeys s))).irq = s.irq := by
    rw [(evalShownSet_frame _ _).irq (by decide), (dropSession_dropKeys_frame s).irq (by decide)]
  rw [goDown_eq, dropVector, State.setIrq_irq, kept]

theorem goDown_link_log (s : State) : (goDown s).link = .down ∧ (goDown s).log = { s.log with
    live := false, page := none, waiting := none, queue := [], inLoss := false, lost := 0, flush := none } := by
  have w := (goDown_way s).sameFields
  rw [w.link (by decide), w.log (by decide)]
  exact ⟨rfl, rfl⟩

/-- The strip shows UNDOCKED (R158). -/
theorem goDown_shown (s : State) : (goDown s).legend.shown = .undocked := by
  have shown : ShownOk (goDown s) := by
    rw [goDown_eq]
    exact shown_of_frame (setIrq_frame _ _) (by decide) (evalShownSet_shown _ _)
  rw [shown, shownSetOf, if_pos (goDown_link_log s).1]

theorem goDown_keys {s : State} (h : s.keys.entries.length = 144) :
    (goDown s).keys = { s.keys with entries := s.keys.entries.map KeyEntry.orphaned } := by
  rw [(goDown_last s).keys (by decide), (dropSession_frame _).keys (by decide), dropKeys, forPositions_orphan_keys]
  exact s.keys.mapAt_all positions _ fun p hp => List.mem_range.2 (h ▸ hp)

theorem goDown_chords_eq (s : State) : (goDown s).chords = { s.chords with attention := none } := by
  rw [(goDown_last s).chords (by decide), dropSession_chords, (dropKeys_frame s).chords (by decide)]

theorem goDown_rep (s : State) : (goDown s).rep = { s.rep with running := none, count := 0 } := by
  obtain ⟨stops, h⟩ := forPositions_orphan_rep positions (logLinkDown (s.setLink .down))
  rw [(goDown_last s).rep (by decide), dropSession_rep, dropKeys, h,
    RepeatTimer.stop_stopAt]
  rfl

theorem goDown_statusDirty (s : State) : (goDown s).statusDirty = true := by
  have kept : (dropKeys s).statusDirty = true := (forPositions_orphan_frame _ _).statusDirty (by decide)
  rw [(goDown_last s).statusDirty (by decide)]
  exact dropSession_statusDirty kept

/-! ### The commands -/

theorem exec_linkLowPower {s : State} (h : s.inReset = false) :
    exec .linkLowPower s = .next (endEvent (if s.link = .active then s.setLink .lowPower else s)) :=
  event_next h fun s => if s.link = .active then s.setLink .lowPower else s

theorem exec_linkActive {s : State} (h : s.inReset = false) :
    exec .linkActive s = .next (endEvent (if s.link = .lowPower then bringActive s else s)) :=
  event_next h fun s => if s.link = .lowPower then bringActive s else s

theorem exec_linkDown {s : State} (h : s.inReset = false) :
    exec .linkDown s = .next (endEvent (if s.link = .down then s else goDown s)) :=
  event_next h fun s => if s.link = .down then s else goDown s

theorem exec_linkUp {s : State} (h : s.inReset = false) :
    exec .linkUp s = .next (endEvent (if s.link = .down then goUp s else s)) :=
  event_next h fun s => if s.link = .down then goUp s else s

end Sys2Proof.Machine

namespace Sys2Proof.Proofs

open Sys2Proof.Machine

/-- Settles O59: the commands where the link does not let them arise, the end of LOW_POWER in one state, and the loss of
the link field by field. -/
theorem linkChanges : Obligations.LinkChanges := by
  intro s hr hl
  refine ⟨fun h => ?_, fun h => ?_, fun h => ?_, fun h => ?_, fun h => ?_, fun h => ?_, fun h => ?_⟩
  · rw [exec_linkLowPower hr, if_pos h]
    rfl
  · rw [exec_linkLowPower hr, if_neg h]
  · rw [exec_linkActive hr, if_pos h, bringActive_eq]
  · rw [exec_linkActive hr, if_neg h]
  · rw [exec_linkDown hr, if_pos h]
  · rw [exec_linkUp hr, if_neg h]
  · obtain ⟨link, log⟩ := goDown_link_log s
    have f := goDown_lost s
    exact ⟨goDown s, by rw [exec_linkDown hr, if_neg h], link, log, goDown_keys hl, goDown_chords_eq s, goDown_rep s,
      (goDown_last s).ind (by decide), goDown_shown s, goDown_irq s, f.mem (by decide), f.wake (by decide),
      f.req (by decide), f.steer (by decide), f.scan (by decide), f.keymap (by decide), f.bus (by decide),
      f.motion (by decide), f.latch (by decide), f.light (by decide), f.supply (by decide), goDown_statusDirty s⟩

end Sys2Proof.Proofs
end

section
/-! One position of a frame (R20 to R34): the filter, the condition, the chatter score and the quarantine. -/

namespace Sys2Proof.Machine

open Sys2Proof.Claims

/-- What neither a position of a frame nor a change of motion has a part in. -/
theorem othersKept_of_frame {s t : State} (h : Frame pressTouched s t) : OthersKept s t :=
  ⟨h.inReset (by decide), h.ms (by decide), h.scan (by decide), h.keymap (by decide), h.bus (by decide),
    h.motion (by decide), h.ind (by decide), h.supply (by decide), h.link (by decide), h.req (by decide),
    h.changeCount (by decide), h.freeCount (by decide), h.pending (by decide)⟩

/-! ### The entry of a position -/

theorem entry_put_same {s : State} {p : Nat} (h : p < s.keys.entries.length) (x : KeyEntry) :
    (s.setKeys (s.keys.put p x)).entry p = x := s.keys.at_put_same x h

theorem put_entry_put (s : State) (p : Nat) (x y : KeyEntry) :
    (s.setKeys (s.keys.put p x)).putEntry p y = s.setKeys (s.keys.put p y) := by
  rw [State.putEntry_eq, State.setKeys_setKeys, State.setKeys_keys, KeyTable.put_put]

/-! ### The filter (R21) -/

/-- The threshold of the next transition (R21). -/
def FilterSettings.needed (g : FilterSettings) (e : KeyEntry) : Nat := if e.pressed then g.release else g.press

theorem filterSample_differs (g : FilterSettings) (e : KeyEntry) :
    filterSample g (if e.pressed then .upRead else .downRead) e =
      if g.needed e ≤ e.filter + 1 then ({ e with pressed := !e.pressed, filter := 0 }, true)
      else ({ e with filter := e.filter + 1 }, false) := by
  cases h : e.pressed <;> simp [filterSample, FilterSettings.needed, h]

/-! ### A frame without a transition (R23, R25) -/

/-- An entry that is not both PRESSED and reading down, or is DOWN or QUARANTINED, stays. -/
theorem withoutTransition_stays {f : List Sample} {p : Nat} {s : State}
    (h : ((s.entry p).pressed && readsDown f p) = false ∨ (s.entry p).cond = .quarantined ∨ (s.entry p).isDown = true) :
    withoutTransition f p s = s := by
  unfold withoutTransition
  dsimp only
  cases hc : (s.entry p).cond with
  | down l => rfl
  | quarantined => rfl
  | up =>
    have held : ((s.entry p).pressed && readsDown f p) = false := by
      simpa [hc, KeyEntry.isDown, KeyEntry.latched?] using h
    simp [held]
  | blocked =>
    have held : ((s.entry p).pressed && readsDown f p) = false := by
      simpa [hc, KeyEntry.isDown, KeyEntry.latched?] using h
    simp [held]

/-- An entry that is UP or BLOCKED with its switch held is tried as a press: a new one, and the re-check of a blocked one. -/
theorem withoutTransition_presses {f : List Sample} {p : Nat} {s : State}
    (h : ((s.entry p).pressed && readsDown f p) = true) (hc : (s.entry p).cond = .up ∨ (s.entry p).cond = .blocked) :
    withoutTransition f p s = takePress f p s := by
  unfold withoutTransition
  rcases hc with hc | hc
  · simp only [hc, h, if_true]
  · have same : s.putEntry p { s.entry p with cond := .blocked } = s := by
      rw [← hc, State.putEntry_eq, State.entry_eq, KeyTable.put_at, State.setKeys_self]
    unfold takePress
    simp only [hc, h, same, Bool.true_and]

/-! ### A transition (R22, R32, R34) -/

/-- The entry after an accepted transition (R21, R32). -/
def FilterSettings.moved (g : FilterSettings) (e : KeyEntry) : KeyEntry :=
  { e with pressed := !e.pressed, filter := 0, score := min (e.score + 1) g.limit }

/-- A position whose transition is accepted: quarantined at the score limit, else its condition follows. -/
theorem framePosition_moves {f : List Sample} {p : Nat} {s : State}
    (h : f.getD p .notSampled = if (s.entry p).pressed then .upRead else .downRead)
    (hn : s.keys.settings.needed (s.entry p) ≤ (s.entry p).filter + 1) :
    framePosition f p s =
      let u := s.setKeys (s.keys.put p (s.keys.settings.moved (s.entry p)))
      if (s.entry p).cond ≠ .quarantined ∧ s.keys.settings.limit ≤ (s.entry p).score + 1 then quarantine s.ms p u
      else atTransition f p u := by
  have limit : min ((s.entry p).score + 1) s.keys.settings.limit = s.keys.settings.limit ↔
      s.keys.settings.limit ≤ (s.entry p).score + 1 := by omega
  unfold framePosition
  rw [h, filterSample_differs, if_pos hn]
  simp only [limit, if_true]
  rfl

theorem atTransition_up {f : List Sample} {p : Nat} {s : State} (h : (s.entry p).cond = .up) :
    atTransition f p s = if (s.entry p).pressed then takePress f p s else s := by
  unfold atTransition
  simp only [h]

theorem atTransition_down {f : List Sample} {p : Nat} {s : State} {l : Latched} (h : (s.entry p).cond = .down l) :
    atTransition f p s = releaseEntry l s.ms p s := by
  unfold atTransition
  simp only [h]

theorem atTransition_blocked {f : List Sample} {p : Nat} {s : State} (h : (s.entry p).cond = .blocked) :
    atTransition f p s = s.putEntry p { s.entry p with cond := .up } := by
  unfold atTransition
  simp only [h]

theorem atTransition_quarantined {f : List Sample} {p : Nat} {s : State} (h : (s.entry p).cond = .quarantined) :
    atTransition f p s = s := by
  unfold atTransition
  simp only [h]

/-! ### Leaving DOWN: the normal release and the quarantine (R27, R34) -/

theorem RepeatTimer.stopAt_self (g : RepeatTimer) (p : Nat) :
    g.stopAt (· == p) = if g.running.map (·.position) = some p then { g with running := none, count := 0 } else g := by
  unfold RepeatTimer.stopAt
  cases g.running <;> simp

theorem leaveDown_rep (c : Condition) (t : Time) (p : Nat) (s : State) : (leaveDown c t p s).rep = s.rep.stopAt (· == p) := by
  unfold leaveDown
  rw [(evalShownSet_frame _ _).rep (by decide), stopRepeatOf_rep]
  rfl

/-- The record of a forced or a normal release rests on the condition alone. -/
theorem reportRelease_congr (cause : ReleaseCause) (t : Time) (p : Nat) {e e' : KeyEntry} (h : e'.cond = e.cond) (s : State) :
    reportRelease cause t p e' s = reportRelease cause t p e s := by
  unfold reportRelease
  rw [h]

/-- A normal release: the record of a press that is the tablet's, then UP (R27). -/
theorem releaseEntry_eq {p : Nat} {s : State} {l : Latched} (h : (s.entry p).cond = .down l) (t : Time) :
    releaseEntry l t p s = leaveDown .up t p (reportRelease .normal t p (s.entry p) s) := by
  unfold releaseEntry reportRelease
  rw [h]

theorem releaseEntry_keys {p : Nat} {s : State} {l : Latched} (h : (s.entry p).cond = .down l) (t : Time) :
    (releaseEntry l t p s).keys = s.keys.put p { s.entry p with cond := .up } := by
  have f := reportRelease_frame .normal t p (s.entry p) s
  rw [releaseEntry_eq h, leaveDown_keys, f.entry, f.keys (by decide)]

theorem releaseEntry_rep {p : Nat} {s : State} {l : Latched} (h : (s.entry p).cond = .down l) (t : Time) :
    (releaseEntry l t p s).rep = s.rep.stopAt (· == p) := by
  rw [releaseEntry_eq h, leaveDown_rep, (reportRelease_frame _ _ _ _ _).rep (by decide)]

theorem releaseEntry_report {p : Nat} {s : State} {l : Latched} (h : (s.entry p).cond = .down l) (t : Time) :
    SameReport (reportRelease .normal t p (s.entry p) s) (releaseEntry l t p s) := by
  rw [releaseEntry_eq h]
  exact (leaveDown_frame _ _ _ _).sameReport

theorem quarantine_keys {p : Nat} {s : State} (h : p < s.keys.entries.length) (t : Time) :
    (quarantine t p s).keys = s.keys.put p { s.entry p with cond := .quarantined } := by
  obtain ⟨c, hc⟩ := forceRelease_keys .quarantine t p s
  unfold quarantine
  dsimp only
  rw [(touchStatus_frame _).keys (by decide), (append_frame _ _).keys (by decide), leaveDown_keys, State.entry_eq, hc,
    KeyTable.put_put, KeyTable.at_put_same _ _ h]

theorem quarantine_rep (t : Time) (p : Nat) (s : State) : (quarantine t p s).rep = s.rep.stopAt (· == p) := by
  unfold quarantine
  dsimp only
  rw [(touchStatus_frame _).rep (by decide), (append_frame _ _).rep (by decide), leaveDown_rep, forceRelease_rep,
    RepeatTimer.stopAt_stopAt]
  congr 1
  funext q
  cases q == p <;> simp

/-- What a quarantine reports: the forced release of the entry, then KEY_FAULT with its score (R34). -/
theorem quarantine_report (t : Time) (p : Nat) (s : State) :
    SameReport (append { time := t, body := .keyFault p (s.entry p).score } (reportRelease .quarantine t p (s.entry p) s))
      (quarantine t p s) :=
  (((forceRelease_report .quarantine t p s).trans (leaveDown_frame _ _ _ _).sameReport).append _).trans
    (touchStatus_frame _).sameReport

end Sys2Proof.Machine

namespace Sys2Proof.Proofs

open Sys2Proof.Machine Sys2Proof.Claims

/-- Settles O40: what the filter answers decides whether the position stays, presses or moves; a move ends in the score
limit's quarantine or in the condition's own transition. -/
theorem onePositionOfAFrame : Obligations.OnePositionOfAFrame := by
  intro f p s hp hl e t needed limit agrees differs accepted calm moved put logged released quiet
  have lt : p < s.keys.entries.length := hl ▸ hp
  have at_put (x : KeyEntry) : (put x).entry p = x := entry_put_same lt x
  have sampled {x : Sample} (h : f[p]? = some x) : f.getD p .notSampled = x := by simp [List.getD_eq_getElem?_getD, h]
  have reads {x : Sample} (h : f[p]? = some x) : readsDown f p = (x == .downRead) := by rw [readsDown, sampled h]
  have reported (cause : ReleaseCause) : released cause = reportRelease cause s.ms p e s := by
    simp only [released, reportRelease, Latched.owned]
    cases e.cond <;> simp
  have stopped : quiet = s.rep.stopAt (· == p) := (s.rep.stopAt_self p).symm
  have still {x : KeyEntry} (h : filterSample s.keys.settings (f.getD p .notSampled) e = (x, false)) :
      t = withoutTransition f p (put x) := framePosition_still h
  have agreed (h : agrees) : t = withoutTransition f p (put { e with filter := 0 }) :=
    still (by rw [sampled h, filterSample_agrees]; rfl)
  have moves (h : accepted) :
      t = if e.cond ≠ .quarantined ∧ limit ≤ e.score + 1 then quarantine s.ms p (put moved)
        else atTransition f p (put moved) := framePosition_moves (sampled h.1) h.2
  have moved_reported (cause : ReleaseCause) : SameReport (reportRelease cause s.ms p e s)
      (reportRelease cause s.ms p ((put moved).entry p) (put moved)) := by
    rw [at_put, reportRelease_congr cause s.ms p (e := e) (e' := moved) rfl]
    exact (setKeys_frame s _).sameReport.reportRelease cause s.ms p e
  have calmly (h : calm) : t = atTransition f p (put moved) := (moves h.1).trans (if_neg fun k => by have := h.2; omega)
  have frame : Frame pressTouched s t := framePosition_frame f hp s
  refine ⟨?_, fun h => ?_, fun h k => ?_, fun h k c => ?_, fun h k => ?_, fun h c => ?_, fun h c k => ?_, fun h c => ?_,
    fun h c k => ?_, fun h c => ?_, fun h k c => ?_⟩
  · exact othersKept_of_frame frame
  · have same : put e = s := by
      show s.setKeys (s.keys.put p (s.keys.at p)) = s
      rw [KeyTable.put_at, State.setKeys_self]
    have up : readsDown f p = false := reads h
    rw [still (by rw [sampled h, filterSample_notSampled]), same, withoutTransition_stays (.inl (by simp [up]))]
  · rw [agreed h]
    refine withoutTransition_stays ?_
    rw [at_put]
    rcases k with k | k | ⟨l, k⟩
    · exact .inl (by simp [k])
    · exact .inr (.inl k)
    · exact .inr (.inr (KeyEntry.isDown_iff.2 ⟨l, k⟩))
  · have down : readsDown f p = true := by rw [reads h, k]; rfl
    rw [agreed h, withoutTransition_presses (by simp [at_put, k, down]) (by rwa [at_put]), takePress, at_put]
    exact if_congr Iff.rfl rfl (put_entry_put s p _ _)
  · have fewer : filterSample s.keys.settings (f.getD p .notSampled) e = ({ e with filter := e.filter + 1 }, false) := by
      rw [sampled h, filterSample_differs, if_neg]
      exact Nat.not_le.2 k
    rw [still fewer]
    refine withoutTransition_stays (.inl ?_)
    rw [at_put]
    rw [reads h]
    cases e.pressed <;> rfl
  · rw [moves h, if_neg fun k => k.1 c, atTransition_quarantined (by rwa [at_put])]
  · rw [calmly h, atTransition_up (by rwa [at_put]), at_put, if_neg (by simp [moved, k])]
  · rw [calmly h, atTransition_blocked (by rwa [at_put]), at_put]
    exact put_entry_put s p _ _
  · rw [calmly h, atTransition_up (by rwa [at_put]), at_put, if_pos (by simp [moved, k]), takePress, at_put]
    exact if_congr Iff.rfl rfl (put_entry_put s p _ _)
  · obtain ⟨l, c⟩ := c
    have down : ((put moved).entry p).cond = .down l := by rwa [at_put]
    have ends : t = releaseEntry l s.ms p (put moved) := by
      rw [calmly h, atTransition_down down]
    have report : SameReport (released .normal) t := by
      rw [reported, ends]
      exact (moved_reported .normal).trans (releaseEntry_report down s.ms)
    have kept := (releaseEntry_way l s.ms p (put moved)).sameFields
    rw [← ends] at kept
    refine ⟨?_, ⟨report.log, report.mem⟩, ?_, kept.wake (by decide), kept.latch (by decide), kept.steer (by decide),
      kept.light (by decide), kept.chords (by decide)⟩
    · rw [ends, releaseEntry_keys down, at_put]
      exact s.keys.put_put p _ _
    · rw [ends, releaseEntry_rep down, stopped]
  · have ends : t = quarantine s.ms p (put moved) := (moves h).trans (if_pos ⟨c, k⟩)
    have score : ((put moved).entry p).score = limit := by rw [at_put]; exact Nat.min_eq_right k
    have report : SameReport (append { time := s.ms, body := .keyFault p limit } (released .quarantine)) t := by
      have faulted := quarantine_report s.ms p (put moved)
      rw [score, ← ends] at faulted
      rw [reported]
      exact SameReport.trans (SameReport.append (moved_reported .quarantine) _) faulted
    have kept := (quarantine_way s.ms p (put moved)).sameFields
    rw [← ends] at kept
    refine ⟨?_, ⟨report.log, report.mem⟩, by rw [ends]; rfl, ?_, kept.wake (by decide), kept.latch (by decide),
      kept.steer (by decide), kept.light (by decide), kept.chords (by decide)⟩
    · have table : p < (put moved).keys.entries.length := by
        show p < (s.keys.entries.set p moved).length
        rwa [List.length_set]
      rw [ends, quarantine_keys table, at_put]
      exact s.keys.put_put p _ _
    · rw [ends, quarantine_rep, stopped]

end Sys2Proof.Proofs
end

section
/-! A change of motion handed on (R140): forced releases and the latch at engagement, the count at the end; SET_MOTION. -/

namespace Sys2Proof.Machine

open Sys2Proof.Claims

/-! ### The forced releases at engagement (R66) -/

theorem RepeatTimer.stopAt_running (g : RepeatTimer) {stops : Nat → Bool} {r : Repeating} (h : g.running = some r)
    (k : stops r.position = true) : g.stopAt stops = { g with running := none, count := 0 } := by
  simp [RepeatTimer.stopAt, h, k]

theorem RepeatTimer.stopAt_other (g : RepeatTimer) {stops : Nat → Bool}
    (h : ∀ r, g.running = some r → stops r.position = false) : g.stopAt stops = g := by
  unfold RepeatTimer.stopAt
  cases hr : g.running with
  | none => rfl
  | some r => simp [h r hr]

theorem KeyEntry.owned_iff {e : KeyEntry} : e.owned = true ↔ ∃ l, e.cond = .down l ∧ l.owned = true := by
  unfold KeyEntry.owned
  cases e.cond <;> simp

/-- Which DOWN entry an engagement chooses: forwarded, hold and not orphaned (R66). -/
theorem KeyEntry.chosen_down {e : KeyEntry} {l : Latched} (h : e.cond = .down l) :
    e.chosen = (l.route.forward && l.route.hold && !l.orphaned) := by
  unfold KeyEntry.chosen Latched.owned
  rw [h]
  exact Bool.and_right_comm _ _ _

theorem KeyEntry.chosen_iff {e : KeyEntry} :
    e.chosen = true ↔ ∃ l, e.cond = .down l ∧ l.owned = true ∧ l.route.hold = true := by
  unfold KeyEntry.chosen
  cases e.cond <;> simp

theorem Latched.owned_of_held {l : Latched} (h : (l.route.forward && l.route.hold && !l.orphaned) = true) :
    l.owned = true := by
  simp only [Latched.owned, Bool.and_eq_true] at h ⊢
  exact ⟨h.1.1, h.2⟩

theorem KeyEntry.owned_of_chosen {e : KeyEntry} (h : e.chosen = true) : e.owned = true := by
  obtain ⟨l, hl, own, -⟩ := KeyEntry.chosen_iff.1 h
  exact KeyEntry.owned_iff.2 ⟨l, hl, own⟩

theorem forceRelease_keys_eq (c : ReleaseCause) (t : Time) (p : Nat) (s : State) :
    (forceRelease c t p s).keys = s.keys.put p (s.entry p).orphaned := by
  have f := reportRelease_frame c t p (s.entry p) s
  rw [forceRelease_eq]
  split
  · rw [orphan_keys_eq, f.entry, f.keys (by decide)]
  · rename_i h
    rw [f.keys (by decide), KeyEntry.orphaned_of_not_owned (by simpa using h), State.entry_eq, KeyTable.put_at]

theorem forPositions_release_keys (c : ReleaseCause) (t : Time) (ps : List Nat) (s : State) :
    (forPositions ps (forceRelease c t) s).keys = s.keys.mapAt ps KeyEntry.orphaned := by
  induction ps generalizing s with
  | nil => exact (s.keys.mapAt_nil _).symm
  | cons p ps ih =>
    show (forPositions ps (forceRelease c t) (forceRelease c t p s)).keys = _
    rw [ih, forceRelease_keys_eq, State.entry_eq, KeyTable.mapAt_put _ _ _ _ KeyEntry.orphaned_orphaned]

theorem forPositions_release_rep_eq (c : ReleaseCause) (t : Time) (ps : List Nat) (hn : ps.Nodup) (s : State) :
    (forPositions ps (forceRelease c t) s).rep = s.rep.stopAt fun q => decide (q ∈ ps) && (s.entry q).owned := by
  induction ps generalizing s with
  | nil => exact (s.rep.stopAt_none _ (by simp)).symm
  | cons p ps ih =>
    obtain ⟨hp, hn⟩ := List.nodup_cons.1 hn
    show (forPositions ps (forceRelease c t) (forceRelease c t p s)).rep = _
    rw [ih hn, forceRelease_rep, RepeatTimer.stopAt_stopAt]
    congr 1
    funext q
    by_cases hq : q = p
    · subst hq
      simp [hp]
    · rw [forceRelease_other c t p q s hq]
      simp [hq]

/-- The positions that an engagement chooses (R66). -/
def engagedPositions (s : State) : List Nat := positions.filter fun p => (s.entry p).chosen

theorem mem_engagedPositions {s : State} {p : Nat} : p ∈ engagedPositions s ↔ p < 144 ∧ (s.entry p).chosen = true := by
  simp [engagedPositions, positions]

theorem engagedPositions_nodup (s : State) : (engagedPositions s).Nodup := List.nodup_range.filter _

/-- The engagement chooses its positions by the entries as they stand at its start, no release changing another entry. -/
theorem forPositions_engageAt (t : Time) (ps : List Nat) (hn : ps.Nodup) (s : State) :
    forPositions ps (engageAt t) s = forPositions (ps.filter fun p => (s.entry p).chosen) (forceRelease .lockout t) s := by
  induction ps generalizing s with
  | nil => rfl
  | cons p ps ih =>
    obtain ⟨hp, hn⟩ := List.nodup_cons.1 hn
    show forPositions ps (engageAt t) (engageAt t p s) = _
    rw [ih hn]
    unfold engageAt
    by_cases hc : (s.entry p).chosen = true
    · have same : ps.filter (fun q => ((forceRelease .lockout t p s).entry q).chosen) =
          ps.filter fun q => (s.entry q).chosen :=
        List.filter_congr fun q hq => by rw [forceRelease_other .lockout t p q s fun e => hp (e ▸ hq)]
      rw [if_pos hc, same, List.filter_cons, if_pos hc]
      rfl
    · rw [if_neg hc, List.filter_cons, if_neg hc]

/-- The key table and the repeat with the lockout engaged, and the records of its forced releases. -/
def releaseHeld (t : Time) (s : State) : State := forPositions positions (engageAt t) s

theorem releaseHeld_eq (t : Time) (s : State) :
    releaseHeld t s = forPositions (engagedPositions s) (forceRelease .lockout t) s :=
  forPositions_engageAt t positions List.nodup_range s

theorem releaseHeld_frame (t : Time) (s : State) : Frame [.keys, .rep, .log, .mem, .irq, .statusDirty] s (releaseHeld t s) :=
  (forPositions_way positions (engageAt t) s fun p _ u => engageAt_way t p u).sameFields

theorem releaseHeld_entry (t : Time) {s : State} (h : s.keys.entries.length = 144) {p : Nat} (hp : p < 144) :
    (releaseHeld t s).entry p = if (s.entry p).chosen then (s.entry p).orphaned else s.entry p := by
  rw [releaseHeld_eq, State.entry_eq, forPositions_release_keys, KeyTable.at_mapAt _ _ _ (by omega), ← State.entry_eq]
  exact if_congr (by simp [mem_engagedPositions, hp]) rfl rfl

/-- A repeat stops exactly where it runs on a chosen entry (R66, R89). -/
theorem releaseHeld_rep (t : Time) (s : State) :
    (releaseHeld t s).rep = s.rep.stopAt fun p => decide (p < 144) && (s.entry p).chosen := by
  rw [releaseHeld_eq, forPositions_release_rep_eq _ _ _ (engagedPositions_nodup s)]
  congr 1
  funext p
  have owned : (s.entry p).chosen = true → (s.entry p).owned = true := KeyEntry.owned_of_chosen
  rw [Bool.eq_iff_iff]
  simp only [Bool.and_eq_true, decide_eq_true_eq, mem_engagedPositions]
  exact ⟨fun k => k.1, fun k => ⟨k, owned k.2⟩⟩

/-- The records of the engagement, as the statements write them. -/
theorem releaseHeld_report (t : Time) (s : State) :
    SameReport (forcedReleases .lockout t (fun _ l => l.route.forward && l.route.hold && !l.orphaned) s)
      (releaseHeld t s) := by
  have chosen_eq : forcedReleases .lockout t (fun _ l => l.route.forward && l.route.hold && !l.orphaned) s =
      forcedReleases .lockout t (fun p _ => (s.entry p).chosen) s := by
    unfold forcedReleases
    congr 1
    funext u p
    cases hc : (s.entry p).cond with
    | down l => simp only [KeyEntry.chosen_down hc]
    | _ => rfl
  rw [chosen_eq, forcedReleases_eq, releaseHeld_eq]
  exact forPositions_report (forceRelease_report .lockout t) (forceRelease_other .lockout t) s _
    (engagedPositions_nodup s) s s (.refl s) fun _ _ => rfl

/-! ### Logs that agree -/

theorem SameLog.trans {s t u : State} (h : SameLog s t) (k : SameLog t u) : SameLog s u := by
  obtain ⟨log, mem, ms⟩ := h
  obtain ⟨log', mem', ms'⟩ := k
  exact ⟨log'.trans log, mem'.trans mem, ms'.trans ms⟩

theorem touchAndRaise_sameLog (s : State) : SameLog s (touchAndRaise s) := (touchAndRaise_frame s).sameLog

/-! ### The latch under lockout (R151) -/

/-- What a change of the latch state reports: LATCH, the status field and STATUS (R144). -/
theorem changeLatch_report (st : LatchState) (c : LatchCause) (t : Time) (s : State) :
    SameReport (touchAndRaise (append { time := t, body := .latch c st.place } s)) (changeLatch st c t s) :=
  (((setLatch_frame s _).sameReport.append _).touchAndRaise).trans (wakeToldLatch_frame _ _ _).sameReport

theorem changeLatch_sameLog (st : LatchState) (c : LatchCause) (t : Time) (s : State) :
    SameLog (append { time := t, body := .latch c st.place } s) (changeLatch st c t s) :=
  (touchAndRaise_sameLog _).trans (changeLatch_report st c t s).1

theorem changeLatch_pending (st : LatchState) (c : LatchCause) (t : Time) (s : State) :
    Pending .status (changeLatch st c t s) :=
  (pending_raised .status (touchStatus (append { time := t, body := .latch c st.place } s))).of_irq
    (changeLatch_report st c t s).irq

theorem latchLockout_asked (t : Time) {s : State} {e : Time} (h : s.latch.state = .asked e) :
    latchLockout t s = changeLatch .latched .motion t s := by
  unfold latchLockout
  rw [h]

theorem latchLockout_releasing (t : Time) {s : State} {e : Time} (h : s.latch.state = .releasing e) :
    latchLockout t s = changeLatch (bySense s.latch) .motion t s := by
  unfold latchLockout
  rw [h]

theorem latchLockout_still (t : Time) {s : State} (h : s.latch.state.place ≠ .asked) (k : s.latch.state.place ≠ .releasing) :
    latchLockout t s = s := by
  unfold latchLockout
  cases hs : s.latch.state <;> simp_all [LatchState.place]

theorem latchLockout_frame (t : Time) (s : State) : Frame latchTouched s (latchLockout t s) :=
  (latchLockout_way t s).sameFields

theorem Pending.latchLockout {s : State} (h : Pending .status s) (t : Time) : Pending .status (latchLockout t s) := by
  unfold Machine.latchLockout
  split
  · exact changeLatch_pending _ _ _ _
  · exact changeLatch_pending _ _ _ _
  · exact h

/-- Turning the solenoid off starts the cooldown (R143). -/
theorem cooldownAfter_off {g : Latch} {st : LatchState} (h : g.state.place = .releasing) (k : st.place ≠ .releasing)
    (t : Time) : cooldownAfter g st t = some (t + 10000) := by
  unfold cooldownAfter
  rw [if_pos (by simp [h, k])]
  rfl

/-- The LATCH record of a cancelled ASKED or RELEASING (R151). -/
def reportCancelled (g : Latch) (t : Time) (s : State) : State :=
  match g.state with
  | .asked _ => append { time := t, body := .latch .motion .latched } s
  | .releasing _ => append { time := t, body := .latch .motion (bySense g).place } s
  | _ => s

theorem SameLog.reportCancelled {s u : State} (h : SameLog s u) (g : Latch) (t : Time) :
    SameLog (reportCancelled g t s) (reportCancelled g t u) := by
  unfold Machine.reportCancelled
  split
  · exact h.append _
  · exact h.append _
  · exact h

theorem latchLockout_sameLog (t : Time) (s : State) : SameLog (reportCancelled s.latch t s) (latchLockout t s) := by
  unfold reportCancelled
  cases h : s.latch.state with
  | asked e => rw [latchLockout_asked t h]; exact changeLatch_sameLog .latched _ _ _
  | releasing e => rw [latchLockout_releasing t h]; exact changeLatch_sameLog _ _ _ _
  | _ => rw [latchLockout_still t (by simp [h, LatchState.place]) (by simp [h, LatchState.place])]; exact ⟨rfl, rfl, rfl⟩

/-! ### Settling (R140) -/

/-- The change reported: MOTION, its status fields and STATUS. -/
def reportMotion (t : Time) (s : State) : State :=
  touchAndRaise (append
    { time := t, body := .motion s.motion.state (lockoutOf s.motion) s.steer.lockoutWithheld } (flagged s))

theorem reportMotion_frame (t : Time) (s : State) : Frame (.motion :: logTouched) s (reportMotion t s) :=
  (((setMotion_frame s _).mono rfl).next (append_frame _ _) rfl).next (touchAndRaise_frame _) rfl

theorem settleMotion_unchanged {before : Motion} {s : State} (t : Time) (h : s.motion.state = before.state)
    (k : lockoutOf s.motion = before.lockout) : settleMotion before t s = flagged s := by
  unfold settleMotion
  exact if_pos ⟨h, k⟩

theorem settleMotion_changed {before : Motion} {s : State} (t : Time)
    (h : ¬(s.motion.state = before.state ∧ lockoutOf s.motion = before.lockout)) :
    settleMotion before t s =
      if lockoutOf s.motion = before.lockout then reportMotion t s
      else if lockoutOf s.motion then lockoutEngaged t (reportMotion t s) else lockoutEnded t (reportMotion t s) := by
  unfold settleMotion
  exact if_neg h

theorem settleMotion_engages {before : Motion} {s : State} (t : Time) (h : lockoutOf s.motion = true)
    (k : before.lockout = false) : settleMotion before t s = lockoutEngaged t (reportMotion t s) := by
  rw [settleMotion_changed t (by simp [h, k]), if_neg (by simp [h, k]), if_pos h]

theorem settleMotion_ends {before : Motion} {s : State} (t : Time) (h : lockoutOf s.motion = false)
    (k : before.lockout = true) : settleMotion before t s = lockoutEnded t (reportMotion t s) := by
  rw [settleMotion_changed t (by simp [h, k]), if_neg (by simp [h, k]), if_neg (by simp [h])]

theorem lockoutEngaged_eq (t : Time) (s : State) :
    lockoutEngaged t s = evalShownSet t (latchLockout t (releaseHeld t s)) := rfl

/-- What the latch takes part in is the last of an engagement but the shown set. -/
theorem lockoutEngaged_frame (t : Time) (s : State) :
    Frame [.keys, .rep, .latch, .wake, .legend, .log, .mem, .irq, .statusDirty] s (lockoutEngaged t s) :=
  (((releaseHeld_frame t s).mono rfl).next (latchLockout_frame t _) rfl).next (evalShownSet_frame t _) rfl

theorem lockoutEngaged_keys_rep (t : Time) (s : State) :
    (lockoutEngaged t s).keys = (releaseHeld t s).keys ∧ (lockoutEngaged t s).rep = (releaseHeld t s).rep := by
  have f : Frame [.latch, .wake, .legend, .log, .mem, .irq, .statusDirty] (releaseHeld t s) (lockoutEngaged t s) :=
    ((latchLockout_frame t _).mono rfl).next (evalShownSet_frame t _) rfl
  exact ⟨f.keys (by decide), f.rep (by decide)⟩

theorem lockoutEngaged_latch (t : Time) (s : State) : (lockoutEngaged t s).latch = (latchLockout t (releaseHeld t s)).latch :=
  (evalShownSet_frame t _).latch (by decide)

theorem lockoutEngaged_sameLog (t : Time) (s : State) :
    SameLog (reportCancelled s.latch t
      (forcedReleases .lockout t (fun _ l => l.route.forward && l.route.hold && !l.orphaned) s)) (lockoutEngaged t s) := by
  have cancelled := latchLockout_sameLog t (releaseHeld t s)
  rw [(releaseHeld_frame t s).latch (by decide)] at cancelled
  exact (((releaseHeld_report t s).1.reportCancelled s.latch t).trans cancelled).trans (evalShownSet_frame t _).sameLog

theorem Pending.lockoutEngaged {s : State} (h : Pending .status s) (t : Time) : Pending .status (lockoutEngaged t s) := by
  have released : Pending .status (releaseHeld t s) := (h.forcedReleases _ _ _).of_irq (releaseHeld_report t s).irq
  exact (released.latchLockout t).of_irq ((evalShownSet_frame t _).irq (by decide))

theorem lockoutEnded_frame (t : Time) (s : State) : Frame [.steer, .legend, .statusDirty] s (lockoutEnded t s) :=
  (((setSteer_frame s _).mono rfl).next (touchStatus_frame _) rfl).next (evalShownSet_frame t _) rfl

theorem lockoutEnded_steer (t : Time) (s : State) : (lockoutEnded t s).steer = { s.steer with lockoutWithheld := 0 } :=
  (evalShownSet_frame t _).steer (by decide)

/-! ### SET_MOTION (R136) -/

/-- The settings that SET_MOTION's parameters give. -/
def askedMotion (ps : List Word) : MotionSettings :=
  { moveOn := param ps 1, moveOff := param ps 2, onDwell := min (param ps 3) 10000, offDwell := min (param ps 4) 30000
    asParked := decide (param ps 5 = 1), vehicle := decide (param ps 6 = 1) }

theorem setMotion_locked {s : State} (ps : List Word) (h : s.steer.lock = true) : setMotion ps s = refuse .errLocked s := by
  unfold setMotion
  exact if_pos h

theorem setMotion_refused {s : State} {ps : List Word} (h : s.steer.lock = false)
    (k : ¬(param ps 5 ≤ 1 ∧ param ps 6 ≤ 1 ∧ param ps 1 ≤ 65535 ∧ param ps 2 < param ps 1)) :
    setMotion ps s = refuse .errParam s := by
  unfold setMotion
  dsimp only
  rw [if_neg (by simp [h])]
  split
  · rfl
  · exact if_pos (by omega)

theorem setMotion_set {s : State} {ps : List Word} (h : s.steer.lock = false)
    (k : param ps 5 ≤ 1 ∧ param ps 6 ≤ 1 ∧ param ps 1 ≤ 65535 ∧ param ps 2 < param ps 1) :
    setMotion ps s =
      (settleMotion s.motion s.ms (s.setMotion { s.motion with
          settings := askedMotion ps
          run := if param ps 1 = s.motion.settings.moveOn ∧ param ps 2 = s.motion.settings.moveOff then s.motion.run
            else none }),
        { code := okUnless (10000 < param ps 3 ∨ 30000 < param ps 4) }) := by
  have code := okIf_eq_okUnless (min (param ps 3) 10000 == param ps 3 && min (param ps 4) 30000 == param ps 4)
    (10000 < param ps 3 ∨ 30000 < param ps 4) (by simp)
  unfold setMotion
  dsimp only
  rw [if_neg (by simp [h]), if_neg (by omega), if_neg (by omega), ← code]
  rfl

end Sys2Proof.Machine

namespace Sys2Proof.Proofs

open Sys2Proof.Machine Sys2Proof.Claims

/-- Settles O50: the four ways in which a change settles, and SET_MOTION's checks before it. -/
theorem motionChangeIsHandedOn : Obligations.MotionChangeIsHandedOn := by
  refine ⟨?_, ?_⟩
  · intro before t s hl flag lockout reported held released cancelled u
    have kept : OthersKept lockout u := othersKept_of_frame ((settleMotion_way before t s).sameFields.mono rfl)
    have f1 := reportMotion_frame t s
    refine ⟨settleMotion_unchanged t, fun h k => ?_, fun h k => ?_, fun h k => ?_⟩
    · exact (settleMotion_changed t fun c => h c.1).trans (if_pos k)
    · have engaged : u = lockoutEngaged t (reportMotion t s) := settleMotion_engages t h k
      have f2 := f1.mono (fs := .motion :: .keys :: .rep :: .latch :: .wake :: .legend :: logTouched) rfl
        |>.next (lockoutEngaged_frame t (reportMotion t s)) rfl
      rw [← engaged] at f2
      have pending : Pending .status u := by
        rw [engaged]
        exact Pending.lockoutEngaged (pending_raised _ _) t
      have log : SameLog cancelled u := by
        have same := lockoutEngaged_sameLog t (reportMotion t s)
        rw [f1.latch (by decide), ← engaged] at same
        have cancelled_eq : cancelled = reportCancelled s.latch t released := by
          simp only [cancelled, reportCancelled, bySense]
          cases s.latch.state <;> cases s.latch.sense.value <;> rfl
        rw [cancelled_eq]
        exact same
      have entry {p : Nat} (hp : p < 144) : u.entry p = if (s.entry p).chosen then (s.entry p).orphaned else s.entry p := by
        rw [engaged, State.entry_eq, (lockoutEngaged_keys_rep _ _).1, ← State.entry_eq,
          releaseHeld_entry t (by rw [f1.keys (by decide), hl]) hp, f1.entry]
      have rep : u.rep = s.rep.stopAt fun p => decide (p < 144) && (s.entry p).chosen := by
        rw [engaged, (lockoutEngaged_keys_rep _ _).2, releaseHeld_rep, f1.rep (by decide)]
        simp only [f1.entry]
      have latch : (releaseHeld t (reportMotion t s)).latch = s.latch := by
        rw [(releaseHeld_frame _ _).latch (by decide), f1.latch (by decide)]
      have told : u.latch = (latchLockout t (releaseHeld t (reportMotion t s))).latch := by
        rw [engaged, lockoutEngaged_latch]
      refine ⟨kept, f2.chords (by decide), f2.light (by decide), f2.steer (by decide), pending, log.1, log.2.1, ?_, ?_, ?_,
        ?_, ?_, ?_, ?_⟩
      · intro p hp l hc hh
        rw [entry hp, if_pos ((KeyEntry.chosen_down hc).trans hh),
          KeyEntry.orphaned_of_owned hc (Latched.owned_of_held hh)]
      · intro p hp hn
        rw [entry hp, if_neg]
        intro hc
        obtain ⟨l, hd, -⟩ := KeyEntry.chosen_iff.1 hc
        rw [KeyEntry.chosen_down hd] at hc
        exact Bool.false_ne_true ((hn l hd).symm.trans hc)
      · intro r l hr hp hd hh
        have chosen : (s.entry r.position).chosen = true := (KeyEntry.chosen_down hd).trans hh
        exact rep.trans (s.rep.stopAt_running hr (by simp [hp, chosen]))
      · intro hn
        refine rep.trans (s.rep.stopAt_other fun r hr => Bool.eq_false_iff.2 fun hs => ?_)
        obtain ⟨hp, hc⟩ : r.position < 144 ∧ (s.entry r.position).chosen = true := by simpa using hs
        obtain ⟨l, hd, -⟩ := KeyEntry.chosen_iff.1 hc
        rw [KeyEntry.chosen_down hd] at hc
        exact Bool.false_ne_true ((hn r l hr hp hd).symm.trans hc)
      · intro e he
        rw [told, latchLockout_asked t (e := e) (by rw [latch, he]), changeLatch_latch, latch]
        simp [cooldownAfter, heldAfter, he, LatchState.place]
      · intro e he
        rw [told, latchLockout_releasing t (e := e) (by rw [latch, he]), changeLatch_latch, latch]
        exact ⟨rfl, cooldownAfter_off (by rw [he]; rfl) (bySense_place _).2.1 t⟩
      · intro ha hr
        rw [told, latchLockout_still t (by rwa [latch]) (by rwa [latch]), latch]
    · have ended : u = lockoutEnded t (reportMotion t s) := settleMotion_ends t h k
      have f2 := lockoutEnded_frame t (reportMotion t s)
      rw [← ended] at f2
      have f := f1.mono (fs := .motion :: .steer :: .legend :: logTouched) rfl |>.next f2 rfl
      have steer : u.steer = { s.steer with lockoutWithheld := 0 } := by
        rw [ended, lockoutEnded_steer, f1.steer (by decide)]
      exact ⟨kept, f.chords (by decide), f.light (by decide), f.rep (by decide), f.wake (by decide), f.keys (by decide),
        f.latch (by decide), steer, f2.log (by decide), f2.mem (by decide)⟩
  · intro s q hq p set same stored code good
    have answers : exec .setMotion s = event (request 18 6 setMotion) s := rfl
    rw [answers, event_request hq]
    refine ⟨fun h => ?_, fun h k => ?_, fun h k c => ?_, fun h k c => ?_⟩
    · rw [setMotion_locked _ h]
      rfl
    · rw [setMotion_refused h k]
      rfl
    · rw [setMotion_set h k, if_pos c]
      rfl
    · rw [setMotion_set h k, if_neg c]
      rfl

end Sys2Proof.Proofs
end

section
/-! An accepted press (R26, R59 to R61, R80, R87, R91, R92): what each part of its route hands on. -/

namespace Sys2Proof.Machine

open Sys2Proof.Claims

/-! ### The parts a route may have together (R57) -/

/-- The route of a press that completes a chord has no other part and withholds nothing. -/
theorem routeOf_of_chord {s : State} {c k : Nat} (h : (routeOf s c).chord = some k) :
    (routeOf s c).route = { Route.swallow with chord := true } ∧ (routeOf s c).withheld = .none := by
  revert h
  unfold routeOf
  dsimp only
  split
  · intro h; cases h
  · split
    · exact fun _ => ⟨rfl, rfl⟩
    · split <;> (intro h; cases h)

/-- A press that keeps forward is not withheld. -/
theorem routeOf_of_forward {s : State} {c : Nat} (h : (routeOf s c).route.forward = true) :
    (routeOf s c).withheld = .none := by
  revert h
  unfold routeOf
  dsimp only
  split
  · exact fun _ => rfl
  · split
    · exact fun _ => rfl
    · split
      · exact fun _ => rfl
      · intro h
        have := (Bool.and_eq_true_iff.1 h).2
        exact beq_iff_eq.1 this

/-! ### The latched entry (R26, R57) -/

/-- What the press of a position latches: the code and layer found, the route and the time of the frame. -/
def foundLatch (p : Nat) (s : State) : Latched :=
  { code := (lookup s p).1, layer := (lookup s p).2, route := (routeOf s (lookup s p).1).route, orphaned := false,
    pressTime := s.ms }

/-- The counts after a press (R64, R65). -/
theorem countWithheld_steer (w : Withheld) (s : State) :
    (countWithheld w s).steer = match w with
      | .none => s.steer
      | .lockout => { s.steer with lockoutWithheld := min (s.steer.lockoutWithheld + 1) 65535 }
      | .rollover => { s.steer with rolloverWithheld := min (s.steer.rolloverWithheld + 1) 65535 }
      | .undocked => { s.steer with discarded := min (s.steer.discarded + 1) 65535 } := by
  have kept (g : Steering) : (if g = s.steer then s else touchStatus (s.setSteer g)).steer = g := by
    split
    · exact Eq.symm ‹_›
    · rfl
  unfold countWithheld
  cases w <;> exact kept _

theorem countWithheld_none (s : State) : countWithheld .none s = s := by
  unfold countWithheld
  exact if_pos rfl

theorem latchedPress_eq (p : Nat) (s : State) :
    (latchedPress p s).steer = (countWithheld (routeOf s (lookup s p).1).withheld s).steer ∧
      (latchedPress p s).keys = s.keys.put p { s.entry p with cond := .down (foundLatch p s) } := by
  have keys := (countWithheld_way (routeOf s (lookup s p).1).withheld s).sameFields.keys (by decide)
  unfold latchedPress
  dsimp only
  refine ⟨rfl, ?_⟩
  simp only [State.putEntry, State.setKeys_keys, State.entry, keys, KeyTable.put, foundLatch]

/-- A press that is not withheld changes nothing but its entry before it is handed on. -/
theorem latchedPress_of_forward {p : Nat} {s : State} (h : (routeOf s (lookup s p).1).route.forward = true) :
    latchedPress p s = s.setKeys (s.keys.put p { s.entry p with cond := .down (foundLatch p s) }) := by
  have counted : countWithheld (routeOf s (lookup s p).1).withheld s = s := by
    rw [routeOf_of_forward h, countWithheld_none]
  unfold latchedPress
  dsimp only
  rw [counted]
  rfl

/-- An entry latched without a layer key leaves the layer, as it was none before (R44). -/
theorem layer_put {k : KeyTable} {p : Nat} {e : KeyEntry} (h : (k.at p).layerKey = false) (he : e.layerKey = false) :
    (k.put p e).layer = k.layer := by
  have counts (es : List KeyEntry) : es.any KeyEntry.layerKey = decide (0 < es.countP KeyEntry.layerKey) := by
    rw [Bool.eq_iff_iff]
    simp [List.countP_pos_iff]
  unfold KeyTable.layer KeyTable.put
  rw [counts, counts, countP_set_same _ _ _ _ KeyEntry.reset (he.trans h.symm)]

/-! ### A release request (R146, R147) -/

section
variable {s : State}

theorem releaseRequest_not_latched (src : PressSource) (t : Time) (h : s.latch.state ≠ .latched) :
    releaseRequest src t s = s := by
  unfold releaseRequest
  split
  · exact absurd ‹_› h
  · rfl

theorem releaseRequest_cooldown (src : PressSource) (t : Time) {e : Time} (h : s.latch.state = .latched)
    (hc : s.latch.cooldown = some e) :
    releaseRequest src t s = s.setLatch { s.latch with heldPress := some (s.latch.heldPress.getD src) } := by
  unfold releaseRequest
  simp only [h, hc]
  cases s.latch.heldPress <;> rfl

theorem releaseRequest_lockout (src : PressSource) (t : Time) (h : s.latch.state = .latched)
    (hc : s.latch.cooldown = none) (hm : s.motion.lockout = true) :
    releaseRequest src t s = append { time := t, body := .latch .refusedMotion .latched } s := by
  unfold releaseRequest
  simp only [h, hc, hm, if_true]

theorem releaseRequest_asks (src : PressSource) (t : Time) (h : s.latch.state = .latched)
    (hc : s.latch.cooldown = none) (hm : s.motion.lockout = false) :
    releaseRequest src t s = changeLatch (.asked (after t (1000 * s.latch.askTimeout))) src.cause t s := by
  unfold releaseRequest
  simp only [h, hc, hm, Bool.false_eq_true, if_false]

end

/-! ### The dock functions (R60, R61) -/

section
variable (t : Time) (s : State)

theorem dockFunction_other {c : Nat} (h : c < 497 ∨ 501 < c) : dockFunction c t s = s := by
  unfold dockFunction
  rw [if_neg (by omega), if_neg (by omega), if_neg (by omega), if_neg (by omega)]

theorem dockFunction_panel {c : Nat} (h : c = 497 ∨ c = 498) : dockFunction c t s = panelStep c t s := by
  unfold dockFunction
  rw [if_pos h]

theorem dockFunction_keys :
    dockFunction 499 t s =
      localRecord 499 (keylightNext s.light.keys.step) t (setKeysStep (keylightNext s.light.keys.step) s) := rfl

theorem dockFunction_night :
    dockFunction 500 t s = localRecord 500 s.light.mode.next.code t (setNightMode s.light.mode.next s) := rfl

theorem dockFunction_release :
    dockFunction 501 t s =
      localRecord 501 (releaseRequest .key t s).latch.state.place.code t (releaseRequest .key t s) := rfl

theorem setPanelStep_light (n : Nat) :
    (setPanelStep n s).light = { s.light with panel := { s.light.panel with step := n } } := by
  unfold setPanelStep
  split
  · simp only [‹n = _›]
  · rfl

theorem setKeysStep_light (n : Nat) :
    (setKeysStep n s).light = { s.light with keys := { s.light.keys with step := n } } := by
  unfold setKeysStep
  split
  · simp only [‹n = _›]
  · rfl

theorem evalNight_light : (evalNight s).light = { s.light with night := nightState s.light s.bus } := by
  unfold evalNight
  dsimp only
  split
  · simp only [‹nightState _ _ = _›]
  · rfl

theorem setNightMode_light (m : NightMode) :
    (setNightMode m s).light =
      { s.light with mode := m, night := nightState { s.light with mode := m } s.bus } :=
  evalNight_light (s.setLight { s.light with mode := m })

end

/-- What a dock function of lighting may change. -/
abbrev dimTouched : List Field := [.light, .log, .mem, .irq, .statusDirty]

theorem setPanelStep_frame (n : Nat) (s : State) : Frame [.light, .statusDirty] s (setPanelStep n s) := by
  unfold setPanelStep
  split
  · exact .refl _ _
  · exact ((setLight_frame _ _).mono rfl).next (touchStatus_frame _) rfl

theorem setKeysStep_frame (n : Nat) (s : State) : Frame [.light, .statusDirty] s (setKeysStep n s) := by
  unfold setKeysStep
  split
  · exact .refl _ _
  · exact ((setLight_frame _ _).mono rfl).next (touchStatus_frame _) rfl

theorem localRecord_frame (c n : Nat) (t : Time) (s : State) : Frame logTouched s (localRecord c n t s) := append_frame _ _

/-- The dock functions of lighting, and a code that is none, are no matter of the latch. -/
theorem dockFunction_dims {c : Nat} (h : c ≠ 501) (t : Time) (s : State) : Frame dimTouched s (dockFunction c t s) := by
  have dims {u : State} (n : Nat) (f : Frame [.light, .statusDirty] s u) : Frame dimTouched s (localRecord c n t u) :=
    (f.mono rfl).next (localRecord_frame c n t u) rfl
  unfold dockFunction
  simp only [h, if_false]
  split
  · exact dims _ (setPanelStep_frame _ s)
  · split
    · exact dims _ (setKeysStep_frame _ s)
    · split
      · exact dims _ (setNightMode_way _ s).sameFields
      · exact .refl _ _

/-! ### WAKE (R91, R92) -/

theorem urgentWake_wake (t : Time) (s : State) :
    (urgentWake t s).wake = if wakeApplies s then { s.wake with line := some (after t wakeLimitMs) } else s.wake := by
  unfold urgentWake assertWake
  split <;> rfl

theorem wakeNotice_wake (p : Nat) (q : Bool) (t : Time) (s : State) :
    (wakeNotice p q t s).wake =
      if q && wakeApplies s then { s.wake with timer := some { position := p, pressTime := t, expiry := after t s.wake.hold } }
      else s.wake := by
  unfold wakeNotice
  split <;> rfl

theorem urgentWake_wake_congr (t : Time) {s u : State} (h : u.wake = s.wake) (k : wakeApplies u = wakeApplies s) :
    (urgentWake t u).wake = (urgentWake t s).wake := by
  rw [urgentWake_wake, urgentWake_wake, h, k]

theorem wakeApplies_of_frame {gs : List Field} {s u : State} (f : Frame gs s u) (n : Field.latch ∉ gs := by decide)
    (k : Field.link ∉ gs := by decide) : wakeApplies u = wakeApplies s :=
  wakeApplies_congr (by rw [f.latch n]) (f.link k)

/-- Between two latch states that are not EMPTY wake applies alike (R90). -/
theorem wakeApplies_of_not_empty {s u : State} (h : s.latch.state ≠ .empty) (k : u.latch.state ≠ .empty)
    (link : u.link = s.link) : wakeApplies u = wakeApplies s := by
  unfold wakeApplies
  rw [link, bne_iff_ne.2 h, bne_iff_ne.2 k]

/-- Entry into ASKED asserts WAKE where wake applies (R92, R144). -/
theorem changeLatch_asked_wake (e : Time) (c : LatchCause) (t : Time) {s : State} (h : s.latch.state ≠ .empty) :
    (changeLatch (.asked e) c t s).wake = (urgentWake t s).wake := by
  have f (u : State) : Frame [.log, .mem, .irq, .statusDirty] u
      (touchAndRaise (append { time := t, body := .latch c .asked } u)) :=
    ((append_frame _ _).mono rfl).next (touchAndRaise_frame _) rfl
  have told (u : State) (hw : u.wake = s.wake) (hl : u.link = s.link) (hu : u.latch.state ≠ .empty) :
      (urgentWake t (touchAndRaise (append { time := t, body := .latch c .asked } u))).wake = (urgentWake t s).wake :=
    urgentWake_wake_congr t (((f u).wake (by decide)).trans hw)
      ((wakeApplies_of_frame (f u)).trans (wakeApplies_of_not_empty h hu hl))
  exact told _ rfl rfl (by simp)

/-- A local RELEASE that enters ASKED (R60, R146). -/
def asksRelease (c : Nat) (s : State) : Bool :=
  c == 501 && s.latch.state == .latched && s.latch.cooldown == none && !s.motion.lockout

theorem asksRelease_iff {c : Nat} {s : State} : asksRelease c s = true ↔
    c = 501 ∧ s.latch.state = .latched ∧ s.latch.cooldown = none ∧ s.motion.lockout = false := by
  simp [asksRelease, and_assoc]

/-- Entry into ASKED from LATCHED changes the latch state alone. -/
theorem changeLatch_asked_latch (e : Time) (c : LatchCause) (t : Time) {s : State} (h : s.latch.state = .latched) :
    (changeLatch (.asked e) c t s).latch = { s.latch with state := .asked e } := by
  rw [changeLatch_latch]
  simp [cooldownAfter, heldAfter, h, LatchState.place]

/-- Entry into ASKED asserts WAKE where wake applies (R92); no other release request touches latch state or WAKE. -/
theorem releaseRequest_wake (src : PressSource) (t : Time) (s : State) :
    (asksRelease 501 s = true →
      (releaseRequest src t s).wake = (urgentWake t s).wake ∧ (releaseRequest src t s).latch.state ≠ .empty ∧
        s.latch.state ≠ .empty) ∧
    (asksRelease 501 s = false →
      (releaseRequest src t s).wake = s.wake ∧ (releaseRequest src t s).latch.state = s.latch.state) := by
  refine ⟨fun h => ?_, fun h => ?_⟩
  · obtain ⟨-, hl, hc, hm⟩ := asksRelease_iff.1 h
    rw [releaseRequest_asks src t hl hc hm]
    have held : s.latch.state ≠ .empty := by rw [hl]; simp
    exact ⟨changeLatch_asked_wake _ _ t held, by rw [changeLatch_latch]; simp, held⟩
  · by_cases hl : s.latch.state = .latched
    · cases hc : s.latch.cooldown with
      | some e => rw [releaseRequest_cooldown src t hl hc]; exact ⟨rfl, rfl⟩
      | none =>
        have hm : s.motion.lockout = true := by simpa [asksRelease, hl, hc] using h
        have f := append_frame { time := t, body := .latch .refusedMotion .latched } s
        rw [releaseRequest_lockout src t hl hc hm, f.wake (by decide), f.latch (by decide)]
        exact ⟨rfl, rfl⟩
    · rw [releaseRequest_not_latched src t hl]
      exact ⟨rfl, rfl⟩

/-- A dock function asserts WAKE where it enters ASKED (R92), and whether wake applies stays as it was. -/
theorem dockFunction_wake (c : Nat) (t : Time) (s : State) :
    (dockFunction c t s).wake = (if asksRelease c s then urgentWake t s else s).wake ∧
      wakeApplies (dockFunction c t s) = wakeApplies s := by
  have link := (dockFunction_way c t s).sameFields.link (by decide)
  by_cases hc : c = 501
  · subst hc
    have f := localRecord_frame 501 (releaseRequest .key t s).latch.state.place.code t (releaseRequest .key t s)
    obtain ⟨asks, stays⟩ := releaseRequest_wake .key t s
    rw [dockFunction_release] at link ⊢
    rw [f.wake (by decide)]
    by_cases h : asksRelease 501 s = true
    · obtain ⟨wake, after, before⟩ := asks h
      exact ⟨by rw [wake, if_pos h], wakeApplies_of_not_empty before (by rwa [f.latch (by decide)]) link⟩
    · obtain ⟨wake, state⟩ := stays (eq_false_of_ne_true h)
      refine ⟨by rw [wake, if_neg h], wakeApplies_congr ?_ link⟩
      rw [f.latch (by decide), state]
  · have f := dockFunction_dims hc t s
    have no : ¬asksRelease c s = true := fun h => hc (asksRelease_iff.1 h).1
    exact ⟨by rw [if_neg no, f.wake (by decide)], wakeApplies_congr (by rw [f.latch (by decide)]) link⟩

/-! ### The parts of a hand-on (R59) -/

/-- The forward part: KEY_PRESS. -/
def reportPress (p : Nat) (l : Latched) (s : State) : State :=
  if l.route.forward = true then append { time := l.pressTime, body := .keyPress p l.code l.layer } s else s

/-- The local part: the dock function of the code. -/
def actDock (l : Latched) (s : State) : State := if l.route.dock = true then dockFunction l.code l.pressTime s else s

/-- The chord part: attention begins. -/
def startChord (chord : Option Nat) (s : State) : State :=
  match chord with
  | some k => beginAttention k s
  | none => s

/-- The notices that no part of the route decides alone: repeat, wake, shown set. -/
def noticePress (p : Nat) (l : Latched) (w : Withheld) (s : State) : State :=
  evalShownSet l.pressTime (wakeNotice p (l.route.forward || w == .undocked) l.pressTime
    (repeatNotice p l.route l.pressTime s))

theorem handOnPress_eq (p : Nat) (l : Latched) (o : RouteOutcome) (s : State) :
    handOnPress p l o s = noticePress p l o.withheld (startChord o.chord (actDock l (reportPress p l s))) := rfl

theorem reportPress_frame (p : Nat) (l : Latched) (s : State) : Frame logTouched s (reportPress p l s) := by
  unfold reportPress
  split
  · exact append_frame _ _
  · exact .refl _ _

theorem SameLog.reportPress {s u : State} (h : SameLog s u) (p : Nat) (l : Latched) :
    SameLog (reportPress p l s) (reportPress p l u) := by
  unfold Machine.reportPress
  split
  · exact h.append _
  · exact h

theorem actDock_frame (l : Latched) (s : State) : Frame dockTouched s (actDock l s) := by
  unfold actDock
  split
  · exact (dockFunction_way _ _ _).sameFields
  · exact .refl _ _

theorem noticePress_frame (p : Nat) (l : Latched) (w : Withheld) (s : State) :
    Frame [.rep, .wake, .legend] s (noticePress p l w s) :=
  (((repeatNotice_frame _ _ _ _).mono rfl).next (wakeNotice_way _ _ _ _).sameFields rfl).next (evalShownSet_frame _ _) rfl

theorem noticePress_rep (p : Nat) (l : Latched) (w : Withheld) (s : State) :
    (noticePress p l w s).rep =
      if s.rep.enabled = true ∧ (l.route.forward = true ∨ l.route.dock = true) then
        { s.rep with
          running := some
            { position := p, pressTime := l.pressTime, delay := true, expiry := after l.pressTime s.rep.delay }
          count := 0 }
      else s.rep := by
  unfold noticePress
  rw [(evalShownSet_frame _ _).rep (by decide), (wakeNotice_way _ _ _ _).sameFields.rep (by decide)]
  unfold repeatNotice
  simp only [Bool.and_eq_true, Bool.or_eq_true]
  split <;> rfl

theorem noticePress_wake (p : Nat) (l : Latched) (w : Withheld) (s : State) :
    (noticePress p l w s).wake =
      if (l.route.forward || w == .undocked) && wakeApplies s then
        { s.wake with
          timer := some { position := p, pressTime := l.pressTime, expiry := after l.pressTime s.wake.hold } }
      else s.wake := by
  have f := repeatNotice_frame p l.route l.pressTime s
  unfold noticePress
  rw [(evalShownSet_frame _ _).wake (by decide), wakeNotice_wake, f.wake (by decide),
    wakeApplies_congr (s := s) (by rw [f.latch (by decide)]) (f.link (by decide))]

/-! ### A press that completes a chord (R80) -/

theorem beginAttention_chords (k : Nat) (s : State) :
    (beginAttention k s).chords = { s.chords with
      attention := some { chord := k, started := s.ms, expiry := after s.ms (1000 * s.chords.timeout) } } := by
  unfold beginAttention
  dsimp only
  rw [(urgentWake_frame _ _).chords (by decide)]
  unfold stopRepeat
  rw [State.setRep_chords, (touchAndRaise_frame _).chords (by decide), (append_frame _ _).chords (by decide),
    State.setChords_chords]

theorem beginAttention_rep (k : Nat) (s : State) : (beginAttention k s).rep = { s.rep with running := none, count := 0 } := by
  unfold beginAttention
  dsimp only
  rw [(urgentWake_frame _ _).rep (by decide)]
  unfold stopRepeat
  rw [State.setRep_rep, (touchAndRaise_frame _).rep (by decide), (append_frame _ _).rep (by decide), State.setChords_rep]

/-- Attention reports ATTENTION_BEGIN and raises STATUS. -/
theorem beginAttention_report (k : Nat) (s : State) :
    SameReport (touchAndRaise (append { time := s.ms, body := .attentionBegin k } s)) (beginAttention k s) :=
  ((((setChords_frame s _).sameReport.append _).touchAndRaise).trans (stopRepeat_way _).sameFields.sameReport).trans
    (urgentWake_frame _ _).sameReport

theorem beginAttention_pending (k : Nat) (s : State) : Pending .status (beginAttention k s) :=
  (pending_raised .status (touchStatus (append { time := s.ms, body := .attentionBegin k } s))).of_irq
    (beginAttention_report k s).irq

theorem beginAttention_wake (k : Nat) (s : State) : (beginAttention k s).wake = (urgentWake s.ms s).wake := by
  have f : Frame [.chords, .rep, .log, .mem, .irq, .statusDirty] s
      (stopRepeat (touchAndRaise (append { time := s.ms, body := .attentionBegin k } (s.setChords { s.chords with
        attention := some { chord := k, started := s.ms, expiry := after s.ms (1000 * s.chords.timeout) } })))) :=
    ((((setChords_frame s _).mono rfl).next (append_frame _ _) rfl).next (touchAndRaise_frame _) rfl).next
      (stopRepeat_way _).sameFields rfl
  exact urgentWake_wake_congr s.ms (f.wake (by decide)) (wakeApplies_of_frame f)

theorem startChord_frame (c : Option Nat) (s : State) : Frame attentionTouched s (startChord c s) := by
  unfold startChord
  split
  · exact beginAttention_frame _ _
  · exact .refl _ _

theorem noticePress_quiet (p : Nat) (l : Latched) (w : Withheld) {s : State} (hr : s.rep.enabled = false)
    (hl : s.link = .active) (hs : ShownOk s) : noticePress p l w s = s := by
  unfold noticePress
  have noRepeat : repeatNotice p l.route l.pressTime s = s := by
    unfold repeatNotice
    rw [hr]
    rfl
  have noWake (q : Bool) : wakeNotice p q l.pressTime s = s := by
    unfold wakeNotice wakeApplies
    simp [hl]
  rw [noRepeat, noWake, evalShownSet, if_pos hs.symm]

/-! ### An accepted press, by its route -/

section
variable (p : Nat) (s : State)

theorem acceptPress_eq :
    acceptPress p s = noticePress p (foundLatch p s) (routeOf s (lookup s p).1).withheld
      (startChord (routeOf s (lookup s p).1).chord
        (actDock (foundLatch p s) (reportPress p (foundLatch p s) (latchedPress p s)))) := rfl

/-- The press latched and its KEY_PRESS appended. -/
def forwardedPress : State := reportPress p (foundLatch p s) (latchedPress p s)

theorem forwardedPress_frame : Frame [.steer, .keys, .log, .mem, .irq, .statusDirty] s (forwardedPress p s) :=
  ((latchedPress_frame p s).mono rfl).next (reportPress_frame p _ _) rfl

theorem acceptPress_keys :
    (acceptPress p s).keys = s.keys.put p { s.entry p with cond := .down (foundLatch p s) } :=
  (handOnPress_keys _ _ _ _).trans (latchedPress_eq p s).2

theorem acceptPress_steer : (acceptPress p s).steer = (countWithheld (routeOf s (lookup s p).1).withheld s).steer := by
  rw [acceptPress_eq, (noticePress_frame _ _ _ _).steer (by decide), (startChord_frame _ _).steer (by decide),
    (actDock_frame _ _).steer (by decide), (reportPress_frame _ _ _).steer (by decide), (latchedPress_eq p s).1]

variable {p s}

theorem acceptPress_no_dock (hd : (foundLatch p s).route.dock = false) (hc : (routeOf s (lookup s p).1).chord = none) :
    Frame [.rep, .wake, .legend] (forwardedPress p s) (acceptPress p s) := by
  rw [acceptPress_eq, hc, actDock, hd]
  exact noticePress_frame _ _ _ _

theorem acceptPress_dock (hd : (foundLatch p s).route.dock = true) (hc : (routeOf s (lookup s p).1).chord = none) :
    Frame [.rep, .wake, .legend] (dockFunction (lookup s p).1 s.ms (forwardedPress p s)) (acceptPress p s) := by
  rw [acceptPress_eq, hc, actDock, hd]
  exact noticePress_frame _ _ _ _

/-- The route of a press that completes a chord is neither forwarded nor local. -/
theorem foundLatch_of_chord {k : Nat} (hc : (routeOf s (lookup s p).1).chord = some k) :
    (foundLatch p s).route.forward = false ∧ (foundLatch p s).route.dock = false := by
  unfold foundLatch
  dsimp only
  rw [(routeOf_of_chord hc).1]
  exact ⟨rfl, rfl⟩

theorem chord_none_of_dock (hd : (foundLatch p s).route.dock = true) : (routeOf s (lookup s p).1).chord = none := by
  cases hc : (routeOf s (lookup s p).1).chord with
  | none => rfl
  | some k => rw [(foundLatch_of_chord hc).2] at hd; cases hd

theorem chord_none_of_forward (hf : (foundLatch p s).route.forward = true) : (routeOf s (lookup s p).1).chord = none := by
  cases hc : (routeOf s (lookup s p).1).chord with
  | none => rfl
  | some k => rw [(foundLatch_of_chord hc).1] at hf; cases hf

theorem acceptPress_chord_eq {k : Nat} (hc : (routeOf s (lookup s p).1).chord = some k) :
    acceptPress p s = noticePress p (foundLatch p s) .none (beginAttention k (latchedPress p s)) := by
  obtain ⟨hf, hd⟩ := foundLatch_of_chord hc
  rw [acceptPress_eq, hc, (routeOf_of_chord hc).2, actDock, hd, reportPress, hf]
  rfl

theorem acceptPress_chord {k : Nat} (hc : (routeOf s (lookup s p).1).chord = some k) :
    Frame [.rep, .wake, .legend] (beginAttention k (latchedPress p s)) (acceptPress p s) := by
  rw [acceptPress_chord_eq hc]
  exact noticePress_frame _ _ _ _

theorem acceptPress_chord_rep {k : Nat} (hc : (routeOf s (lookup s p).1).chord = some k) :
    (acceptPress p s).rep = { s.rep with running := none, count := 0 } := by
  obtain ⟨hf, hd⟩ := foundLatch_of_chord hc
  rw [acceptPress_chord_eq hc, noticePress_rep, hf, hd, if_neg (by simp), beginAttention_rep,
    (latchedPress_frame p s).rep (by decide)]

theorem acceptPress_no_chord (hc : (routeOf s (lookup s p).1).chord = none) :
    (acceptPress p s).chords = s.chords ∧ (acceptPress p s).rep =
      (noticePress p (foundLatch p s) (routeOf s (lookup s p).1).withheld s).rep := by
  have f := (actDock_frame (foundLatch p s) (forwardedPress p s))
  have g := forwardedPress_frame p s
  have rep := (f.rep (by decide)).trans (g.rep (by decide))
  rw [acceptPress_eq, hc]
  refine ⟨?_, ?_⟩
  · rw [(noticePress_frame _ _ _ _).chords (by decide)]
    exact (f.chords (by decide)).trans (g.chords (by decide))
  · rw [noticePress_rep, noticePress_rep, ← rep]
    rfl

/-- A press that asserts WAKE where wake applies (R92): attention begins or the latch enters ASKED. -/
def urgentPress (p : Nat) (s : State) : Bool :=
  (routeOf s (lookup s p).1).chord.isSome || ((foundLatch p s).route.dock && asksRelease (lookup s p).1 s)

/-- A press that arms the wake-hold timer where wake applies (R91). -/
def qualifyingPress (p : Nat) (s : State) : Bool :=
  (foundLatch p s).route.forward || (routeOf s (lookup s p).1).withheld == .undocked

theorem acted_wake (p : Nat) (s : State) :
    let u := startChord (routeOf s (lookup s p).1).chord (actDock (foundLatch p s) (forwardedPress p s))
    u.wake = (if urgentPress p s then urgentWake s.ms s else s).wake ∧ wakeApplies u = wakeApplies s := by
  intro u
  have f := forwardedPress_frame p s
  have wake := f.wake (by decide)
  have applies : wakeApplies (forwardedPress p s) = wakeApplies s := wakeApplies_of_frame f
  have asserts := urgentWake_wake_congr s.ms wake applies
  cases hc : (routeOf s (lookup s p).1).chord with
  | some k =>
    have hu : u = beginAttention k (forwardedPress p s) := by
      show startChord _ (actDock _ _) = _
      rw [hc, actDock, (foundLatch_of_chord hc).2]
      rfl
    have urgent : urgentPress p s = true := by simp [urgentPress, hc]
    rw [hu, beginAttention_wake, f.ms (by decide), urgent, wakeApplies_of_frame (beginAttention_frame k _), applies]
    exact ⟨asserts, rfl⟩
  | none =>
    have hu : u = actDock (foundLatch p s) (forwardedPress p s) := by
      show startChord _ _ = _
      rw [hc]
      rfl
    have urgent : urgentPress p s = ((foundLatch p s).route.dock && asksRelease (lookup s p).1 s) := by
      simp [urgentPress, hc]
    rw [hu, urgent, actDock]
    by_cases hd : (foundLatch p s).route.dock = true
    · have asks : asksRelease (lookup s p).1 (forwardedPress p s) = asksRelease (lookup s p).1 s := by
        unfold asksRelease
        rw [f.latch (by decide), f.motion (by decide)]
      obtain ⟨hw, ha⟩ := dockFunction_wake (lookup s p).1 s.ms (forwardedPress p s)
      rw [if_pos hd, hd, Bool.true_and]
      refine ⟨hw.trans ?_, ha.trans applies⟩
      rw [asks]
      split
      · exact asserts
      · exact wake
    · rw [if_neg hd, eq_false_of_ne_true hd]
      exact ⟨wake, applies⟩

/-- The wake unit after a press (R91, R92). -/
theorem acceptPress_wake (p : Nat) (s : State) :
    (acceptPress p s).wake =
      { s.wake with
        timer := if qualifyingPress p s && wakeApplies s then
            some { position := p, pressTime := s.ms, expiry := after s.ms s.wake.hold } else s.wake.timer
        line := if urgentPress p s && wakeApplies s then some (after s.ms wakeLimitMs) else s.wake.line } := by
  obtain ⟨wake, applies⟩ := acted_wake p s
  have acted : (if urgentPress p s then urgentWake s.ms s else s).wake =
      { s.wake with line := if urgentPress p s && wakeApplies s then some (after s.ms wakeLimitMs) else s.wake.line } := by
    by_cases h : urgentPress p s = true
    · rw [h, Bool.true_and, if_pos rfl, urgentWake_wake]
      split <;> rfl
    · rw [eq_false_of_ne_true h]
      rfl
  rw [acceptPress_eq, noticePress_wake]
  show (if qualifyingPress p s && _ then _ else _) = _
  rw [show reportPress p (foundLatch p s) (latchedPress p s) = forwardedPress p s from rfl, wake, applies, acted]
  split <;> rfl

/-- What a press that acts locally leaves: what the action left, with its LOCAL record (R61). -/
theorem acceptPress_acts {p n : Nat} {s X : State} (hd : (foundLatch p s).route.dock = true)
    (acts : dockFunction (lookup s p).1 s.ms (forwardedPress p s) = localRecord (lookup s p).1 n s.ms X) :
    (acceptPress p s).light = X.light ∧ (acceptPress p s).latch = X.latch ∧
      ∀ v, SameLog v X → SameLog (append { time := s.ms, body := .dockLocal (lookup s p).1 n } v) (acceptPress p s) := by
  have f := acceptPress_dock hd (chord_none_of_dock hd)
  rw [acts] at f
  have g := localRecord_frame (lookup s p).1 n s.ms X
  exact ⟨(f.light (by decide)).trans (g.light (by decide)), (f.latch (by decide)).trans (g.latch (by decide)),
    fun v h => (h.append _).trans f.sameLog⟩

/-- A dock function of lighting that acts: the lighting it sets, the latch as it was, and its LOCAL record. -/
theorem acceptPress_dims {p n : Nat} {s X v : State} (hd : (foundLatch p s).route.dock = true)
    (acts : dockFunction (lookup s p).1 s.ms (forwardedPress p s) = localRecord (lookup s p).1 n s.ms X)
    (g : Frame [.light, .statusDirty] (forwardedPress p s) X) (hv : SameLog v (forwardedPress p s)) :
    (acceptPress p s).light = X.light ∧ (acceptPress p s).latch = s.latch ∧
      SameLog (append { time := s.ms, body := .dockLocal (lookup s p).1 n } v) (acceptPress p s) := by
  obtain ⟨light, latch, log⟩ := acceptPress_acts hd acts
  exact ⟨light, latch.trans ((g.latch (by decide)).trans ((forwardedPress_frame p s).latch (by decide))),
    log _ (hv.trans g.sameLog)⟩

/-- What a press that asks for a release leaves: what the request left, with its LOCAL record (R60, R61). -/
theorem acceptPress_release {p : Nat} {s : State} (hd : (foundLatch p s).route.dock = true) (hc : (lookup s p).1 = 501) :
    let u := releaseRequest .key s.ms (forwardedPress p s)
    (acceptPress p s).light = s.light ∧ (acceptPress p s).latch = u.latch ∧
      ∀ v, SameLog v u →
        SameLog (append { time := s.ms, body := .dockLocal (lookup s p).1 u.latch.state.place.code } v) (acceptPress p s) := by
  intro u
  obtain ⟨light, latch, log⟩ := acceptPress_acts (X := u) (n := u.latch.state.place.code) hd (by
    rw [hc, dockFunction_release])
  have f := (releaseRequest_way .key s.ms (forwardedPress p s)).sameFields
  exact ⟨light.trans ((f.light (by decide)).trans ((forwardedPress_frame p s).light (by decide))), latch, log⟩

theorem forwardedPress_sameLog {p : Nat} {s down : State} (h : SameLog s down) :
    SameLog (reportPress p (foundLatch p s) down) (forwardedPress p s) := by
  have f := latchedPress_frame p s
  obtain ⟨log, mem, ms⟩ := h
  have same : SameLog down (latchedPress p s) :=
    ⟨(f.log (by decide)).trans log.symm, (f.mem (by decide)).trans mem.symm, (f.ms (by decide)).trans ms.symm⟩
  exact same.reportPress p _

/-- A press that is only forwarded, on an ACTIVE link without repeat, is latched and reported and no more. -/
theorem acceptPress_forward_only {p : Nat} {s : State} (h : (s.entry p).layerKey = false)
    (hf : (foundLatch p s).route.forward = true) (hd : (foundLatch p s).route.dock = false) (hs : ShownOk s)
    (hl : s.link = .active) (hr : s.rep.enabled = false) :
    acceptPress p s = reportPress p (foundLatch p s)
      (s.setKeys (s.keys.put p { s.entry p with cond := .down (foundLatch p s) })) := by
  have f := forwardedPress_frame p s
  have g := reportPress_frame p (foundLatch p s) (latchedPress p s)
  have layer : (forwardedPress p s).keys.layer = s.keys.layer := by
    unfold forwardedPress
    rw [g.keys (by decide), (latchedPress_eq p s).2]
    exact layer_put h (by simp [KeyEntry.layerKey, hd])
  have shown : ShownOk (forwardedPress p s) := by
    unfold ShownOk
    rw [f.legend (by decide), shownSetOf_congr (s := s) (by rw [f.link (by decide)]) (by rw [f.motion (by decide)]) layer]
    exact hs
  have acted : actDock (foundLatch p s) (forwardedPress p s) = forwardedPress p s := by
    unfold actDock
    rw [hd]
    rfl
  calc acceptPress p s
      = noticePress p (foundLatch p s) _ (actDock (foundLatch p s) (forwardedPress p s)) := by
        rw [acceptPress_eq, chord_none_of_forward hf]
        rfl
    _ = forwardedPress p s := by
        rw [acted]
        exact noticePress_quiet _ _ _ ((congrArg _ (f.rep (by decide))).trans hr) ((f.link (by decide)).trans hl) shown
    _ = _ := by rw [forwardedPress, latchedPress_of_forward hf]

end

end Sys2Proof.Machine

namespace Sys2Proof.Proofs

open Sys2Proof.Machine Sys2Proof.Claims

/-- Settles O42, part by part of the route of the press. -/
theorem pressIsLatched : Obligations.PressIsLatched := by
  intro p s hp hn hup found o l t down pressed expiry logged localResult acts light asks wakes qualifies
  have f := forwardedPress_frame p s
  have samePressed : SameLog pressed (forwardedPress p s) := forwardedPress_sameLog (down := down) ⟨rfl, rfl, rfl⟩
  have logged_of {u : State} (h : SameLog u t) : logged u := ⟨h.1, h.2.1⟩
  have noLayerKey : (s.entry p).layerKey = false := by
    refine eq_false_of_ne_true fun h => ?_
    obtain ⟨l, hl, -⟩ := KeyEntry.layerKey_iff.1 h
    exact hup l hl
  have wake := acceptPress_wake p s
  have qualifies_iff : (qualifyingPress p s && wakeApplies s) = true ↔ qualifies ∧ wakes := by
    rw [Bool.and_eq_true, wakeApplies_iff, qualifyingPress, Bool.or_eq_true, beq_iff_eq]
    rfl
  have urgent_iff : (urgentPress p s && wakeApplies s) = true ↔ (o.chord.isSome = true ∨ asks) ∧ wakes := by
    rw [Bool.and_eq_true, wakeApplies_iff, urgentPress, Bool.or_eq_true, Bool.and_eq_true, asksRelease_iff]
    exact and_congr_left' (or_congr_right and_assoc.symm)
  refine ⟨othersKept_of_frame (acceptPress_frame p s hp), acceptPress_keys p s,
    fun hf hd hs hl hr => acceptPress_forward_only noLayerKey hf hd hs hl hr, fun hd hc => ?_, fun hf hd hc => ?_,
    fun hd hc => ?_, fun h => ?_, fun h => ?_, fun h => ?_, fun h => ?_, fun k hc => ?_, fun hc => ?_,
    (congrArg Wake.hold wake).trans rfl, fun h => ?_, fun h => ?_, fun h => ?_, fun h => ?_, ?_⟩
  · have k := acceptPress_no_dock hd hc
    exact ⟨logged_of (samePressed.trans k.sameLog), (k.latch (by decide)).trans (f.latch (by decide)),
      (k.light (by decide)).trans (f.light (by decide))⟩
  · have silent : forwardedPress p s = latchedPress p s := if_neg (ne_true_of_eq_false hf)
    rw [(acceptPress_no_dock hd hc).irq (by decide), silent, (latchedPress_frame p s).irq (by decide)]
  · have k := acceptPress_dock hd (chord_none_of_dock hd)
    rw [dockFunction_other _ _ hc] at k
    exact ⟨logged_of (samePressed.trans k.sameLog), (k.light (by decide)).trans (f.light (by decide)),
      (k.latch (by decide)).trans (f.latch (by decide))⟩
  · intro n
    have hd : (foundLatch p s).route.dock = true := h.elim And.left And.left
    have hc : (lookup s p).1 = 497 ∨ (lookup s p).1 = 498 := h.imp And.right And.right
    have step : (if (lookup s p).1 = 497 then min ((forwardedPress p s).light.panel.step + 1) 15
        else (forwardedPress p s).light.panel.step - 1) = n := by rw [f.light (by decide)]
    have acted : dockFunction (lookup s p).1 s.ms (forwardedPress p s) =
        localRecord (lookup s p).1 n s.ms (setPanelStep n (forwardedPress p s)) := by
      rw [dockFunction_panel _ _ hc, panelStep, step]
    obtain ⟨hlight, hlatch, hlog⟩ := acceptPress_dims hd acted (setPanelStep_frame n _) samePressed
    refine ⟨hlight.trans ?_, hlatch, logged_of hlog⟩
    rw [setPanelStep_light, f.light (by decide)]
  · intro n
    obtain ⟨hd, hc⟩ := h
    have acted : dockFunction (lookup s p).1 s.ms (forwardedPress p s) =
        localRecord (lookup s p).1 n s.ms (setKeysStep n (forwardedPress p s)) := by
      rw [show (lookup s p).1 = 499 from hc, dockFunction_keys, f.light (by decide)]
      rfl
    obtain ⟨hlight, hlatch, hlog⟩ := acceptPress_dims hd acted (setKeysStep_frame n _) samePressed
    refine ⟨hlight.trans ?_, hlatch, logged_of hlog⟩
    rw [setKeysStep_light, f.light (by decide)]
  · intro m
    obtain ⟨hd, hc⟩ := h
    have next : s.light.mode.next = m := by
      show s.light.mode.next = match s.light.mode with | .auto => NightMode.night | .night => .day | .day => .auto
      cases s.light.mode <;> rfl
    have acted : dockFunction (lookup s p).1 s.ms (forwardedPress p s) =
        localRecord (lookup s p).1 m.code s.ms (setNightMode m (forwardedPress p s)) := by
      rw [show (lookup s p).1 = 500 from hc, dockFunction_night, f.light (by decide), next]
    obtain ⟨hlight, hlatch, hlog⟩ := acceptPress_dims hd acted (setNightMode_way m _).sameFields samePressed
    refine ⟨hlight.trans ?_, hlatch, logged_of hlog⟩
    rw [setNightMode_light, f.light (by decide), f.bus (by decide)]
  · obtain ⟨hd, hc⟩ := h
    have latch := f.latch (by decide)
    have motion := f.motion (by decide)
    obtain ⟨hlight, hlatch, hlog⟩ := acceptPress_release hd hc
    refine ⟨hlight, fun hl => ?_, fun hl => ⟨fun e he => ?_, fun he hm => ?_, fun he hm => ?_⟩⟩
    · rw [releaseRequest_not_latched _ _ (by rwa [latch]), latch] at hlatch hlog
      refine ⟨hlatch, ?_⟩
      have logs := hlog _ samePressed
      revert logs
      cases s.latch.state <;> exact logged_of
    · rw [releaseRequest_cooldown _ _ (latch ▸ hl) (latch ▸ he), State.setLatch_latch, latch] at hlatch hlog
      dsimp only at hlog
      rw [hl] at hlog
      exact ⟨hlatch, logged_of (hlog _ (samePressed.trans (setLatch_frame _ _).sameLog))⟩
    · have g := append_frame { time := s.ms, body := .latch .refusedMotion .latched } (forwardedPress p s)
      rw [releaseRequest_lockout _ _ (latch ▸ hl) (latch ▸ he) (motion ▸ hm), g.latch (by decide), latch] at hlatch hlog
      rw [hl] at hlog
      exact ⟨hlatch, logged_of (hlog _ (samePressed.append _))⟩
    · rw [releaseRequest_asks _ _ (latch ▸ hl) (latch ▸ he) (motion ▸ hm), changeLatch_asked_latch _ _ _ (latch ▸ hl),
        latch] at hlatch hlog
      exact ⟨hlatch, logged_of (hlog _ ((samePressed.append _).trans (changeLatch_sameLog _ _ _ _)))⟩
  · have k' := acceptPress_chord hc
    have g := latchedPress_frame p s
    have report := beginAttention_report k (latchedPress p s)
    rw [g.ms (by decide)] at report
    refine ⟨?_, acceptPress_chord_rep hc, ?_, (beginAttention_pending k _).of_irq (k'.irq (by decide))⟩
    · rw [k'.chords (by decide), beginAttention_chords, g.chords (by decide), g.ms (by decide)]
      rfl
    · exact logged_of (((g.sameLog.append _).trans (touchAndRaise_sameLog _)).trans (report.1.trans k'.sameLog))
  · obtain ⟨chords, rep⟩ := acceptPress_no_chord hc
    exact ⟨chords, rep.trans (noticePress_rep _ _ _ _)⟩
  · exact (congrArg Wake.timer wake).trans (if_pos (qualifies_iff.2 h))
  · exact (congrArg Wake.timer wake).trans (if_neg (mt qualifies_iff.1 h))
  · exact (congrArg Wake.line wake).trans (if_pos (urgent_iff.2 h))
  · exact (congrArg Wake.line wake).trans (if_neg (mt urgent_iff.1 h))
  · exact (acceptPress_steer p s).trans (countWithheld_steer _ s)

end Sys2Proof.Proofs
end

section
/-! The lockout flag and the shown set: what gives them, and every step keeps them (chapters 7 and 9). -/

namespace Sys2Proof.Machine

/-! ### What gives them (R140, R158) -/

theorem lockoutOf_moving {m : Motion} (h : m.state = .moving) : lockoutOf m = m.settings.vehicle := by
  simp [lockoutOf, h]

theorem lockoutOf_unknown {m : Motion} (h : m.state = .unknown) :
    lockoutOf m = (m.settings.vehicle && !m.settings.asParked) := by
  simp [lockoutOf, h, show (MotionState.unknown == .moving) = false from rfl]

theorem lockoutOf_parked {m : Motion} (h : m.state = .parked) : lockoutOf m = false := by
  simp [lockoutOf, h]

theorem shownSetOf_down {s : State} (h : s.link = .down) : shownSetOf s = .undocked := if_pos h

theorem shownSetOf_lockout {s : State} (h : s.link ≠ .down) (m : s.motion.lockout = true) : shownSetOf s = .motion :=
  (if_neg h).trans (if_pos m)

/-- Without lockout a set that the tablet sees is the one of the layer in force. -/
theorem shownSetOf_layer {s : State} (h : s.link ≠ .down) (m : s.motion.lockout = false) :
    shownSetOf s = if s.keys.layer = .fn then .fn else .base :=
  (if_neg h).trans (if_neg (Bool.not_eq_true _ ▸ m))

/-! ### Every step keeps them -/

theorem step_motionOk {s t : State} (hs : MotionOk s) (h : step s = .next t) : MotionOk t := by
  refine step_keeps (P := MotionOk) (fun _ _ k => k) (fun _ _ k => k) rfl ?_ (fun _ _ _ c _ k => c.keeps_motion k) h hs
  intro s p l b a _ k
  unfold MotionOk
  rw [(releaseReset_frame p l b a s).motion (by decide)]
  exact k

/-- The release of power reset leaves link, lockout and entries, and with them the shown set (R158, R179). -/
theorem releaseReset_shownOk (p l b : Bool) (a : Nat) {s : State} (h : ShownOk s) : ShownOk (releaseReset p l b a s) := by
  have f := releaseReset_frame p l b a s
  calc (releaseReset p l b a s).legend.shown
      _ = s.legend.shown := releaseReset_shown p l b a s
      _ = shownSetOf s := h
      _ = shownSetOf (releaseReset p l b a s) :=
        (shownSetOf_congr (by rw [f.link (by decide)]) (by rw [f.motion (by decide)]) (by rw [f.keys (by decide)])).symm

theorem step_shownOk {s t : State} (hs : ShownOk s) (h : step s = .next t) : ShownOk t :=
  step_keeps (P := ShownOk) (fun _ _ k => k) (fun _ _ k => k) rfl (fun _ p l b a _ k => releaseReset_shownOk p l b a k)
    (fun _ _ _ c _ k => c.keeps_shown k) h hs

end Sys2Proof.Machine

namespace Sys2Proof.Proofs

open Sys2Proof.Machine

/-- Settles O13: each invariant is kept by every change that a step can make; the flag is worked out motion state by
motion state, and the shown set by link, lockout and the layer keys that are held. -/
theorem stepKeepsLockoutFlagAndShownSet : Obligations.StepKeepsLockoutFlagAndShownSet := by
  refine ⟨fun s t motion shown h => ⟨step_motionOk motion h, step_shownOk shown h⟩, fun s => ?_⟩
  intro flag layerKey
  have flag_eq : lockoutOf s.motion = flag := by
    cases h : s.motion.state with
    | moving => simp [lockoutOf_moving h, flag, h]
    | unknown => simp [lockoutOf_unknown h, flag, h]
    | parked => simp [lockoutOf_parked h, flag, h]
  have fn_iff : s.keys.layer = .fn ↔ layerKey := layer_eq_fn_iff s.keys
  refine ⟨by rw [← flag_eq]; rfl, shownSetOf_down, shownSetOf_lockout, fun h m held => ?_, fun h m none_held => ?_⟩
  · rw [shownSetOf_layer h m, if_pos (fn_iff.2 held)]
  · rw [shownSetOf_layer h m, if_neg (mt fn_iff.1 none_held)]

end Sys2Proof.Proofs
end

section
/-! LOAD_KEYMAP (chapter 3): the staged table checked and taken whole. -/

namespace Sys2Proof.Machine

open Sys2Proof.Claims

/-! ### Tables in staging -/

theorem inStaging_iff {offset size : Nat} :
    inStaging offset size = true ↔ 0x4000 ≤ offset ∧ offset + size ≤ 0x8000 := by
  simp [inStaging]

/-- The places of a table's bad fields, ascending. -/
def badPlaces (bad : Nat → Bool) (fields : List Nat) : List Nat :=
  (List.range fields.length).filter fun i => bad (fields.getD i 0)

theorem mem_badPlaces {bad : Nat → Bool} {fields : List Nat} {i : Nat} :
    i ∈ badPlaces bad fields ↔ ∃ h : i < fields.length, bad fields[i] = true := by
  simp only [badPlaces, List.mem_filter, List.mem_range]
  constructor
  · rintro ⟨h, b⟩
    exact ⟨h, by simpa [h] using b⟩
  · rintro ⟨h, b⟩
    exact ⟨h, by simpa [h] using b⟩

theorem badPlaces_eq_nil_iff {bad : Nat → Bool} {fields : List Nat} :
    badPlaces bad fields = [] ↔ fields.any bad = false := by
  simp only [List.eq_nil_iff_forall_not_mem, mem_badPlaces, List.any_eq_false, List.forall_mem_iff_forall_getElem,
    not_exists]

theorem length_badPlaces (bad : Nat → Bool) (fields : List Nat) :
    (badPlaces bad fields).length = fields.countP bad := by
  have listed : (List.range fields.length).map (fields.getD · 0) = fields :=
    List.ext_getElem (by simp) fun i _ h => by simp [h]
  calc (badPlaces bad fields).length
      _ = (List.range fields.length).countP (bad ∘ (fields.getD · 0)) := List.countP_eq_length_filter.symm
      _ = ((List.range fields.length).map (fields.getD · 0)).countP bad := List.countP_map.symm
      _ = fields.countP bad := by rw [listed]

/-- The first bad place is the lowest index of a bad field. -/
theorem findIdx_of_badPlaces {bad : Nat → Bool} {fields : List Nat} {i : Nat} {rest : List Nat}
    (h : badPlaces bad fields = i :: rest) : fields.findIdx bad = i := by
  have first : (List.range fields.length).find? (fun i => bad (fields.getD i 0)) = some i := by
    rw [← List.head?_filter]
    exact congrArg List.head? h
  obtain ⟨at_i, mem, before⟩ := List.find?_range_eq_some.1 first
  have hi : i < fields.length := List.mem_range.1 mem
  refine (List.findIdx_eq hi).2 ⟨by simpa [hi] using at_i, fun j hj => ?_⟩
  simpa [hj.trans hi] using before j hj

/-- The answer to a table with bad fields, by its bad places (R51, R72). -/
theorem tableFault_eq {bad : Nat → Bool} {fields : List Nat} {i : Nat} {rest : List Nat}
    (h : badPlaces bad fields = i :: rest) :
    tableFault bad fields = { code := .errTable, words := [i, fields.getD i 0, (badPlaces bad fields).length] } := by
  unfold tableFault
  rw [findIdx_of_badPlaces h, length_badPlaces]

/-! ### LOAD_KEYMAP (R50 to R52) -/

/-- A code that the keymap cannot hold (R51). -/
def badCode (v : Nat) : Bool := 511 < v

/-- The codes staged for LOAD_KEYMAP (R50). -/
def stagedCodes (ps : List Word) (s : State) : List Nat := s.mem.fields (param ps 2) 2 144

theorem length_stagedCodes (ps : List Word) (s : State) : (stagedCodes ps s).length = 144 := by
  simp [stagedCodes, Memory.fields]

theorem loadKeymap_layer {ps : List Word} (s : State) (h : 1 < param ps 1) : loadKeymap ps s = refuse .errParam s :=
  if_pos h

theorem loadKeymap_range {ps : List Word} (s : State) (h : param ps 1 ≤ 1) (k : inStaging (param ps 2) 288 = false) :
    loadKeymap ps s = refuse .errRange s := by
  unfold loadKeymap
  dsimp only
  rw [if_neg (Nat.not_lt.2 h), if_pos (by rw [k]; rfl)]

/-- With layer and range in order the staged codes decide (R51, R52). -/
theorem loadKeymap_table {ps : List Word} (s : State) (h : param ps 1 ≤ 1) (k : inStaging (param ps 2) 288 = true) :
    loadKeymap ps s =
      if (stagedCodes ps s).any badCode then (s, tableFault badCode (stagedCodes ps s))
      else
        (s.setKeymap
            (if param ps 1 = 0 then { s.keymap with base := stagedCodes ps s }
              else { s.keymap with fn := stagedCodes ps s }),
          { code := .ok, words := [(stagedCodes ps s).countP fun v => v != 0] }) := by
  unfold loadKeymap
  dsimp only
  rw [if_neg (Nat.not_lt.2 h), if_neg (by rw [k]; decide)]
  rfl

theorem loadKeymap_refused {ps : List Word} (s : State) (h : param ps 1 ≤ 1) (k : inStaging (param ps 2) 288 = true)
    {i : Nat} {rest : List Nat} (bad : badPlaces badCode (stagedCodes ps s) = i :: rest) :
    loadKeymap ps s =
      (s, { code := .errTable
            words := [i, (stagedCodes ps s).getD i 0, (badPlaces badCode (stagedCodes ps s)).length] }) := by
  have any : (stagedCodes ps s).any badCode = true := by
    by_contra clean
    rw [badPlaces_eq_nil_iff.2 (Bool.not_eq_true _ ▸ clean)] at bad
    cases bad
  rw [loadKeymap_table s h k, if_pos any, tableFault_eq bad]

theorem loadKeymap_taken {ps : List Word} (s : State) (h : param ps 1 ≤ 1) (k : inStaging (param ps 2) 288 = true)
    (good : badPlaces badCode (stagedCodes ps s) = []) :
    loadKeymap ps s =
      (s.setKeymap
          (if param ps 1 = 0 then { s.keymap with base := stagedCodes ps s }
            else { s.keymap with fn := stagedCodes ps s }),
        { code := .ok, words := [((stagedCodes ps s).filter (· ≠ 0)).length] }) := by
  have used : ((stagedCodes ps s).countP fun v => v != 0) = ((stagedCodes ps s).filter (· ≠ 0)).length := by
    rw [← List.countP_eq_length_filter]
    exact List.countP_congr fun v _ => by simp
  rw [loadKeymap_table s h k, badPlaces_eq_nil_iff.1 good, if_neg Bool.false_ne_true, used]

end Sys2Proof.Machine

namespace Sys2Proof.Proofs

open Sys2Proof.Machine Sys2Proof.Claims

/-- Settles O33: the checks in their order, and the table refused or taken by its bad places. -/
theorem loadKeymapRule : Obligations.LoadKeymapRule := by
  intro s q hq layer off codes bad
  have answers : exec .loadKeymap s = event (request 5 2 loadKeymap) s := rfl
  rw [answers, event_request hq]
  have places : badPlaces badCode (stagedCodes q.params s) = bad := by
    rw [badPlaces, length_stagedCodes]
    rfl
  refine ⟨fun h => ?_, fun h k => ?_, fun h low high => ?_⟩
  · rw [loadKeymap_layer s h]
    rfl
  · have outside : inStaging (param q.params 2) 288 = false :=
      Bool.eq_false_iff.2 fun inside => by have := inStaging_iff.1 inside; omega
    rw [loadKeymap_range s h outside]
    rfl
  · have inside : inStaging (param q.params 2) 288 = true := inStaging_iff.2 ⟨low, high⟩
    refine ⟨fun i rest h' => ?_, fun h' => ?_⟩
    · rw [loadKeymap_refused s h inside (places.trans h'), places]
      rfl
    · rw [loadKeymap_taken s h inside (places.trans h')]
      rfl

end Sys2Proof.Proofs
end

section
/-! LOAD_STEERING and LOCK_POLICY (chapter 4): the staged table checked and taken whole, the policy lock, and what every
command keeps under it. -/

namespace Sys2Proof.Machine

open Sys2Proof.Claims

/-! ### LOAD_STEERING (R70 to R72) -/

/-- A field of one byte is the byte (R191). -/
theorem Memory.readLe_one (m : Memory) (a : Nat) : m.readLe a 1 = (m.read a).toNat := rfl

/-- The segment values staged for LOAD_STEERING (R71). -/
def stagedSegments (ps : List Word) (s : State) : List Nat := s.mem.fields (param ps 1) 1 32

theorem length_stagedSegments (ps : List Word) (s : State) : (stagedSegments ps s).length = 32 := by
  simp [stagedSegments, Memory.fields]

theorem stagedSegments_eq (ps : List Word) (s : State) :
    stagedSegments ps s = (List.range 32).map fun i => (s.mem.read (param ps 1 + i)).toNat := by
  simp only [stagedSegments, Memory.fields, Memory.readLe_one, Nat.one_mul]

theorem badSegment_eq_decide (v : Nat) : badSegment v = decide (7 < v ∨ v = 4 ∨ v = 6) := by
  simp only [badSegment, beq_eq_decide, Bool.decide_or, Bool.or_assoc]

/-- Bits 0 to 2 of a segment value are forward, local and hold (R72). -/
theorem segmentOfValue_eq (v : Nat) :
    segmentOfValue v = { forward := v.testBit 0, dock := v.testBit 1, hold := v.testBit 2 } := by
  simp [segmentOfValue, Nat.testBit_eq_decide_div_mod_eq, beq_eq_decide]

/-- A table with a bad place has a bad field. -/
theorem any_of_badPlaces {bad : Nat → Bool} {fields : List Nat} {i : Nat} {rest : List Nat}
    (h : badPlaces bad fields = i :: rest) : fields.any bad = true := by
  by_contra clean
  rw [badPlaces_eq_nil_iff.2 (Bool.not_eq_true _ ▸ clean)] at h
  cases h

theorem loadSteering_locked (ps : List Word) {s : State} (h : s.steer.lock = true) :
    loadSteering ps s = refuse .errLocked s := if_pos h

theorem loadSteering_range {ps : List Word} {s : State} (h : s.steer.lock = false)
    (k : inStaging (param ps 1) 32 = false) : loadSteering ps s = refuse .errRange s := by
  unfold loadSteering
  dsimp only
  rw [if_neg (ne_true_of_eq_false h), if_pos (by rw [k]; rfl)]

/-- Unlocked and in range, the staged values decide (R72). -/
theorem loadSteering_table {ps : List Word} {s : State} (h : s.steer.lock = false)
    (k : inStaging (param ps 1) 32 = true) :
    loadSteering ps s =
      if (stagedSegments ps s).any badSegment then (s, tableFault badSegment (stagedSegments ps s))
      else
        (s.setSteer { s.steer with table := (stagedSegments ps s).map segmentOfValue },
          { code := .ok, words := [((stagedSegments ps s).map segmentOfValue).countP Segment.hold] }) := by
  unfold loadSteering
  dsimp only
  rw [if_neg (ne_true_of_eq_false h), if_neg (by rw [k]; decide)]
  rfl

theorem loadSteering_refused {ps : List Word} {s : State} (h : s.steer.lock = false)
    (k : inStaging (param ps 1) 32 = true) {i : Nat} {rest : List Nat}
    (bad : badPlaces badSegment (stagedSegments ps s) = i :: rest) :
    loadSteering ps s =
      (s, { code := .errTable
            words := [i, (stagedSegments ps s).getD i 0, (badPlaces badSegment (stagedSegments ps s)).length] }) := by
  rw [loadSteering_table h k, if_pos (any_of_badPlaces bad), tableFault_eq bad]

theorem loadSteering_taken {ps : List Word} {s : State} (h : s.steer.lock = false)
    (k : inStaging (param ps 1) 32 = true) (good : badPlaces badSegment (stagedSegments ps s) = []) :
    loadSteering ps s =
      (s.setSteer { s.steer with table := (stagedSegments ps s).map segmentOfValue },
        { code := .ok, words := [(((stagedSegments ps s).map segmentOfValue).filter Segment.hold).length] }) := by
  rw [loadSteering_table h k, badPlaces_eq_nil_iff.1 good, if_neg Bool.false_ne_true, List.countP_eq_length_filter]

/-! ### The policy lock (R69, R70) -/

section

variable {table : List Segment} {g : MotionSettings} {rate : Nat} {ds : List SignalDesc}

/-- Under the policy lock a command is a power reset, or it keeps the lock and all that the lock keeps. -/
theorem exec_locked {c : Instr} {s t : State} (hs : LockedAt table g rate ds s) (h : exec c s = .next t) :
    t = powerReset s ∨ LockedAt table g rate ds t := by
  rcases exec_cases h with rfl | rfl | ⟨_, p, l, b, a, rfl⟩ | ⟨_, he⟩
  · exact .inr hs
  · exact .inl rfl
  · exact .inr (lockedAt_of_frame (releaseReset_frame p l b a s) (by decide) (by decide) (by decide) hs)
  · exact .inr (he.keeps (fun _ _ _ _ k => k.keeps_locked) hs)

end

end Sys2Proof.Machine

namespace Sys2Proof.Proofs

open Sys2Proof.Machine Sys2Proof.Claims

/-- Settles O34: LOAD_STEERING by its checks in their order and the bad places of the staged table, LOCK_POLICY by whether
the lock is set, and what the lock keeps by what a command can do. -/
theorem loadSteeringAndLockPolicy : Obligations.LoadSteeringAndLockPolicy := by
  refine ⟨fun s q => ?_, fun c s t locked h => exec_locked ⟨locked, rfl, rfl, rfl, rfl⟩ h⟩
  intro off values bad table
  have load (hq : InExecution s q 6 1) : exec .loadSteering s = _ := event_request hq loadSteering
  have staged : stagedSegments q.params s = values := stagedSegments_eq q.params s
  have places : badPlaces badSegment values = bad := by
    rw [← staged, badPlaces, length_stagedSegments, staged]
    simp only [badSegment_eq_decide]
    rfl
  have segments : values.map segmentOfValue = table := List.map_congr_left fun v _ => segmentOfValue_eq v
  refine ⟨fun hq locked => ?_, fun hq unlocked outside => ?_,
    fun hq unlocked low high => ⟨fun i rest first => ?_, fun good => ?_⟩, fun hq => event_request hq lockPolicy⟩
  · rw [load hq, loadSteering_locked _ locked]
    rfl
  · have range : inStaging (param q.params 1) 32 = false :=
      Bool.eq_false_iff.2 fun inside => by have := inStaging_iff.1 inside; omega
    rw [load hq, loadSteering_range unlocked range]
    rfl
  · rw [← places, ← staged] at first
    rw [load hq, loadSteering_refused unlocked (inStaging_iff.2 ⟨low, high⟩) first, staged, places]
  · rw [← places, ← staged] at good
    rw [load hq, loadSteering_taken unlocked (inStaging_iff.2 ⟨low, high⟩) good, staged, segments]
    rfl

end Sys2Proof.Proofs
end

section
/-! WAKE and the repeat timer (chapter 5): every step keeps WAKE to where wake applies, and a repeat to a held entry. -/

namespace Sys2Proof.Machine

/-! ### WAKE (R90 to R93) -/

/-- The release of power reset leaves WAKE released and no hold timer armed, whatever the switches read (R90, R154). -/
theorem releaseReset_wakeOk (p l b : Bool) (a : Nat) {s : State} (hr : ResetOk s) (h : s.inReset = true) :
    WakeOk (releaseReset p l b a s) := by
  have wake : (releaseReset p l b a s).wake = State.reset.wake := by
    rw [hr h]; rfl
  intro asserted
  rw [wake] at asserted
  exact absurd asserted (by decide)

theorem exec_wakeOk {i : Instr} {s t : State} (hr : ResetOk s) (hs : WakeOk s) (h : exec i s = .next t) : WakeOk t := by
  rcases exec_cases h with rfl | rfl | ⟨hi, p, l, b, a, rfl⟩ | ⟨_, he⟩
  · exact hs
  · exact reset_wakeOk
  · exact releaseReset_wakeOk p l b a hr hi
  · exact he.keeps (fun _ _ _ _ c => c.keeps_wake) hs

theorem tick_wakeOk {s : State} (hs : WakeOk s) : WakeOk (tick s) := by
  unfold tick
  split
  · exact hs
  · exact wakeOk_of_frame (setMs_frame s _) (by decide) hs

theorem step_wakeOk {s t : State} (hr : ResetOk s) (hs : WakeOk s) (h : step s = .next t) : WakeOk t := by
  rcases step_cases h with ⟨_, rfl⟩ | ⟨c, rest, _, hc⟩
  · exact tick_wakeOk hs
  · exact exec_wakeOk (hr.setPending rest) (wakeOk_of_frame (setPending_frame s rest) (by decide) hs) hc

/-! ### The repeat (R86, R87, R89) -/

/-- A repeat stays on an entry held for it; the key table's ranges are what a press counts on to find its own entry. -/
theorem step_repeatOk {s t : State} (hs : KeysOk s.keys ∧ RepeatOk s) (h : step s = .next t) :
    KeysOk t.keys ∧ RepeatOk t :=
  step_keeps (P := fun s => KeysOk s.keys ∧ RepeatOk s) (fun _ _ k => k) (fun _ _ k => k)
    ⟨reset_keysOk, rfl⟩ (fun _ _ _ _ _ _ k => k) (fun _ _ _ c _ k => c.keeps_repeat k) h hs

end Sys2Proof.Machine

namespace Sys2Proof.Proofs

open Sys2Proof.Machine

/-- Settles O15, invariant by invariant: a part in power reset has no WAKE to lose at its release, and a repeat's entry is
found in the full key table. -/
theorem stepKeepsWakeAndRepeat : Obligations.StepKeepsWakeAndRepeat := by
  intro s t reset keys wake rep h
  obtain ⟨keys', rep'⟩ := step_repeatOk ⟨keys, rep⟩ h
  exact ⟨step_resetOk reset h, keys', step_wakeOk reset wake h, rep'⟩

end Sys2Proof.Proofs
end

section
/-! The requests of attention, chords and the times of chapters 5, 6 and 8 (R78, R82 to R84, R86, R90, R106, R153), and how
attention ends. -/

namespace Sys2Proof.Machine

open Sys2Proof.Claims

/-! ### Values brought into a range -/

theorem clamp_eq_within {low high : Nat} (h : low ≤ high) (v : Nat) :
    clamp low high v = if v < low then low else if high < v then high else v := by
  unfold clamp
  split_ifs <;> omega

theorem okIf_beq (a b : Nat) : okIf (a == b) = okUnless (a ≠ b) := okIf_eq_okUnless _ _ (by simp)

theorem okIf_beq_and (a b c d : Nat) : okIf (a == b && c == d) = okUnless (a ≠ b ∨ c ≠ d) :=
  okIf_eq_okUnless _ _ (by simp)

/-! ### Attention (R80, R82, R83) -/

theorem attentionIs_iff {i : Nat} {s : State} :
    attentionIs i s = true ↔ ∃ a, s.chords.attention = some a ∧ a.chord = i := by
  unfold attentionIs
  cases s.chords.attention <;> simp

theorem ackAttention_taken {ps : List Word} {s : State} (h : attentionIs (param ps 1) s = true) :
    ackAttention ps s = (endAttention .ack s.ms s, { code := .ok }) := by
  unfold ackAttention
  rw [if_pos h]

theorem ackAttention_refused {ps : List Word} {s : State} (h : ¬attentionIs (param ps 1) s = true) :
    ackAttention ps s = refuse .errState s := by
  unfold ackAttention
  rw [if_neg h]

theorem endAttention_active {s : State} {a : Attention} (h : s.chords.attention = some a) (c : EndCause) (t : Time) :
    endAttention c t s = touchAndRaise (append { time := t, body := .attentionEnd a.chord c }
      (s.setChords { s.chords with attention := none })) := by
  unfold endAttention
  rw [h]

theorem exec_attentionTimerExpiry_due {s : State} (hr : s.inReset = false) {a : Attention}
    (h : s.chords.attention = some a) (hd : due a.expiry s.ms = true) :
    exec .attentionTimerExpiry s = .next (endEvent (endAttention .timeout a.expiry s)) := by
  show execAttentionTimerExpiry s = _
  unfold execAttentionTimerExpiry
  rw [event_next hr, h]
  simp only [hd, if_true]

/-! ### ARM_CHORD, check by check (R78) -/

/-- The codes that ARM_CHORD's parameters give. -/
def askedCodes (ps : List Word) : List Nat := ([3, 4, 5, 6].map (param ps)).take (param ps 2)

/-- The chord entry replaced. -/
def storeChord (i : Nat) (codes : List Nat) (s : State) : State :=
  s.setChords { s.chords with entries := s.chords.entries.set i codes }

theorem chordCodesOk_iff (codes : List Nat) :
    chordCodesOk codes = true ↔ (∀ c ∈ codes, 1 ≤ c ∧ c ≤ 511) ∧ codes.Nodup := by
  simp [chordCodesOk]

section
variable {ps : List Word} {s : State}

theorem armChord_beyond (h : 3 < param ps 1) : armChord ps s = refuse .errParam s := by
  unfold armChord
  rw [if_pos h]

theorem armChord_busy (h : param ps 1 ≤ 3) (k : attentionIs (param ps 1) s = true) :
    armChord ps s = refuse .errState s := by
  unfold armChord
  rw [if_neg (by omega), if_pos k]

theorem armChord_disarms (h : param ps 1 ≤ 3) (k : ¬attentionIs (param ps 1) s = true) (n : param ps 2 = 0) :
    armChord ps s = (storeChord (param ps 1) [] s, { code := .ok }) := by
  unfold armChord
  rw [if_neg (by omega), if_neg k, if_pos n]
  rfl

theorem armChord_miscounted (h : param ps 1 ≤ 3) (k : ¬attentionIs (param ps 1) s = true)
    (n : param ps 2 = 1 ∨ 4 < param ps 2) : armChord ps s = refuse .errParam s := by
  unfold armChord
  rw [if_neg (by omega), if_neg k, if_neg (by omega), if_pos n]

theorem armChord_counted (h : param ps 1 ≤ 3) (k : ¬attentionIs (param ps 1) s = true) (two : 2 ≤ param ps 2)
    (four : param ps 2 ≤ 4) :
    armChord ps s =
      if chordCodesOk (askedCodes ps) = true then (storeChord (param ps 1) (askedCodes ps) s, { code := .ok })
      else refuse .errParam s := by
  unfold armChord
  rw [if_neg (by omega), if_neg k, if_neg (by omega), if_neg (by omega)]
  rfl

end

end Sys2Proof.Machine

namespace Sys2Proof.Proofs

open Sys2Proof.Machine Sys2Proof.Claims

/-- Settles O28: SET_ATTENTION stores the clamped timeout, and an attention begins for the timeout that stands. -/
theorem setAttentionRule : Obligations.SetAttentionRule := by
  refine ⟨fun s q hq => ?_, fun chord s => ?_⟩
  · show event (request 10 1 setAttention) s = _
    rw [event_request hq]
    simp only [setAttention, okIf_beq, clamp_eq_within (show 1 ≤ 60 by decide)]
    rfl
  · rw [beginAttention_chords]
    rfl

/-- Settles O29: each request stores its clamped values; SET_REPEAT first refuses an enable above 1. -/
theorem settingsOfTimers : Obligations.SettingsOfTimers := by
  refine ⟨fun s q => ⟨fun hq => ?_, fun hq => ?_, fun hq => ?_⟩, fun s q hq => ?_⟩
  · show event (request 12 1 setWakeHold) s = _
    rw [event_request hq]
    simp only [setWakeHold, okIf_beq, clamp_eq_within (show 50 ≤ 2000 by decide)]
    rfl
  · show event (request 14 1 setFlushDelay) s = _
    rw [event_request hq]
    simp only [setFlushDelay, okIf_beq, clamp_eq_within (show 1 ≤ 50 by decide)]
    rfl
  · show event (request 21 2 setLatchTimes) s = _
    rw [event_request hq]
    simp only [setLatchTimes, okIf_beq_and, clamp_eq_within (show 1 ≤ 30 by decide), clamp_eq_within (show 1 ≤ 10 by decide)]
    rfl
  · have answer : exec .setRepeat s = _ := event_request hq setRepeat
    refine ⟨fun (h : 1 < param q.params 1) => ?_, fun (h : param q.params 1 = 1) => ?_, fun (h : param q.params 1 = 0) => ?_⟩
    · rw [answer]
      simp only [setRepeat, if_pos h]
      rfl
    · rw [answer]
      simp only [setRepeat, h, okIf_beq_and]
      rfl
    · rw [answer]
      simp only [setRepeat, h, okIf_beq_and]
      rfl

/-- Settles O35: the four checks in their order. -/
theorem armChordRule : Obligations.ArmChordRule := by
  intro s q hq
  have answer : exec .armChord s = _ := event_request hq armChord
  have busy := attentionIs_iff (i := param q.params 1) (s := s)
  have good := chordCodesOk_iff (askedCodes q.params)
  refine ⟨fun beyond => ?_, fun within attends => ?_, fun within idle zero => ?_, fun within idle count => ?_,
    fun within idle two four codes => ?_, fun within idle two four codes => ?_⟩
  · rw [answer, armChord_beyond beyond]; rfl
  · rw [answer, armChord_busy within (busy.2 attends)]; rfl
  · rw [answer, armChord_disarms within (mt busy.1 idle) zero]; rfl
  · rw [answer, armChord_miscounted within (mt busy.1 idle) count]; rfl
  · rw [answer, armChord_counted within (mt busy.1 idle) two four, if_pos (good.2 codes)]; rfl
  · rw [answer, armChord_counted within (mt busy.1 idle) two four, if_neg (mt good.1 codes)]; rfl

/-- Settles O36: the acknowledge of the chord in attention and the due timer end it, each with its own cause and time. -/
theorem attentionEnds : Obligations.AttentionEnds := by
  intro s q a hr
  refine ⟨fun hq active same => ?_, fun hq active other => ?_, fun hq idle => ?_, fun active expired => ?_⟩
  · have answer : exec .ackAttention s = _ := event_request hq ackAttention
    rw [answer, ackAttention_taken (attentionIs_iff.2 ⟨a, active, same.symm⟩), endAttention_active active]
    rfl
  · have answer : exec .ackAttention s = _ := event_request hq ackAttention
    have not : ¬attentionIs (param q.params 1) s = true := by
      rw [attentionIs_iff, active]
      rintro ⟨b, hb, same⟩
      cases hb
      exact other same.symm
    rw [answer, ackAttention_refused not]
    rfl
  · have answer : exec .ackAttention s = _ := event_request hq ackAttention
    have not : ¬attentionIs (param q.params 1) s = true := by
      rw [attentionIs_iff, idle]
      simp
    rw [answer, ackAttention_refused not]
    rfl
  · rw [exec_attentionTimerExpiry_due hr active expired, endAttention_active active]
    rfl

end Sys2Proof.Proofs
end

section
/-! Write accesses to the window in DOWN and in LOW_POWER (R180, R181; log entry 34). -/

namespace Sys2Proof.Machine

open Sys2Proof.Claims

/-! ### The bytes of an access -/

@[simp] theorem accessBytes_length (a : Access) : (accessBytes a).length = a.size := by
  cases a <;> exact leBytes_length _ _

theorem le_of_mem_accessCells {off : Nat} {a : Access} {c : Nat × Byte} (h : c ∈ accessCells off a) : off ≤ c.1 := by
  obtain ⟨⟨b, i⟩, hb, rfl⟩ := List.mem_map.1 h
  exact List.le_snd_of_mem_zipIdx hb

/-- The memory after the bytes at the admitted offsets are written, in order. -/
def Memory.writeWhere (admits : Nat → Bool) (cs : List (Nat × Byte)) (m : Memory) : Memory :=
  cs.foldl (fun m c => if admits c.1 then m.write c.1 c.2 else m) m

/-- A read after the admitted bytes of a run are written: the run's own byte there, every other byte as before. -/
theorem Memory.read_writeWhere (admits : Nat → Bool) (bs : List Byte) (off x : Nat) (m : Memory) :
    (m.writeWhere admits ((bs.zipIdx off).map fun c => (c.2, c.1))).read x =
      if (off ≤ x ∧ x < off + bs.length) ∧ admits x = true then bs.getD (x - off) 0 else m.read x := by
  induction bs generalizing off m with
  | nil =>
    rw [if_neg (by simp only [List.length_nil]; omega)]
    rfl
  | cons b bs ih =>
    have unfolded : m.writeWhere admits (((b :: bs).zipIdx off).map fun c => (c.2, c.1)) =
        (if admits off then m.write off b else m).writeWhere admits ((bs.zipIdx (off + 1)).map fun c => (c.2, c.1)) := rfl
    rw [unfolded, ih]
    by_cases first : x = off
    · subst first
      rw [if_neg (by omega)]
      by_cases ok : admits x = true <;> simp [ok]
    · have head : (if admits off then m.write off b else m).read x = m.read x := by
        split
        · exact Memory.read_write_other _ _ _ _ first
        · rfl
      rw [head]
      by_cases later : off + 1 ≤ x
      · obtain ⟨k, rfl⟩ : ∃ k, x = off + 1 + k := ⟨x - (off + 1), by omega⟩
        have shift : off + 1 + k - off = k + 1 := by omega
        refine if_congr ?_ ?_ rfl
        · simp only [List.length_cons]
          constructor <;> rintro ⟨⟨_, _⟩, ok⟩ <;> exact ⟨by omega, ok⟩
        · rw [shift, Nat.add_sub_cancel_left, List.getD_cons_succ]
      · rw [if_neg (by omega), if_neg (by omega)]

theorem storeCells_eq (cs : List (Nat × Byte)) (s : State) :
    storeCells cs s = s.setMem (s.mem.writeWhere (stores s) cs) := by
  induction cs generalizing s with
  | nil => rfl
  | cons c cs ih =>
    have stored : storeCell c s = s.setMem (if stores s c.1 then s.mem.write c.1 c.2 else s.mem) := by
      unfold storeCell
      split <;> rfl
    show storeCells cs (storeCell c s) = _
    rw [stored, ih]
    rfl

/-! ### Owner fields (R94, R100, R108) -/

theorem isOwnerField_iff {x : Nat} : isOwnerField x = true ↔ ∃ i, i < 16 ∧ x = 0x0800 + 0x200 * i := by
  simp only [isOwnerField, Bool.and_eq_true, decide_eq_true_eq, beq_iff_eq]
  constructor
  · rintro ⟨⟨low, high⟩, aligned⟩
    exact ⟨(x - 0x0800) / 0x200, by omega, by omega⟩
  · rintro ⟨i, hi, rfl⟩
    omega

theorem isOpenOwner_iff {s : State} {x : Nat} :
    isOpenOwner s x = true ↔ ∃ p, s.log.page = some p ∧ x = pageBase p.index := by
  unfold isOpenOwner
  cases s.log.page <;> simp

/-- An owner field is stored unless it is the open page's (R100, R180). -/
theorem stores_ownerField_iff {s : State} {x : Nat} : (isOwnerField x && stores s x) = true ↔
    (∃ i, i < 16 ∧ x = 0x0800 + 0x200 * i) ∧ ¬∃ p, s.log.page = some p ∧ x = pageBase p.index := by
  have inside : isOwnerField x = true → inMemory x = true := by
    simp only [isOwnerField, inMemory, Bool.and_eq_true, Bool.or_eq_true, decide_eq_true_eq]
    omega
  rw [← isOwnerField_iff, ← isOpenOwner_iff]
  simp only [stores, Bool.and_eq_true, Bool.not_eq_true', Bool.not_eq_true]
  exact ⟨fun h => ⟨h.1, h.2.2⟩, fun h => ⟨h.1, inside h.1, h.2⟩⟩

/-! ### A write access in each link state (R181) -/

/-- While DOWN an access stores the owner fields that it covers, and nothing else of the part changes. -/
theorem dormantWrite_eq (off : Nat) (a : Access) (s : State) :
    dormantWrite off a s =
      s.setMem (s.mem.writeWhere (fun x => isOwnerField x && stores s x) (accessCells off a)) := by
  unfold dormantWrite
  rw [storeCells_eq]
  unfold Memory.writeWhere
  rw [List.foldl_filter]
  congr 2
  funext m c
  cases h : isOwnerField c.1 <;> simp [h]

/-- No register is an owner field. -/
theorem dormantWrite_above {off : Nat} (h : 0x2800 ≤ off) (a : Access) (s : State) : dormantWrite off a s = s := by
  have none : (accessCells off a).filter (fun c => isOwnerField c.1) = [] := by
    refine List.filter_eq_nil_iff.2 fun c hc owner => ?_
    have := le_of_mem_accessCells hc
    obtain ⟨i, hi, hx⟩ := isOwnerField_iff.1 owner
    omega
  unfold dormantWrite
  rw [none]
  rfl

theorem carriedWrite_down {s : State} (h : s.link = .down) (off : Nat) (a : Access) :
    carriedWrite off a s = dormantWrite off a s := by
  simp only [carriedWrite, accessed, h]

theorem bringActive_link (s : State) : (bringActive s).link = .active := by rw [bringActive_eq]

theorem bringActive_inReset (s : State) : (bringActive s).inReset = s.inReset := by rw [bringActive_eq]

theorem carriedWrite_lowPower {s : State} (h : s.link = .lowPower) (off : Nat) (a : Access) :
    carriedWrite off a s = carriedWrite off a (bringActive s) := by
  simp only [carriedWrite, accessed, h, bringActive_link]

theorem windowWrite_inside {off : Nat} {a : Access} (h : a.inWindow off = true) {s : State} (hr : s.inReset = false) :
    windowWrite off a s = .next (endEvent (carriedWrite off a s)) := by
  unfold windowWrite
  rw [if_pos h, event_next hr]

/-- An event that rewrote no status field ends as it stands (R184). -/
theorem endEvent_clean {s : State} (h : s.statusDirty = false) : endEvent s = s := by
  unfold endEvent
  rw [h]
  rfl

/-- Each write command is a write access at its offset; all but OWNER_MARK_WRITE begin in a register (log entry 7). -/
theorem exec_write {c : Instr} (h : isWrite c = true) (w : c.wellFormed = true) :
    ∃ off a, a.inWindow off = true ∧ (∀ s, exec c s = windowWrite off a s) ∧
      ((∀ o b, c ≠ .ownerMarkWrite o b) → 0xFFF0 ≤ off) := by
  have register (base : Nat) (lane : BitVec 2) (a : Access) (hb : base ≤ 0xFFF8) : a.inWindow (base + lane.toNat) = true := by
    have := lane.isLt
    cases a <;> simp only [Access.inWindow, Access.size] <;> exact decide_eq_true (by omega)
  cases c with
  | ownerMarkWrite o a => exact ⟨o.toNat, a, w, fun _ => rfl, fun k => absurd rfl (k o a)⟩
  | noticeWrite lane a =>
    exact ⟨noticeOffset + lane.toNat, a, register _ _ _ (by decide), fun _ => rfl, fun _ => by simp [noticeOffset]; omega⟩
  | intMaskWrite lane a =>
    exact ⟨intMaskOffset + lane.toNat, a, register _ _ _ (by decide), fun _ => rfl, fun _ => by simp [intMaskOffset]; omega⟩
  | intPendingWrite lane a =>
    exact ⟨intPendingOffset + lane.toNat, a, w, fun _ => rfl, fun _ => by simp [intPendingOffset]; omega⟩
  | registerWriteDiscarded lane a =>
    exact ⟨idOffset + lane.toNat, a, register _ _ _ (by decide), fun _ => rfl, fun _ => by simp [idOffset]⟩
  | _ => cases h

end Sys2Proof.Machine

namespace Sys2Proof.Proofs

open Sys2Proof.Machine Sys2Proof.Claims

/-- Settles O20: while DOWN only owner fields are written, byte by byte; in LOW_POWER the command acts as in the state
that the link's return to ACTIVE leaves. -/
theorem writeAccessesMeetTheLink : Obligations.WriteAccessesMeetTheLink := by
  intro c s hw wf hr clean
  refine ⟨fun down other => ?_, fun down off a hc => ?_, fun low => ?_⟩
  · obtain ⟨off, a, inside, answer, high⟩ := exec_write hw wf
    have above := high other
    rw [answer, windowWrite_inside inside hr, carriedWrite_down down, dormantWrite_above (by omega)]
    rw [endEvent_clean clean]
  · subst hc
    refine ⟨s.mem.writeWhere (fun x => isOwnerField x && stores s x) (accessCells off.toNat a), ?_, fun x => ?_⟩
    · show windowWrite off.toNat a s = _
      rw [windowWrite_inside wf hr, carriedWrite_down down, dormantWrite_eq]
      exact congrArg Host.Outcome.next (endEvent_clean (s := s.setMem _) clean)
    · rw [accessCells, Memory.read_writeWhere, accessBytes_length]
      exact if_congr (by rw [stores_ownerField_iff, and_assoc]) rfl rfl
  · obtain ⟨off, a, inside, answer, -⟩ := exec_write hw wf
    rw [← bringActive_eq, answer, answer, windowWrite_inside inside hr,
      windowWrite_inside inside ((bringActive_inReset s).trans hr), carriedWrite_lowPower low]

end Sys2Proof.Proofs
end

section
/-! The link-up (R93, R115, R116, R158, R189): the log's new epoch, the request unit and what the window then holds. -/

namespace Sys2Proof.Machine

open Sys2Proof.Claims

/-! ### The first record of an epoch (R116) -/

theorem Record.bytes_length (r : Record) : r.bytes.length = 16 := by simp [Record.bytes]

/-- The DOCKED record of the session that begins. -/
def dockedRecord (s : State) : Record :=
  { time := s.ms, body := .docked (s.log.epoch + 1) s.steer.lock s.steer.discarded }

/-! ### What exchange memory holds (R115, R189) -/

/-- Pages 0 to 15 cleared, each owner field PART. -/
def clearedPages (m : Memory) : Memory :=
  (List.range 16).foldl (fun m i => m.write (pageBase i) ownerPart) (m.clear 0x0800 0x2000)

/-- A page opened in an epoch (R107). -/
def openedPage (i : Nat) (epoch : Half) (m : Memory) : Memory :=
  (((clearUnnamed i m).write (pageBase i + 1) 0).write (pageBase i + 2) 0).writeBytes (pageBase i + 6) (leBytes 2 epoch.toNat)

/-- A first record on page 0 (R100). -/
def firstPlaced (r : Record) (m : Memory) : Memory :=
  ((clearUnnamed 0 m).writeBytes (pageBase 0 + 0x10) r.bytes).write (pageBase 0 + 2) 1

/-- Exchange memory after the link-up, the cells zeroed last. -/
def linkUpMemory (epoch : Half) (r : Record) (m : Memory) : Memory :=
  (firstPlaced r (openedPage 0 epoch (clearedPages m))).clear 0x0100 0x0400

theorem read_writeOwners (n x : Nat) (m : Memory) :
    ((List.range n).foldl (fun m i => m.write (pageBase i) ownerPart) m).read x =
      if 0x0800 ≤ x ∧ x < 0x0800 + 0x200 * n ∧ x % 0x200 = 0 then 1 else m.read x := by
  induction n with
  | zero => rw [if_neg (by omega)]; rfl
  | succ n ih =>
    rw [List.range_succ, List.foldl_append, List.foldl_cons, List.foldl_nil, Memory.read_write, ih]
    unfold pageBase
    split
    · rw [if_pos (by omega)]; rfl
    · exact if_congr (by omega) rfl rfl

theorem read_clearedPages (m : Memory) (x : Nat) :
    (clearedPages m).read x =
      if 0x0800 ≤ x ∧ x < 0x2800 then if x % 0x200 = 0 then 1 else 0 else m.read x := by
  unfold clearedPages
  rw [read_writeOwners, Memory.read_clear]
  split_ifs <;> first | omega | rfl

theorem read_openedPage (i : Nat) (epoch : Half) (m : Memory) (x : Nat) :
    (openedPage i epoch m).read x =
      if pageBase i + 6 ≤ x ∧ x < pageBase i + 8 then (leBytes 2 epoch.toNat).getD (x - (pageBase i + 6)) 0
      else if (pageBase i + 1 ≤ x ∧ x < pageBase i + 4) ∨ (pageBase i + 8 ≤ x ∧ x < pageBase i + 16) then 0
      else m.read x := by
  unfold openedPage
  rw [Memory.read_writeBytes, leBytes_length, Memory.read_write, Memory.read_write, Memory.read_clearUnnamed]
  split_ifs <;> first | omega | rfl

theorem read_firstPlaced (r : Record) (m : Memory) (x : Nat) :
    (firstPlaced r m).read x =
      if x = 0x0802 then 1
      else if 0x0810 ≤ x ∧ x < 0x0820 then r.bytes.getD (x - 0x0810) 0
      else if x = 0x0803 ∨ (0x0808 ≤ x ∧ x < 0x0810) then 0
      else m.read x := by
  unfold firstPlaced
  rw [Memory.read_write, Memory.read_writeBytes, Record.bytes_length, Memory.read_clearUnnamed]
  rfl

section
variable {epoch : Half} {r : Record} {m : Memory}

theorem read_linkUpMemory (x : Nat) :
    (linkUpMemory epoch r m).read x =
      if 0x0100 ≤ x ∧ x < 0x0500 then 0
      else if x = 0x0802 then 1
      else if 0x0810 ≤ x ∧ x < 0x0820 then r.bytes.getD (x - 0x0810) 0
      else if 0x0806 ≤ x ∧ x < 0x0808 then (leBytes 2 epoch.toNat).getD (x - 0x0806) 0
      else if 0x0800 ≤ x ∧ x < 0x2800 then if x % 0x200 = 0 then 1 else 0
      else m.read x := by
  unfold linkUpMemory
  have page : pageBase 0 = 0x0800 := rfl
  rw [Memory.read_clear, read_firstPlaced, read_openedPage, read_clearedPages, page]
  split_ifs <;> first | omega | rfl

theorem linkUpMemory_owner {i : Nat} (h : i < 16) : (linkUpMemory epoch r m).read (0x0800 + 0x200 * i) = 1 := by
  rw [read_linkUpMemory, if_neg (by omega), if_neg (by omega), if_neg (by omega), if_neg (by omega), if_pos (by omega),
    if_pos (by omega)]

theorem linkUpMemory_count : (linkUpMemory epoch r m).read 0x0802 = 1 := by
  rw [read_linkUpMemory, if_neg (by decide), if_pos rfl]

theorem linkUpMemory_epoch : (linkUpMemory epoch r m).readLe 0x0806 2 = epoch.toNat := by
  have bytes : (linkUpMemory epoch r m).readBytes 0x0806 2 = leBytes 2 epoch.toNat := by
    have byte (k : Nat) (h : k < 2) : (linkUpMemory epoch r m).read (0x0806 + k) = (leBytes 2 epoch.toNat).getD k 0 := by
      rw [read_linkUpMemory, if_neg (by omega), if_neg (by omega), if_neg (by omega), if_pos (by omega),
        Nat.add_sub_cancel_left]
    simp only [Memory.readBytes, List.range_succ, List.range_zero, List.map_append, List.map_nil, List.map_cons,
      byte 0 (by decide), byte 1 (by decide)]
    rfl
  have fits : epoch.toNat < 256 ^ 2 := epoch.isLt
  rw [Memory.readLe, bytes, leValue_leBytes, Nat.mod_eq_of_lt fits]

theorem linkUpMemory_record {k : Nat} (h : k < 16) : (linkUpMemory epoch r m).read (0x0810 + k) = r.bytes.getD k 0 := by
  rw [read_linkUpMemory, if_neg (by omega), if_neg (by omega), if_pos (by omega), Nat.add_sub_cancel_left]

/-- The cells, the unused bytes of page 0's header and record places, and the other pages but their owner fields. -/
theorem linkUpMemory_zeroed {x : Nat}
    (h : (0x0100 ≤ x ∧ x < 0x0500) ∨ (0x0803 ≤ x ∧ x < 0x0806) ∨ x = 0x0801 ∨ (0x0808 ≤ x ∧ x < 0x0810) ∨
      (0x0820 ≤ x ∧ x < 0x2800 ∧ x % 0x200 ≠ 0)) : (linkUpMemory epoch r m).read x = 0 := by
  rw [read_linkUpMemory]
  by_cases cell : 0x0100 ≤ x ∧ x < 0x0500
  · rw [if_pos cell]
  · rw [if_neg cell, if_neg (by omega), if_neg (by omega), if_neg (by omega), if_pos (by omega), if_neg (by omega)]

theorem linkUpMemory_kept {x : Nat} (h : x < 0x0100 ∨ (0x0500 ≤ x ∧ x < 0x0800) ∨ 0x2800 ≤ x) :
    (linkUpMemory epoch r m).read x = m.read x := by
  rw [read_linkUpMemory, if_neg (by omega), if_neg (by omega), if_neg (by omega), if_neg (by omega), if_neg (by omega)]

end

/-! ### The request unit's sweep finds nothing (R186, R189) -/

theorem cellBase_lt {n : Nat} (h : n < 8) : 0x0100 ≤ cellBase n ∧ cellBase n < 0x0500 := by
  unfold cellBase; omega

/-- With the cells zeroed no cell is POSTED. -/
theorem examine_zeroed {s : State} (h : ∀ x, 0x0100 ≤ x → x < 0x0500 → s.mem.read x = 0) : examine s = s := by
  have none : postedCell s = none := by
    refine List.find?_eq_none.2 fun n hn posted => ?_
    obtain ⟨k, -, rfl⟩ := List.mem_map.1 hn
    obtain ⟨low, high⟩ := cellBase_lt (Nat.mod_lt (s.req.pointer + 1 + k) (by decide : 0 < 8))
    rw [h _ low high] at posted
    exact absurd posted (by decide)
  unfold examine
  rw [none]
  split <;> rfl

/-! ### The log's new epoch (R115, R116) -/

/-- A record placed first on page 0, which it neither fills nor hands over (R100, R103). -/
theorem append_first {r : Record} {s : State} (live : s.log.live = true) (page : s.log.page = some { index := 0, count := 0 })
    (calm : r.body.urgent = false) (plain : r.body.isOverflow = false) :
    append r s =
      (s.setMem (firstPlaced r s.mem)).setLog
        { s.log with page := some { index := 0, count := 1 }, flush := some (after s.ms s.log.flushDelay) } := by
  unfold append placeOn
  simp [live, page, calm, plain, pageRecords, firstPlaced]

theorem openPage_eq (i : Nat) (s : State) :
    openPage i s = (s.setMem (openedPage i s.log.epoch s.mem)).setLog
      { s.log with page := some { index := i, count := 0 }, waiting := none } := by
  unfold openedPage
  rfl

/-- The log of a session that begins, with its first record (R115, R116). -/
def beganLog (s : State) : EventLog :=
  { s.log with
    live := true, epoch := s.log.epoch + 1, page := some { index := 0, count := 1 }, waiting := none, nextSeq := 0
    queue := [], inLoss := false, lost := 0, flush := some (after s.ms s.log.flushDelay) }

theorem logLinkUp_eq (s : State) :
    logLinkUp s =
      { s with
        log := beganLog s
        mem := firstPlaced (dockedRecord s) (openedPage 0 (s.log.epoch + 1) (clearedPages s.mem))
        statusDirty := true } := by
  unfold logLinkUp
  rw [← clearedPages]
  dsimp only
  rw [openPage_eq, append_first rfl rfl rfl rfl]
  simp only [State.setLog, State.setMem, touchStatus, State.setStatusDirty, beganLog, dockedRecord]

/-! ### The link-up (R181) -/

/-- What follows the log at a link-up, up to the wake unit (R65, R189, R93). -/
theorem linkUpRest_eq (s : State) :
    releaseWake (touchStatus (linkUpRequests (clearDiscarded s))) =
      { s with
        steer := { s.steer with discarded := 0 }
        irq := { s.irq with mask := 0, pending := 0 }
        req := { s.req with pointer := 7, current := s.req.current.map fun q => { q with mark := true } }
        wake := { s.wake with timer := none, line := none }
        mem := s.mem.clear 0x0100 0x0400
        statusDirty := true } := by
  simp only [releaseWake, touchStatus, linkUpRequests, markCurrent, clearDiscarded, State.setWake, State.setStatusDirty,
    State.setIrq, State.setReq, State.setMem, State.setSteer]

/-- The part after the link-up, before the legend driver works its shown set out (R158). -/
def linkedUp (s : State) : State :=
  { s with
    link := .active
    log := beganLog s
    steer := { s.steer with discarded := 0 }
    irq := { s.irq with mask := 0, pending := 0 }
    req := { s.req with pointer := 7, current := s.req.current.map fun q => { q with mark := true } }
    wake := { s.wake with timer := none, line := none }
    mem := linkUpMemory (s.log.epoch + 1) (dockedRecord s) s.mem
    statusDirty := true }

theorem linkedUp_eq (s : State) :
    releaseWake (touchStatus (linkUpRequests (clearDiscarded (logLinkUp (s.setLink .active))))) = linkedUp s := by
  rw [logLinkUp_eq, linkUpRest_eq]
  simp only [State.setLink, linkedUp, linkUpMemory, beganLog, dockedRecord]

theorem goUp_eq (s : State) : goUp s = evalShownSet s.ms (linkedUp s) := by
  have swept : goUp s = examine (evalShownSet s.ms (linkedUp s)) := by
    rw [← linkedUp_eq]
    rfl
  rw [swept]
  refine examine_zeroed fun x low high => ?_
  have mem : (evalShownSet s.ms (linkedUp s)).mem = (linkedUp s).mem := (evalShownSet_frame _ _).mem (by decide)
  rw [mem, linkedUp, read_linkUpMemory, if_pos ⟨low, high⟩]

end Sys2Proof.Machine

namespace Sys2Proof.Proofs

open Sys2Proof.Machine Sys2Proof.Claims

/-- Settles O60: the link-up is the state linked up with its shown set worked out; its memory is read region by region. -/
theorem linkUp : Obligations.LinkUp := by
  intro s hr down
  have f := evalShownSet_frame s.ms (linkedUp s)
  have mem : (evalShownSet s.ms (linkedUp s)).mem = linkUpMemory (s.log.epoch + 1) (dockedRecord s) s.mem := f.mem (by decide)
  have shown : (evalShownSet s.ms (linkedUp s)).legend.shown = shownSetOf { s with link := .active } :=
    (evalShownSet_shown s.ms (linkedUp s)).trans
      (shownSetOf_congr (by rw [f.link (by decide)]; rfl) (by rw [f.motion (by decide)]; rfl) (by rw [f.keys (by decide)]; rfl))
  refine ⟨evalShownSet s.ms (linkedUp s), ?_, f.link (by decide), f.statusDirty (by decide), f.log (by decide),
    f.steer (by decide), f.irq (by decide), f.req (by decide), f.wake (by decide), shown, f.keys (by decide),
    f.chords (by decide), f.rep (by decide), f.ind (by decide), f.bus (by decide), f.motion (by decide), f.latch (by decide),
    f.light (by decide), f.supply (by decide), f.scan (by decide), f.keymap (by decide), fun i hi => ?_, ?_, ?_,
    fun k hk => ?_, fun x => ⟨fun zeroed => ?_, fun kept => ?_⟩⟩
  · rw [exec_linkUp hr, if_pos down, goUp_eq]
  · rw [mem, linkUpMemory_owner hi]
  · rw [mem, linkUpMemory_count]
  · rw [mem, linkUpMemory_epoch]
  · rw [mem, linkUpMemory_record hk]
    rfl
  · rw [mem, linkUpMemory_zeroed zeroed]
  · rw [mem, linkUpMemory_kept kept]

end Sys2Proof.Proofs
end

section
/-! The rules of the event log: every step keeps them (chapter 6). -/

namespace Sys2Proof.Machine

theorem step_logOk {s t : State} (hs : LogOk s.log) (h : step s = .next t) : LogOk t.log :=
  step_keeps (P := fun s => LogOk s.log) (fun _ _ k => k) (fun _ _ k => k) reset_logOk (fun _ _ _ _ _ _ k => k)
    (fun _ _ _ c _ k => c.keeps_log k) h hs

/-- The part in power reset is DORMANT with the link DOWN, and its release leaves both as they are (R97, R181). -/
theorem step_liveOk {s t : State} (hs : LiveOk s) (h : step s = .next t) : LiveOk t :=
  step_keeps (fun _ _ k => k) (fun _ _ k => k) (iff_of_false nofun fun k => k rfl) (fun _ _ _ _ _ _ k => k)
    (fun _ _ _ c _ k => c.keeps_live k) h hs

end Sys2Proof.Machine

namespace Sys2Proof.Proofs

open Sys2Proof.Machine

/-- Settles O10: both invariants are kept by every change that a step can make. -/
theorem stepKeepsLogRules : Obligations.StepKeepsLogRules :=
  fun _ _ log live h => ⟨step_logOk log h, step_liveOk live h⟩

end Sys2Proof.Proofs
end

section
/-! Records and pages: where an appended record goes, and the handing over of a page (R98 to R105, R107, R111). -/

namespace Sys2Proof.Machine

open Sys2Proof.Claims

/-! ### Little-endian fields (R191) -/

/-- A field whose bytes are those of a number reads as the number, modulo its size. -/
theorem Memory.readLe_of_bytes {m : Memory} {a n v : Nat} (h : ∀ k < n, m.read (a + k) = (leBytes n v).getD k 0) :
    m.readLe a n = v % 256 ^ n := by
  have bytes : m.readBytes a n = leBytes n v := by
    refine List.ext_getElem (by simp [Memory.readBytes]) fun k hk hk' => ?_
    rw [leBytes_length] at hk'
    simp only [Memory.readBytes, List.getElem_map, List.getElem_range, h k hk']
    exact List.getD_eq_getElem _ _ _
  rw [Memory.readLe, bytes, leValue_leBytes]

/-- A 16-bit field whose bytes are those of a 16-bit word reads as the word. -/
theorem Memory.readLe_half {m : Memory} {a : Nat} (v : Half) (h : ∀ k < 2, m.read (a + k) = (leBytes 2 v.toNat).getD k 0) :
    m.readLe a 2 = v.toNat := by
  rw [Memory.readLe_of_bytes h]
  exact Nat.mod_eq_of_lt v.isLt

/-! ### Pages in exchange memory (R94) -/

/-- Exchange memory with a record at the open page's next place (R100). -/
def placedMemory (p : OpenPage) (r : Record) (m : Memory) : Memory :=
  let placed := ((clearUnnamed p.index m).writeBytes (pageBase p.index + 0x10 + 0x10 * p.count) r.bytes).write
    (pageBase p.index + 2) (BitVec.ofNat 8 (p.count + 1))
  if r.body.isOverflow then placed.write (pageBase p.index + 1) 1 else placed

theorem read_placedMemory (p : OpenPage) (r : Record) (m : Memory) (x : Nat) :
    (placedMemory p r m).read x =
      if x = pageBase p.index + 1 then if r.body.isOverflow then 1 else m.read x
      else if x = pageBase p.index + 2 then BitVec.ofNat 8 (p.count + 1)
      else if pageBase p.index + 0x10 + 0x10 * p.count ≤ x ∧ x < pageBase p.index + 0x10 + 0x10 * p.count + 16 then
        r.bytes.getD (x - (pageBase p.index + 0x10 + 0x10 * p.count)) 0
      else if x = pageBase p.index + 3 ∨ (pageBase p.index + 8 ≤ x ∧ x < pageBase p.index + 16) then 0
      else m.read x := by
  unfold placedMemory
  cases r.body.isOverflow
  · simp only [Bool.false_eq_true, if_false, Memory.read_write, Memory.read_writeBytes, Record.bytes_length,
      Memory.read_clearUnnamed]
    split_ifs <;> first | omega | rfl
  · simp only [if_true, Memory.read_write, Memory.read_writeBytes, Record.bytes_length, Memory.read_clearUnnamed]

section
variable {p : OpenPage} {r : Record} {m : Memory}

theorem placedMemory_record {k : Nat} (h : k < 16) :
    (placedMemory p r m).read (pageBase p.index + 0x10 + 0x10 * p.count + k) = r.bytes.getD k 0 := by
  rw [read_placedMemory, if_neg (by omega), if_neg (by omega), if_pos (by omega), Nat.add_sub_cancel_left]

theorem placedMemory_count : (placedMemory p r m).read (pageBase p.index + 2) = BitVec.ofNat 8 (p.count + 1) := by
  rw [read_placedMemory, if_neg (by omega), if_pos rfl]

theorem placedMemory_lossBefore :
    (placedMemory p r m).read (pageBase p.index + 1) = if r.body.isOverflow then 1 else m.read (pageBase p.index + 1) := by
  rw [read_placedMemory, if_pos rfl]

theorem placedMemory_unnamed {x : Nat} (h : unnamedByte (pageBase p.index) x) : (placedMemory p r m).read x = 0 := by
  unfold unnamedByte at h
  rw [read_placedMemory, if_neg (by omega), if_neg (by omega), if_neg (by omega), if_pos h]

theorem placedMemory_kept {x : Nat} (loss : x ≠ pageBase p.index + 1) (count : x ≠ pageBase p.index + 2)
    (named : ¬unnamedByte (pageBase p.index) x)
    (outside : x < pageBase p.index + 0x10 + 0x10 * p.count ∨ pageBase p.index + 0x10 + 0x10 * p.count + 16 ≤ x) :
    (placedMemory p r m).read x = m.read x := by
  unfold unnamedByte at named
  rw [read_placedMemory, if_neg loss, if_neg count, if_neg (by omega), if_neg named]

end

/-- Exchange memory with a page handed over under a sequence number (R101). -/
def handedMemory (i : Nat) (seq : Half) (m : Memory) : Memory :=
  ((clearUnnamed i m).writeBytes (pageBase i + 4) (leBytes 2 seq.toNat)).write (pageBase i) ownerTablet

theorem read_handedMemory (i : Nat) (seq : Half) (m : Memory) (x : Nat) :
    (handedMemory i seq m).read x =
      if x = pageBase i then 2
      else if pageBase i + 4 ≤ x ∧ x < pageBase i + 6 then (leBytes 2 seq.toNat).getD (x - (pageBase i + 4)) 0
      else if x = pageBase i + 3 ∨ (pageBase i + 8 ≤ x ∧ x < pageBase i + 16) then 0
      else m.read x := by
  unfold handedMemory
  rw [Memory.read_write, Memory.read_writeBytes, leBytes_length, Memory.read_clearUnnamed]
  rfl

section
variable {i : Nat} {epoch : Half} {m : Memory}

theorem openedPage_lossBefore : (openedPage i epoch m).read (pageBase i + 1) = 0 := by
  rw [read_openedPage, if_neg (by omega), if_pos (by omega)]

theorem openedPage_count : (openedPage i epoch m).read (pageBase i + 2) = 0 := by
  rw [read_openedPage, if_neg (by omega), if_pos (by omega)]

theorem openedPage_epoch : (openedPage i epoch m).readLe (pageBase i + 6) 2 = epoch.toNat := by
  refine Memory.readLe_half _ fun k hk => ?_
  rw [read_openedPage, if_pos (by omega), Nat.add_sub_cancel_left]

end

/-- A page and the next of the ring lie apart (R94). -/
theorem pageBase_next (i : Nat) :
    pageBase ((i + 1) % 16) + 0x200 ≤ pageBase i ∨ pageBase i + 0x200 ≤ pageBase ((i + 1) % 16) := by
  unfold pageBase; omega

/-! ### A record on the open page (R100, R102, R104) -/

theorem RecordBody.urgent_iff {b : RecordBody} :
    b.urgent = true ↔ (∃ k, b = .attentionBegin k) ∨ ∃ c, b = .latch c .asked := by
  cases b with
  | latch cause state => cases state <;> simp [RecordBody.urgent]
  | _ => simp [RecordBody.urgent]

theorem RecordBody.isOverflow_iff {b : RecordBody} : b.isOverflow = true ↔ ∃ n, b = .overflow n := by
  cases b <;> simp [RecordBody.isOverflow]

/-- The part with a record at the open page's next place, before the page is handed over (R100). -/
def placedOn (p : OpenPage) (r : Record) (s : State) : State :=
  { s with
    mem := placedMemory p r s.mem
    log := { s.log with
      page := some { index := p.index, count := p.count + 1 }
      flush := if p.count = 0 then some (after s.ms s.log.flushDelay) else s.log.flush } }

theorem placeOn_eq (p : OpenPage) (r : Record) (s : State) :
    placeOn p r s =
      if p.count + 1 = pageRecords ∨ r.body.urgent = true then handOver p.index (placedOn p r s) else placedOn p r s := by
  have full : (decide (p.count + 1 = pageRecords) || r.body.urgent) = true ↔
      p.count + 1 = pageRecords ∨ r.body.urgent = true := by rw [Bool.or_eq_true, decide_eq_true_iff]
  rw [← if_congr full rfl rfl]
  rfl

theorem append_dormant {s : State} (r : Record) (h : s.log.live = false) : append r s = s := by
  unfold append
  rw [if_neg (by simp [h])]

theorem append_open {s : State} {p : OpenPage} (r : Record) (live : s.log.live = true) (h : s.log.page = some p) :
    append r s = placeOn p r s := by
  unfold append
  rw [if_pos live, h]

/-- With no page open a record is queued where there is no loss and room for it, and otherwise lost (R99, R111). -/
theorem append_closed {s : State} (r : Record) (live : s.log.live = true) (h : s.log.page = none) :
    append r s =
      if s.log.inLoss = false ∧ s.log.queue.length < 32 then s.setLog { s.log with queue := s.log.queue ++ [r] }
      else loseRecord s := by
  unfold append
  rw [if_pos live, h]
  refine if_congr ?_ rfl rfl
  rw [Bool.and_eq_true, Bool.not_eq_true', decide_eq_true_iff, queueRecords]

/-! ### Handing a page over (R101, R107) -/

/-- The part with a page handed over, before the next page is looked at (R101). -/
def handedOver (i : Nat) (s : State) : State :=
  raiseCause .log ((s.setMem (handedMemory i s.log.nextSeq s.mem)).setLog
    { s.log with nextSeq := s.log.nextSeq + 1, flush := none, page := none })

theorem handedOver_mem (i : Nat) (s : State) : (handedOver i s).mem = handedMemory i s.log.nextSeq s.mem :=
  (raiseCause_frame _ _).mem (by decide)

theorem handedOver_log (i : Nat) (s : State) :
    (handedOver i s).log = { s.log with nextSeq := s.log.nextSeq + 1, flush := none, page := none } :=
  (raiseCause_frame _ _).log (by decide)

theorem handOver_irq (i : Nat) (s : State) : (handOver i s).irq = (raiseCause .log s).irq :=
  ((lookAtPage_frame _ _).irq (by decide)).trans (raiseCause_irq_congr .log rfl rfl)

/-- The next page's owner field is not touched by the handover (R107). -/
theorem handOver_eq (i : Nat) (s : State) :
    handOver i s =
      if s.mem.read (pageBase ((i + 1) % 16)) = 1 then openPage ((i + 1) % 16) (handedOver i s)
      else (handedOver i s).setLog { (handedOver i s).log with page := none, waiting := some ((i + 1) % 16) } := by
  have owner : (handedOver i s).mem.read (pageBase ((i + 1) % 16)) = s.mem.read (pageBase ((i + 1) % 16)) := by
    have apart := pageBase_next i
    rw [handedOver_mem, read_handedMemory, if_neg (by omega), if_neg (by omega), if_neg (by omega)]
  rw [← owner]
  rfl

section
variable {i : Nat} {s : State}

/-- The next page opens: exchange memory and the log (R107). -/
theorem handOver_opens (h : s.mem.read (pageBase ((i + 1) % 16)) = 1) :
    (handOver i s).mem = openedPage ((i + 1) % 16) s.log.epoch (handedMemory i s.log.nextSeq s.mem) ∧
    (handOver i s).log = { s.log with
      nextSeq := s.log.nextSeq + 1, flush := none, page := some { index := (i + 1) % 16, count := 0 }, waiting := none } := by
  rw [handOver_eq, if_pos h, openPage_eq, handedOver_mem, handedOver_log]
  exact ⟨rfl, rfl⟩

/-- The next page is waited for (R107). -/
theorem handOver_waits (h : s.mem.read (pageBase ((i + 1) % 16)) ≠ 1) :
    (handOver i s).mem = handedMemory i s.log.nextSeq s.mem ∧
    (handOver i s).log = { s.log with
      nextSeq := s.log.nextSeq + 1, flush := none, page := none, waiting := some ((i + 1) % 16) } := by
  rw [handOver_eq, if_neg h, handedOver_log]
  exact ⟨handedOver_mem i s, rfl⟩

/-- Every byte of exchange memory after a handover. -/
theorem read_handOver (x : Nat) :
    (handOver i s).mem.read x =
      if s.mem.read (pageBase ((i + 1) % 16)) = 1 then
        (openedPage ((i + 1) % 16) s.log.epoch (handedMemory i s.log.nextSeq s.mem)).read x
      else (handedMemory i s.log.nextSeq s.mem).read x := by
  split
  · rw [(handOver_opens ‹_›).1]
  · rw [(handOver_waits ‹_›).1]

/-- The header of the page handed over stands whatever becomes of the next page. -/
theorem read_handOver_handed {x : Nat} (h : pageBase i ≤ x ∧ x < pageBase i + 16) :
    (handOver i s).mem.read x = (handedMemory i s.log.nextSeq s.mem).read x := by
  have apart := pageBase_next i
  rw [read_handOver]
  split
  · rw [read_openedPage, if_neg (by omega), if_neg (by omega)]
  · rfl

theorem handOver_owner : (handOver i s).mem.read (pageBase i) = 2 := by
  rw [read_handOver_handed (by omega), read_handedMemory, if_pos rfl]

theorem handOver_sequence : (handOver i s).mem.readLe (pageBase i + 4) 2 = s.log.nextSeq.toNat := by
  refine Memory.readLe_half _ fun k hk => ?_
  rw [read_handOver_handed (by omega), read_handedMemory, if_neg (by omega), if_pos (by omega), Nat.add_sub_cancel_left]

/-- The unnamed bytes of both headers (R191; log entry 35). -/
theorem handOver_unnamed {x : Nat}
    (h : unnamedByte (pageBase i) x ∨
      (s.mem.read (pageBase ((i + 1) % 16)) = 1 ∧ unnamedByte (pageBase ((i + 1) % 16)) x)) :
    (handOver i s).mem.read x = 0 := by
  unfold unnamedByte at h
  rcases h with handed | ⟨opens, next⟩
  · rw [read_handOver_handed (by omega), read_handedMemory, if_neg (by omega), if_neg (by omega), if_pos handed]
  · rw [read_handOver, if_pos opens, read_openedPage, if_neg (by omega), if_pos (by omega)]

/-- What neither the handover nor the opening of the next page writes. -/
theorem handOver_kept {x : Nat} (owner : x ≠ pageBase i) (low : x ≠ pageBase i + 4) (high : x ≠ pageBase i + 5)
    (named : ¬unnamedByte (pageBase i) x)
    (next : s.mem.read (pageBase ((i + 1) % 16)) = 1 →
      x ≠ pageBase ((i + 1) % 16) + 1 ∧ x ≠ pageBase ((i + 1) % 16) + 2 ∧ x ≠ pageBase ((i + 1) % 16) + 6 ∧
        x ≠ pageBase ((i + 1) % 16) + 7 ∧ ¬unnamedByte (pageBase ((i + 1) % 16)) x) :
    (handOver i s).mem.read x = s.mem.read x := by
  unfold unnamedByte at named next
  have handed : (handedMemory i s.log.nextSeq s.mem).read x = s.mem.read x := by
    rw [read_handedMemory, if_neg owner, if_neg (by omega), if_neg named]
  rw [read_handOver]
  split
  · have := next ‹_›
    rw [read_openedPage, if_neg (by omega), if_neg (by omega), handed]
  · exact handed

end

theorem exec_flushTimerExpiry {s : State} {e : Time} {p : OpenPage} (hr : s.inReset = false) (hf : s.log.flush = some e)
    (hd : due e s.ms = true) (hp : s.log.page = some p) (hc : 0 < p.count) :
    exec .flushTimerExpiry s = .next (endEvent (handOver p.index s)) := by
  show execFlushTimerExpiry s = _
  rw [execFlushTimerExpiry, event_next hr]
  simp [hf, hp, hd, hc]

/-- LOG_FLUSH hands the open page over where it holds a record (R105). -/
theorem logFlush_handsOver {s : State} {p : OpenPage} (ps : List Word) (live : s.log.live = true)
    (hp : s.log.page = some p) (hc : 0 < p.count) : logFlush ps s = (handOver p.index s, { code := .ok, words := [1] }) := by
  simp [logFlush, live, hp, hc]

/-- LOG_FLUSH leaves a log with nothing to hand over as it is (R105). -/
theorem logFlush_idle {s : State} (ps : List Word)
    (h : ∀ p, s.log.page = some p → s.log.live = false ∨ p.count = 0) : logFlush ps s = (s, { code := .ok }) := by
  unfold logFlush
  split
  · rename_i p hp
    rw [if_neg]
    rcases h p hp with dormant | empty
    · simp [dormant]
    · simp [empty]
  · rfl

end Sys2Proof.Machine

namespace Sys2Proof.Proofs

open Sys2Proof.Machine Sys2Proof.Claims

/-- Settles O43: DORMANT, no page open, and the open page, whose memory is read byte by byte. -/
theorem whereARecordGoes : Obligations.WhereARecordGoes := by
  intro r s withLog urgent isOverflow
  refine ⟨append_dormant r, fun live closed => ⟨fun calm room => ?_, fun loss => ?_, fun calm full => ?_⟩,
    fun p live hp _ hc => ?_⟩
  · rw [append_closed r live closed, if_pos ⟨calm, room⟩]; rfl
  · rw [append_closed r live closed, if_neg (by simp [loss]), loseRecord, if_pos loss]; rfl
  · rw [append_closed r live closed, if_neg (by omega), loseRecord, if_neg (by simp [calm])]; rfl
  · have urgent_iff : r.body.urgent = true ↔ urgent := RecordBody.urgent_iff
    have overflow_iff : r.body.isOverflow = true ↔ isOverflow := RecordBody.isOverflow_iff
    rw [append_open r live hp, placeOn_eq]
    exact ⟨placedMemory p r s.mem, fun full => if_pos (full.imp (congrArg (· + 1)) urgent_iff.2),
      fun room calm => if_neg (not_or.2 ⟨by unfold pageRecords; omega, mt urgent_iff.1 calm⟩),
      fun _ => placedMemory_record, placedMemory_count,
      fun marks => placedMemory_lossBefore.trans (if_pos (overflow_iff.2 marks)),
      fun plain => placedMemory_lossBefore.trans (if_neg (mt overflow_iff.1 plain)),
      fun _ => ⟨placedMemory_unnamed, placedMemory_kept⟩⟩

/-- Settles O44: the handover on both ways of the next page; the two commands hand over the open page that holds a
record. -/
theorem pageHandover : Obligations.PageHandover := by
  refine ⟨?_, fun s e p q => ⟨exec_flushTimerExpiry, fun hq => ⟨fun live hp hc => ?_, fun idle => ?_⟩⟩⟩
  · intro i s _ base next t opens
    refine ⟨handOver_sequence, handOver_owner, handOver_irq i s, fun yes => ⟨(handOver_opens yes).2, ?_, ?_, ?_⟩,
      fun no => (handOver_waits no).2, fun x => ⟨handOver_unnamed, handOver_kept⟩⟩
    · exact (congrArg (Memory.read · _) (handOver_opens yes).1).trans openedPage_lossBefore
    · exact (congrArg (Memory.read · _) (handOver_opens yes).1).trans openedPage_count
    · exact (congrArg (Memory.readLe · _ 2) (handOver_opens yes).1).trans openedPage_epoch
  · have answer : exec .logFlush s = _ := event_request hq logFlush
    rw [answer, logFlush_handsOver _ live hp hc]
  · have answer : exec .logFlush s = _ := event_request hq logFlush
    rw [answer, logFlush_idle]
    rintro p' hp'
    rcases idle with dormant | closed | ⟨hp, empty⟩
    · exact .inl dormant
    · rw [closed] at hp'; cases hp'
    · rw [hp] at hp'; cases hp'
      exact .inr empty

end Sys2Proof.Proofs
end

section
/-! The loss summary (R112 to R114): what an append does to queue and loss, and the summary's records. -/

namespace Sys2Proof.Machine

open Sys2Proof.Claims

/-! ### The queue and the loss under appends -/

theorem handOver_sameQueue (i : Nat) (s : State) : SameQueue s.log (handOver i s).log := by
  by_cases h : s.mem.read (pageBase ((i + 1) % 16)) = 1
  · rw [(handOver_opens h).2]; exact ⟨rfl, rfl, rfl⟩
  · rw [(handOver_waits h).2]; exact ⟨rfl, rfl, rfl⟩

/-- A record placed on a page leaves the queue and the loss (R100). -/
theorem placeOn_sameQueue (p : OpenPage) (r : Record) (s : State) : SameQueue s.log (placeOn p r s).log := by
  rw [placeOn_eq]
  split
  · exact handOver_sameQueue p.index (placedOn p r s)
  · exact ⟨rfl, rfl, rfl⟩

/-- No loss, and at most `n` records queued. -/
def Spared (n : Nat) (g : EventLog) : Prop := g.inLoss = false ∧ g.lost = 0 ∧ g.queue.length ≤ n

theorem Spared.of_sameQueue {n : Nat} {g g' : EventLog} (h : Spared n g) (same : SameQueue g g') : Spared n g' := by
  obtain ⟨queue, inLoss, lost⟩ := same
  unfold Spared
  rw [queue, inLoss, lost]
  exact h

theorem Spared.mono {n k : Nat} {g : EventLog} (h : Spared n g) (le : n ≤ k) : Spared k g := by
  obtain ⟨inLoss, lost, queue⟩ := h
  exact ⟨inLoss, lost, queue.trans le⟩

/-- With room in the queue no record is lost, and at most this one is queued (R99, R111). -/
theorem append_spared {n : Nat} (r : Record) {s : State} (h : Spared n s.log) (room : n < 32) :
    Spared (n + 1) (append r s).log := by
  obtain ⟨inLoss, lost, queue⟩ := id h
  cases live : s.log.live with
  | false => rw [append_dormant r live]; exact h.mono (by omega)
  | true =>
    cases page : s.log.page with
    | some p => rw [append_open r live page]; exact (h.of_sameQueue (placeOn_sameQueue p r s)).mono (by omega)
    | none =>
      rw [append_closed r live page, if_pos ⟨inLoss, by omega⟩]
      refine ⟨inLoss, lost, ?_⟩
      simpa using queue

theorem appendAll_spared (rs : List Record) {n : Nat} {s : State} (h : Spared n s.log) (room : n + rs.length ≤ 32) :
    Spared (n + rs.length) (appendAll rs s).log := by
  induction rs generalizing n s with
  | nil => exact h
  | cons r rs ih =>
    rw [List.length_cons] at room
    exact (ih (append_spared r h (by omega)) (by omega)).mono (by rw [List.length_cons]; omega)

/-! ### The records of the summary (R112, R113) -/

/-- Groups of five codes and a last group of at most five, empty only where it stands alone, that joined give the codes. -/
structure Fives (groups : List (List Nat)) (last codes : List Nat) : Prop where
  five : ∀ g ∈ groups, g.length = 5
  short : last.length ≤ 5
  filled : groups ≠ [] → last ≠ []
  joined : groups.flatten ++ last = codes

theorem Fives.length {groups : List (List Nat)} {last codes : List Nat} (h : Fives groups last codes) :
    5 * groups.length + last.length = codes.length := by
  have flat : (groups.map List.length).sum = groups.length * 5 := by
    rw [List.map_congr_left h.five, List.map_const', List.sum_replicate, smul_eq_mul]
  rw [← h.joined, List.length_append, List.length_flatten, flat, mul_comm]

/-- Sixteen codes make at most three groups before the last (R113). -/
theorem Fives.length_le {groups : List (List Nat)} {last codes : List Nat} (h : Fives groups last codes)
    (few : codes.length ≤ 16) : groups.length ≤ 3 := by
  have total := h.length
  by_contra many
  have := List.length_pos_iff.2 (h.filled (by rintro rfl; simp at many))
  omega

/-- RESYNC records: five codes each but the last, more-follows on all but the last (R113). -/
theorem resyncBodies_fives (fuel : Nat) (codes : List Nat) (h : codes.length < fuel) :
    ∃ groups last, resyncBodies fuel codes = groups.map (RecordBody.resync · true) ++ [.resync last false] ∧
      Fives groups last codes := by
  induction fuel generalizing codes with
  | zero => omega
  | succ fuel ih =>
    by_cases few : codes.length ≤ 5
    · refine ⟨[], codes, by rw [resyncBodies, if_pos few]; rfl, nofun, few, fun h => absurd rfl h, rfl⟩
    · obtain ⟨groups, last, bodies, fives⟩ := ih (codes.drop 5) (by rw [List.length_drop]; omega)
      have total := fives.length
      rw [List.length_drop] at total
      refine ⟨codes.take 5 :: groups, last, by rw [resyncBodies, if_neg few, bodies]; rfl, ?_, fives.short, ?_, ?_⟩
      · rintro g (_ | ⟨_, hg⟩)
        · rw [List.length_take]; omega
        · exact fives.five g hg
      · rintro - rfl
        have alone : groups = [] := by
          by_contra more
          exact fives.filled more rfl
        rw [alone, List.length_nil, List.length_nil] at total
        omega
      · rw [List.flatten_cons, List.append_assoc, fives.joined, List.take_append_drop]

/-- The summary of a loss, all its records of one time (R112, R113). -/
theorem summaryRecords_fives (s : State) : ∃ groups last,
    summaryRecords s =
      ({ time := s.ms, body := .overflow s.log.lost } : Record) ::
        (groups.map fun g => { time := s.ms, body := .resync g true }) ++ [{ time := s.ms, body := .resync last false }] ∧
    Fives groups last (heldCodes s.keys) := by
  obtain ⟨groups, last, bodies, fives⟩ := resyncBodies_fives _ (heldCodes s.keys) (Nat.lt_succ_self _)
  refine ⟨groups, last, ?_, fives⟩
  unfold summaryRecords
  dsimp only
  rw [bodies, List.map_cons, List.map_append, List.map_map]
  rfl

theorem summaryRecords_length {s : State} (few : (heldCodes s.keys).length ≤ 16) : (summaryRecords s).length ≤ 5 := by
  obtain ⟨groups, last, records, fives⟩ := summaryRecords_fives s
  have := fives.length_le few
  rw [records]
  simp only [List.length_append, List.length_cons, List.length_map, List.length_nil]
  omega

/-- With an empty queue the summary leaves no loss (R112, R114). -/
theorem writeSummary_spared {s : State} (queue : s.log.queue = []) (few : (heldCodes s.keys).length ≤ 16) :
    Spared 5 (writeSummary s).log := by
  have records := summaryRecords_length few
  have none : Spared 0 (s.setLog { s.log with inLoss := false, lost := 0 }).log := ⟨rfl, rfl, by simp [queue]⟩
  rw [writeSummary, touchAndRaise_log]
  exact (appendAll_spared _ none (by omega)).mono (by omega)

/-- The codes of R113, the condition written out. -/
theorem heldCodes_eq (k : KeyTable) :
    heldCodes k = k.entries.filterMap fun e => e.latched?.bind fun l =>
      if l.route.forward ∧ ¬l.orphaned then some l.code else none := by
  unfold heldCodes
  refine List.filterMap_congr fun e _ => ?_
  unfold KeyEntry.latched?
  cases e.cond with
  | down l => simp [Latched.owned]
  | _ => rfl

end Sys2Proof.Machine

namespace Sys2Proof.Proofs

open Sys2Proof.Machine Sys2Proof.Claims

/-- Settles O45: the codes in fives, and the summary's records appended to an empty queue, which takes them all. -/
theorem lossSummary : Obligations.LossSummary := by
  intro s owned codes written
  have held : heldCodes s.keys = codes := by
    rw [heldCodes_eq]
    refine List.filterMap_congr fun e _ => ?_
    unfold KeyEntry.latched?
    cases cond : e.cond <;> simp [owned, cond]
  obtain ⟨groups, last, records, fives⟩ := summaryRecords_fives s
  rw [held] at fives
  refine ⟨⟨groups, last, records, fives.five, fives.short, fives.filled, fives.joined, fives.length_le⟩, rfl,
    fun queue few => ?_⟩
  exact writeSummary_spared queue (by rw [held]; exact few)

end Sys2Proof.Proofs
end

section
/-! Write accesses while the link is ACTIVE (R180), and the return of the waiting page (R108). -/

namespace Sys2Proof.Machine

open Sys2Proof.Claims

/-! ### The bytes that an access stores (R180) -/

theorem stores_iff {s : State} {x : Nat} : stores s x = true ↔
    ((0x0100 ≤ x ∧ x < 0x0500) ∨ (0x0800 ≤ x ∧ x < 0x2800) ∨ (0x4000 ≤ x ∧ x < 0xC000)) ∧
      ¬∃ p, s.log.page = some p ∧ x = pageBase p.index := by
  rw [← isOpenOwner_iff]
  simp only [stores, inMemory, Bool.and_eq_true, Bool.or_eq_true, decide_eq_true_eq, Bool.not_eq_true', Bool.not_eq_true,
    or_assoc]

/-- Exchange memory after the bytes of an access are stored. -/
def storedMemory (off : Nat) (a : Access) (s : State) : Memory := s.mem.writeWhere (stores s) (accessCells off a)

theorem read_storedMemory (off : Nat) (a : Access) (s : State) (x : Nat) :
    (storedMemory off a s).read x =
      if (off ≤ x ∧ x < off + a.size) ∧ stores s x = true then (accessBytes a).getD (x - off) 0 else s.mem.read x := by
  rw [storedMemory, accessCells, Memory.read_writeWhere, accessBytes_length]

/-! ### What the bytes of an access set off (R108, R182) -/

theorem access_size_le (a : Access) : a.size ≤ 4 := by cases a <;> simp [Access.size]

theorem mem_accessCells {off : Nat} {a : Access} {c : Nat × Byte} :
    c ∈ accessCells off a ↔ (off ≤ c.1 ∧ c.1 < off + a.size) ∧ c.2 = (accessBytes a).getD (c.1 - off) 0 := by
  have listed : c ∈ accessCells off a ↔ (c.2, c.1) ∈ (accessBytes a).zipIdx off := by
    rw [accessCells, List.mem_map]
    exact ⟨fun ⟨d, hd, e⟩ => e ▸ hd, fun h => ⟨_, h, rfl⟩⟩
  rw [listed, List.mk_mem_zipIdx_iff_le_and_getElem?_sub, List.getElem?_eq_some_iff]
  constructor
  · rintro ⟨low, high, byte⟩
    have inside : c.1 - off < a.size := by rwa [accessBytes_length] at high
    exact ⟨by omega, by rw [List.getD_eq_getElem _ _ high, byte]⟩
  · rintro ⟨⟨low, high⟩, byte⟩
    have inside : c.1 - off < (accessBytes a).length := by rw [accessBytes_length]; omega
    exact ⟨low, inside, by rw [byte, List.getD_eq_getElem _ _ inside]⟩

theorem accessCells_below {off bound : Nat} {a : Access} (h : off + a.size ≤ bound) :
    ∀ c ∈ accessCells off a, c.1 < bound :=
  fun _ hc => (mem_accessCells.1 hc).1.2.trans_le h

/-- An access covers one owner field at most (R94). -/
theorem accessCells_owner_unique {off i j : Nat} {a : Access} {c d : Nat × Byte} (hc : c ∈ accessCells off a)
    (hd : d ∈ accessCells off a) (i_at : c.1 = pageBase i) (j_at : d.1 = pageBase j) : c.1 = d.1 := by
  have cover := (mem_accessCells.1 hc).1
  have cover' := (mem_accessCells.1 hd).1
  have size := access_size_le a
  unfold pageBase at i_at j_at
  omega

/-- The offsets of an access rise. -/
theorem accessCells_rising (off : Nat) (a : Access) : (accessCells off a).Pairwise fun c d => c.1 < d.1 := by
  have offsets : (accessCells off a).map Prod.fst = List.range' off a.size := by
    rw [accessCells, List.map_map, ← accessBytes_length]
    exact List.zipIdx_map_snd off (accessBytes a)
  have rising : (List.range' off a.size).Pairwise (· < ·) := List.pairwise_lt_range'
  rw [← offsets, List.pairwise_map] at rising
  exact rising

theorem waitingOwner_eq_some {s : State} {x i : Nat} :
    waitingOwner s x = some i ↔ s.log.waiting = some i ∧ x = pageBase i := by
  unfold waitingOwner
  cases s.log.waiting with
  | none => simp
  | some j =>
    dsimp only
    rw [Option.ite_none_right_eq_some, and_comm]
    exact and_congr_right fun h => by rw [Option.some.inj h]

/-- A byte below the registers that does not return the waiting page sets nothing off. -/
theorem cellEvent_idle {c : Nat × Byte} {s : State} (low : c.1 < noticeOffset)
    (h : ∀ i, s.log.waiting = some i → c.1 = pageBase i → c.2 ≠ ownerPart) : cellEvent c s = s := by
  have mask : c.1 ≠ intMaskOffset := by unfold noticeOffset at low; unfold intMaskOffset; omega
  have causes : c.1 ≠ intPendingOffset := by unfold noticeOffset at low; unfold intPendingOffset; omega
  unfold cellEvent
  cases owner : waitingOwner s c.1 with
  | none =>
    dsimp only
    rw [if_neg mask, if_neg causes]
  | some i =>
    obtain ⟨waiting, at_⟩ := waitingOwner_eq_some.1 owner
    exact if_neg (h i waiting at_)

theorem cellEvents_idle {cs : List (Nat × Byte)} {s : State} (low : ∀ c ∈ cs, c.1 < noticeOffset)
    (h : ∀ c ∈ cs, ∀ i, s.log.waiting = some i → c.1 = pageBase i → c.2 ≠ ownerPart) :
    cs.foldl (fun t c => cellEvent c t) s = s := by
  induction cs with
  | nil => rfl
  | cons c cs ih =>
    rw [List.foldl_cons, cellEvent_idle (low c List.mem_cons_self) (h c List.mem_cons_self)]
    exact ih (fun d hd => low d (List.mem_cons_of_mem _ hd)) fun d hd => h d (List.mem_cons_of_mem _ hd)

theorem accessEvents_low {cs : List (Nat × Byte)} (low : ∀ c ∈ cs, c.1 < noticeOffset) (s : State) :
    accessEvents cs s = cs.foldl (fun t c => cellEvent c t) s := by
  have none : coversNotice cs = false := by
    refine List.any_eq_false.2 fun c hc => ?_
    have := low c hc
    simp only [Bool.and_eq_true, decide_eq_true_eq]
    omega
  rw [accessEvents, none]
  rfl

theorem cellEvent_returns {s : State} {i : Nat} (waiting : s.log.waiting = some i) :
    cellEvent (pageBase i, ownerPart) s = pageReturned i s := by
  unfold cellEvent
  rw [waitingOwner_eq_some.2 ⟨waiting, rfl⟩]
  rfl

/-- An access that covers the waiting page's owner field with PART returns that page: the bytes before and after it are
no owner field, whichever page is waited for then (R94). -/
theorem accessEvents_returns {off : Nat} {a : Access} {s : State} {i : Nat} (low : off + a.size ≤ noticeOffset)
    (waiting : s.log.waiting = some i) (covers : (pageBase i, ownerPart) ∈ accessCells off a) :
    accessEvents (accessCells off a) s = pageReturned i s := by
  have below := accessCells_below low
  rw [accessEvents_low below]
  obtain ⟨before, later, cells⟩ := List.append_of_mem covers
  obtain ⟨-, after, cross⟩ := List.pairwise_append.1 (cells ▸ accessCells_rising off a)
  have idle (cs : List (Nat × Byte)) (t : State) (covered : ∀ c ∈ cs, c ∈ accessCells off a)
      (apart : ∀ c ∈ cs, c.1 ≠ pageBase i) : cs.foldl (fun t c => cellEvent c t) t = t :=
    cellEvents_idle (fun c hc => below c (covered c hc)) fun c hc j _ owner =>
      absurd (accessCells_owner_unique (covered c hc) covers owner rfl) (apart c hc)
  have first := idle before s (by simp +contextual [cells]) fun c hc => (cross c hc _ List.mem_cons_self).ne
  have last := idle later (pageReturned i s) (by simp +contextual [cells]) fun c hc =>
    ((List.pairwise_cons.1 after).1 c hc).ne'
  rw [cells, List.foldl_append, List.foldl_cons, first, cellEvent_returns waiting, last]

/-! ### OWNER_MARK_WRITE while the link is ACTIVE -/

theorem exec_ownerMarkWrite_active {off : BitVec 16} {a : Access} {s : State} (hr : s.inReset = false)
    (active : s.link = .active) (inside : off.toNat + a.size ≤ 65536) :
    exec (.ownerMarkWrite off a) s = .next (endEvent (accessEvents (accessCells off.toNat a)
      (s.setMem (storedMemory off.toNat a s)))) := by
  have carried : carriedWrite off.toNat a s = tabletWrite off.toNat a s := by simp only [carriedWrite, accessed, active]
  show windowWrite off.toNat a s = _
  rw [windowWrite_inside (decide_eq_true inside) hr, carried, tabletWrite, storeCells_eq]
  rfl

/-- An access below the registers that does not return the waiting page stores its bytes and changes nothing else. -/
theorem ownerMarkWrite_stores {off : BitVec 16} {a : Access} {s : State} (hr : s.inReset = false)
    (active : s.link = .active) (clean : s.statusDirty = false) (low : off.toNat + a.size ≤ noticeOffset)
    (h : ∀ i, s.log.waiting = some i → (pageBase i, ownerPart) ∉ accessCells off.toNat a) :
    exec (.ownerMarkWrite off a) s = .next (s.setMem (storedMemory off.toNat a s)) := by
  have below := accessCells_below low
  have idle : accessEvents (accessCells off.toNat a) (s.setMem (storedMemory off.toNat a s)) =
      s.setMem (storedMemory off.toNat a s) := by
    rw [accessEvents_low below]
    refine cellEvents_idle below ?_
    rintro ⟨x, b⟩ hc i waiting rfl rfl
    exact h i waiting hc
  rw [exec_ownerMarkWrite_active hr active (low.trans (by decide)), idle]
  exact congrArg Host.Outcome.next (endEvent_clean clean)

/-- An access below the registers that writes PART into the waiting page's owner field returns that page, all its bytes
stored before (log entry 8). -/
theorem ownerMarkWrite_returns {off : BitVec 16} {a : Access} {s : State} {i : Nat} (hr : s.inReset = false)
    (active : s.link = .active) (low : off.toNat + a.size ≤ noticeOffset) (waiting : s.log.waiting = some i)
    (covers : (pageBase i, ownerPart) ∈ accessCells off.toNat a) :
    exec (.ownerMarkWrite off a) s =
      .next (endEvent (pageReturned i (s.setMem (storedMemory off.toNat a s)))) := by
  rw [exec_ownerMarkWrite_active hr active (low.trans (by decide))]
  exact congrArg (Host.Outcome.next <| endEvent ·) (accessEvents_returns low waiting covers)

/-! ### The drain (R108) -/

/-- The queue drains: its first records are appended one after the other while a page is open, and the rest stay queued. -/
theorem drain_eq (rs : List Record) {s : State} (live : s.log.live = true) (queue : s.log.queue = []) :
    ∃ n ≤ rs.length, drain rs s =
        (appendAll (rs.take n) s).setLog { (appendAll (rs.take n) s).log with queue := rs.drop n } ∧
      SameQueue s.log (appendAll (rs.take n) s).log ∧
      (∀ k < n, (appendAll (rs.take k) s).log.page.isSome = true) ∧
      (n < rs.length → (appendAll (rs.take n) s).log.page = none) := by
  induction rs generalizing s with
  | nil =>
    refine ⟨0, le_rfl, ?_, ⟨rfl, rfl, rfl⟩, nofun, nofun⟩
    show s = s.setLog { s.log with queue := [] }
    rw [← queue]
    rfl
  | cons r rs ih =>
    cases page : s.log.page with
    | none => exact ⟨0, Nat.zero_le _, by rw [drain, page]; rfl, ⟨rfl, rfl, rfl⟩, nofun, fun _ => page⟩
    | some p =>
      have placed := append_open r live page
      have same : SameQueue s.log (append r s).log := placed ▸ placeOn_sameQueue p r s
      obtain ⟨n, le, drained, rest, before, stop⟩ := ih ((append_live r s).trans live) (same.1.trans queue)
      refine ⟨n + 1, Nat.succ_le_succ le, ?_, same.trans rest, fun k hk => ?_, fun short =>
        stop (Nat.lt_of_succ_lt_succ short)⟩
      · rw [drain, page]
        dsimp only
        rw [← placed, drained]
        rfl
      · cases k with
        | zero => exact Option.isSome_iff_exists.2 ⟨p, page⟩
        | succ k => exact before k (Nat.lt_of_succ_lt_succ hk)

/-! ### The return of the waiting page (R108) -/

/-- One byte written to the waiting page's owner field is stored. -/
theorem storedMemory_owner {s : State} {i : Nat} (hi : i < 16) (page : s.log.page = none) (v : Byte) :
    storedMemory (pageBase i) (.byte v) s = s.mem.write (pageBase i) v := by
  have stored : stores s (pageBase i) = true := stores_iff.2 ⟨by unfold pageBase; omega, by simp [page]⟩
  show (if stores s (pageBase i) then s.mem.write (pageBase i) (BitVec.ofNat 8 v.toNat) else s.mem) = _
  rw [if_pos stored, BitVec.ofNat_toNat, BitVec.setWidth_eq]

/-- The returned page open and the queue taken off, to be placed anew. -/
def reopened (i : Nat) (s : State) : State :=
  { s with
    mem := openedPage i s.log.epoch s.mem
    log := { s.log with page := some { index := i, count := 0 }, waiting := none, queue := [] } }

/-- The first `n` queued records placed, the rest queued. -/
def drainedTo (n i : Nat) (s : State) : State :=
  let placed := appendAll (s.log.queue.take n) (reopened i s)
  placed.setLog { placed.log with queue := s.log.queue.drop n }

/-- The return of the waiting page: how many of the queued records are placed, and whether the summary follows (R108,
R112). -/
theorem pageReturned_eq (i : Nat) {s : State} (live : s.log.live = true) :
    ∃ n ≤ s.log.queue.length,
      (pageReturned i s =
        if s.log.inLoss = true ∧ n = s.log.queue.length ∧
            (appendAll (s.log.queue.take n) (reopened i s)).log.page.isSome = true
        then writeSummary (drainedTo n i s) else drainedTo n i s) ∧
      (∀ k < n, (appendAll (s.log.queue.take k) (reopened i s)).log.page.isSome = true) ∧
      (n < s.log.queue.length → (appendAll (s.log.queue.take n) (reopened i s)).log.page = none) := by
  obtain ⟨n, le, drained, ⟨-, loss, -⟩, before, stop⟩ := drain_eq s.log.queue (s := reopened i s) live rfl
  refine ⟨n, le, ?_, before, stop⟩
  have opened : (openPage i s).setLog { (openPage i s).log with queue := [] } = reopened i s := by
    rw [openPage_eq]
    rfl
  have drained : drain s.log.queue (reopened i s) = drainedTo n i s := drained
  have empty : (s.log.queue.drop n).isEmpty = true ↔ n = s.log.queue.length := by
    rw [List.isEmpty_iff, List.drop_eq_nil_iff]
    omega
  have loss : (drainedTo n i s).log.inLoss = s.log.inLoss := loss
  unfold pageReturned
  dsimp only
  rw [opened, drained]
  refine if_congr ?_ rfl rfl
  rw [Bool.and_eq_true, Bool.and_eq_true, loss, and_assoc, and_congr_right_iff]
  exact fun _ => and_comm.trans (and_congr_left fun _ => empty)

end Sys2Proof.Machine

namespace Sys2Proof.Proofs

open Sys2Proof.Machine Sys2Proof.Claims

/-- Settles O21: which bytes are stored, the access that returns the waiting page and every other one, and the four
registers. -/
theorem writeAccessesAreStored : Obligations.WriteAccessesAreStored := by
  intro off a s hr active clean covers byteAt
  have cell (x : Nat) : (x, ownerPart) ∈ accessCells off.toNat a ↔ covers x ∧ byteAt x = 1 :=
    mem_accessCells.trans (and_congr_right fun _ => eq_comm)
  have carried {x : Nat} : off.toNat = x → exec (.ownerMarkWrite off a) s = windowWrite x a s := congrArg (windowWrite · a s)
  refine ⟨fun low => ⟨storedMemory off.toNat a s, fun x => ?_, fun other => ?_, fun i waiting on part => ?_⟩,
    fun lane => ⟨carried, carried, carried, carried⟩⟩
  · rw [read_storedMemory]
    exact if_congr (and_congr_right fun _ => stores_iff) rfl rfl
  · exact ownerMarkWrite_stores hr active clean low fun i waiting on =>
      other i waiting ((cell _).1 on).1 ((cell _).1 on).2
  · exact ownerMarkWrite_returns hr active low waiting ((cell _).2 ⟨on, part⟩)

/-- Settles O22: another value than PART sets nothing off; PART returns the page, whose header is that of an opened
page. -/
theorem returnOfTheWaitingPage : Obligations.ReturnOfTheWaitingPage := by
  intro i v s hi hr active clean live waiting page write stored queue
  have offset : (BitVec.ofNat 16 (pageBase i)).toNat = pageBase i := by
    rw [BitVec.toNat_ofNat, Nat.mod_eq_of_lt (by unfold pageBase; omega)]
  have low : (BitVec.ofNat 16 (pageBase i)).toNat + (Access.byte v).size ≤ noticeOffset := by
    have size := access_size_le (.byte v)
    rw [offset]
    unfold pageBase noticeOffset
    omega
  have mem : storedMemory (BitVec.ofNat 16 (pageBase i)).toNat (.byte v) s = s.mem.write (pageBase i) v := by
    rw [offset, storedMemory_owner hi page]
  have cell : (pageBase i, ownerPart) ∈ accessCells (BitVec.ofNat 16 (pageBase i)).toNat (.byte v) ↔ v = 1 := by
    rw [offset]
    show _ ∈ [(pageBase i, BitVec.ofNat 8 v.toNat)] ↔ _
    rw [List.mem_singleton, BitVec.ofNat_toNat, BitVec.setWidth_eq, Prod.mk_right_inj]
    exact eq_comm
  refine ⟨fun other => ?_, fun part => ?_⟩
  · have stores := ownerMarkWrite_stores hr active clean low fun j wait => by
      rw [waiting] at wait
      cases wait
      exact mt cell.1 other
    rw [mem] at stores
    exact stores
  · have returns := ownerMarkWrite_returns hr active low waiting (cell.2 part)
    rw [mem] at returns
    obtain ⟨n, le, returned, before, stop⟩ := pageReturned_eq i (s := stored) live
    have header (x : Nat) := read_openedPage i s.log.epoch stored.mem x
    refine ⟨openedPage i s.log.epoch stored.mem, n, fun no => returns.trans ?_, fun yes => returns.trans ?_, le, before,
      stop, ?_, openedPage_lossBefore, openedPage_count, openedPage_epoch, fun x => ⟨fun unnamed => ?_, fun kept => ?_⟩⟩
    · exact congrArg (Host.Outcome.next <| endEvent ·) (returned.trans (if_neg no))
    · exact congrArg (Host.Outcome.next <| endEvent ·) (returned.trans (if_pos yes))
    · rw [header, if_neg (by omega), if_neg (by omega), Memory.read_write_same, part]
    · unfold unnamedByte at unnamed
      rw [header, if_neg (by omega), if_pos (by omega)]
    · rw [header, if_neg (by omega), if_neg (by omega), Memory.read_write_other _ _ _ _ (by omega)]

end Sys2Proof.Proofs
end

section
/-! The value that a frame gives a signal (R129 to R132): its field bit by bit in both byte orders, and the scaling. -/

namespace Sys2Proof.Machine

/-! ### Bits of the data field (R129, R131) -/

/-- Bit `k` of the data field, as a truth value. -/
def dataSet (data : List Byte) (k : Nat) : Bool := (data.getD (k / 8) 0).getLsbD (k % 8)

/-- A field with one more bit at its least significant end. -/
theorem dataBit_add (data : List Byte) (k n : Nat) : dataBit data k + 2 * n = Nat.bit (dataSet data k) n := by
  rw [Nat.bit_val, Nat.add_comm]
  exact congrArg (2 * n + ·) (by unfold dataBit dataSet boolBit; cases BitVec.getLsbD _ _ <;> rfl)

/-- The place of bit `k` in BIG order, which counts down within a byte and from byte to byte (R131). -/
def bigPlace (k : Nat) : Nat := 8 * (k / 8) + (7 - k % 8)

theorem bigPlace_bigPlace (k : Nat) : bigPlace (bigPlace k) = k := by unfold bigPlace; omega

/-- The bit taken next in BIG order is the one a place further. -/
theorem bigPlace_bigNext (k : Nat) : bigPlace (bigNext k) = bigPlace k + 1 := by
  unfold bigNext bigPlace
  split <;> omega

/-! ### Fields (R130, R131) -/

theorem testBit_littleField (data : List Byte) (start n i : Nat) :
    (littleField data start n).testBit i = (decide (i < n) && dataSet data (start + i)) := by
  induction n generalizing start i with
  | zero => simp [littleField]
  | succ n ih =>
    rw [littleField, dataBit_add]
    cases i with
    | zero => simp
    | succ i => simp [Nat.testBit_bit_succ, ih, Nat.add_right_comm start 1 i, Nat.add_assoc]

/-- A BIG field begun in `acc`: below, the bits taken from `start` on, the last of them least significant; above, those of
`acc`. -/
theorem testBit_bigField (data : List Byte) (start n acc i : Nat) :
    (bigField data start n acc).testBit i =
      if i < n then dataSet data (bigPlace (bigPlace start + (n - 1 - i))) else acc.testBit (i - n) := by
  induction n generalizing start acc with
  | zero => rfl
  | succ n ih =>
    rw [bigField, ih, Nat.add_comm (2 * acc), dataBit_add, bigPlace_bigNext]
    by_cases below : i < n
    · rw [if_pos below, if_pos (by omega)]
      congr 2
      omega
    rw [if_neg below]
    by_cases here : i = n
    · subst here
      rw [if_pos (by omega), Nat.sub_self, Nat.testBit_bit_zero, Nat.add_sub_cancel, Nat.sub_self, Nat.add_zero,
        bigPlace_bigPlace]
    · obtain ⟨j, rfl⟩ : ∃ j, i = n + 1 + j := ⟨i - (n + 1), by omega⟩
      rw [if_neg (by omega), Nat.add_sub_cancel_left, (by omega : n + 1 + j - n = j + 1), Nat.testBit_bit_succ]

theorem lastByte_little (start n : Nat) : lastByte false start n = (start + n - 1) / 8 := rfl

/-- A BIG field ends in the byte of its last place. -/
theorem lastByte_big (start : Nat) {n : Nat} (h : 0 < n) : lastByte true start n = (bigPlace start + (n - 1)) / 8 := by
  unfold lastByte bigPlace
  rw [if_pos rfl]
  split <;> omega

/-! ### Scaling (R132) -/

theorem scaled_eq (raw mult shift : Nat) (offset : Int) :
    (scaled raw mult shift offset : Int) =
      if (raw * mult / 2 ^ shift : Nat) + offset < 0 then 0
      else if 65535 < (raw * mult / 2 ^ shift : Nat) + offset then 65535 else (raw * mult / 2 ^ shift : Nat) + offset := by
  unfold scaled
  split
  · omega
  · split <;> omega

end Sys2Proof.Machine

namespace Sys2Proof.Proofs

open Sys2Proof.Machine

/-- Settles O47: the bits of a field by induction on its length, in BIG order by the places that the bits are numbered
by. -/
theorem fieldExtractionAndScaling : Obligations.FieldExtractionAndScaling := by
  refine ⟨fun data start n => ⟨testBit_littleField data start n, fun i => ?_,
    fun h => ⟨lastByte_little start n, lastByte_big start h⟩⟩, scaled_eq⟩
  refine (testBit_bigField data start n 0 i).trans ?_
  by_cases h : i < n
  · rw [if_pos h, decide_eq_true h, Bool.true_and]
    rfl
  · rw [if_neg h, decide_eq_false h, Nat.zero_testBit, Bool.false_and]

end Sys2Proof.Proofs
end

section
/-! The motion state by arrivals of SPEED and PARK and by staleness (R137 to R139). -/

namespace Sys2Proof.Machine

theorem moveTo_motion (m : MotionState) (run : Option Time) (t : Time) (s : State) :
    (moveTo m run t s).motion =
      { s.motion with
        state := m, run := run
        lockout := s.motion.settings.vehicle && (m == .moving || (m == .unknown && !s.motion.settings.asParked)) } :=
  settleMotion_motion _ _ t s

/-! ### Arrivals of SPEED (R137, R138) -/

section
variable {s : State} (v : Nat) (t : Time)

theorem speedArrival_unknown (h : s.motion.state = .unknown) :
    speedArrival v t s =
      if v ≤ s.motion.settings.moveOff then moveTo .parked none t s else moveTo .moving none t s := by
  unfold speedArrival
  simp only [h]
  split <;> rfl

theorem speedArrival_parked (h : s.motion.state = .parked) :
    speedArrival v t s =
      if s.motion.settings.moveOn ≤ v then
        if s.motion.settings.onDwell ≤ elapsed (s.motion.run.getD t) t then moveTo .moving none t s
        else moveTo .parked (some (s.motion.run.getD t)) t s
      else moveTo .parked none t s := by
  unfold speedArrival
  simp only [h]

theorem speedArrival_moving (h : s.motion.state = .moving) :
    speedArrival v t s =
      if v ≤ s.motion.settings.moveOff then
        if parkTrue s.bus then moveTo .parked none t s
        else if s.motion.settings.offDwell ≤ elapsed (s.motion.run.getD t) t then moveTo .parked none t s
        else moveTo .moving (some (s.motion.run.getD t)) t s
      else moveTo .moving none t s := by
  unfold speedArrival
  simp only [h]

end

/-! ### PARK (R139) -/

theorem parkTrue_iff {b : VehicleBus} :
    parkTrue b = true ↔ ∃ x ∈ b.signals, x.desc.role = .park ∧ x.val.status = .fresh ∧ x.val.value ≠ 0 := by
  simp [parkTrue, and_assoc]

/-- The only SPEED entry gives the speed while it is FRESH. -/
theorem speedValue_of_only {b : VehicleBus} {x : Signal} (mem : x ∈ b.signals) (role : x.desc.role = .speed)
    (fresh : x.val.status = .fresh) (only : ∀ y ∈ b.signals, y.desc.role = .speed → y = x) :
    speedValue b = some x.val.value := by
  unfold speedValue
  cases found : b.signals.find? fun g => g.desc.role == .speed && g.val.status == .fresh with
  | none => exact absurd (List.find?_eq_none.1 found x mem) (by simp [role, fresh])
  | some y =>
    have speed : y.desc.role = .speed := by
      have := List.find?_some found
      simp only [Bool.and_eq_true, beq_iff_eq] at this
      exact this.1
    rw [only y (List.mem_of_find?_eq_some found) speed, Option.map_some]

theorem parkArrival_moving {s : State} (v : Nat) (t : Time) {w : Nat} (h : s.motion.state = .moving)
    (speed : speedValue s.bus = some w) :
    parkArrival v t s = if v ≠ 0 ∧ w ≤ s.motion.settings.moveOff then moveTo .parked none t s else s := by
  unfold parkArrival
  simp [h, speed]

/-- PARK moves the state out of MOVING alone, and only with a true value. -/
theorem parkArrival_still {s : State} {v : Nat} (t : Time) (h : s.motion.state ≠ .moving ∨ v = 0) :
    parkArrival v t s = s := by
  unfold parkArrival
  split
  · rename_i moving speed
    rw [if_neg]
    simp_all
  · rfl

end Sys2Proof.Machine

namespace Sys2Proof.Proofs

open Sys2Proof.Machine

/-- Settles O49: SPEED by the state it finds, PARK by the one FRESH SPEED entry. -/
theorem motionStateRule : Obligations.MotionStateRule := by
  intro v t s m g start age parked become speed park
  refine ⟨fun state run => moveTo_motion state run t s, fun h => speedArrival_unknown v t h, fun h low => ?_,
    fun h high => ?_, fun h high => ?_, fun h low p => ?_, fun h low p => ?_, rfl, rfl, rfl, parkArrival_still t, ?_⟩
  · exact (speedArrival_parked v t h).trans (if_neg (Nat.not_le.2 low))
  · exact (speedArrival_parked v t h).trans (if_pos high)
  · exact (speedArrival_moving v t h).trans (if_neg (Nat.not_le.2 high))
  · exact (speedArrival_moving v t h).trans ((if_pos low).trans (if_pos (parkTrue_iff.2 p)))
  · exact (speedArrival_moving v t h).trans ((if_pos low).trans (if_neg (mt parkTrue_iff.1 p)))
  · intro x mem role fresh only h hv
    have arrives := parkArrival_moving v t h (speedValue_of_only mem role fresh only)
    exact ⟨fun slow => arrives.trans (if_pos ⟨hv, slow⟩),
      fun fast => arrives.trans (if_neg fun k => Nat.not_le.2 fast k.2)⟩

end Sys2Proof.Proofs
end

section
/-! SET_VEHICLE_BUS and LOAD_SIGNALS (chapter 7): the bit rate changed, and the staged signal table checked and taken
whole. -/

namespace Sys2Proof.Machine

open Sys2Proof.Claims

/-! ### SET_VEHICLE_BUS (R121, R122) -/

theorem changeRate_eq (rate : Nat) (s : State) :
    changeRate rate s = motionUnknown s.ms (evalNight
      { s with
        bus := { rate := rate, listening := false, signals := s.bus.signals.map fun g => { g with val := .never } }
        statusDirty := s.statusDirty || !s.bus.signals.isEmpty }) := by
  unfold changeRate
  dsimp only
  congr 2
  cases s.bus.signals.isEmpty with
  | true => rw [if_pos rfl, Bool.not_true, Bool.or_false]; rfl
  | false => rw [if_neg Bool.false_ne_true, Bool.not_false, Bool.or_true]; rfl

/-- The bit rates that R121 lists. -/
def listedRate (rate : Nat) : Prop := rate = 125 ∨ rate = 250 ∨ rate = 500 ∨ rate = 1000

theorem contains_rates {rate : Nat} : [125, 250, 500, 1000].contains rate = true ↔ listedRate rate := by
  simp [listedRate]

section
variable {ps : List Word} {s : State}

theorem setVehicleBus_locked (h : s.steer.lock = true) : setVehicleBus ps s = refuse .errLocked s := if_pos h

theorem setVehicleBus_refused (h : s.steer.lock = false) (k : ¬listedRate (param ps 1)) :
    setVehicleBus ps s = refuse .errParam s := by
  unfold setVehicleBus
  dsimp only
  rw [if_neg (ne_true_of_eq_false h), if_pos (by simpa using mt contains_rates.1 k)]

theorem setVehicleBus_listed (h : s.steer.lock = false) (k : listedRate (param ps 1)) :
    setVehicleBus ps s = (if param ps 1 = s.bus.rate then s else changeRate (param ps 1) s, { code := .ok }) := by
  unfold setVehicleBus
  dsimp only
  rw [if_neg (ne_true_of_eq_false h), contains_rates.2 k, if_neg (by decide)]

end

/-! ### The faults of a staged entry (R126) -/

/-- The first condition that holds, by its number from `k` on. -/
theorem findIdx?_cons_number (k : Nat) (b : Bool) (bs : List Bool) :
    ((b :: bs).findIdx? id).map (· + k) = if b = true then some k else (bs.findIdx? id).map (· + (k + 1)) := by
  rw [List.findIdx?_cons]
  cases b with
  | true => simp
  | false =>
    rw [id, if_neg Bool.false_ne_true, if_neg Bool.false_ne_true, Option.map_map]
    exact congrArg (Option.map · _) (funext fun j => Nat.add_right_comm j 1 k)

/-- The lowest fault of staged entry `i`. -/
def stagedFault (m : Memory) (off i : Nat) : Option Nat := ((stagedFaults m off i).findIdx? id).map (· + 1)

theorem stagedFault_isSome (m : Memory) (off i : Nat) : (stagedFault m off i).isSome = (stagedFaults m off i).any id := by
  simp [stagedFault]

theorem stagedFault_of_any {m : Memory} {off i : Nat} (h : (stagedFaults m off i).any id = true) :
    stagedFault m off i = some ((stagedFaults m off i).findIdx id + 1) := by
  unfold stagedFault
  rw [List.findIdx?_eq_some_of_exists (List.any_eq_true.1 h), Option.map_some]

theorem pow_identBits (format : Nat) : 2 ^ identBits format = if format = 0 then 2 ^ 11 else 2 ^ 29 := by
  unfold identBits
  split <;> rfl

/-- The faults of R126 in their order, where `earlier` holds the roles staged before. -/
theorem signalFault_staged (m : Memory) (off i : Nat) (earlier : List Nat)
    (h : ∀ v, v ∈ earlier ↔ ∃ k < i, (m.read (off + 24 * k)).toNat = v) :
    signalFault earlier (readSignal m (off + 24 * i)) = stagedFault m off i := by
  simp only [stagedFault, stagedFaults, findIdx?_cons_number, Bool.and_eq_true, decide_eq_true_eq, List.any_eq_true,
    List.mem_range, Nat.add_zero, ← h]
  simp only [signalFault, readSignal, pow_identBits, Memory.readLe_one, List.contains_iff_mem, beq_eq_decide]
  rfl

/-- Each staged entry is judged by itself and the roles before it. -/
theorem signalFaults_staged (m : Memory) (off n k : Nat) (earlier : List Nat)
    (h : ∀ v, v ∈ earlier ↔ ∃ j < k, (m.read (off + 24 * j)).toNat = v) :
    signalFaults earlier ((List.range' k n).map fun i => readSignal m (off + 24 * i)) =
      (List.range' k n).map (stagedFault m off) := by
  induction n generalizing k earlier with
  | zero => rfl
  | succ n ih =>
    rw [List.range'_succ, List.map_cons, List.map_cons, signalFaults, signalFault_staged m off k earlier h, ih]
    intro v
    rw [List.mem_cons, h]
    constructor
    · rintro (rfl | ⟨j, hj, hv⟩)
      · exact ⟨k, k.lt_succ_self, rfl⟩
      · exact ⟨j, Nat.lt_succ_of_lt hj, hv⟩
    · rintro ⟨j, hj, hv⟩
      rcases Nat.lt_succ_iff_lt_or_eq.1 hj with before | rfl
      · exact .inr ⟨j, before, hv⟩
      · exact .inl hv.symm

/-! ### What an accepted table holds (R123, R127) -/

theorem roleOf_eq (v : Nat) : roleOf v = ([.speed, .park, .ignition, .headlamp] : List Role).getD v .aux := by
  match v with
  | 0 | 1 | 2 | 3 => rfl
  | n + 4 => simp [roleOf]

theorem loadedSignal_staged (m : Memory) (off i : Nat) :
    loadedSignal (readSignal m (off + 24 * i)) = { desc := stagedSignal m off i, val := .never } := by
  simp only [loadedSignal, readSignal, roleOf_eq, Memory.readLe_one, beq_eq_decide]
  rfl

theorem clamp_stale_ne_iff {v : Nat} : (clamp 50 10000 v != v) = true ↔ v < 50 ∨ 10000 < v := by
  rw [bne_iff_ne]
  unfold clamp
  omega

/-! ### LOAD_SIGNALS, check by check (R125, R126) -/

/-- The staged entries whose stale time is brought into range. -/
def clampedCount (m : Memory) (off n : Nat) : Nat :=
  (List.range n).countP fun i => decide (stagedStale m off i < 50 ∨ 10000 < stagedStale m off i)

section
variable {ps : List Word} {s : State}

theorem loadSignals_locked (h : s.steer.lock = true) : loadSignals ps s = refuse .errLocked s := if_pos h

theorem loadSignals_count (h : s.steer.lock = false) (k : 6 < param ps 1) : loadSignals ps s = refuse .errParam s := by
  unfold loadSignals
  dsimp only
  rw [if_neg (ne_true_of_eq_false h), if_pos k]

theorem loadSignals_empty (h : s.steer.lock = false) (k : param ps 1 = 0) :
    loadSignals ps s = (installSignals [] s, { code := .ok }) := by
  unfold loadSignals
  dsimp only
  rw [if_neg (ne_true_of_eq_false h), if_neg (by omega), if_pos k]

theorem loadSignals_range (h : s.steer.lock = false) (low : 1 ≤ param ps 1) (high : param ps 1 ≤ 6)
    (k : inStaging (param ps 2) (24 * param ps 1) = false) : loadSignals ps s = refuse .errRange s := by
  unfold loadSignals
  dsimp only
  rw [if_neg (ne_true_of_eq_false h), if_neg (by omega), if_neg (by omega), if_pos (by rw [k]; rfl)]

/-- Unlocked, counted and in range, the staged entries decide. -/
theorem loadSignals_table (h : s.steer.lock = false) (low : 1 ≤ param ps 1) (high : param ps 1 ≤ 6)
    (k : inStaging (param ps 2) (24 * param ps 1) = true) :
    let faults := (List.range (param ps 1)).map (stagedFault s.mem (param ps 2))
    let clamped := clampedCount s.mem (param ps 2) (param ps 1)
    loadSignals ps s =
      if faults.any Option.isSome then
        (s, { code := .errTable
              words := [faults.findIdx Option.isSome, (faults.getD (faults.findIdx Option.isSome) none).getD 0,
                faults.countP Option.isSome] })
      else
        (installSignals
            ((List.range (param ps 1)).map fun i => { desc := stagedSignal s.mem (param ps 2) i, val := .never }) s,
          { code := okUnless (0 < clamped), words := [param ps 1, clamped] }) := by
  intro faults clamped
  have judged :
      signalFaults [] ((List.range (param ps 1)).map fun i => readSignal s.mem (param ps 2 + 24 * i)) = faults := by
    rw [List.range_eq_range']
    exact (signalFaults_staged s.mem (param ps 2) (param ps 1) 0 [] (by simp)).trans (by rw [← List.range_eq_range'])
  have stale : ((List.range (param ps 1)).map fun i => readSignal s.mem (param ps 2 + 24 * i)).countP
      (fun r => clamp 50 10000 r.stale != r.stale) = clamped := by
    rw [List.countP_map]
    exact List.countP_congr fun i _ => clamp_stale_ne_iff.trans decide_eq_true_iff.symm
  have code : okIf (clamped == 0) = okUnless (0 < clamped) := okIf_eq_okUnless _ _ (by simp)
  have loaded : ((List.range (param ps 1)).map fun i => readSignal s.mem (param ps 2 + 24 * i)).map loadedSignal =
      (List.range (param ps 1)).map fun i => { desc := stagedSignal s.mem (param ps 2) i, val := .never } := by
    rw [List.map_map]
    exact List.map_congr_left fun i _ => loadedSignal_staged _ _ _
  unfold loadSignals
  dsimp only
  rw [if_neg (ne_true_of_eq_false h), if_neg (by omega), if_neg (by omega), k, if_neg (by decide), judged, stale, code,
    loaded]

/-- The staged entries with a fault, ascending. -/
def badEntries (m : Memory) (off n : Nat) : List Nat := (List.range n).filter fun i => (stagedFaults m off i).any id

theorem badEntries_eq (m : Memory) (off n : Nat) :
    badEntries m off n = badPlaces (Option.isSome ∘ stagedFault m off) (List.range n) := by
  unfold badEntries badPlaces
  rw [List.length_range]
  refine List.filter_congr fun i hi => ?_
  rw [Function.comp_apply, stagedFault_isSome, List.getD_eq_getElem _ _ (by simpa using hi), List.getElem_range]

theorem loadSignals_refused (h : s.steer.lock = false) (low : 1 ≤ param ps 1) (high : param ps 1 ≤ 6)
    (k : inStaging (param ps 2) (24 * param ps 1) = true) {i : Nat} {rest : List Nat}
    (bad : badEntries s.mem (param ps 2) (param ps 1) = i :: rest) :
    loadSignals ps s =
      (s, { code := .errTable
            words := [i, (stagedFaults s.mem (param ps 2) i).findIdx id + 1,
              (badEntries s.mem (param ps 2) (param ps 1)).length] }) := by
  obtain ⟨inside, faulty⟩ : i < param ps 1 ∧ (stagedFaults s.mem (param ps 2) i).any id = true := by
    simpa [badEntries] using (bad ▸ List.mem_cons_self : i ∈ badEntries s.mem (param ps 2) (param ps 1))
  have places := (badEntries_eq s.mem (param ps 2) (param ps 1)).symm.trans bad
  rw [loadSignals_table h low high k, List.any_map, if_pos (any_of_badPlaces places), List.findIdx_map,
    findIdx_of_badPlaces places, List.countP_map, ← length_badPlaces, ← badEntries_eq,
    List.getD_eq_getElem _ _ (by simpa using inside), List.getElem_map, List.getElem_range, stagedFault_of_any faulty,
    Option.getD_some]

theorem loadSignals_taken (h : s.steer.lock = false) (low : 1 ≤ param ps 1) (high : param ps 1 ≤ 6)
    (k : inStaging (param ps 2) (24 * param ps 1) = true) (good : badEntries s.mem (param ps 2) (param ps 1) = []) :
    loadSignals ps s =
      (installSignals
          ((List.range (param ps 1)).map fun i => { desc := stagedSignal s.mem (param ps 2) i, val := .never }) s,
        { code := okUnless (0 < clampedCount s.mem (param ps 2) (param ps 1))
          words := [param ps 1, clampedCount s.mem (param ps 2) (param ps 1)] }) := by
  rw [loadSignals_table h low high k, List.any_map, badPlaces_eq_nil_iff.1 ((badEntries_eq _ _ _).symm.trans good),
    if_neg Bool.false_ne_true]

end

end Sys2Proof.Machine

namespace Sys2Proof.Proofs

open Sys2Proof.Machine Sys2Proof.Claims

/-- Settles O51: each request by its checks in their order, and the staged table refused or taken by its bad entries. -/
theorem vehicleBusRequests : Obligations.VehicleBusRequests := by
  intro s q never restarted
  refine ⟨fun hq => ?_, fun hq => ?_⟩
  · intro rate listed
    have answers : exec .setVehicleBus s = _ := event_request hq setVehicleBus
    rw [answers]
    refine ⟨fun locked => ?_, fun unlocked other => ?_, fun unlocked k same => ?_, fun unlocked k differs => ?_⟩
    · rw [setVehicleBus_locked locked]
      rfl
    · rw [setVehicleBus_refused unlocked other]
      rfl
    · rw [setVehicleBus_listed unlocked k, if_pos same]
    · rw [setVehicleBus_listed unlocked k, if_neg differs, changeRate_eq]
      rfl
  · intro n off bad clamped inArea loaded
    have answers : exec .loadSignals s = _ := event_request hq loadSignals
    rw [answers]
    refine ⟨fun locked => ?_, fun unlocked many => ?_, fun unlocked none => ?_, fun unlocked low high outside => ?_,
      fun unlocked low high inside => ?_⟩
    · rw [loadSignals_locked locked]
      rfl
    · rw [loadSignals_count unlocked many]
      rfl
    · rw [loadSignals_empty unlocked none]
      rfl
    · rw [loadSignals_range unlocked low high (Bool.eq_false_iff.2 (mt inStaging_iff.1 outside))]
      rfl
    · refine ⟨fun i rest first => ?_, fun good => ?_⟩
      · rw [loadSignals_refused unlocked low high (inStaging_iff.2 inside) first]
        rfl
      · rw [loadSignals_taken unlocked low high (inStaging_iff.2 inside) good]
        rfl

end Sys2Proof.Proofs
end

section
/-! Frames of the van's bus (R120, R128 to R135): which entries a frame serves, what a served and a stale entry become, and
how both are handed on. -/

namespace Sys2Proof.Machine

/-! ### Which entries a frame serves (R128, R129) -/

/-- The frame serves an entry of this description. -/
def Serves (f : CanFrame) (d : SignalDesc) : Prop :=
  f.extended = d.extended ∧
    (∀ b, b < 32 → d.mask.getLsbD b = true → (f.ident.setWidth 32).getLsbD b = d.ident.getLsbD b) ∧
    lastByte d.big d.start d.length < min f.dlc.toNat 8

/-- Two words agree at every bit of a mask. -/
theorem xor_and_eq_zero_iff {a b m : Word} :
    (a ^^^ b) &&& m = 0 ↔ ∀ i, i < 32 → m.getLsbD i = true → a.getLsbD i = b.getLsbD i := by
  constructor
  · intro h i _ hm
    have bit := congrArg (·.getLsbD i) h
    simpa [hm] using bit
  · intro h
    refine BitVec.eq_of_getLsbD_eq fun i hi => ?_
    cases hm : m.getLsbD i with
    | false => simp [hm]
    | true => simp [hm, h i hi hm]

theorem serves_iff {f : CanFrame} {d : SignalDesc} : (matchesEntry f d && reachesField f d) = true ↔ Serves f d := by
  unfold matchesEntry reachesField dataBytes Serves
  rw [Bool.and_eq_true, Bool.and_eq_true, beq_iff_eq, beq_iff_eq, xor_and_eq_zero_iff, decide_eq_true_iff, and_assoc]

/-! ### What an update is handed on to (R135) -/

theorem moveTo_frame (m : MotionState) (run : Option Time) (t : Time) (s : State) :
    Frame (.motion :: settleTouched) s (moveTo m run t s) :=
  (((setMotion_frame s _).trans (setMotion_frame _ _)).mono rfl).next (settleMotion_way _ t _).sameFields rfl

theorem speedArrival_frame (v : Nat) (t : Time) (s : State) : Frame (.motion :: settleTouched) s (speedArrival v t s) := by
  unfold speedArrival
  dsimp only
  repeat' split
  all_goals exact moveTo_frame _ _ t s

theorem parkArrival_frame (v : Nat) (t : Time) (s : State) : Frame (.motion :: settleTouched) s (parkArrival v t s) := by
  unfold parkArrival
  split
  · split
    · exact moveTo_frame _ _ t s
    · exact .refl _ s
  · exact .refl _ s

/-- Handing on leaves the receiver as it is. -/
theorem handOnSignal_bus (role : Role) (v : Option Nat) (t : Time) (s : State) : (handOnSignal role v t s).bus = s.bus := by
  cases role with
  | speed =>
    cases v with
    | some x => exact (speedArrival_frame x t s).bus (by decide)
    | none => exact (moveTo_frame .unknown none t s).bus (by decide)
  | park =>
    cases v with
    | some x => exact (parkArrival_frame x t s).bus (by decide)
    | none => rfl
  | headlamp => exact (evalNight_way s).sameFields.bus (by decide)
  | ignition => rfl
  | aux => rfl

/-- The night judged afresh (R170), and its status field marked where it changed. -/
theorem evalNight_eq (s : State) :
    evalNight s =
      { s with
        light := { s.light with night := nightState s.light s.bus }
        statusDirty := s.statusDirty || decide (nightState s.light s.bus ≠ s.light.night) } := by
  unfold evalNight
  dsimp only
  split
  · rename_i same
    rw [decide_eq_false (not_not_intro same), Bool.or_false, same]
  · rename_i differs
    rw [decide_eq_true differs, Bool.or_true]
    rfl

/-! ### A served entry (R133) -/

/-- The value record of the entry `g` at `i` replaced. -/
def putRecord (i : Nat) (g : Signal) (r : ValueRecord) (s : State) : State :=
  { s with bus := { s.bus with signals := s.bus.signals.set i { g with val := r } } }

theorem putValue_eq {i : Nat} {g : Signal} {s : State} (r : ValueRecord) (h : s.bus.signals[i]? = some g) :
    putValue i r s = putRecord i g r s := by
  unfold putValue putRecord
  rw [List.modify_eq_set_getElem?, h]
  rfl

/-- The value is a step of the report delta away from the last one reported. -/
def Stepped (g : Signal) (v : Nat) : Prop :=
  g.desc.delta ≠ 0 ∧ ∃ w, g.val.reported = some w ∧ (w + g.desc.delta ≤ v ∨ v + g.desc.delta ≤ w)

theorem reportsArrival_iff {g : Signal} {v : Nat} :
    reportsArrival g v = true ↔ g.val.status ≠ .fresh ∨ Stepped g v := by
  unfold reportsArrival Stepped
  rw [Bool.or_eq_true, bne_iff_ne, Bool.and_eq_true, bne_iff_ne]
  refine or_congr_right (and_congr_right fun step => ?_)
  cases g.val.reported with
  | none => simp
  | some w =>
    simp only [Bool.or_eq_true, decide_eq_true_eq, Option.some.injEq, exists_eq_left']
    omega

/-- The record of an entry served at a time with a value, `last` being the value last reported. -/
def servedRecord (g : Signal) (v : Nat) (t : Time) (last : Option Nat) : ValueRecord :=
  { value := v, status := .fresh, arrival := some t, timer := some (t + BitVec.ofNat 32 g.desc.stale), reported := last }

/-- The status fields of a served entry: unmarked where value and status stay. -/
def markServed (g : Signal) (v : Nat) (s : State) : State :=
  if g.val.value = v ∧ g.val.status = .fresh then s else { s with statusDirty := true }

section
variable {i : Nat} {g : Signal} {v : Nat} {s : State}

theorem serveEntry_reports (t : Time) (h : s.bus.signals[i]? = some g) (k : g.val.status ≠ .fresh ∨ Stepped g v) :
    serveEntry i g v t s =
      handOnSignal g.desc.role (some v) t (markServed g v
        (append { time := t, body := .signal i true g.desc.role v } (putRecord i g (servedRecord g v t (some v)) s))) := by
  unfold serveEntry
  dsimp only
  rw [reportsArrival_iff.2 k, if_pos rfl, if_pos rfl, putValue_eq _ h]
  rfl

theorem serveEntry_quiet (t : Time) (h : s.bus.signals[i]? = some g) (fresh : g.val.status = .fresh) (k : ¬Stepped g v) :
    serveEntry i g v t s =
      handOnSignal g.desc.role (some v) t (markServed g v (putRecord i g (servedRecord g v t g.val.reported) s)) := by
  have quiet : reportsArrival g v = false :=
    Bool.eq_false_iff.2 fun r => (reportsArrival_iff.1 r).elim (· fresh) k
  unfold serveEntry
  dsimp only
  rw [quiet, if_neg Bool.false_ne_true, if_neg Bool.false_ne_true, putValue_eq _ h]
  rfl

end

/-! ### A frame at the entries, one after the other (R128) -/

section
variable {f : CanFrame} {i : Nat} {g : Signal} {s : State}

theorem arriveAt_served (t : Time) (h : s.bus.signals[i]? = some g) (k : Serves f g.desc) :
    arriveAt f t i s = serveEntry i g (frameValue f g.desc) t s := by
  unfold arriveAt
  simp only [h]
  exact if_pos (serves_iff.2 k)

theorem arriveAt_passed (t : Time) (h : s.bus.signals[i]? = some g) (k : ¬Serves f g.desc) : arriveAt f t i s = s := by
  unfold arriveAt
  simp only [h]
  exact if_neg (mt serves_iff.1 k)

theorem markServed_bus (g : Signal) (v : Nat) (s : State) : (markServed g v s).bus = s.bus := by
  unfold markServed
  split <;> rfl

/-- A served entry leaves the others as they are. -/
theorem serveEntry_other {j : Nat} (v : Nat) (t : Time) (h : s.bus.signals[i]? = some g) (hj : j ≠ i) :
    (serveEntry i g v t s).bus.signals[j]? = s.bus.signals[j]? := by
  have put (r : ValueRecord) : (putRecord i g r s).bus.signals[j]? = s.bus.signals[j]? := List.getElem?_set_ne hj.symm
  by_cases k : g.val.status ≠ .fresh ∨ Stepped g v
  · rw [serveEntry_reports t h k, handOnSignal_bus, markServed_bus, (append_frame _ _).bus (by decide), put]
  · obtain ⟨fresh, still⟩ := not_or.1 k
    rw [serveEntry_quiet t h (not_not.1 fresh) still, handOnSignal_bus, markServed_bus, put]

theorem arriveAt_other {j : Nat} (t : Time) (hj : j ≠ i) : (arriveAt f t i s).bus.signals[j]? = s.bus.signals[j]? := by
  cases h : s.bus.signals[i]? with
  | none => unfold arriveAt; simp only [h]
  | some g =>
    by_cases k : Serves f g.desc
    · rw [arriveAt_served t h k, serveEntry_other _ t h hj]
    · rw [arriveAt_passed t h k]

end

/-- The state in which entry `i` has its turn. -/
def beforeEntry (f : CanFrame) (s : State) (i : Nat) : State :=
  (List.range i).foldl (fun u j => arriveAt f s.ms j u) s

theorem beforeEntry_succ (f : CanFrame) (s : State) (i : Nat) :
    beforeEntry f s (i + 1) = arriveAt f s.ms i (beforeEntry f s i) := by
  unfold beforeEntry
  rw [List.range_succ, List.foldl_append]
  rfl

/-- An entry is as the frame found it until it has its turn. -/
theorem beforeEntry_pending (f : CanFrame) (s : State) {i j : Nat} (h : i ≤ j) :
    (beforeEntry f s i).bus.signals[j]? = s.bus.signals[j]? := by
  induction i with
  | zero => rfl
  | succ i ih => rw [beforeEntry_succ, arriveAt_other _ (by omega), ih (by omega)]

/-! ### The commands -/

theorem exec_elevenRecessiveBits {s : State} (hr : s.inReset = false) :
    exec .elevenRecessiveBits s = .next (endEvent { s with bus := { s.bus with listening := true } }) := by
  show execElevenRecessiveBits s = _
  rw [execElevenRecessiveBits, event_next hr]
  rfl

theorem exec_canFrameArrival_ignored {f : CanFrame} {s : State} (hr : s.inReset = false)
    (h : f.kind ≠ .data ∨ s.bus.listening = false) : exec (.canFrameArrival f) s = .next (endEvent s) := by
  refine (event_next hr _).trans (congrArg (Host.Outcome.next <| endEvent ·) (if_neg ?_))
  rintro ⟨data, listening⟩
  exact h.elim (· data) (ne_true_of_eq_false · listening)

theorem exec_canFrameArrival_taken {f : CanFrame} {s : State} (hr : s.inReset = false) (data : f.kind = .data)
    (listening : s.bus.listening = true) :
    exec (.canFrameArrival f) s = .next (endEvent (beforeEntry f s s.bus.signals.length)) :=
  (event_next hr _).trans (congrArg (Host.Outcome.next <| endEvent ·) (if_pos ⟨data, listening⟩))

theorem exec_staleTimerExpiry_due {i : Nat} {g : Signal} {e : Time} {s : State} (hr : s.inReset = false)
    (h : s.bus.signals[i]? = some g) (timer : g.val.timer = some e) (hd : due e s.ms = true) :
    exec (.staleTimerExpiry i) s = .next (endEvent (goStale i g e s)) := by
  show execStaleTimerExpiry i s = _
  rw [execStaleTimerExpiry, event_next hr]
  simp only [h, timer, hd, if_true]

theorem goStale_eq {i : Nat} {g : Signal} {s : State} (t : Time) (h : s.bus.signals[i]? = some g) :
    goStale i g t s =
      handOnSignal g.desc.role none t (touchStatus
        (append { time := t, body := .signal i false g.desc.role g.val.value }
          (putRecord i g { g.val with status := .stale, timer := none, reported := some g.val.value } s))) := by
  unfold goStale
  rw [putValue_eq _ h]

end Sys2Proof.Machine

namespace Sys2Proof.Proofs

open Sys2Proof.Machine

/-- Settles O48: no turn changes an entry that has yet to have its own, so each is served as the frame found it. -/
theorem vehicleFrames : Obligations.VehicleFrames := by
  intro f s hr serves put
  refine ⟨exec_elevenRecessiveBits hr, exec_canFrameArrival_ignored hr, fun data listening => ?_,
    fun i g e h timer hd => ?_, fun v t u => ⟨rfl, rfl, evalNight_eq u⟩⟩
  · refine ⟨beforeEntry f s, rfl, exec_canFrameArrival_taken hr data listening, fun i g h => ?_⟩
    have found : (beforeEntry f s i).bus.signals[i]? = some g := (beforeEntry_pending f s (Nat.le_refl i)).trans h
    refine ⟨fun other => ?_, fun served reports => ?_, fun served fresh still => ?_⟩
    · exact (beforeEntry_succ f s i).trans (arriveAt_passed _ found other)
    · exact (beforeEntry_succ f s i).trans ((arriveAt_served _ found served).trans (serveEntry_reports _ found reports))
    · exact (beforeEntry_succ f s i).trans ((arriveAt_served _ found served).trans (serveEntry_quiet _ found fresh still))
  · exact (exec_staleTimerExpiry_due hr h timer hd).trans (congrArg (Host.Outcome.next <| endEvent ·) (goStale_eq e h))

end Sys2Proof.Proofs
end

section
/-! The latch: every step keeps it from ASKED and RELEASING under lockout and in cooldown (chapter 8). -/

namespace Sys2Proof.Machine

/-- `step_keeps` for an invariant whose release counts on power reset being total (R179). -/
theorem step_keeps_of_resetOk {P : State → Prop} (queue : ∀ s q, P s → P (s.setPending q))
    (ms : ∀ s m, P s → P (s.setMs m)) (reset : P .reset)
    (release : ∀ s p l b a, ResetOk s → s.inReset = true → P (releaseReset p l b a s))
    (change : ∀ fs s t, Change fs s t → P s → P t) {s t : State} (hr : ResetOk s) (hs : P s) (h : step s = .next t) :
    P t := by
  rcases step_cases h with ⟨_, rfl⟩ | ⟨c, rest, _, hc⟩
  · unfold tick
    split
    · exact hs
    · exact ms _ _ hs
  · rcases exec_cases hc with rfl | rfl | ⟨hi, p, l, b, a, rfl⟩ | ⟨_, he⟩
    · exact queue _ _ hs
    · exact queue _ _ reset
    · exact release _ p l b a (hr.setPending rest) hi
    · exact he.keeps (fun fs u v _ c => change fs u v c) (queue _ _ hs)

/-- The release of power reset takes the latch state from the switches, with no cooldown and no press held (R154). -/
theorem releaseReset_latchOk (p l b : Bool) (a : Nat) {s : State} (hr : ResetOk s) (h : s.inReset = true) :
    LatchOk (releaseReset p l b a s) := by
  have mode : s.scan.mode ≠ .held := by rw [hr h]; exact nofun
  have held : s.latch.heldPress = none := by rw [hr h]; rfl
  obtain ⟨notAsked, notReleasing⟩ := latchFromSwitches_place p l
  refine releaseReset_keeps (fun _ _ _ m => m.keeps_latch) p l b a mode ⟨fun active => ?_, fun waits => ?_⟩
  · exact absurd active (not_or.2 ⟨notAsked, notReleasing⟩)
  · obtain ⟨-, -, kept⟩ := firstReadings_latch p l b (s.setInReset false)
    rw [kept, State.setInReset_latch, held] at waits
    cases waits

theorem step_latchOk {s t : State} (hr : ResetOk s) (hs : LatchOk s) (h : step s = .next t) : LatchOk t :=
  step_keeps_of_resetOk (fun _ _ k => k) (fun _ _ k => k) reset_latchOk
    (fun _ p l b a k hi => releaseReset_latchOk p l b a k hi) (fun _ _ _ c k => c.keeps_latch k) hr hs h

/-- An energized solenoid is RELEASING (R143). -/
theorem LatchOk.lockout_of_solenoid {s : State} (h : LatchOk s) (on : s.solenoid = true) : s.motion.lockout = false := by
  have releasing : s.latch.state.place = .releasing := by simpa [State.solenoid] using on
  exact (h.1 (.inr releasing)).1

end Sys2Proof.Machine

namespace Sys2Proof.Proofs

open Sys2Proof.Machine

/-- Settles O14: the latch's invariant is kept by every change that a step can make and holds of what the release of power
reset takes from the switches; from it an energized solenoid has no lockout. -/
theorem stepKeepsLatchSafe : Obligations.StepKeepsLatchSafe := by
  intro s t reset latch h
  have latch' := step_latchOk reset latch h
  exact ⟨step_resetOk reset h, latch', latch'.lockout_of_solenoid⟩

end Sys2Proof.Proofs
end

section
/-! The latch controller (chapter 8): a change of its state as R143 to R145 give it, its inputs, and the changes they make
due. -/

namespace Sys2Proof.Machine

open Sys2Proof.Claims

/-! ### A change of the latch state (R143 to R145) -/

theorem cooldownAfter_eq (g : Latch) (st : LatchState) (t : Time) :
    cooldownAfter g st t =
      if g.state.place = .releasing ∧ st.place ≠ .releasing then some (t + 10000) else g.cooldown := by
  simp only [cooldownAfter, Bool.and_eq_true, beq_iff_eq, bne_iff_ne]
  rfl

theorem heldAfter_eq (g : Latch) (st : LatchState) :
    heldAfter g st =
      if st.place = .empty ∨ (g.state.place = .latched ∧ st.place = .unseated) then none else g.heldPress := by
  simp [heldAfter]

/-- In a state that is not EMPTY, WAKE is asserted unless the link is ACTIVE (R90, R92). -/
theorem urgentWake_of_not_empty (t : Time) {s : State} (h : s.latch.state ≠ .empty) :
    urgentWake t s = if s.link = .active then s else { s with wake := { s.wake with line := some (t + 2000) } } := by
  unfold urgentWake wakeApplies
  by_cases active : s.link = .active
  · rw [if_pos active, if_neg (by simp [active])]
  · rw [if_neg active, if_pos (by simp [h, active])]
    rfl

theorem changeLatch_eq_latchMoves (st : LatchState) (c : LatchCause) (t : Time) (s : State) :
    changeLatch st c t s = latchMoves st c t s := by
  unfold changeLatch latchMoves
  rw [cooldownAfter_eq, heldAfter_eq]
  cases st with
  | asked e =>
    refine urgentWake_of_not_empty t ?_
    rw [(touchAndRaise_frame _).latch (by decide), (append_frame _ _).latch (by decide)]
    simp
  | _ => rfl

/-- A release request without cooldown and lockout (R146). -/
theorem releaseRequest_moves (src : PressSource) (t : Time) {s : State} (h : s.latch.state = .latched)
    (hc : s.latch.cooldown = none) (hm : s.motion.lockout = false) :
    releaseRequest src t s = latchMoves (.asked (t + BitVec.ofNat 32 (1000 * s.latch.askTimeout))) src.cause t s :=
  (releaseRequest_asks src t h hc hm).trans (changeLatch_eq_latchMoves _ _ _ _)

/-! ### What a change leaves of the inputs -/

/-- The filtered inputs are the same. -/
def SameInputs (s t : State) : Prop :=
  t.latch.present = s.latch.present ∧ t.latch.sense = s.latch.sense ∧ t.latch.button = s.latch.button

theorem SameInputs.refl (s : State) : SameInputs s s := ⟨rfl, rfl, rfl⟩

theorem SameInputs.of_latch {s t : State} (h : t.latch = s.latch) : SameInputs s t := by
  rw [SameInputs, h]; exact ⟨rfl, rfl, rfl⟩

theorem endEvent_sameInputs (s : State) : SameInputs s (endEvent s) := .of_latch ((endEvent_frame s).latch (by decide))

theorem changeLatch_sameInputs (st : LatchState) (c : LatchCause) (t : Time) (s : State) :
    SameInputs s (changeLatch st c t s) := by
  rw [SameInputs, changeLatch_latch]; exact ⟨rfl, rfl, rfl⟩

theorem releaseRequest_sameInputs (src : PressSource) (t : Time) (s : State) :
    SameInputs s (releaseRequest src t s) := by
  unfold releaseRequest
  split
  · split
    · exact .refl _
    · split
      · exact .of_latch ((append_frame _ _).latch (by decide))
      · exact changeLatch_sameInputs _ _ _ _
  · exact .refl _

theorem presentMoved_sameInputs (t : Time) (s : State) : SameInputs s (presentMoved t s) := by
  unfold presentMoved
  split
  · split
    · exact changeLatch_sameInputs _ _ _ _
    · exact .refl _
  · split
    case h_1 => exact .refl _
    all_goals exact changeLatch_sameInputs _ _ _ _

theorem senseMoved_sameInputs (t : Time) (s : State) : SameInputs s (senseMoved t s) := by
  unfold senseMoved
  split
  · split
    · exact changeLatch_sameInputs _ _ _ _
    · exact .refl _
  · split
    case h_3 => exact .refl _
    all_goals exact changeLatch_sameInputs _ _ _ _

/-! ### The table of R145, row by row -/

section
variable (t : Time) {s : State}

theorem presentMoved_closed (h : s.latch.present.value = true) :
    presentMoved t s =
      if s.latch.state = .empty then latchMoves (if s.latch.sense.value then .latched else .unseated) .seated t s else s := by
  unfold presentMoved
  rw [if_pos h, ← changeLatch_eq_latchMoves]
  cases s.latch.state <;> rfl

theorem presentMoved_opened_empty (h : s.latch.present.value = false) (k : s.latch.state = .empty) :
    presentMoved t s = s := by
  unfold presentMoved
  rw [if_neg (by simp [h]), k]

theorem presentMoved_taken (h : s.latch.present.value = false)
    (k : s.latch.state.place = .unseated ∨ s.latch.state.place = .releasing) :
    presentMoved t s = latchMoves .empty .taken t s := by
  unfold presentMoved
  rw [if_neg (by simp [h]), ← changeLatch_eq_latchMoves]
  cases hs : s.latch.state <;> simp [hs, LatchState.place] at k ⊢

theorem presentMoved_forced (h : s.latch.present.value = false)
    (k : s.latch.state.place = .latched ∨ s.latch.state.place = .asked) :
    presentMoved t s = latchMoves .empty .forced t s := by
  unfold presentMoved
  rw [if_neg (by simp [h]), ← changeLatch_eq_latchMoves]
  cases hs : s.latch.state <;> simp [hs, LatchState.place] at k ⊢

theorem senseMoved_closed (h : s.latch.sense.value = true) :
    senseMoved t s = if s.latch.state = .unseated then latchMoves .latched .seated t s else s := by
  unfold senseMoved
  rw [if_pos h, ← changeLatch_eq_latchMoves]
  cases s.latch.state <;> rfl

theorem senseMoved_forced (h : s.latch.sense.value = false)
    (k : s.latch.state.place = .latched ∨ s.latch.state.place = .asked) :
    senseMoved t s = latchMoves .unseated .forced t s := by
  unfold senseMoved
  rw [if_neg (by simp [h]), ← changeLatch_eq_latchMoves]
  cases hs : s.latch.state <;> simp [hs, LatchState.place] at k ⊢

theorem senseMoved_opened_still (h : s.latch.sense.value = false) (k : s.latch.state ≠ .latched)
    (l : ∀ e, s.latch.state ≠ .asked e) : senseMoved t s = s := by
  unfold senseMoved
  rw [if_neg (by simp [h])]
  split
  · exact absurd ‹_› k
  · exact absurd ‹_› (l _)
  · rfl

end

/-! ### The changes taken, input by input (R141, log entry 14) -/

theorem takePresentChange_idle {s : State} (h : s.latch.present.due = none) : takePresentChange s = s := by
  unfold takePresentChange; rw [h]

theorem takePresentChange_due {s : State} {t : Time} (h : s.latch.present.due = some t) :
    takePresentChange s = presentMoved t (s.setLatch { s.latch with present := s.latch.present.flip }) := by
  unfold takePresentChange; rw [h]

theorem takePresentChange_inputs (s : State) :
    (takePresentChange s).latch.present.due = none ∧ (takePresentChange s).latch.sense = s.latch.sense ∧
      (takePresentChange s).latch.button = s.latch.button := by
  cases h : s.latch.present.due with
  | none => rw [takePresentChange_idle h]; exact ⟨h, rfl, rfl⟩
  | some t =>
    rw [takePresentChange_due h]
    obtain ⟨present, sense, button⟩ := presentMoved_sameInputs t (s.setLatch { s.latch with present := s.latch.present.flip })
    rw [present, sense, button]
    exact ⟨rfl, rfl, rfl⟩

theorem takeSenseChange_idle {s : State} (h : s.latch.sense.due = none) : takeSenseChange s = s := by
  unfold takeSenseChange; rw [h]

theorem takeSenseChange_due {s : State} {t : Time} (h : s.latch.sense.due = some t) :
    takeSenseChange s = senseMoved t (s.setLatch { s.latch with sense := s.latch.sense.flip }) := by
  unfold takeSenseChange; rw [h]

theorem takeSenseChange_inputs (s : State) :
    (takeSenseChange s).latch.sense.due = none ∧ (takeSenseChange s).latch.present = s.latch.present ∧
      (takeSenseChange s).latch.button = s.latch.button := by
  cases h : s.latch.sense.due with
  | none => rw [takeSenseChange_idle h]; exact ⟨h, rfl, rfl⟩
  | some t =>
    rw [takeSenseChange_due h]
    obtain ⟨present, sense, button⟩ := senseMoved_sameInputs t (s.setLatch { s.latch with sense := s.latch.sense.flip })
    rw [present, sense, button]
    exact ⟨rfl, rfl, rfl⟩

theorem takeButtonPress_idle {s : State} (h : s.latch.button.due = none ∨ s.latch.button.value = true) :
    takeButtonPress s = s := by
  unfold takeButtonPress
  split
  · rename_i t due
    exact if_pos (h.resolve_left (by simp [due]))
  · rfl

theorem takeButtonPress_due {s : State} {t : Time} (h : s.latch.button.due = some t) (k : s.latch.button.value = false) :
    takeButtonPress s = releaseRequest .button t (s.setLatch { s.latch with button := s.latch.button.flip }) := by
  unfold takeButtonPress; simp [h, k]

/-- A change of the button that BUTTON_PRESS leaves waiting is one to RELEASED. -/
theorem takeButtonPress_inputs (s : State) :
    ((takeButtonPress s).latch.button.due = none ∨ (takeButtonPress s).latch.button.value = true) ∧
      (takeButtonPress s).latch.present = s.latch.present ∧ (takeButtonPress s).latch.sense = s.latch.sense := by
  by_cases idle : s.latch.button.due = none ∨ s.latch.button.value = true
  · rw [takeButtonPress_idle idle]
    exact ⟨idle, rfl, rfl⟩
  · obtain ⟨waits, released⟩ := not_or.1 idle
    obtain ⟨t, due⟩ := Option.ne_none_iff_exists'.1 waits
    rw [takeButtonPress_due due (by simpa using released)]
    obtain ⟨present, sense, button⟩ :=
      releaseRequest_sameInputs .button t (s.setLatch { s.latch with button := s.latch.button.flip })
    rw [present, sense, button]
    exact ⟨.inl rfl, rfl, rfl⟩

theorem takeButtonRelease_idle {s : State} (h : s.latch.button.due = none) : takeButtonRelease s = s := by
  unfold takeButtonRelease; rw [h]

theorem takeButtonRelease_due {s : State} {t : Time} (h : s.latch.button.due = some t) (k : s.latch.button.value = true) :
    takeButtonRelease s = s.setLatch { s.latch with button := s.latch.button.flip } := by
  unfold takeButtonRelease; simp [h, k]

theorem takeButtonRelease_inputs {s : State} (h : s.latch.button.due = none ∨ s.latch.button.value = true) :
    (takeButtonRelease s).latch.button.due = none ∧ (takeButtonRelease s).latch.present = s.latch.present ∧
      (takeButtonRelease s).latch.sense = s.latch.sense := by
  cases due : s.latch.button.due with
  | none => rw [takeButtonRelease_idle due]; exact ⟨due, rfl, rfl⟩
  | some t => rw [takeButtonRelease_due due (h.resolve_left (by simp [due]))]; exact ⟨rfl, rfl, rfl⟩

/-! ### The changes that still wait at a reading (log entry 33) -/

theorem endEvent_unmarked (s : State) : (endEvent s).statusDirty = false := by
  unfold endEvent
  split
  · rfl
  · simpa using ‹¬s.statusDirty = true›

/-- No change of an input waits. -/
def NoneDue (s : State) : Prop :=
  s.latch.present.due = none ∧ s.latch.sense.due = none ∧ s.latch.button.due = none

theorem takeDueChanges_noneDue (s : State) : NoneDue (takeDueChanges s) := by
  unfold takeDueChanges NoneDue
  generalize e1 : endEvent (takePresentChange s) = s1
  generalize e2 : endEvent (takeSenseChange s1) = s2
  generalize e3 : endEvent (takeButtonPress s2) = s3
  have latch (u : State) : (endEvent u).latch = u.latch := (endEvent_frame u).latch (by decide)
  have latch1 : s1.latch = _ := e1 ▸ latch _
  have latch2 : s2.latch = _ := e2 ▸ latch _
  have latch3 : s3.latch = _ := e3 ▸ latch _
  obtain ⟨present1, -, -⟩ := takePresentChange_inputs s
  obtain ⟨sense2, present2, -⟩ := takeSenseChange_inputs s1
  obtain ⟨button3, present3, sense3⟩ := takeButtonPress_inputs s2
  rw [← latch1] at present1
  rw [← latch2] at sense2 present2
  rw [← latch3] at button3 present3 sense3
  obtain ⟨button4, present4, sense4⟩ := takeButtonRelease_inputs button3
  rw [latch, present4, sense4, present3, sense3, present2]
  exact ⟨present1, sense2, button4⟩

theorem takeDueChanges_idle {s : State} (h : NoneDue s) (d : s.statusDirty = false) : takeDueChanges s = s := by
  obtain ⟨present, sense, button⟩ := h
  unfold takeDueChanges
  rw [takePresentChange_idle present, endEvent_clean d, takeSenseChange_idle sense, endEvent_clean d,
    takeButtonPress_idle (.inl button), endEvent_clean d, takeButtonRelease_idle button, endEvent_clean d]

/-- The three inputs read into their run counts (R141). -/
def readInputs (present sense button : Bool) (s : State) : State :=
  s.setLatch { s.latch with
    present := readInput present s.ms s.latch.present
    sense := readInput sense s.ms s.latch.sense
    button := readInput button s.ms s.latch.button }

theorem exec_latchInputRead {s : State} (h : s.inReset = false) (present sense button : Bool) :
    exec (.latchInputRead present sense button) s =
      .next (endEvent (readInputs present sense button (takeDueChanges s))) :=
  event_next h fun s => readInputs present sense button (takeDueChanges s)

/-- A reading acts as the changes taken and then the reading (log entry 33). -/
theorem exec_latchInputRead_taken {s : State} (h : s.inReset = false) (present sense button : Bool) :
    exec (.latchInputRead present sense button) s = exec (.latchInputRead present sense button) (takeDueChanges s) := by
  have released : (takeDueChanges s).inReset = false := ((takeDueChanges_way s).sameFields.inReset (by decide)).trans h
  rw [exec_latchInputRead h, exec_latchInputRead released,
    takeDueChanges_idle (takeDueChanges_noneDue s) (endEvent_unmarked _)]

/-! ### The commands of the changes -/

section
variable {s : State} (h : s.inReset = false)
include h

theorem exec_presentSwitchChange : exec .presentSwitchChange s = .next (endEvent (takePresentChange s)) := event_next h _

theorem exec_latchSenseChange : exec .latchSenseChange s = .next (endEvent (takeSenseChange s)) := event_next h _

theorem exec_buttonPress : exec .buttonPress s = .next (endEvent (takeButtonPress s)) := event_next h _

theorem exec_buttonReleased : exec .buttonReleased s = .next (endEvent (takeButtonRelease s)) := event_next h _

end

/-- What the latch controller does in an event leaves power reset as it is. -/
theorem endEvent_released {s t : State} (h : s.inReset = false) (w : Way latchTouched s t) : (endEvent t).inReset = false :=
  ((endEvent_frame t).inReset (by decide)).trans ((w.sameFields.inReset (by decide)).trans h)

/-- The four commands of the changes, one after the other, take what waits. -/
theorem exec_changes {s : State} (h : s.inReset = false) :
    ∃ s1 s2 s3, exec .presentSwitchChange s = .next s1 ∧ exec .latchSenseChange s1 = .next s2 ∧
      exec .buttonPress s2 = .next s3 ∧ exec .buttonReleased s3 = .next (takeDueChanges s) := by
  have h1 := endEvent_released h (takePresentChange_way s)
  have h2 := endEvent_released h1 (takeSenseChange_way _)
  have h3 := endEvent_released h2 (takeButtonPress_way _)
  exact ⟨_, _, _, exec_presentSwitchChange h, exec_latchSenseChange h1, exec_buttonPress h2, exec_buttonReleased h3⟩

end Sys2Proof.Machine

namespace Sys2Proof.Proofs

open Sys2Proof.Machine Sys2Proof.Claims

/-- Settles O52: a taken change moves the state row by row of R145's table, the button's change is a release request, and
after the four commands no change waits, so that the reading takes none. -/
theorem latchInputs : Obligations.LatchInputs := by
  intro s hr
  refine ⟨fun present sense button clean hp hs hb => ?_, ?_, fun t due => ?_, fun t due => ?_, fun t due => ?_⟩
  · rw [exec_latchInputRead hr, takeDueChanges_idle ⟨hp, hs, hb⟩ clean,
      endEvent_clean (s := readInputs present sense button s) clean]
    rfl
  · obtain ⟨s1, s2, s3, e1, e2, e3, e4⟩ := exec_changes hr
    obtain ⟨present, sense, button⟩ := takeDueChanges_noneDue s
    exact ⟨s1, s2, s3, _, e1, e2, e3, e4, ((takeDueChanges_way s).sameFields.inReset (by decide)).trans hr,
      endEvent_unmarked _, present, sense, button, exec_latchInputRead_taken hr⟩
  · rw [exec_presentSwitchChange hr, takePresentChange_due due]
    refine congrArg (Host.Outcome.next <| endEvent ·) ?_
    split
    · have opened : s.latch.present.flip.value = false := by simp [InputFilter.flip, *]
      split
      · exact presentMoved_opened_empty t opened ‹_›
      · exact presentMoved_taken t opened (.inl (congrArg LatchState.place ‹_›))
      · exact presentMoved_forced t opened (.inl (congrArg LatchState.place ‹_›))
      · exact presentMoved_forced t opened (.inr (congrArg LatchState.place ‹_›))
      · exact presentMoved_taken t opened (.inr (congrArg LatchState.place ‹_›))
    · exact presentMoved_closed t (by simp [InputFilter.flip, *])
  · rw [exec_latchSenseChange hr, takeSenseChange_due due]
    refine congrArg (Host.Outcome.next <| endEvent ·) ?_
    split
    · have opened : s.latch.sense.flip.value = false := by simp [InputFilter.flip, *]
      split
      · exact senseMoved_forced t opened (.inl (congrArg LatchState.place ‹_›))
      · exact senseMoved_forced t opened (.inr (congrArg LatchState.place ‹_›))
      · rename_i notLatched notAsked
        exact senseMoved_opened_still t opened notLatched notAsked
    · exact senseMoved_closed t (by simp [InputFilter.flip, *])
  · refine ⟨fun pressed => ?_, fun released elsewhere => ?_, fun released latched cooling => ?_,
      fun released latched idle locked => ?_, fun released latched idle free => ?_⟩
    · rw [exec_buttonReleased hr, takeButtonRelease_due due pressed]
      rfl
    all_goals
      rw [exec_buttonPress hr, takeButtonPress_due due released]
      refine congrArg (Host.Outcome.next <| endEvent ·) ?_
    · exact releaseRequest_not_latched .button t elsewhere
    · obtain ⟨e, cooldown⟩ := Option.isSome_iff_exists.1 cooling
      exact releaseRequest_cooldown .button t latched cooldown
    · exact releaseRequest_lockout .button t latched idle locked
    · exact releaseRequest_moves .button t latched idle free

end Sys2Proof.Proofs
end

section
/-! The timers of the latch, LATCH_ANSWER and UNDOCK_START (R147 to R150, R152). -/

namespace Sys2Proof.Machine

open Sys2Proof.Claims

/-! ### The ask timer and the release window (R148, R150) -/

theorem startRelease_eq_latchMoves (c : LatchCause) (t : Time) (s : State) :
    startRelease c t s = latchMoves (.releasing (t + BitVec.ofNat 32 (1000 * s.latch.window))) c t s :=
  changeLatch_eq_latchMoves _ _ _ _

theorem exec_askTimerExpiry_due {s : State} {e : Time} (h : s.inReset = false) (k : s.latch.state = .asked e)
    (d : due e s.ms = true) : exec .askTimerExpiry s = .next (endEvent (startRelease .timeout e s)) := by
  show execAskTimerExpiry s = _
  rw [execAskTimerExpiry, event_next h]
  simp only [k, d, if_true]

theorem exec_releaseWindowExpiry_due {s : State} {e : Time} (h : s.inReset = false) (k : s.latch.state = .releasing e)
    (d : due e s.ms = true) :
    exec .releaseWindowExpiry s = .next (endEvent (changeLatch (bySense s.latch) .notTaken e s)) := by
  show execReleaseWindowExpiry s = _
  rw [execReleaseWindowExpiry, event_next h]
  simp only [k, d, if_true]

/-! ### The cooldown (R147) -/

/-- The cooldown over and no press held. -/
def cooled (s : State) : State := s.setLatch { s.latch with cooldown := none, heldPress := none }

theorem exec_cooldownExpiry {s : State} (h : s.inReset = false) : exec .cooldownExpiry s = .next (endEvent (takeCooldown s)) :=
  event_next h _

theorem takeCooldown_due {s : State} {e : Time} (h : s.latch.cooldown = some e) (d : due e s.ms = true) :
    takeCooldown s = cooldownExpired e s := by
  unfold takeCooldown
  simp only [h, d, if_true]

theorem takeCooldown_idle {s : State} (h : ∀ e, s.latch.cooldown = some e → due e s.ms = false) : takeCooldown s = s := by
  unfold takeCooldown
  split
  · rw [h _ ‹_›]; rfl
  · rfl

theorem cooldownExpired_unheld (t : Time) {s : State} (h : s.latch.heldPress = none) : cooldownExpired t s = cooled s := by
  unfold cooldownExpired
  rw [h]
  rfl

theorem cooldownExpired_held (t : Time) {s : State} {src : PressSource} (h : s.latch.heldPress = some src) :
    cooldownExpired t s = releaseRequest src t (cooled s) := by
  unfold cooldownExpired
  rw [h]
  rfl

theorem cooldownExpired_unserved (t : Time) {s : State} (h : s.latch.heldPress = none ∨ s.latch.state ≠ .latched) :
    cooldownExpired t s = cooled s := by
  cases held : s.latch.heldPress with
  | none => exact cooldownExpired_unheld t held
  | some src =>
    rw [cooldownExpired_held t held]
    exact releaseRequest_not_latched (s := cooled s) src t (h.resolve_left (by simp [held]))

/-- A release request starts no cooldown. -/
theorem releaseRequest_cooldown_none (src : PressSource) (t : Time) {s : State} (h : s.latch.cooldown = none) :
    (releaseRequest src t s).latch.cooldown = none := by
  by_cases latched : s.latch.state = .latched
  · cases lockout : s.motion.lockout with
    | true => rw [releaseRequest_lockout src t latched h lockout, (append_frame _ _).latch (by decide), h]
    | false =>
      rw [releaseRequest_asks src t latched h lockout, changeLatch_latch]
      simp [cooldownAfter, latched, h, LatchState.place]
  · rw [releaseRequest_not_latched src t latched, h]

theorem cooldownExpired_cooldown (t : Time) (s : State) : (cooldownExpired t s).latch.cooldown = none := by
  cases held : s.latch.heldPress with
  | none => rw [cooldownExpired_unheld t held]; rfl
  | some src => rw [cooldownExpired_held t held]; exact releaseRequest_cooldown_none src t rfl

theorem takeCooldown_frame (s : State) : Frame latchTouched s (takeCooldown s) := by
  unfold takeCooldown
  split
  · split
    · exact (cooldownExpired_way _ _).sameFields
    · exact .refl _ _
  · exact .refl _ _

/-! ### LATCH_ANSWER (R149) -/

section
variable {ps : List Word} {s : State}

theorem latchAnswer_beyond (h : 1 < param ps 1) : latchAnswer ps s = refuse .errParam s := by
  unfold latchAnswer
  rw [if_pos h]

theorem latchAnswer_unasked (h : param ps 1 ≤ 1) (k : s.latch.state.place ≠ .asked) :
    latchAnswer ps s = refuse .errState s := by
  unfold latchAnswer
  rw [if_neg (by omega)]
  split
  · rename_i e asked
    exact absurd (congrArg LatchState.place asked) k
  · rfl

theorem latchAnswer_asked {e : Time} (h : param ps 1 ≤ 1) (k : s.latch.state = .asked e) :
    latchAnswer ps s =
      (if param ps 1 = 0 then startRelease .grant s.ms s else changeLatch .latched .defer s.ms s, { code := .ok }) := by
  unfold latchAnswer
  rw [if_neg (by omega), k]

/-! ### UNDOCK_START (R152) -/

/-- An expiry of the cooldown that COOLDOWN_EXPIRY has taken leaves UNDOCK_START none to take (log entry 36). -/
theorem undockStart_taken {e : Time} (h : s.latch.cooldown = some e) (d : due e s.ms = true) :
    undockStart ps s = undockStart ps (endEvent (takeCooldown s)) := by
  have ended : (endEvent (takeCooldown s)).latch.cooldown = none := by
    rw [(endEvent_frame _).latch (by decide), takeCooldown_due h d, cooldownExpired_cooldown]
  unfold undockStart
  simp only [takeCooldown_idle (s := endEvent (takeCooldown s)) (by simp [ended]), endEvent_clean (endEvent_unmarked _)]

variable (clean : s.statusDirty = false) (running : ∀ e, s.latch.cooldown = some e → due e s.ms = false)
include clean running

theorem undockStart_unlatched (h : s.latch.state ≠ .latched) : undockStart ps s = refuse .errState s := by
  unfold undockStart
  simp only [takeCooldown_idle running, endEvent_clean clean]

theorem undockStart_lockout (h : s.latch.state = .latched) (k : s.motion.lockout = true) :
    undockStart ps s = refuse .errMotion s := by
  unfold undockStart
  simp only [takeCooldown_idle running, endEvent_clean clean, h, k, if_true]

theorem undockStart_busy {e : Time} (h : s.latch.state = .latched) (k : s.motion.lockout = false)
    (c : s.latch.cooldown = some e) :
    undockStart ps s = (s, { code := .errBusy, words := [min (e - s.ms).toNat 10000] }) := by
  unfold undockStart
  simp only [takeCooldown_idle running, endEvent_clean clean, h, k, c, Bool.false_eq_true, if_false]
  rfl

theorem undockStart_starts (h : s.latch.state = .latched) (k : s.motion.lockout = false) (c : s.latch.cooldown = none) :
    undockStart ps s = (startRelease .request s.ms s, { code := .ok }) := by
  unfold undockStart
  simp only [takeCooldown_idle running, endEvent_clean clean, h, k, c, Bool.false_eq_true, if_false]

end

/-- An expiry that is not due lies ahead. -/
theorem elapsed_pos_of_not_due {e now : Time} (h : due e now = false) : 1 ≤ (e - now).toNat := by
  have : e ≠ now := by rintro rfl; simp [due] at h
  bv_omega

/-- UNDOCK_START acts alike before and after the command that takes a due cooldown expiry. -/
theorem exec_undockStart_taken {s : State} {q : Request} {e : Time} (h : InExecution s q 20 0)
    (c : s.latch.cooldown = some e) (d : due e s.ms = true) :
    exec .undockStart s = exec .undockStart (endEvent (takeCooldown s)) := by
  obtain ⟨released, current, kind, count⟩ := h
  have f : Frame latchEvents s (endEvent (takeCooldown s)) :=
    ((takeCooldown_frame s).mono rfl).next (endEvent_frame _) rfl
  have inExecution : InExecution (endEvent (takeCooldown s)) q 20 0 :=
    ⟨(f.inReset (by decide)).trans released, (congrArg RequestUnit.current (f.req (by decide))).trans current, kind, count⟩
  show event (request 20 0 undockStart) s = event (request 20 0 undockStart) _
  rw [event_request ⟨released, current, kind, count⟩, event_request inExecution, undockStart_taken c d]

end Sys2Proof.Machine

namespace Sys2Proof.Proofs

open Sys2Proof.Machine Sys2Proof.Claims

/-- Settles O53: each timer by its expiry, the held press as the release request that it is, and the two requests by their
checks in order, UNDOCK_START with no cooldown expiry left to take. -/
theorem latchTimersAndRequests : Obligations.LatchTimersAndRequests := by
  intro s q e hr
  refine ⟨fun asked expired => ?_, fun releasing expired => ?_,
    fun cooling expired => ⟨fun unserved => ?_, fun src held latched => ?_⟩, fun hq => ?_,
    fun hq clean => ⟨fun t cooling expired taken => ?_, fun running => ?_⟩⟩
  · rw [exec_askTimerExpiry_due hr asked expired, startRelease_eq_latchMoves]
  · rw [exec_releaseWindowExpiry_due hr releasing expired, changeLatch_eq_latchMoves]
    rfl
  · rw [exec_cooldownExpiry hr, takeCooldown_due cooling expired, cooldownExpired_unserved e unserved]
    rfl
  · rw [exec_cooldownExpiry hr, takeCooldown_due cooling expired, cooldownExpired_held e held]
    refine ⟨fun locked => congrArg (Host.Outcome.next <| endEvent ·) ?_,
      fun free => congrArg (Host.Outcome.next <| endEvent ·) ?_⟩
    · exact releaseRequest_lockout src e latched rfl locked
    · cases src <;> exact releaseRequest_moves _ e latched rfl free
  · have answer : exec .latchAnswer s = _ := event_request hq latchAnswer
    refine ⟨fun beyond => ?_, fun within unasked => ?_, fun grant asked => ?_, fun defer asked => ?_⟩
    · rw [answer, latchAnswer_beyond beyond]; rfl
    · rw [answer, latchAnswer_unasked within unasked]; rfl
    · rw [answer, latchAnswer_asked (by omega) asked, if_pos grant, startRelease_eq_latchMoves]
    · rw [answer, latchAnswer_asked (by omega) asked, if_neg (by omega), changeLatch_eq_latchMoves]
  · rw [exec_cooldownExpiry hr] at taken
    cases taken
    exact exec_undockStart_taken hq cooling expired
  · have answer : exec .undockStart s = _ := event_request hq undockStart
    refine ⟨fun unlatched => ?_, fun latched locked => ?_, fun latched free cooling => ⟨?_, min_le_right _ _, ?_⟩,
      fun latched free idle => ?_⟩
    · rw [answer, undockStart_unlatched clean running unlatched]; rfl
    · rw [answer, undockStart_lockout clean running latched locked]; rfl
    · exact le_min (elapsed_pos_of_not_due (running e cooling)) (by decide)
    · rw [answer, undockStart_busy clean running latched free cooling]
    · rw [answer, undockStart_starts clean running latched free idle, startRelease_eq_latchMoves]

end Sys2Proof.Proofs
end

section
/-! Transfers to the legend strip (R159 to R161), and LOAD_LEGENDS (R156, R157): the staged set checked and taken
whole. -/

namespace Sys2Proof.Machine

open Sys2Proof.Claims

/-! ### A transfer begins, succeeds or fails (R159 to R161) -/

theorem ShownSet.number_eq (x : ShownSet) :
    x.number = match x with | .base => 0 | .fn => 1 | .motion => 2 | .undocked => 3 := by
  cases x <;> rfl

theorem beginTransfer_eq_transferBegins (t : Time) (s : State) : beginTransfer t s = transferBegins t s := by
  have sent : sentCharacter = fun c => if 32 ≤ c.toNat ∧ c.toNat ≤ 126 then c else 63 := by
    funext c
    simp [sentCharacter]
  unfold beginTransfer stripMessage
  rw [sent, ShownSet.number_eq]
  rfl

/-- A status field is rewritten where its value changes. -/
theorem touchStatus_where (changed : Bool) (s : State) :
    (if changed then touchStatus s else s) = { s with statusDirty := s.statusDirty || changed } := by
  cases changed
  · simp
  · simp [touchStatus, State.setStatusDirty]

section
variable {s : State}

theorem stripAcknowledged_idle (h : s.legend.transfer = .idle) : stripAcknowledged s = s := by
  unfold stripAcknowledged
  rw [h]

/-- The transfer under way has succeeded, and its again-flag is not yet taken up (R160). -/
def transferDone (s : State) : State :=
  { s with
    legend := { s.legend with transfer := .idle, failures := 0, online := true, again := false, retry := none }
    statusDirty := s.statusDirty || !s.legend.online }

theorem stripAcknowledged_sending {e : Time} (h : s.legend.transfer = .sending e) :
    stripAcknowledged s = if s.legend.again then transferBegins s.ms (transferDone s) else transferDone s := by
  have done (u : State) : (if s.legend.online then u else touchStatus u) =
      { u with statusDirty := u.statusDirty || !s.legend.online } := by
    rw [← touchStatus_where]
    cases s.legend.online <;> rfl
  unfold stripAcknowledged
  rw [h]
  simp only [done, beginTransfer_eq_transferBegins]
  rfl

/-- A failure below the third: the transfer is tried again at once (R160). -/
theorem transferFailed_again (t : Time) (h : s.legend.failures < 2) :
    transferFailed t s =
      transferBegins t { s with legend := { s.legend with failures := s.legend.failures + 1, again := false } } := by
  have count : min (s.legend.failures + 1) 3 = s.legend.failures + 1 := by omega
  unfold transferFailed
  simp only [count]
  rw [if_pos (by omega), beginTransfer_eq_transferBegins]
  rfl

/-- The third failure: the strip is OFFLINE and the retry timer runs (R161). -/
theorem transferFailed_offline (t : Time) (h : 2 ≤ s.legend.failures) :
    transferFailed t s =
      { s with
        legend :=
          { s.legend with failures := 3, again := false, transfer := .idle, retry := some (t + 5000), online := false }
        statusDirty := s.statusDirty || s.legend.online } := by
  have count : min (s.legend.failures + 1) 3 = 3 := by omega
  unfold transferFailed
  simp only [count]
  rw [if_neg (by omega), touchStatus_where]
  rfl

theorem refreshNeed_idle (t : Time) (h : s.legend.transfer = .idle) :
    refreshNeed t s = transferBegins t { s with legend := { s.legend with retry := none } } := by
  unfold refreshNeed
  rw [h]
  exact beginTransfer_eq_transferBegins t _

theorem refreshNeed_sending (t : Time) {e : Time} (h : s.legend.transfer = .sending e) :
    refreshNeed t s = { s with legend := { s.legend with again := true } } := by
  unfold refreshNeed
  rw [h]
  rfl

/-! ### The commands -/

theorem exec_stripAcknowledge (h : s.inReset = false) :
    exec .stripAcknowledge s = .next (endEvent (stripAcknowledged s)) := event_next h _

theorem exec_acknowledgeTimerExpiry_due (h : s.inReset = false) {e : Time} (ht : s.legend.transfer = .sending e)
    (hd : due e s.ms = true) : exec .acknowledgeTimerExpiry s = .next (endEvent (transferFailed e s)) := by
  show execAcknowledgeTimerExpiry s = _
  rw [execAcknowledgeTimerExpiry, event_next h]
  simp only [ht, hd, if_true]

theorem exec_retryTimerExpiry_due (h : s.inReset = false) {e : Time} (hr : s.legend.retry = some e)
    (hd : due e s.ms = true) :
    exec .retryTimerExpiry s =
      .next (endEvent (transferBegins e { s with legend := { s.legend with retry := none } })) := by
  show execRetryTimerExpiry s = _
  rw [execRetryTimerExpiry, event_next h]
  simp only [hr, hd, if_true, beginTransfer_eq_transferBegins]
  rfl

end

/-! ### The staged set (R156, R157) -/

/-- The 12 cells staged for LOAD_LEGENDS (11.6.4). -/
def stagedCells (m : Memory) (off : Nat) : List LegendCell := (List.range 12).map fun c => readCell m (off + 11 * c)

/-- A value of `attr` that no cell can hold (R157). -/
def badAttribute (v : Nat) : Bool := 3 < v

theorem attr_stagedCells (m : Memory) (off : Nat) :
    (stagedCells m off).map LegendCell.attr = (List.range 12).map fun c => (m.read (off + 11 * c + 10)).toNat :=
  List.map_map

theorem badPlaces_map_range (bad : Nat → Bool) (f : Nat → Nat) (n : Nat) :
    badPlaces bad ((List.range n).map f) = (List.range n).filter fun i => bad (f i) := by
  rw [badPlaces, List.length_map, List.length_range]
  refine List.filter_congr fun i hi => ?_
  simp [List.mem_range.1 hi]

/-- Equal rows laid end to end, by one running number. -/
theorem flatMap_range_map_range {α : Type} (f : Nat → Nat → α) (rows : Nat) {n : Nat} (hn : 0 < n) :
    ((List.range rows).flatMap fun c => (List.range n).map (f c)) =
      (List.range (rows * n)).map fun k => f (k / n) (k % n) := by
  induction rows with
  | zero => simp
  | succ rows ih =>
    have row : ∀ i ∈ List.range n, f rows i = f ((rows * n + i) / n) ((rows * n + i) % n) := fun i hi => by
      rw [List.mem_range] at hi
      rw [Nat.mul_comm, Nat.mul_add_div hn, Nat.mul_add_mod, Nat.div_eq_of_lt hi, Nat.mod_eq_of_lt hi, Nat.add_zero]
    rw [List.range_succ, List.flatMap_append, ih, Nat.succ_mul, List.range_add, List.map_append, List.map_map,
      List.flatMap_singleton]
    exact congrArg _ (List.map_congr_left row)

/-- The unprintable characters of the staged set, counted over its 120 characters (R157). -/
theorem countP_unprintable_stagedCells (m : Memory) (off : Nat) :
    ((stagedCells m off).flatMap LegendCell.chars).countP unprintable =
      (List.range 120).countP fun i =>
        decide ((m.read (off + 11 * (i / 10) + i % 10)).toNat < 32 ∨
          126 < (m.read (off + 11 * (i / 10) + i % 10)).toNat) := by
  have chars : (stagedCells m off).flatMap LegendCell.chars =
      (List.range 120).map fun i => m.read (off + 11 * (i / 10) + i % 10) := by
    rw [stagedCells, List.flatMap_map]
    exact flatMap_range_map_range (fun c i => m.read (off + 11 * c + i)) 12 (by decide)
  rw [chars, List.countP_map]
  exact List.countP_congr fun i _ => by simp [unprintable]

/-! ### LOAD_LEGENDS, check by check (R156, R157) -/

section
variable {ps : List Word} {s : State}

/-- The set named by LOAD_LEGENDS replaced by the staged cells. -/
def withSetLoaded (ps : List Word) (s : State) : State :=
  s.setLegend { s.legend with sets := s.legend.sets.set (param ps 1) (stagedCells s.mem (param ps 2)) }

theorem loadLegends_set (h : 3 < param ps 1) : loadLegends ps s = refuse .errParam s := if_pos h

variable (h : param ps 1 ≤ 3)
include h

theorem loadLegends_range (k : inStaging (param ps 2) 132 = false) : loadLegends ps s = refuse .errRange s := by
  unfold loadLegends
  dsimp only
  rw [if_neg (Nat.not_lt.2 h), if_pos (by rw [k]; rfl)]

variable (k : inStaging (param ps 2) 132 = true)
include k

/-- With set and range in order the staged attributes decide (R157). -/
theorem loadLegends_table :
    loadLegends ps s =
      let attrs := (stagedCells s.mem (param ps 2)).map LegendCell.attr
      if attrs.any badAttribute then (s, tableFault badAttribute attrs)
      else
        (if s.legend.shown.number = param ps 1 then refreshNeed s.ms (withSetLoaded ps s) else withSetLoaded ps s,
          { code := .ok
            words := [((stagedCells s.mem (param ps 2)).flatMap LegendCell.chars).countP unprintable] }) := by
  unfold loadLegends tableFault
  dsimp only
  rw [if_neg (Nat.not_lt.2 h), if_neg (by rw [k]; decide), List.any_map, List.findIdx_map, List.countP_map]
  rfl

theorem loadLegends_refused {i : Nat} {rest : List Nat}
    (bad : badPlaces badAttribute ((stagedCells s.mem (param ps 2)).map LegendCell.attr) = i :: rest) :
    loadLegends ps s =
      (s, { code := .errTable
            words := [i, ((stagedCells s.mem (param ps 2)).map LegendCell.attr).getD i 0, rest.length + 1] }) := by
  rw [loadLegends_table h k, if_pos (any_of_badPlaces bad), tableFault_eq bad, bad, List.length_cons]

theorem loadLegends_taken (good : badPlaces badAttribute ((stagedCells s.mem (param ps 2)).map LegendCell.attr) = []) :
    loadLegends ps s =
      (if s.legend.shown.number = param ps 1 then refreshNeed s.ms (withSetLoaded ps s) else withSetLoaded ps s,
        { code := .ok
          words := [((stagedCells s.mem (param ps 2)).flatMap LegendCell.chars).countP unprintable] }) := by
  rw [loadLegends_table h k]
  dsimp only
  rw [badPlaces_eq_nil_iff.1 good, if_neg Bool.false_ne_true]

end

end Sys2Proof.Machine

namespace Sys2Proof.Proofs

open Sys2Proof.Machine Sys2Proof.Claims

/-- Settles O54: each timer and the acknowledge by the transfer state, and LOAD_LEGENDS by its checks in order. -/
theorem stripTransfers : Obligations.StripTransfers := by
  intro s q e hr g told done
  refine ⟨fun idle => ?_, fun sending => ⟨fun once => ?_, fun again => ?_⟩,
    fun sending expired => ⟨fun few => ?_, fun many => ?_⟩,
    fun retry expired => exec_retryTimerExpiry_due hr retry expired, ?_⟩
  · rw [exec_stripAcknowledge hr, stripAcknowledged_idle idle]
  · rw [exec_stripAcknowledge hr, stripAcknowledged_sending sending, if_neg (ne_true_of_eq_false once)]
    rfl
  · rw [exec_stripAcknowledge hr, stripAcknowledged_sending sending, if_pos again]
    rfl
  · rw [exec_acknowledgeTimerExpiry_due hr sending expired, transferFailed_again e few]
  · rw [exec_acknowledgeTimerExpiry_due hr sending expired, transferFailed_offline e many]
  · intro hq n off cells attr bad hidden loaded shown
    have answer : exec .loadLegends s = _ := event_request hq loadLegends
    rw [answer]
    refine ⟨fun beyond => ?_, fun within outside => ?_, fun within low high => ?_⟩
    · rw [loadLegends_set beyond]; rfl
    · rw [loadLegends_range within (Bool.eq_false_iff.2 fun inside => by have := inStaging_iff.1 inside; omega)]
      rfl
    have inside : inStaging (param q.params 2) 132 = true := inStaging_iff.2 ⟨low, high⟩
    have attrs : (stagedCells s.mem off).map LegendCell.attr = (List.range 12).map attr := attr_stagedCells s.mem off
    have places : badPlaces badAttribute ((stagedCells s.mem off).map LegendCell.attr) = bad := by
      rw [attrs, badPlaces_map_range]
      rfl
    have taken (good : bad = []) := loadLegends_taken within inside (places.trans good)
    have count : ((stagedCells s.mem off).flatMap LegendCell.chars).countP unprintable = hidden :=
      countP_unprintable_stagedCells s.mem off
    have current : g.shown.number = n ↔ shown := by rw [ShownSet.number_eq]; exact eq_comm
    refine ⟨fun c rest first => ?_, fun good other => ?_, fun good same idle => ?_, fun good same sending => ?_⟩
    · have place : c < 12 := List.mem_range.1 (List.mem_of_mem_filter (first ▸ List.mem_cons_self))
      rw [loadLegends_refused within inside (places.trans first), attrs, first]
      simp [place]
    · rw [taken good, if_neg (mt current.1 other), count]
      rfl
    · rw [taken good, if_pos (current.2 same), count, refreshNeed_idle (s := withSetLoaded q.params s) _ idle]
      rfl
    · rw [taken good, if_pos (current.2 same), count, refreshNeed_sending (s := withSetLoaded q.params s) _ sending]
      rfl

end Sys2Proof.Proofs
end

section
/-! SET_INDICATORS and the lamps (chapter 9, R162 to R165): the part-owned patterns by the states that they report, and
the duty of a lit lamp. -/

namespace Sys2Proof.Machine

/-! ### SET_INDICATORS (R163) -/

/-- The codes of R162 in their order, FAST for the last. -/
theorem patternOf_eq_getD : ∀ v, patternOf v = ([.off, .on, .slow] : List Pattern).getD v .fast
  | 0 | 1 | 2 => rfl
  | _ + 3 => by simp [patternOf]

section
variable {ps : List Word} {s : State}

theorem setIndicators_beyond (h : ¬(param ps 1 ≤ 3 ∧ param ps 2 ≤ 3 ∧ param ps 3 ≤ 3 ∧ param ps 4 ≤ 3)) :
    setIndicators ps s = refuse .errParam s := by
  unfold setIndicators
  rw [if_pos (by omega)]

variable (h : param ps 1 ≤ 3 ∧ param ps 2 ≤ 3 ∧ param ps 3 ≤ 3 ∧ param ps 4 ≤ 3)
include h

theorem setIndicators_down (down : s.link = .down) : setIndicators ps s = refuse .errState s := by
  unfold setIndicators
  rw [if_neg (by omega), if_pos down]

theorem setIndicators_taken (up : s.link ≠ .down) :
    setIndicators ps s =
      (s.setInd
        { caps := patternOf (param ps 1), num := patternOf (param ps 2), scroll := patternOf (param ps 3)
          aux := patternOf (param ps 4) }, { code := .ok }) := by
  unfold setIndicators
  rw [if_neg (by omega), if_neg up]

end

/-! ### The part-owned lamps (R165) -/

/-- The quarantined count is above 0 as soon as one position is quarantined (R35). -/
theorem quarantinedCount_pos_iff {k : KeyTable} : 0 < k.quarantinedCount ↔ ∃ e ∈ k.entries, e.cond = .quarantined := by
  simp [KeyTable.quarantinedCount, List.countP_pos_iff]

theorem speedFresh_iff {b : VehicleBus} :
    speedFresh b = true ↔ ∃ g ∈ b.signals, g.desc.role = .speed ∧ g.val.status = .fresh := by
  simp [speedFresh]

section
variable {s : State}

theorem dockPattern_undocking (h : s.latch.state.place = .asked ∨ s.latch.state.place = .releasing) :
    s.dockPattern = .fast := if_pos h

theorem dockPattern_of_link (h : ¬(s.latch.state.place = .asked ∨ s.latch.state.place = .releasing)) :
    s.dockPattern = match s.link with | .active => .on | .lowPower => .slow | .down => .off :=
  (if_neg h).trans (by cases s.link <;> rfl)

theorem motionPattern_lockout (h : s.motion.lockout = true) : s.motionPattern = .on := if_pos h

/-- Without lockout MOTION blinks where the motion of a van heard over its bus is unknown and taken as parked. -/
theorem motionPattern_free (h : s.motion.lockout = false) :
    s.motionPattern =
      if s.motion.settings.vehicle = true ∧ s.motion.state = .unknown ∧ s.motion.settings.asParked = true then .slow
      else .off := by
  unfold State.motionPattern
  rw [if_neg (by simp [h])]

theorem faultPattern_faulty (h : (∃ k ∈ s.keys.entries, k.cond = .quarantined) ∨ s.legend.online = false) :
    s.faultPattern = .on := if_pos (h.imp_left quarantinedCount_pos_iff.2)

/-- With no position quarantined and the strip ONLINE, FAULT tells whether SPEED is heard. -/
theorem faultPattern_sound (h : ¬((∃ k ∈ s.keys.entries, k.cond = .quarantined) ∨ s.legend.online = false)) :
    s.faultPattern = if s.motion.settings.vehicle = true ∧ speedFresh s.bus = false then .slow else .off := by
  unfold State.faultPattern
  rw [if_neg (mt (Or.imp_left quarantinedCount_pos_iff.1) h)]

end

/-! ### The duty of a lamp (R162) -/

theorem lampDuty_eq (s : State) (lamp : Nat) :
    s.lampDuty lamp = match s.lampPattern lamp with
      | .off => 0
      | .on => s.light.legend.output
      | .slow => if s.ms.toNat % 1000 < 500 then s.light.legend.output else 0
      | .fast => if s.ms.toNat % 250 < 125 then s.light.legend.output else 0 := by
  unfold State.lampDuty
  cases s.lampPattern lamp with
  | off | on => rfl
  | slow | fast => simp only [Pattern.lit, decide_eq_true_eq]

end Sys2Proof.Machine

namespace Sys2Proof.Proofs

open Sys2Proof.Machine Sys2Proof.Claims

/-- Settles O55: the request by its checks in order, each part-owned lamp by the lines of its table, and the duty by the
pattern. -/
theorem indicators : Obligations.Indicators := by
  refine ⟨?_, ?_⟩
  · intro s q hq p pattern admitted
    have answer : exec .setIndicators s = _ := event_request hq setIndicators
    rw [answer]
    refine ⟨fun beyond => ?_, fun within down => ?_, fun within up => ?_⟩
    · rw [setIndicators_beyond beyond]; rfl
    · rw [setIndicators_down within down]; rfl
    · rw [setIndicators_taken within up]
      simp only [patternOf_eq_getD]
      rfl
  · intro s undocking fresh faulty vehicle unjudged
    have heard : speedFresh s.bus = false ↔ ¬fresh := by rw [← Bool.not_eq_true, speedFresh_iff]
    refine ⟨rfl, rfl, rfl, rfl, dockPattern_undocking, dockPattern_of_link, motionPattern_lockout,
      fun free unknown => ?_, fun free judged => ?_, rfl, faultPattern_faulty, fun sound bus silent => ?_,
      fun sound k => ?_, fun lamp _ => lampDuty_eq s lamp⟩
    · exact (motionPattern_free free).trans (if_pos unknown)
    · exact (motionPattern_free free).trans (if_neg judged)
    · exact (faultPattern_sound sound).trans (if_pos ⟨bus, heard.2 silent⟩)
    · refine (faultPattern_sound sound).trans (if_neg fun ⟨bus, silent⟩ => ?_)
      rcases k with off | hears
      · exact ne_true_of_eq_false off bus
      · exact heard.1 silent hears

end Sys2Proof.Proofs
end

section
/-! Held in power reset (chapter 10, R179): no command has an effect but its assertion and its release, and both ways into it
restore every block. -/

namespace Sys2Proof.Machine

open Sys2Proof.Claims

/-! ### What a held part does -/

/-- Every command but a write access, the assertion and the release is one event of the part. -/
theorem exec_event {c : Instr} (notWrite : isWrite c = false) (asserted : c ≠ .powerReset)
    (released : ∀ p l b a, c ≠ .resetRelease p l b a) : ∃ f, ∀ s, exec c s = event f s := by
  cases c with
  | powerReset => exact absurd rfl asserted
  | resetRelease p l b a => exact absurd rfl (released p l b a)
  | ownerMarkWrite | noticeWrite | intMaskWrite | intPendingWrite | registerWriteDiscarded => cases notWrite
  | _ => exact ⟨_, fun _ => rfl⟩

section
variable {s : State} (h : s.inReset = true)
include h

theorem event_held (f : State → State) : event f s = .next s := by
  rw [event, if_pos h]

theorem windowWrite_held {off : Nat} {a : Access} (inside : a.inWindow off = true) : windowWrite off a s = .next s := by
  rw [windowWrite, if_pos inside, event_held h]

/-- Events and write accesses, which is every command that is left, stand still (R179). -/
theorem exec_held {c : Instr} (wf : c.wellFormed = true) (asserted : c ≠ .powerReset)
    (released : ∀ p l b a, c ≠ .resetRelease p l b a) : exec c s = .next s := by
  cases kind : isWrite c with
  | true =>
    obtain ⟨off, a, inside, answer, -⟩ := exec_write kind wf
    rw [answer, windowWrite_held h inside]
  | false =>
    obtain ⟨f, answer⟩ := exec_event kind asserted released
    rw [answer, event_held h]

end

/-! ### The ways into power reset -/

theorem exec_powerReset (s : State) : exec .powerReset s = .next { State.reset with pending := s.pending } := rfl

/-- A sample below 6000 mV is a power reset; the change count stays at the 0 that R184 gives (log entry 13). -/
theorem exec_supplySample_powerReset {s : State} (h : s.inReset = false) {mv : Half} (low : mv.toNat < 6000) :
    exec (.supplySample mv) s = .next (powerReset s) := by
  rw [exec_supplySample h, takeSample, if_pos low, endEvent_clean rfl]

end Sys2Proof.Machine

namespace Sys2Proof.Proofs

open Sys2Proof.Machine

/-- Settles O4: the commands that are left are events and write accesses. -/
theorem nothingHappensInPowerReset : Obligations.NothingHappensInPowerReset :=
  fun _ _ held wf asserted released => exec_held held wf asserted released

/-- Settles O5: the two ways into power reset, and the empty list of bytes that are not 0. -/
theorem powerResetRestoresEveryBlock : Obligations.PowerResetRestoresEveryBlock :=
  fun s => ⟨exec_powerReset s, fun _ running low => exec_supplySample_powerReset running low, fun _ => rfl⟩

end Sys2Proof.Proofs
end

section
/-! The lighting controller (chapter 10, R167 to R173): target duties, the night state, the ambient average, the outputs. -/

namespace Sys2Proof.Machine

open Sys2Proof.Claims

/-! ### Target duties (R172) -/

/-- A duty other than 0 is raised to the least that is seen. -/
theorem raised_eq (t low : Nat) :
    (if 0 < t && t < low then low else t) = if t = 0 ∨ low ≤ t then t else low := by
  simp only [Bool.and_eq_true, decide_eq_true_eq]
  split <;> split <;> omega

/-- A dip caps a duty. -/
theorem capped_eq (dip : Bool) (t cap : Nat) : (if dip then min t cap else t) = if dip ∧ cap < t then cap else t := by
  cases dip
  · simp
  · simp only [true_and, if_true]
    split <;> omega

/-! ### The night state (R170) -/

section
variable {l : Lighting} {b : VehicleBus}

theorem nightState_night (h : l.mode = .night) : nightState l b = true := by
  rw [nightState, h]

theorem nightState_day (h : l.mode = .day) : nightState l b = false := by
  rw [nightState, h]

/-- A HEADLAMP entry of the table that is FRESH, so that it counts for the night. -/
def FreshHeadlamp (b : VehicleBus) (x : Signal) : Prop :=
  x ∈ b.signals ∧ x.desc.role = .headlamp ∧ x.val.status = .fresh

theorem headlamp_lit {x : Signal} (lit : FreshHeadlamp b x) (only : ∀ y, FreshHeadlamp b y → y = x) :
    headlamp b = some (decide (x.val.value ≠ 0)) := by
  obtain ⟨mem, role, fresh⟩ := lit
  obtain ⟨y, hy⟩ : ∃ y, b.signals.find? (fun g => g.desc.role == .headlamp && g.val.status == .fresh) = some y :=
    Option.isSome_iff_exists.1 (List.find?_isSome.2 ⟨x, mem, by simp [role, fresh]⟩)
  have found := List.find?_some hy
  simp only [Bool.and_eq_true, beq_iff_eq] at found
  rw [headlamp, hy, only y ⟨List.mem_of_find?_eq_some hy, found⟩]
  simp [bne, beq_eq_decide]

theorem headlamp_dark (h : ∀ x, ¬FreshHeadlamp b x) : headlamp b = none := by
  rw [headlamp, Option.map_eq_none_iff, List.find?_eq_none]
  intro x mem lit
  simp only [Bool.and_eq_true, beq_iff_eq] at lit
  exact h x ⟨mem, lit⟩

theorem nightState_of_headlamp (h : l.mode = .auto) {lit : Bool} (k : headlamp b = some lit) : nightState l b = lit := by
  rw [nightState, h, k]

theorem nightState_of_average (h : l.mode = .auto) (k : headlamp b = none) :
    nightState l b =
      if l.average < l.limits.nightOn then true else if l.limits.nightOff ≤ l.average then false else l.night := by
  rw [nightState, h, k]

end

/-! ### The ambient average (R171) -/

/-- The last readings replaced. -/
def withAmbient (readings : List Nat) (s : State) : State := { s with light := { s.light with ambient := readings } }

theorem exec_ambientReading {s : State} (h : s.inReset = false) (reading : BitVec 12) :
    exec (.ambientReading reading) s =
      .next (endEvent (takeAmbient (s.light.ambient.drop 1 ++ [reading.toNat]) s)) := event_next h _

theorem takeAmbient_same {readings : List Nat} {s : State} (h : readings.sum / 8 = s.light.ambient.sum / 8) :
    takeAmbient readings s = withAmbient readings s := if_pos h

theorem takeAmbient_changed {readings : List Nat} {s : State} (h : readings.sum / 8 ≠ s.light.ambient.sum / 8) :
    takeAmbient readings s = evalNight { withAmbient readings s with statusDirty := true } := if_neg h

/-! ### Status fields of the lighting controller (R167, R173) -/

theorem touchStatus_unless (same : Prop) [Decidable same] (u : State) :
    (if same then u else touchStatus u) = { u with statusDirty := u.statusDirty || decide ¬same } := by
  rw [← touchStatus_where]
  simp only [decide_eq_true_eq, ite_not]

/-- The lighting controller set, its status field marked where the value changed. -/
theorem setLight_where {s : State} (l : Lighting) (same : Prop) [Decidable same] (h : same → l = s.light) :
    (if same then s else touchStatus (s.setLight l)) =
      { s with light := l, statusDirty := s.statusDirty || decide ¬same } := by
  refine Eq.trans ?_ (touchStatus_unless same (s.setLight l))
  split
  · rename_i k
    rw [h k]
    rfl
  · rfl

/-! ### The output update (R173) -/

/-- An output within the slew of its target reaches it; another moves toward it by the slew. -/
theorem slewed_eq (slew target output : Nat) :
    slewed slew target output =
      if target ≤ output + slew ∧ output ≤ target + slew then target
      else if output < target then output + slew else output - slew := by
  unfold slewed
  by_cases near : target ≤ output + slew ∧ output ≤ target + slew
  · rw [if_pos near]
    split <;> omega
  · rw [if_neg near]
    by_cases below : output < target
    · rw [if_pos below, if_pos below.le]
      omega
    · rw [if_neg below, if_neg (by omega)]
      omega

theorem setOutputs_eq (panel keys legend : Nat) (s : State) :
    setOutputs panel keys legend s =
      { s with
        light := { s.light with
          panel := { s.light.panel with output := panel }
          keys := { s.light.keys with output := keys }
          legend := { s.light.legend with output := legend } }
        statusDirty := s.statusDirty || decide (panel ≠ s.light.panel.output ∨ keys ≠ s.light.keys.output ∨
          legend ≠ s.light.legend.output) } := by
  unfold setOutputs
  dsimp only
  rw [touchStatus_unless]
  simp only [Bool.and_eq_true, decide_eq_true_eq, not_and_or, or_assoc]
  rfl

end Sys2Proof.Machine

namespace Sys2Proof.Proofs

open Sys2Proof.Machine Sys2Proof.Claims

/-- Settles O56: the target by its raise and its cap, the night by mode, HEADLAMP and average, the reading by whether it
changes the average, and the update channel by channel. -/
theorem lightingRules : Obligations.LightingRules := by
  refine ⟨fun l dip c => ?_, fun l b => ⟨nightState_night, nightState_day, ?_, ?_⟩,
    fun s hr => ⟨fun reading => ⟨?_, ?_⟩, ?_⟩⟩
  · intro dimmed seen
    rw [targetDuty, raised_eq, capped_eq]
  · intro x auto lit only
    exact nightState_of_headlamp auto (headlamp_lit lit only)
  · intro auto dark
    exact nightState_of_average auto (headlamp_dark dark)
  · intro same
    rw [exec_ambientReading hr, takeAmbient_same same]
    rfl
  · intro changed
    rw [exec_ambientReading hr, takeAmbient_changed changed, evalNight_eq]
    rfl
  · intro moved panel keys legend
    have answer : exec .outputUpdate s = .next (endEvent (updateOutputs s)) := event_next hr _
    rw [answer, updateOutputs, setOutputs_eq]
    simp only [slewed_eq]
    rfl

end Sys2Proof.Proofs
end

section
/-! The requests of chapter 10: SET_LIGHT_LEVELS, SET_LIGHT_LIMITS, LOAD_LIGHT_TABLE and SET_SUPPLY (R169, R174, R175,
R178). -/

namespace Sys2Proof.Machine

open Sys2Proof.Claims

/-! ### SET_LIGHT_LEVELS (R174) -/

theorem setPanelStep_eq (n : Nat) (s : State) :
    setPanelStep n s =
      { s with
        light := { s.light with panel := { s.light.panel with step := n } }
        statusDirty := s.statusDirty || decide (n ≠ s.light.panel.step) } :=
  setLight_where _ _ fun h => by rw [h]

theorem setKeysStep_eq (n : Nat) (s : State) :
    setKeysStep n s =
      { s with
        light := { s.light with keys := { s.light.keys with step := n } }
        statusDirty := s.statusDirty || decide (n ≠ s.light.keys.step) } :=
  setLight_where _ _ fun h => by rw [h]

theorem setLegendStep_eq (n : Nat) (s : State) :
    setLegendStep n s =
      { s with
        light := { s.light with legend := { s.light.legend with step := n } }
        statusDirty := s.statusDirty || decide (n ≠ s.light.legend.step) } :=
  setLight_where _ _ fun h => by rw [h]

section
variable {ps : List Word} (s : State)

/-- The lighting controller with steps and night mode as SET_LIGHT_LEVELS gives them. -/
def askedLevels (ps : List Word) (l : Lighting) : Lighting :=
  { l with
    panel := { l.panel with step := min (param ps 1) 15 }
    keys := { l.keys with step := min (param ps 2) 15 }
    legend := { l.legend with step := min (param ps 3) 15 }
    mode := nightModeOf (param ps 4) }

theorem setLightLevels_refused (h : 2 < param ps 4) : setLightLevels ps s = refuse .errParam s := if_pos h

theorem setLightLevels_taken (h : param ps 4 ≤ 2) :
    setLightLevels ps s =
      (evalNight
        { s with
          light := askedLevels ps s.light
          statusDirty := s.statusDirty || decide (min (param ps 1) 15 ≠ s.light.panel.step ∨
            min (param ps 2) 15 ≠ s.light.keys.step ∨ min (param ps 3) 15 ≠ s.light.legend.step) },
        { code := okUnless (15 < param ps 1 ∨ 15 < param ps 2 ∨ 15 < param ps 3) }) := by
  have code := okIf_eq_okUnless
    (min (param ps 1) 15 == param ps 1 && min (param ps 2) 15 == param ps 2 && min (param ps 3) 15 == param ps 3)
    (15 < param ps 1 ∨ 15 < param ps 2 ∨ 15 < param ps 3) (by simp only [Bool.and_eq_true, beq_iff_eq]; omega)
  unfold setLightLevels
  dsimp only
  rw [if_neg (Nat.not_lt.2 h), setPanelStep_eq, setKeysStep_eq, setLegendStep_eq, code]
  simp only [Bool.decide_or, ← Bool.or_assoc]
  rfl

/-! ### SET_LIGHT_LIMITS (R175) -/

/-- The limits as SET_LIGHT_LIMITS clamps them. -/
def askedLimits (ps : List Word) : LightLimits :=
  { nightOn := min (param ps 1) 4095, nightOff := min (param ps 2) 4095, nightPct := min (param ps 3) 100
    minDuty := min (param ps 4) 100, slew := clamp 1 1000 (param ps 5), dipDuty := min (param ps 6) 1000 }

/-- A limit was brought into its range. -/
abbrev limitAltered (ps : List Word) : Prop :=
  4095 < param ps 1 ∨ 4095 < param ps 2 ∨ 100 < param ps 3 ∨ 100 < param ps 4 ∨ param ps 5 = 0 ∨ 1000 < param ps 5 ∨
    1000 < param ps 6

theorem setLightLimits_refused (h : (askedLimits ps).nightOff ≤ (askedLimits ps).nightOn) :
    setLightLimits ps s = refuse .errParam s := if_pos h

theorem setLightLimits_taken (h : (askedLimits ps).nightOn < (askedLimits ps).nightOff) :
    setLightLimits ps s =
      (evalNight { s with light := { s.light with limits := askedLimits ps } },
        { code := okUnless (limitAltered ps) }) := by
  unfold setLightLimits
  dsimp only
  rw [okIf_eq_okUnless _ (limitAltered ps) (by simp only [Bool.and_eq_true, beq_iff_eq, clamp]; omega)]
  exact if_neg (Nat.not_le.2 h)

/-! ### LOAD_LIGHT_TABLE (R169) -/

/-- The field of a step as staged. -/
def stagedField (ps : List Word) (m : Memory) (i : Nat) : Nat := m.readLe (param ps 1 + 2 * i) 2

/-- The duty of a step as clamped. -/
def stagedLevel (ps : List Word) (m : Memory) (i : Nat) : Nat := min (stagedField ps m i) 1000

/-- How many fields are above the greatest duty. -/
def clampedFields (ps : List Word) (m : Memory) : Nat :=
  (List.range 16).countP fun i => decide (1000 < stagedField ps m i)

/-- The steps whose duty lies below that of the step before. -/
def fallingSteps (level : Nat → Nat) : List Nat :=
  (List.range 16).filter fun i => decide (0 < i ∧ level i < level (i - 1))

theorem getD_map_range (f : Nat → Nat) {i n : Nat} (h : i < n) : ((List.range n).map f).getD i 0 = f i := by
  simp [h]

theorem orderFaults_eq (level : Nat → Nat) : orderFaults ((List.range 16).map level) = fallingSteps level := by
  refine List.filter_congr fun i hi => ?_
  have below : i < 16 := List.mem_range.1 hi
  rw [getD_map_range _ below, getD_map_range _ (by omega), ← Bool.decide_and]

theorem inStaging_outside {offset size : Nat} (h : offset < 0x4000 ∨ 0x8000 < offset + size) :
    inStaging offset size = false :=
  Bool.eq_false_iff.2 fun inside => by
    have := inStaging_iff.1 inside
    omega

theorem loadLightTable_range (h : inStaging (param ps 1) 32 = false) : loadLightTable ps s = refuse .errRange s :=
  if_pos (by rw [h]; rfl)

/-- With the range in order the order of the clamped duties decides. -/
theorem loadLightTable_table (h : inStaging (param ps 1) 32 = true) :
    loadLightTable ps s =
      match fallingSteps (stagedLevel ps s.mem) with
      | i :: rest =>
        (s, { code := .errTable
              words := [i, ((List.range 16).map (stagedLevel ps s.mem)).getD i 0, rest.length + 1] })
      | [] =>
        ({ s with light := { s.light with levels := (List.range 16).map (stagedLevel ps s.mem) } },
          { code := okUnless (0 < clampedFields ps s.mem), words := [clampedFields ps s.mem] }) := by
  have levels : (s.mem.fields (param ps 1) 2 16).map (fun v => min v 1000) = (List.range 16).map (stagedLevel ps s.mem) :=
    List.map_map
  have clamped : (s.mem.fields (param ps 1) 2 16).countP (fun v => 1000 < v) = clampedFields ps s.mem := List.countP_map
  unfold loadLightTable
  dsimp only
  rw [levels, clamped, orderFaults_eq, if_neg (by rw [h]; decide),
    okIf_eq_okUnless _ (0 < clampedFields ps s.mem) (by simp)]
  rfl

theorem loadLightTable_refused (h : inStaging (param ps 1) 32 = true) {i : Nat} {rest : List Nat}
    (falls : fallingSteps (stagedLevel ps s.mem) = i :: rest) :
    loadLightTable ps s =
      (s, { code := .errTable
            words := [i, stagedLevel ps s.mem i, (fallingSteps (stagedLevel ps s.mem)).length] }) := by
  have first : i ∈ fallingSteps (stagedLevel ps s.mem) := falls ▸ List.mem_cons_self
  have below : i < 16 := List.mem_range.1 (List.mem_filter.1 first).1
  rw [loadLightTable_table s h, falls]
  dsimp only
  rw [getD_map_range _ below, List.length_cons]

theorem loadLightTable_taken (h : inStaging (param ps 1) 32 = true) (rises : fallingSteps (stagedLevel ps s.mem) = []) :
    loadLightTable ps s =
      ({ s with light := { s.light with levels := (List.range 16).map (stagedLevel ps s.mem) } },
        { code := okUnless (0 < clampedFields ps s.mem), words := [clampedFields ps s.mem] }) := by
  rw [loadLightTable_table s h, rises]

/-! ### SET_SUPPLY (R178) -/

/-- The thresholds that R178 admits. -/
def ThresholdsOk (warn recover : Nat) : Prop :=
  6000 ≤ warn ∧ warn ≤ 30000 ∧ 6500 ≤ recover ∧ recover ≤ 32000 ∧ warn + 500 ≤ recover

theorem setThresholds_refused (h : ¬ThresholdsOk (param ps 1) (param ps 2)) : setThresholds ps s = refuse .errParam s := by
  unfold ThresholdsOk at h
  unfold setThresholds
  dsimp only
  split
  · rfl
  · rw [if_pos (by omega)]

theorem setThresholds_taken (h : ThresholdsOk (param ps 1) (param ps 2)) :
    setThresholds ps s =
      ({ s with supply := { s.supply with warn := param ps 1, recover := param ps 2, lowRun := 0, recRun := 0 } },
        { code := .ok }) := by
  obtain ⟨h1, h2, h3, h4, h5⟩ := h
  unfold setThresholds
  dsimp only
  rw [if_neg (by omega), if_neg (by omega)]
  rfl

end

end Sys2Proof.Machine

namespace Sys2Proof.Proofs

open Sys2Proof.Machine Sys2Proof.Claims

/-- Settles O57: each request by its checks in their order, and the staged table refused or taken by its falling steps. -/
theorem lightingAndSupplyRequests : Obligations.LightingAndSupplyRequests := by
  intro s q p l
  refine ⟨?_, ?_, ?_, ?_⟩
  · intro hq panel keys legend set changed
    have answer : exec .setLightLevels s = _ := event_request hq setLightLevels
    rw [answer]
    refine ⟨fun beyond => ?_, fun within => ?_⟩
    · rw [setLightLevels_refused s beyond]
      rfl
    · rw [setLightLevels_taken s within]
      rfl
  · intro hq set altered
    have answer : exec .setLightLimits s = _ := event_request hq setLightLimits
    rw [answer]
    refine ⟨fun crossed => ?_, fun apart => ?_⟩
    · rw [setLightLimits_refused s crossed]
      rfl
    · rw [setLightLimits_taken s apart]
      rfl
  · intro hq off field level faults clamped
    have answer : exec .loadLightTable s = _ := event_request hq loadLightTable
    rw [answer]
    refine ⟨fun outside => ?_, fun low high => ?_⟩
    · rw [loadLightTable_range s (inStaging_outside outside)]
      rfl
    · have inside : inStaging (param q.params 1) 32 = true := inStaging_iff.2 ⟨low, high⟩
      refine ⟨fun i rest falls => ?_, fun rises => ?_⟩
      · rw [loadLightTable_refused s inside falls]
        rfl
      · rw [loadLightTable_taken s inside rises]
        rfl
  · intro hq good
    have answer : exec .setSupply s = _ := event_request hq setThresholds
    rw [answer]
    refine ⟨fun bad => ?_, fun admitted => ?_⟩
    · rw [setThresholds_refused s bad]
      rfl
    · rw [setThresholds_taken s admitted]

end Sys2Proof.Proofs
end

section
/-! What a step keeps of exchange memory, and what can stop a command (R180; log entries 9 and 22). -/

namespace Sys2Proof.Machine

open Sys2Proof.Claims

/-- By what a step can do (log entry 22). -/
theorem step_memOk {s t : State} (hs : MemOk s) (h : step s = .next t) : MemOk t := by
  refine step_keeps (P := MemOk) (fun _ _ k => k) (fun _ _ k => k) rfl (fun s p l b a _ k => ?_)
    (fun _ _ _ c _ k => c.keeps_mem k) h hs
  unfold MemOk
  rw [(releaseReset_frame p l b a s).mem (by decide)]
  exact k

/-- A command that is no window write always answers a next state. -/
theorem exec_next_of_not_write {c : Instr} (h : isWrite c = false) (s : State) : ∃ t, exec c s = .next t := by
  cases c with
  | ownerMarkWrite | noticeWrite | intMaskWrite | intPendingWrite | registerWriteDiscarded => cases h
  | _ => exact ⟨_, rfl⟩

theorem exec_next_of_wellFormed {c : Instr} (h : c.wellFormed = true) (s : State) : ∃ t, exec c s = .next t := by
  cases write : isWrite c with
  | false => exact exec_next_of_not_write write s
  | true =>
    obtain ⟨off, a, inside, answer, -⟩ := exec_write write h
    rw [answer, windowWrite, if_pos inside]
    exact ⟨_, rfl⟩

/-- An access that runs past offset FFFFh faults (log entry 9). -/
theorem windowWrite_outside {off : Nat} {a : Access} (h : 65536 < off + a.size) (s : State) :
    windowWrite off a s = .fault .outsideWindow := by
  rw [windowWrite, if_neg (by simpa [Access.inWindow] using h)]

end Sys2Proof.Machine

namespace Sys2Proof.Proofs

open Sys2Proof.Machine Sys2Proof.Claims

/-- Settles O9: the release writes nothing, and every change keeps the canonical form. -/
theorem stepKeepsMemoryForm : Obligations.StepKeepsMemoryForm := fun _ _ hs h => step_memOk hs h

/-- Settles O3: a window write answers inside the window and faults past it; no other command stops. -/
theorem onlyAccessesPastTheWindowStop : Obligations.OnlyAccessesPastTheWindowStop := by
  intro c s
  refine ⟨fun wf => exec_next_of_wellFormed wf s, ?_, ?_⟩
  · rintro off a rfl past
    exact windowWrite_outside past s
  · rintro lane a rfl past
    exact windowWrite_outside (off := intPendingOffset + lane.toNat) (by unfold intPendingOffset; omega) s

end Sys2Proof.Proofs
end

section
/-! The change count (R184): every command ends its events, and a field that shows another value has raised the count. -/

namespace Sys2Proof.Machine

open Sys2Proof.Claims

/-! ### The requests and settings that no law names yet -/

theorem Marks.ite {s t : State} {c : Prop} [Decidable c] (h : c → Marks s t) : Marks s (if c then t else s) := by
  split
  · exact h ‹_›
  · exact .refl

theorem setScan_body_marks (ps : List Word) (s : State) : Marks s (setScan ps s).1 := by
  unfold setScan
  dsimp only
  split
  · exact .refl
  · exact placeChange_marks _ _

theorem loadKeymap_marks (ps : List Word) (s : State) : Marks s (loadKeymap ps s).1 := by
  unfold loadKeymap
  dsimp only
  split
  · exact .refl
  · split
    · exact .refl
    · split
      · exact .refl
      · exact .quiet rfl rfl rfl

theorem setRepeat_marks (ps : List Word) (s : State) : Marks s (setRepeat ps s).1 := by
  unfold setRepeat
  dsimp only
  split
  · exact .refl
  · dsimp only
    split
    · exact .after (stopRepeat_marks _) (.quiet rfl rfl rfl)
    · exact .quiet rfl rfl rfl

theorem setIndicators_marks (ps : List Word) (s : State) : Marks s (setIndicators ps s).1 := by
  unfold setIndicators
  split
  · exact .refl
  · split
    · exact .refl
    · exact .quiet rfl rfl rfl

theorem takeFrame_marks (f : List Sample) (b : Bool) (s : State) : Marks s (takeFrame f b s) :=
  .ite fun _ => frameBoundary_marks f b s

theorem takeSample_marks {mv : Nat} (h : 6000 ≤ mv) (s : State) : Marks s (takeSample mv s) := by
  unfold takeSample
  rw [if_neg (by omega)]
  split
  · exact sampleDip_marks mv s
  · exact sampleNormal_marks mv s

theorem takeSample_low {mv : Nat} (h : mv < 6000) (s : State) : takeSample mv s = powerReset s := if_pos h

theorem undockStart_marks (ps : List Word) (s : State) : Marks (endEvent (takeCooldown s)) (undockStart ps s).1 := by
  unfold undockStart
  generalize endEvent (takeCooldown s) = u
  dsimp only
  split
  · split
    · exact .refl
    · split
      · exact .refl
      · exact startRelease_marks _ _ _
  · exact .refl

/-! ### Commands -/

theorem event_raises {f : State → State} {s t : State} (h : event f s = .next t) (k : Marks s (f s)) : Raises 4 s t := by
  cases h
  split
  · exact (Raises.refl s).mono (by omega)
  · exact k.raises.mono (by omega)

theorem request_raises {kind count : Nat} {body : Body} {s t : State} (h : event (request kind count body) s = .next t)
    (k : ∀ ps, Marks s (body ps s).1) : Raises 4 s t :=
  event_raises h (request_marks _ _ _ _ k)

theorem windowWrite_raises {off : Nat} {a : Access} {s t : State} (h : windowWrite off a s = .next t) : Raises 4 s t := by
  unfold windowWrite at h
  split at h
  · exact event_raises h (carriedWrite_marks off a s)
  · cases h

/-- UNDOCK_START takes an expired cooldown as an event of its own (log entry 36). -/
theorem undockStart_raises (s : State) : Raises 2 s (endEvent (request 20 0 undockStart s)) := by
  have other {t : State} (w : Marks s t) : Raises 2 s (endEvent t) := w.raises.mono (by omega)
  unfold request
  split
  · split
    · split
      · exact (Marks.after (complete_marks _ _ _) (undockStart_marks _ s)).raises.after (takeCooldown_marks s).raises
      · exact other (complete_marks _ _ _)
    · exact other .refl
  · exact other .refl

/-- A reading takes up to four changes that still wait, each as an event of its own, and rewrites no field itself (log
entry 33). -/
theorem latchReading_raises (g : Latch) (s : State) (h : g.state = (takeDueChanges s).latch.state) :
    Raises 4 s (endEvent ((takeDueChanges s).setLatch g)) :=
  ((setLatch_marks (takeDueChanges s) g h).still rfl).after (takeDueChanges_raises s)

/-- A supply sample is a power reset or one event. -/
theorem sample_raises {f : State → State} {mv : Nat} {s t : State} (h : event f s = .next t)
    (k : f s = takeSample mv s ∨ f s = s) : t = powerReset s ∨ Raises 4 s t := by
  rcases k with k | k
  · by_cases low : mv < 6000
    · rw [takeSample_low low] at k
      unfold event at h
      rw [k] at h
      cases h
      split
      · exact .inr ((Raises.refl s).mono (by omega))
      · exact .inl rfl
    · exact .inr (event_raises h (k ▸ takeSample_marks (by omega) s))
  · exact .inr (event_raises h (k.symm ▸ .refl))

/-- What a command does to the status block: between commands nothing is marked, and a field that shows another value has
raised the change count. -/
theorem exec_raises {i : Instr} {s t : State} (hr : s.inReset = false) (h : exec i s = .next t) :
    t = powerReset s ∨ Raises 4 s t := by
  cases i with
  | powerReset => cases h; exact .inl rfl
  | resetRelease =>
    simp only [exec, execResetRelease, hr] at h
    cases h
    exact .inr ((Raises.refl s).mono (by omega))
  | supplySample mv =>
    dsimp only [exec, execSupplySample] at h
    exact sample_raises h (.inl rfl)
  | dipStart mv =>
    dsimp only [exec, execDipStart] at h
    exact sample_raises h (ite_eq_or_eq _ _ _)
  | dipEnd mv =>
    dsimp only [exec, execDipEnd] at h
    exact sample_raises h (ite_eq_or_eq _ _ _)
  | ownerMarkWrite | noticeWrite | intMaskWrite | intPendingWrite | registerWriteDiscarded =>
    exact .inr (windowWrite_raises h)
  | undockStart =>
    simp only [exec, execUndockStart, event_next hr] at h
    cases h
    exact .inr ((undockStart_raises s).mono (by omega))
  | latchInputRead p l b =>
    simp only [exec, execLatchInputRead, event_next hr] at h
    cases h
    exact .inr (latchReading_raises _ s rfl)
  | nop => exact .inr (request_raises h fun _ => .refl)
  | setScan => exact .inr (request_raises h fun ps => setScan_body_marks ps s)
  | setFilter =>
    dsimp only [exec, execSetFilter] at h
    exact .inr (request_raises h fun ps => setFilter_marks ps s)
  | clearQuarantine => exact .inr (request_raises h fun ps => clearQuarantine_marks ps s)
  | resetKeypath =>
    dsimp only [exec, execResetKeypath] at h
    refine .inr (request_raises h fun _ => ?_)
    dsimp only
    exact resetKeypath_marks s
  | loadKeymap => exact .inr (request_raises h fun ps => loadKeymap_marks ps s)
  | loadSteering => exact .inr (request_raises h fun ps => loadSteering_marks ps s)
  | lockPolicy => exact .inr (request_raises h fun ps => lockPolicy_marks ps s)
  | armChord => exact .inr (request_raises h fun ps => armChord_marks ps s)
  | ackAttention => exact .inr (request_raises h fun ps => ackAttention_marks ps s)
  | setAttention => exact .inr (request_raises h fun _ => setChords_marks _ _ rfl)
  | setRepeat => exact .inr (request_raises h fun ps => setRepeat_marks ps s)
  | setWake => exact .inr (request_raises h fun _ => .quiet rfl rfl rfl)
  | logFlush => exact .inr (request_raises h fun ps => logFlush_marks ps s)
  | setLog => exact .inr (request_raises h fun _ => setLog_marks _ _ rfl rfl rfl)
  | snapshot => exact .inr (request_raises h fun ps => takeSnapshot_marks ps s)
  | setVehicleBus => exact .inr (request_raises h fun ps => setVehicleBus_marks ps s)
  | loadSignals => exact .inr (request_raises h fun ps => loadSignals_marks ps s)
  | setMotion => exact .inr (request_raises h fun ps => setMotion_marks ps s)
  | latchAnswer => exact .inr (request_raises h fun ps => latchAnswer_marks ps s)
  | setLatch => exact .inr (request_raises h fun _ => setLatch_marks _ _ rfl)
  | loadLegends => exact .inr (request_raises h fun ps => loadLegends_marks ps s)
  | setIndicators => exact .inr (request_raises h fun ps => setIndicators_marks ps s)
  | setLightLevels => exact .inr (request_raises h fun ps => setLightLevels_marks ps s)
  | setLightLimits => exact .inr (request_raises h fun ps => setLightLimits_marks ps s)
  | loadLightTable => exact .inr (request_raises h fun ps => loadLightTable_marks ps s)
  | setSupply => exact .inr (request_raises h fun ps => setThresholds_marks ps s)
  | presentSwitchChange => exact .inr (event_raises h (takePresentChange_marks s))
  | latchSenseChange => exact .inr (event_raises h (takeSenseChange_marks s))
  | buttonPress => exact .inr (event_raises h (takeButtonPress_marks s))
  | buttonReleased => exact .inr (event_raises h (takeButtonRelease_marks s))
  | cooldownExpiry => exact .inr (event_raises h (takeCooldown_marks s))
  | stripAcknowledge => exact .inr (event_raises h (stripAcknowledged_marks s))
  | ambientReading r => exact .inr (event_raises h (takeAmbient_marks _ s))
  | outputUpdate => exact .inr (event_raises h (updateOutputs_marks s))
  | frameBoundary r b =>
    dsimp only [exec, execFrameBoundary] at h
    exact .inr (event_raises h (takeFrame_marks _ _ s))
  | elevenRecessiveBits =>
    dsimp only [exec, execElevenRecessiveBits] at h
    exact .inr (event_raises h (setBus_marks _ _ fun _ => rfl))
  | senseLineActive =>
    dsimp only [exec, execSenseLineActive] at h
    exact .inr (event_raises h (.ite fun _ => frameStart_marks s))
  | chatterDecay =>
    dsimp only [exec, execChatterDecay] at h
    exact .inr (event_raises h (.ite fun _ => takeFrame_marks _ _ s))
  | linkUp =>
    dsimp only [exec, execLinkUp] at h
    exact .inr (event_raises h (.ite fun _ => goUp_marks s))
  | linkLowPower =>
    dsimp only [exec, execLinkLowPower] at h
    exact .inr (event_raises h (.ite fun _ => .quiet rfl rfl rfl))
  | linkActive =>
    dsimp only [exec, execLinkActive] at h
    exact .inr (event_raises h (.ite fun _ => bringActive_marks s))
  | linkDown =>
    dsimp only [exec, execLinkDown] at h
    refine .inr (event_raises h ?_)
    split
    · exact .refl
    · exact goDown_marks s
  | canFrameArrival f =>
    exact .inr (event_raises h (.ite fun _ => foldl_marks _ _ _ fun i u => arriveAt_marks f _ i u))
  | staleTimerExpiry e =>
    dsimp only [exec, execStaleTimerExpiry] at h
    refine .inr (event_raises h ?_)
    split
    · split
      · exact .ite fun _ => goStale_marks _ _ _ _
      · exact .refl
    · exact .refl
  | frameTimerExpiry =>
    dsimp only [exec, execFrameTimerExpiry] at h
    refine .inr (event_raises h ?_)
    split
    · exact .ite fun _ => frameTimerExpired_marks _ s
    · exact .refl
  | attentionTimerExpiry =>
    dsimp only [exec, execAttentionTimerExpiry] at h
    refine .inr (event_raises h ?_)
    split
    · exact .ite fun _ => endAttention_marks _ _ s
    · exact .refl
  | repeatIntervalExpiry =>
    dsimp only [exec, execRepeatIntervalExpiry] at h
    refine .inr (event_raises h ?_)
    split
    · exact .ite fun _ => repeatExpired_marks _ s
    · exact .refl
  | wakeHoldExpiry =>
    dsimp only [exec, execWakeHoldExpiry] at h
    refine .inr (event_raises h ?_)
    split
    · refine .ite fun _ => ?_
      split
      · exact .quiet rfl rfl rfl
      · exact .quiet rfl rfl rfl
    · exact .refl
  | wakeLimitExpiry =>
    dsimp only [exec, execWakeLimitExpiry] at h
    refine .inr (event_raises h ?_)
    split
    · exact .ite fun _ => .quiet rfl rfl rfl
    · exact .refl
  | flushTimerExpiry =>
    dsimp only [exec, execFlushTimerExpiry] at h
    refine .inr (event_raises h ?_)
    split
    · exact .ite fun _ => handOver_marks _ s
    · exact .refl
  | askTimerExpiry =>
    dsimp only [exec, execAskTimerExpiry] at h
    refine .inr (event_raises h ?_)
    split
    · exact .ite fun _ => startRelease_marks _ _ s
    · exact .refl
  | releaseWindowExpiry =>
    dsimp only [exec, execReleaseWindowExpiry] at h
    refine .inr (event_raises h ?_)
    split
    · exact .ite fun _ => changeLatch_marks _ _ _ s
    · exact .refl
  | acknowledgeTimerExpiry =>
    dsimp only [exec, execAcknowledgeTimerExpiry] at h
    refine .inr (event_raises h ?_)
    split
    · exact .ite fun _ => transferFailed_marks _ s
    · exact .refl
  | retryTimerExpiry =>
    dsimp only [exec, execRetryTimerExpiry] at h
    refine .inr (event_raises h ?_)
    split
    · exact .ite fun _ => .after (beginTransfer_marks _ _) (setLegend_marks _ _ rfl)
    · exact .refl
  | sweepTimerExpiry =>
    dsimp only [exec, execSweepTimerExpiry] at h
    refine .inr (event_raises h ?_)
    split
    · exact .ite fun _ => .after (examine_marks _) (.quiet rfl rfl rfl)
    · exact .refl
  | unknownKind =>
    dsimp only [exec, execUnknownKind] at h
    refine .inr (event_raises h ?_)
    split
    · exact .ite fun _ => complete_marks _ _ s
    · exact .refl

/-- No command leaves the status block marked (log entry 15). -/
theorem exec_unmarked {i : Instr} {s t : State} (clean : s.statusDirty = false) (h : exec i s = .next t) :
    t.statusDirty = false := by
  cases hr : s.inReset with
  | true =>
    rcases exec_cases h with rfl | rfl | ⟨-, p, l, b, a, rfl⟩ | ⟨released, -⟩
    · exact clean
    · rfl
    · exact ((releaseReset_frame p l b a s).statusDirty (by decide)).trans clean
    · rw [hr] at released
      cases released
  | false =>
    rcases exec_raises hr h with rfl | raises
    · rfl
    · exact (raises clean).1

/-- A byte past the change count that shows another value has raised the count. -/
theorem Raises.of_changed_byte {k : Nat} {s t : State} (h : Raises k s t) (clean : s.statusDirty = false)
    (changed : ∃ x, 8 ≤ x ∧ (statusBytes t).getD x 0 ≠ (statusBytes s).getD x 0) :
    ∃ n, 1 ≤ n ∧ n ≤ k ∧ t.changeCount = s.changeCount + BitVec.ofNat 32 n := by
  obtain ⟨-, n, le, count, same⟩ := h clean
  refine ⟨n, Nat.one_le_iff_ne_zero.2 fun zero => ?_, le, count⟩
  obtain ⟨x, past, differs⟩ := changed
  rw [statusBytes_getD t x past, statusBytes_getD s x past, same zero] at differs
  exact differs rfl

end Sys2Proof.Machine

namespace Sys2Proof.Proofs

open Sys2Proof.Machine Sys2Proof.Claims

/-- Settles O18: the end of an event, and for every command how many of its events can have raised the count. -/
theorem changeCountRisesAtTheEventEnd : Obligations.ChangeCountRisesAtTheEventEnd := by
  refine ⟨fun s marked => ?_, fun s clean => endEvent_clean clean, fun c s t clean h => exec_unmarked clean h, ?_, ?_⟩
  · rw [endEvent, if_pos marked]
    rfl
  · intro present sense button ambient s t hr h
    simp only [exec, execResetRelease, hr] at h
    cases h
    exact releaseReset_changeCount present sense button ambient.toNat s
  · intro c s t hr clean h alive changed
    rcases exec_raises hr h with rfl | raises
    · exact absurd rfl alive
    · exact raises.of_changed_byte clean changed

end Sys2Proof.Proofs
end

section
/-! The interrupt causes (R183), and write accesses to the registers while the link is ACTIVE (R182; log entries 7, 8 and
17). -/

namespace Sys2Proof.Machine

open Sys2Proof.Claims

/-! ### Raising a cause (R183) -/

theorem Cause.mask_getLsbD (c : Cause) : ∀ k < 3, c.mask.getLsbD k = decide (k = c.bit) := by
  cases c <;> decide

section
variable {c : Cause} {s : State}

theorem raiseCause_standing (h : s.irq.pending.getLsbD c.bit = true) : raiseCause c s = s := if_pos h

theorem raiseCause_silent (h : s.irq.pending.getLsbD c.bit = false)
    (k : s.irq.mask.getLsbD c.bit = false ∨ s.link = .down) :
    raiseCause c s = s.setIrq { s.irq with pending := s.irq.pending ||| c.mask } := by
  unfold raiseCause
  dsimp only
  rw [h, if_neg (by decide)]
  rcases k with k | k
  · rw [k, if_neg (by decide)]
  · simp only [vectorDue, State.setIrq_link, k, ite_self]

theorem raiseCause_signals (h : s.irq.pending.getLsbD c.bit = false) (k : s.irq.mask.getLsbD c.bit = true) :
    raiseCause c s = vectorDue (s.setIrq { s.irq with pending := s.irq.pending ||| c.mask }) := by
  unfold raiseCause
  dsimp only
  rw [h, if_neg (by decide), k, if_pos rfl]

end

theorem vectorDue_active {s : State} (h : s.link = .active) :
    vectorDue s = s.setIrq { s.irq with sent := s.irq.sent + 1 } := by
  rw [vectorDue, h]

theorem vectorDue_lowPower {s : State} (h : s.link = .lowPower) : vectorDue s = s.setIrq { s.irq with held := true } := by
  rw [vectorDue, h]

/-! ### The bytes of an access at the registers -/

/-- The byte of an access at a place of it, if it has one there, acts. -/
def onCovered (a : Access) (i : Nat) (f : Byte → State → State) (s : State) : State :=
  ((accessBytes a)[i]?).elim s fun v => f v s

theorem onCovered_beyond {a : Access} {i : Nat} (h : a.size ≤ i) (f : Byte → State → State) (s : State) :
    onCovered a i f s = s := by
  unfold onCovered
  rw [List.getElem?_eq_none (by rwa [accessBytes_length])]
  rfl

/-- Where the bytes of a run act only at one offset, the run's byte at that offset acts. -/
theorem foldl_run_at (f : Byte → State → State) {r : Nat} (bs : List Byte) {off : Nat} (low : off ≤ r) (s : State) :
    ((bs.zipIdx off).map fun c => (c.2, c.1)).foldl (fun t c => if c.1 = r then f c.2 t else t) s =
      (bs[r - off]?).elim s fun v => f v s := by
  induction bs generalizing off s with
  | nil => rfl
  | cons b bs ih =>
    rw [List.zipIdx_cons, List.map_cons, List.foldl_cons]
    dsimp only
    by_cases here : off = r
    · subst here
      have past : ((bs.zipIdx (off + 1)).map fun c => (c.2, c.1)).foldl
          (fun t c => if c.1 = off then f c.2 t else t) (f b s) = f b s := by
        refine (List.foldl_ext _ (fun t _ => t) _ fun t c hc => if_neg ?_).trans (List.foldl_fixed _)
        obtain ⟨⟨v, i⟩, hv, rfl⟩ := List.mem_map.1 hc
        have := List.le_snd_of_mem_zipIdx hv
        dsimp only at this ⊢
        omega
      rw [if_pos rfl, past, Nat.sub_self]
      rfl
    · obtain ⟨k, rfl⟩ : ∃ k, r = off + 1 + k := ⟨r - (off + 1), by omega⟩
      rw [if_neg here, ih (by omega)]
      rw [show off + 1 + k - (off + 1) = k by omega, show off + 1 + k - off = k + 1 by omega, List.getElem?_cons_succ]

theorem storeCells_idle {cs : List (Nat × Byte)} {s : State} (h : ∀ c ∈ cs, stores s c.1 = false) :
    storeCells cs s = s := by
  induction cs with
  | nil => rfl
  | cons c cs ih =>
    have idle : storeCell c s = s := by rw [storeCell, h c List.mem_cons_self]; rfl
    show storeCells cs (storeCell c s) = s
    rw [idle, ih fun d hd => h d (List.mem_cons_of_mem _ hd)]

section
variable {off : Nat} {a : Access} {s : State} (high : 0xFFF0 ≤ off)
include high

/-- A write access in the registers stores nothing, and its bytes act (R180, R182). -/
theorem windowWrite_register (inside : off + a.size ≤ 0x10000) (hr : s.inReset = false) (active : s.link = .active) :
    windowWrite off a s = .next (endEvent (accessEvents (accessCells off a) s)) := by
  have carried : carriedWrite off a s = tabletWrite off a s := by simp only [carriedWrite, accessed, active]
  have stored : storeCells (accessCells off a) s = s := storeCells_idle fun c hc => by
    have := le_of_mem_accessCells hc
    simp only [stores, inMemory, Bool.and_eq_false_iff, Bool.or_eq_false_iff, decide_eq_false_iff_not]
    omega
  rw [windowWrite_inside (decide_eq_true inside) hr, carried, tabletWrite, stored]

omit high in
theorem coversNotice_iff : coversNotice (accessCells off a) = true ↔ off < 0xFFF8 ∧ 0xFFF4 < off + a.size := by
  have size : 1 ≤ a.size := by cases a <;> simp [Access.size]
  simp only [coversNotice, List.any_eq_true, mem_accessCells, Bool.and_eq_true, decide_eq_true_eq]
  unfold noticeOffset
  constructor
  · rintro ⟨c, ⟨cover, -⟩, _, _⟩
    omega
  · rintro ⟨_, _⟩
    refine ⟨(max off 0xFFF4, (accessBytes a).getD (max off 0xFFF4 - off) 0), ⟨?_, rfl⟩, ?_⟩
    · dsimp only
      omega
    · dsimp only
      omega

/-- No register is an owner field (R94), so a byte there acts as its register says. -/
theorem cellEvent_register (inside : off < 0x10000) (v : Byte) :
    cellEvent (off, v) s =
      if off = intMaskOffset then writeMask v s else if off = intPendingOffset then clearCauses v s else s := by
  have owner : waitingOwner s off = none := by
    cases h : waitingOwner s off with
    | none => rfl
    | some i =>
      have := (waitingOwner_eq_some.1 h).2
      unfold pageBase at this
      omega
  unfold cellEvent
  rw [owner]

/-- An access up to INT_MASK sets the mask by its byte there. -/
theorem cellEvents_mask (below : off + a.size ≤ 0xFFFC) (low : off ≤ 0xFFF8) :
    (accessCells off a).foldl (fun t c => cellEvent c t) s = onCovered a (0xFFF8 - off) writeMask s := by
  refine (List.foldl_ext _ _ _ fun t c hc => ?_).trans (foldl_run_at writeMask _ low s)
  have cover := (mem_accessCells.1 hc).1
  rw [← Prod.mk.eta (p := c), cellEvent_register (by omega) (by omega)]
  refine if_congr Iff.rfl rfl (if_neg ?_)
  unfold intPendingOffset
  omega

omit high in
/-- An access from past INT_MASK on clears causes by its byte at INT_PENDING. -/
theorem cellEvents_pending (above : 0xFFF8 < off) (inside : off + a.size ≤ 0x10000) (low : off ≤ 0xFFFC) :
    (accessCells off a).foldl (fun t c => cellEvent c t) s = onCovered a (0xFFFC - off) clearCauses s := by
  refine (List.foldl_ext _ _ _ fun t c hc => ?_).trans (foldl_run_at clearCauses _ low s)
  have cover := (mem_accessCells.1 hc).1
  rw [← Prod.mk.eta (p := c), cellEvent_register (by omega) (by omega), if_neg (by unfold intMaskOffset; omega)]
  rfl

omit high in
/-- Bytes 1 to 3 of INT_PENDING hold no bit. -/
theorem cellEvents_past_pending (above : 0xFFFC < off) (inside : off + a.size ≤ 0x10000) :
    (accessCells off a).foldl (fun t c => cellEvent c t) s = s := by
  refine (List.foldl_ext _ (fun t _ => t) _ fun t c hc => ?_).trans (List.foldl_fixed _)
  have cover := (mem_accessCells.1 hc).1
  rw [← Prod.mk.eta (p := c), cellEvent_register (by omega) (by omega), if_neg (by unfold intMaskOffset; omega),
    if_neg (by unfold intPendingOffset; omega)]

end

/-- A write to INT_MASK in ACTIVE (R182, R183; log entry 17). -/
theorem writeMask_active {s : State} (h : s.link = .active) (v : Byte) :
    writeMask v s = s.setIrq { s.irq with
      mask := v.setWidth 3
      sent := if v.setWidth 3 &&& ~~~s.irq.mask &&& s.irq.pending = 0 then s.irq.sent else s.irq.sent + 1 } := by
  unfold writeMask
  dsimp only
  by_cases due : v.setWidth 3 &&& ~~~s.irq.mask &&& s.irq.pending = 0
  · rw [if_neg (not_not.2 due), if_pos due]
  · rw [if_pos due, if_neg due]
    exact vectorDue_active h

theorem examine_link (s : State) : (examine s).link = s.link := (examine_way s).sameFields.link (by decide)

end Sys2Proof.Machine

namespace Sys2Proof.Proofs

open Sys2Proof.Machine Sys2Proof.Claims

/-- Settles O17: a standing cause, a silent one, and the vector by the link. -/
theorem raisingACause : Obligations.RaisingACause := by
  refine ⟨rfl, rfl, rfl, Cause.mask_getLsbD, fun c s => ⟨raiseCause_standing, raiseCause_silent, ?_, ?_⟩⟩
  · intro clear masked active
    exact (raiseCause_signals clear masked).trans (vectorDue_active active)
  · intro clear masked low
    exact (raiseCause_signals clear masked).trans (vectorDue_lowPower low)

/-- Settles O19: which of NOTICE, INT_MASK and INT_PENDING the bytes of an access reach from each lane. -/
theorem registerWrites : Obligations.RegisterWrites := by
  intro lane a s hr active b masked cleared onByte
  have size := access_size_le a
  have size1 : 1 ≤ a.size := by cases a <;> simp [Access.size]
  have lanes := lane.isLt
  have answer {off : Nat} {t : State} (high : 0xFFF0 ≤ off) (inside : off + a.size ≤ 0x10000)
      (k : accessEvents (accessCells off a) s = t) : windowWrite off a s = .next (endEvent t) := by
    rw [windowWrite_register high inside hr active, k]
  have notNotice {off : Nat} (h : 0xFFF8 ≤ off) : coversNotice (accessCells off a) ≠ true := by
    rw [Ne, coversNotice_iff]
    omega
  have covered {f g : Byte → State → State} {i : Nat} {u : State} (h : ∀ v, f v u = g v u) :
      onCovered a i f u = onByte g i u := by
    simp only [onCovered, onByte, b]
    cases (accessBytes a)[i]? with
    | none => rfl
    | some v => exact h v
  refine ⟨?_, ?_, ?_, fun inside => ?_⟩
  · refine answer (off := 0xFFF0 + lane.toNat) (by omega) (by omega) ?_
    rw [accessEvents, cellEvents_mask (by omega) (by omega) (by omega), onCovered_beyond (by omega)]
    refine if_congr ?_ rfl rfl
    rw [coversNotice_iff]
    omega
  · refine answer (off := 0xFFF4 + lane.toNat) (by omega) (by omega) ?_
    have notice : coversNotice (accessCells (0xFFF4 + lane.toNat) a) = true := coversNotice_iff.2 (by omega)
    rw [accessEvents, if_pos notice, cellEvents_mask (by omega) (by omega) (by omega),
      show 0xFFF8 - (0xFFF4 + lane.toNat) = 4 - lane.toNat by omega]
    exact covered fun v => writeMask_active ((examine_link s).trans active) v
  · refine answer (off := 0xFFF8 + lane.toNat) (by omega) (by omega) ?_
    rw [accessEvents, if_neg (notNotice (by omega))]
    by_cases first : lane = 0
    · subst first
      rw [if_pos rfl]
      refine (cellEvents_mask (off := 0xFFF8) (by decide) (by omega) (by decide)).trans ?_
      exact covered fun v => writeMask_active active v
    · have : lane.toNat ≠ 0 := fun h => first (BitVec.eq_of_toNat_eq h)
      rw [if_neg first, cellEvents_pending (by omega) (by omega) (by omega),
        show 0xFFFC - (0xFFF8 + lane.toNat) = 4 - lane.toNat by omega]
      exact covered fun _ => rfl
  · refine answer (off := 0xFFFC + lane.toNat) (by omega) (by omega) ?_
    rw [accessEvents, if_neg (notNotice (by omega))]
    by_cases first : lane = 0
    · subst first
      rw [if_pos rfl]
      refine (cellEvents_pending (off := 0xFFFC) (by decide) (by omega) (by decide)).trans ?_
      exact covered fun _ => rfl
    · have : lane.toNat ≠ 0 := fun h => first (BitVec.eq_of_toNat_eq h)
      rw [if_neg first, cellEvents_past_pending (by omega) (by omega)]

end Sys2Proof.Proofs
end

section
/-! Little-endian fields (R191): parts of a number's bytes, fields of a structure laid out field after field (11.6), and the
16 bytes of a record (11.6.3). -/

namespace Sys2Proof.Machine

open Sys2Proof.Claims

/-! ### The bytes of a number -/

theorem leBytes_drop (n v i : Nat) : (leBytes n v).drop i = leBytes (n - i) (v / 256 ^ i) := by
  induction i generalizing n v with
  | zero => simp
  | succ i ih =>
    cases n with
    | zero => simp [leBytes]
    | succ n => rw [leBytes, List.drop_succ_cons, ih, Nat.div_div_eq_div_mul, ← pow_succ', Nat.add_sub_add_right]

theorem leBytes_take {n k : Nat} (h : k ≤ n) (v : Nat) : (leBytes n v).take k = leBytes k v := by
  induction k generalizing n v with
  | zero => simp [leBytes]
  | succ k ih =>
    obtain ⟨n, rfl⟩ : ∃ m, n = m + 1 := ⟨n - 1, by omega⟩
    rw [leBytes, List.take_succ_cons, ih (by omega), leBytes]

theorem leBytes_getD {n k : Nat} (h : k < n) (v : Nat) : (leBytes n v).getD k 0 = BitVec.ofNat 8 (v / 256 ^ k) := by
  have head : ((leBytes n v).drop k).head? = some (BitVec.ofNat 8 (v / 256 ^ k)) := by
    rw [leBytes_drop, show n - k = n - k - 1 + 1 by omega, leBytes, List.head?_cons]
  rw [List.head?_drop] at head
  rw [List.getD_eq_getElem?_getD, head]
  rfl

/-- A part of a number's bytes holds that part of its digits. -/
theorem fieldAt_leBytes {n i k : Nat} (h : i + k ≤ n) (v : Nat) : fieldAt (leBytes n v) i k = v / 256 ^ i % 256 ^ k := by
  rw [fieldAt, leBytes_drop, leBytes_take (by omega), leValue_leBytes]

/-! ### Fields of a run of bytes -/

theorem fieldAt_append_left {xs : List Byte} {off n : Nat} (h : off + n ≤ xs.length) (ys : List Byte) :
    fieldAt (xs ++ ys) off n = fieldAt xs off n := by
  have inside : n ≤ (xs.drop off).length := by rw [List.length_drop]; omega
  rw [fieldAt, fieldAt, List.drop_append_of_le_length (by omega), List.take_append_of_le_length inside]

theorem fieldAt_append_right (xs ys : List Byte) (off n : Nat) :
    fieldAt (xs ++ ys) (xs.length + off) n = fieldAt ys off n := by
  rw [fieldAt, fieldAt, List.drop_length_add_append]

/-- A byte is 0 exactly where it reads 0 as a field. -/
theorem getD_eq_zero_iff (xs : List Byte) (x : Nat) : xs.getD x 0 = 0 ↔ fieldAt xs x 1 = 0 := by
  rw [fieldAt, List.getD_eq_getElem?_getD, ← List.head?_drop]
  cases xs.drop x with
  | nil => exact ⟨fun _ => rfl, fun _ => rfl⟩
  | cons b bs =>
    show b = 0 ↔ b.toNat + 256 * 0 = 0
    rw [Nat.mul_zero, Nat.add_zero]
    exact (BitVec.toNat_eq (x := b) (y := 0))

/-! ### Structures laid out field after field (11.6) -/

/-- The field of a structure that begins at an offset, as a pair of its width and its value. -/
def findField : List (Nat × Nat) → Nat → Option (Nat × Nat)
  | [], _ => none
  | f :: fs, off => if off = 0 then some f else if f.1 ≤ off then findField fs (off - f.1) else none

/-- The size of a structure. -/
def layoutWidth (fs : List (Nat × Nat)) : Nat := (fs.map Prod.fst).sum

theorem layout_length_eq (fs : List (Nat × Nat)) : (layout fs).length = layoutWidth fs := layout_length fs

theorem layout_cons (f : Nat × Nat) (fs : List (Nat × Nat)) : layout (f :: fs) = leBytes f.1 f.2 ++ layout fs := rfl

/-- A field reads as its value, modulo its size. -/
theorem fieldAt_layout {fs : List (Nat × Nat)} {off n v w : Nat} (h : findField fs off = some (n, v))
    (hv : v % 256 ^ n = w) : fieldAt (layout fs) off n = w := by
  induction fs generalizing off with
  | nil => cases h
  | cons f fs ih =>
    rw [layout_cons]
    simp only [findField] at h
    split at h
    · subst off
      cases h
      rw [fieldAt_append_left (by rw [leBytes_length]; omega), fieldAt_leBytes (by omega), pow_zero, Nat.div_one, hv]
    · split at h
      · obtain ⟨k, rfl⟩ : ∃ k, off = f.1 + k := ⟨off - f.1, by omega⟩
        rw [Nat.add_sub_cancel_left] at h
        have right := fieldAt_append_right (leBytes f.1 f.2) (layout fs) k n
        rw [leBytes_length] at right
        rw [right, ih h]
      · cases h

theorem fieldAt_layout_left {A : List (Nat × Nat)} {off n : Nat} (h : off + n ≤ layoutWidth A) (B : List (Nat × Nat)) :
    fieldAt (layout (A ++ B)) off n = fieldAt (layout A) off n := by
  rw [layout_append, fieldAt_append_left (by rwa [layout_length_eq])]

theorem fieldAt_layout_right {A : List (Nat × Nat)} {w : Nat} (h : layoutWidth A = w) (B : List (Nat × Nat)) (off n : Nat) :
    fieldAt (layout (A ++ B)) (w + off) n = fieldAt (layout B) off n := by
  rw [layout_append, ← h, ← layout_length_eq, fieldAt_append_right]

/-- Every part of a field of value 0 reads as 0. -/
theorem fieldAt_zero_field {w off n : Nat} (h : off + n ≤ w) (fs : List (Nat × Nat)) :
    fieldAt (layout ((w, 0) :: fs)) off n = 0 := by
  rw [layout_cons, fieldAt_append_left (by rwa [leBytes_length]), fieldAt_leBytes h, Nat.zero_div, Nat.zero_mod]

theorem layoutWidth_append (A B : List (Nat × Nat)) : layoutWidth (A ++ B) = layoutWidth A + layoutWidth B := by
  rw [layoutWidth, List.map_append, List.sum_append]
  rfl

/-- The size of a row of structures of one size. -/
theorem layoutWidth_blocks {g : Nat → List (Nat × Nat)} {w : Nat} (h : ∀ i, layoutWidth (g i) = w) (count : Nat) :
    layoutWidth ((List.range count).flatMap g) = w * count := by
  induction count with
  | zero => rfl
  | succ count ih =>
    rw [List.range_succ, List.flatMap_append, layoutWidth_append, ih, List.flatMap_singleton, h, Nat.mul_succ]

/-- A field of one structure of such a row. -/
theorem fieldAt_block {g : Nat → List (Nat × Nat)} {w : Nat} (h : ∀ i, layoutWidth (g i) = w) {count i x n : Nat}
    (hi : i < count) (hx : x + n ≤ w) :
    fieldAt (layout ((List.range count).flatMap g)) (w * i + x) n = fieldAt (layout (g i)) x n := by
  obtain ⟨m, rfl⟩ : ∃ m, count = i + (m + 1) := ⟨count - i - 1, by omega⟩
  rw [List.range_add, List.flatMap_append, fieldAt_layout_right (layoutWidth_blocks h i), List.range_succ_eq_map,
    List.map_cons, List.flatMap_cons, Nat.add_zero, fieldAt_layout_left (by rw [h]; exact hx)]

/-! ### A record (11.6.3) -/

/-- The fields of a record before its payload. -/
def recordHead (r : Record) : List (Nat × Nat) :=
  [(1, r.body.kind), (1, r.body.flag), (2, r.body.index), (4, r.time.toNat)]

theorem Record.bytes_eq (r : Record) : r.bytes = layout (recordHead r) ++ leBytes 8 r.body.payload := by
  simp [Record.bytes, recordHead, layout]

theorem record_head {r : Record} {off n v w : Nat} (h : findField (recordHead r) off = some (n, v)) (inside : off + n ≤ 8)
    (hv : v % 256 ^ n = w) : fieldAt r.bytes off n = w := by
  rw [Record.bytes_eq, fieldAt_append_left (by rw [layout_length_eq]; exact inside), fieldAt_layout h hv]

/-- Any part of a record's payload. -/
theorem record_payload (r : Record) {i k : Nat} (h : i + k ≤ 8) :
    fieldAt r.bytes (8 + i) k = r.body.payload / 256 ^ i % 256 ^ k := by
  have right := fieldAt_append_right (layout (recordHead r)) (leBytes 8 r.body.payload) i k
  rw [layout_length_eq] at right
  rw [Record.bytes_eq, ← fieldAt_leBytes h]
  exact right

/-- A payload of a byte and, two bytes further, a 16-bit number. -/
theorem byte_and_half {code v : Nat} (hc : code < 256) (hv : v < 65536) :
    (code + 0x10000 * v) % 256 = code ∧ (code + 0x10000 * v) / 256 % 256 = 0 ∧
    (code + 0x10000 * v) / 65536 % 65536 = v ∧ (code + 0x10000 * v) / 4294967296 % 4294967296 = 0 := by
  omega

/-- RESYNC's number: code `k` in its bits 9k to 9k + 8, of at most five codes. -/
theorem resyncNumber_eq {codes : List Nat} (h : codes.length ≤ 5) :
    resyncNumber codes = codes.getD 0 0 + 512 * codes.getD 1 0 + 512 ^ 2 * codes.getD 2 0 + 512 ^ 3 * codes.getD 3 0 +
      512 ^ 4 * codes.getD 4 0 := by
  match codes, h with
  | [], _ => rfl
  | [_], _ => simp [resyncNumber]
  | [_, _], _ => simp [resyncNumber]
  | [_, _, _], _ => simp [resyncNumber]; omega
  | [_, _, _, _], _ => simp [resyncNumber]; omega
  | [_, _, _, _, _], _ => simp [resyncNumber]; omega

theorem getD_code_lt {codes : List Nat} (h : ∀ c ∈ codes, c < 512) (k : Nat) : codes.getD k 0 < 512 := by
  rw [List.getD_eq_getElem?_getD]
  cases e : codes[k]? with
  | none => decide
  | some c => exact h c (List.mem_of_getElem? e)

/-- A number written as `n` bytes reads back as one field, byte by byte. -/
theorem read_leBytes (m : Memory) (off v : Nat) {n k : Nat} (h : k < n) :
    (m.writeBytes off (leBytes n v)).read (off + k) = BitVec.ofNat 8 (v / 256 ^ k) := by
  rw [Memory.read_writeBytes, leBytes_length, if_pos (by omega), Nat.add_sub_cancel_left, leBytes_getD h]

theorem readLe_leBytes (m : Memory) (off n v : Nat) : (m.writeBytes off (leBytes n v)).readLe off n = v % 256 ^ n :=
  Memory.readLe_of_bytes fun k hk => by rw [read_leBytes m off v hk, leBytes_getD hk]

end Sys2Proof.Machine

namespace Sys2Proof.Proofs

open Sys2Proof.Machine Sys2Proof.Claims

/-- Settles O24: numbers byte by byte, then each record kind by its head and its payload. -/
theorem littleEndianFields : Obligations.LittleEndianFields := by
  refine ⟨fun m off n v => ⟨readLe_leBytes m off n v, fun k hk => read_leBytes m off v hk⟩, fun t body => ?_⟩
  intro b f
  have kind : f 0 1 = body.kind % 256 := record_head rfl (by decide) rfl
  have flag : f 1 1 = body.flag % 256 := record_head rfl (by decide) rfl
  have index : f 2 2 = body.index % 65536 := record_head rfl (by decide) rfl
  have time : f 4 4 = t.toNat := record_head rfl (by decide) (Nat.mod_eq_of_lt t.isLt)
  have part (i k : Nat) (h : i + k ≤ 8 := by decide) : f (8 + i) k = body.payload / 256 ^ i % 256 ^ k :=
    record_payload _ h
  have p81 : f 8 1 = body.payload % 256 := (part 0 1).trans (by simp)
  have p82 : f 8 2 = body.payload % 65536 := (part 0 2).trans (by simp)
  have p88 : f 8 8 = body.payload % 256 ^ 8 := (part 0 8).trans (by simp)
  have p91 : f 9 1 = body.payload / 256 % 256 := (part 1 1).trans (by simp)
  have p97 : f 9 7 = body.payload / 256 % 256 ^ 7 := (part 1 7).trans (by simp)
  have p102 : f 10 2 = body.payload / 65536 % 65536 := part 2 2
  have p106 : f 10 6 = body.payload / 65536 % 256 ^ 6 := part 2 6
  have p124 : f 12 4 = body.payload / 4294967296 % 4294967296 := part 4 4
  have position {p : Nat} (h : p < 144) : p % 65536 = p := Nat.mod_eq_of_lt (by omega)
  refine ⟨Record.bytes_length _, time, ?_, ?_, ?_, ?_, ?_, ?_, ?_, ?_, ?_, ?_, ?_, ?_, ?_, ?_⟩
  · rintro p c layer rfl hp hc
    refine ⟨kind, flag.trans (by cases layer <;> rfl), index.trans (position hp), ?_⟩
    rw [p82, p106]
    dsimp only [RecordBody.payload]
    omega
  · rintro p c cause rfl hp hc
    refine ⟨kind, index.trans (position hp), p82.trans (Nat.mod_eq_of_lt (a := c) (by omega)), p106.trans ?_,
      flag.trans (by cases cause <;> rfl)⟩
    dsimp only [RecordBody.payload]
    omega
  · rintro p c n rfl hp hc hn
    refine ⟨kind, flag, index.trans (position hp), ?_⟩
    rw [p82, p102, p124]
    dsimp only [RecordBody.payload]
    omega
  · rintro k rfl hk
    exact ⟨kind, flag, index.trans (position (p := k) (by omega)), p88⟩
  · rintro k cause rfl hk
    exact ⟨kind, index.trans (position (p := k) (by omega)), p88, flag.trans (by cases cause <;> rfl)⟩
  · rintro p score rfl hp hs
    refine ⟨kind, flag, index.trans (position hp), ?_⟩
    rw [p81, p97]
    dsimp only [RecordBody.payload]
    omega
  · rintro e fresh role v rfl he hv
    have code : role.code < 256 := by cases role <;> decide
    obtain ⟨low, gap, value, rest⟩ := byte_and_half code hv
    exact ⟨kind, flag.trans (by cases fresh <;> rfl), index.trans (position (p := e) (by omega)), p91.trans gap,
      p102.trans value, p124.trans rest, p81.trans (low.trans (by cases role <;> rfl))⟩
  · rintro state lockout n rfl hn
    have code : state.code < 256 := by cases state <;> decide
    obtain ⟨low, gap, count, rest⟩ := byte_and_half code hn
    exact ⟨kind, flag.trans (by cases lockout <;> rfl), index, p81.trans (low.trans (by cases state <;> rfl)),
      p91.trans gap, p102.trans count, p124.trans rest⟩
  · rintro cause state rfl
    have code : state.code < 256 := by cases state <;> decide
    exact ⟨kind, index, p97.trans (by dsimp only [RecordBody.payload]; omega), flag.trans (by cases cause <;> rfl),
      p81.trans (by cases state <;> rfl)⟩
  · rintro ended low d rfl hl
    have word := d.isLt
    refine ⟨kind, flag.trans (by cases ended <;> rfl), index, ?_⟩
    rw [p82, p102, p124]
    dsimp only [RecordBody.payload]
    omega
  · rintro c result rfl hc hr
    refine ⟨kind, flag, index.trans (Nat.mod_eq_of_lt (a := c) (by omega)), ?_⟩
    rw [p81, p97]
    dsimp only [RecordBody.payload]
    omega
  · rintro epoch lock n rfl hn
    refine ⟨kind, flag.trans (by cases lock <;> rfl), index.trans (Nat.mod_eq_of_lt epoch.isLt), ?_⟩
    rw [p82, p106]
    dsimp only [RecordBody.payload]
    omega
  · rintro n rfl hn
    refine ⟨kind, flag, index, ?_⟩
    rw [p82, p106]
    dsimp only [RecordBody.payload]
    omega
  · rintro codes more rfl short small c
    have bound (k : Nat) : c k < 512 := getD_code_lt small k
    have sum : resyncNumber codes = c 0 + 512 * c 1 + 512 ^ 2 * c 2 + 512 ^ 3 * c 3 + 512 ^ 4 * c 4 := resyncNumber_eq short
    refine ⟨kind, flag.trans (by cases more <;> rfl), index.trans (position (Nat.lt_of_le_of_lt short (by decide))), ?_⟩
    rw [p88]
    dsimp only [RecordBody.payload]
    rw [sum]
    have := bound 0
    have := bound 1
    have := bound 2
    have := bound 3
    have := bound 4
    omega

end Sys2Proof.Proofs
end

section
/-! Tablet reads (R181), what each byte of the window reads as (R180, R182), and the status block (11.6.1). -/

namespace Sys2Proof.Machine

open Sys2Proof.Claims

/-! ### A read in each link state (R181) -/

section
variable {s : State} {a n : Nat}

theorem tabletRead_uncarried (h : s.inReset = true ∨ s.link = .down ∨ 65536 < a + n) : s.tabletRead a n = (none, s) := by
  unfold State.tabletRead
  split
  · rfl
  · rename_i carried
    simp only [Bool.or_eq_true, decide_eq_true_eq, not_or] at carried
    have down : s.link = .down := by tauto
    simp only [accessed, down]

theorem tabletRead_carried {t : State} (hr : s.inReset = false) (inside : a + n ≤ 65536) (h : accessed s = some t) :
    s.tabletRead a n = (some ((List.range n).map fun i => t.windowByte (a + i)), endEvent t) := by
  unfold State.tabletRead
  rw [hr, Bool.false_or, if_neg (by simpa using inside), h]

end

/-! ### The bytes of the window (R180, R182) -/

section
variable {s : State} {x : Nat}

theorem inMemory_iff :
    inMemory x = true ↔ (0x0100 ≤ x ∧ x < 0x0500) ∨ (0x0800 ≤ x ∧ x < 0x2800) ∨ (0x4000 ≤ x ∧ x < 0xC000) := by
  simp only [inMemory, Bool.or_eq_true, Bool.and_eq_true, decide_eq_true_eq, or_assoc]

theorem windowByte_memory (h : inMemory x = true) : s.windowByte x = s.mem.read x := by
  have := inMemory_iff.1 h
  rw [State.windowByte, if_neg (by omega), if_pos h]

theorem windowByte_gap (low : 0x0100 ≤ x) (high : x < 0xFFF0) (h : ¬inMemory x = true) : s.windowByte x = 0 := by
  rw [State.windowByte, if_neg (by omega), if_neg h, if_neg (by omega)]

theorem windowByte_register (h : 0xFFF0 ≤ x) : s.windowByte x = (registerBytes s).getD (x - 0xFFF0) 0 := by
  rw [State.windowByte, if_neg (by omega), if_neg (mt inMemory_iff.1 (by omega)), if_pos h]

end

/-- A register of 3 bits reads as its bits and 0 in the other bytes (R182). -/
theorem leBytes_bits (v : BitVec 3) : leBytes 4 v.toNat = [v.setWidth 8, 0, 0, 0] := by
  revert v
  decide

theorem registerBytes_eq (s : State) :
    registerBytes s =
      [0x64, 0x02, 0x01, 0, 0, 0, 0, 0, s.irq.mask.setWidth 8, 0, 0, 0, s.irq.pending.setWidth 8, 0, 0, 0] := by
  have bytes : registerBytes s =
      leBytes 4 idWord ++ (leBytes 4 0 ++ (leBytes 4 s.irq.mask.toNat ++ (leBytes 4 s.irq.pending.toNat ++ []))) := rfl
  rw [bytes, leBytes_bits, leBytes_bits]
  rfl

/-- The bytes of the registers that hold no bit (R182). -/
theorem windowByte_blank {s : State} {x : Nat} (h : 0xFFF0 ≤ x) (k : x - 0xFFF0 ∈ [4, 5, 6, 7, 9, 10, 11, 13, 14, 15]) :
    s.windowByte x = 0 := by
  rw [windowByte_register h, registerBytes_eq]
  generalize x - 0xFFF0 = i at k
  fin_cases k <;> rfl

/-! ### The status block (11.6.1) -/

/-- The places of the signal entries in the status block. -/
def statusPlaces (s : State) : List (Nat × Nat) := (List.range 6).flatMap fun e => signalPlace s.bus.signals[e]?

theorem statusFields_split (s : State) :
    statusFields s = (statusFields s).take 28 ++ ((4, 0) :: (statusPlaces s ++ [(184, 0)])) := rfl

theorem statusHead_width (s : State) : layoutWidth ((statusFields s).take 28) = 44 := by
  simp [layoutWidth, statusFields]

theorem signalPlace_width (g : Option Signal) : layoutWidth (signalPlace g) = 4 := by cases g <;> rfl

theorem statusPlaces_width (s : State) : layoutWidth (statusPlaces s) = 24 :=
  layoutWidth_blocks (fun _ => signalPlace_width _) 6

theorem statusBytes_length (s : State) : (statusBytes s).length = 256 := by
  have sum : layoutWidth (statusFields s) = 44 + (4 + (layoutWidth (statusPlaces s) + 184)) := by
    conv_lhs => rw [statusFields_split, layoutWidth_append, statusHead_width, ← List.singleton_append,
      layoutWidth_append, layoutWidth_append]
    rfl
  rw [statusBytes, layout_length_eq, sum, statusPlaces_width]

section
variable {s : State}

theorem status_field {off n v w : Nat} (h : findField (statusFields s) off = some (n, v)) (hv : v % 256 ^ n = w) :
    fieldAt (statusBytes s) off n = w := fieldAt_layout h hv

/-- Past the fields before the signal entries come four bytes that are not named. -/
theorem status_unnamed {off n : Nat} (h : off + n ≤ 4) : fieldAt (statusBytes s) (0x2C + off) n = 0 := by
  rw [statusBytes, statusFields_split, fieldAt_layout_right (statusHead_width s), fieldAt_zero_field h]

theorem status_past_head (off n : Nat) :
    fieldAt (statusBytes s) (0x30 + off) n = fieldAt (layout (statusPlaces s ++ [(184, 0)])) off n := by
  have past := fieldAt_layout_right (A := [(4, 0)]) (w := 4) rfl (statusPlaces s ++ [(184, 0)]) off n
  rw [statusBytes, statusFields_split, show 0x30 + off = 44 + (4 + off) by omega, fieldAt_layout_right (statusHead_width s)]
  exact past

/-- A field of the place of signal entry `e`. -/
theorem status_place {e x n : Nat} (he : e < 6) (hx : x + n ≤ 4) :
    fieldAt (statusBytes s) (0x30 + (4 * e + x)) n = fieldAt (layout (signalPlace s.bus.signals[e]?)) x n := by
  rw [status_past_head, fieldAt_layout_left (by rw [statusPlaces_width]; omega)]
  exact fieldAt_block (fun _ => signalPlace_width _) he hx

theorem status_rest {off n : Nat} (h : off + n ≤ 184) : fieldAt (statusBytes s) (0x48 + off) n = 0 := by
  have rest := fieldAt_layout_right (statusPlaces_width s) [(184, 0)] off n
  rw [show 0x48 + off = 0x30 + (24 + off) by omega, status_past_head, rest, fieldAt_zero_field h]

/-- The last byte of a signal entry's place is not named. -/
theorem signalPlace_unnamed (g : Option Signal) : fieldAt (layout (signalPlace g)) 3 1 = 0 := by
  cases g with
  | none => exact fieldAt_zero_field (by decide) []
  | some g => exact fieldAt_layout (n := 1) (v := 0) rfl rfl

end

/-! ### Values that fill their field -/

theorem boolBit_mod (b : Bool) : boolBit b % 256 ^ 1 = boolBit b := by cases b <;> rfl

theorem half_mod (v : Half) : v.toNat % 256 ^ 2 = v.toNat := Nat.mod_eq_of_lt v.isLt

theorem word_mod (v : Word) : v.toNat % 256 ^ 4 = v.toNat := Nat.mod_eq_of_lt v.isLt

end Sys2Proof.Machine

namespace Sys2Proof.Proofs

open Sys2Proof.Machine Sys2Proof.Claims

/-- Settles O23: reads by the link state, the window region by region, and the status block field by field. -/
theorem tabletReads : Obligations.TabletReads := by
  refine ⟨fun a n s => ?_, fun x s => ?_, fun s => ?_⟩
  · refine ⟨tabletRead_uncarried, fun hr inside active => ?_, fun hr inside low => ?_⟩
    · exact tabletRead_carried hr inside (by simp only [accessed, active])
    · exact tabletRead_carried hr inside (by simp only [accessed, low, bringActive_eq])
  · refine ⟨fun h => if_pos h, fun h => windowByte_memory (inMemory_iff.2 h), fun h => ?_, ?_⟩
    · exact windowByte_gap (by omega) (by omega) (mt inMemory_iff.1 (by omega))
    · have register (k : Nat) : s.windowByte (0xFFF0 + k) = _ :=
        (windowByte_register (by omega)).trans (by rw [registerBytes_eq, Nat.add_sub_cancel_left])
      refine ⟨register 0, register 1, register 2, register 3, fun h => ?_, register 8, fun h => ?_, register 12,
        fun h => ?_⟩
      all_goals exact windowByte_blank (by omega) (by simp only [List.mem_cons, List.not_mem_nil]; omega)
  · intro f
    have bit {off : Nat} (b : Bool) (h : findField (statusFields s) off = some (1, boolBit b)) : f off 1 = boolBit b :=
      status_field h (boolBit_mod b)
    refine ⟨statusBytes_length s, status_field rfl rfl, status_field rfl (word_mod _), status_field rfl (half_mod _),
      bit _ rfl, bit _ rfl, ?_, bit _ rfl, ?_, bit _ rfl, ?_, bit _ rfl, bit _ rfl, bit _ rfl, status_field rfl rfl,
      status_field rfl rfl, status_field rfl rfl, status_field rfl rfl, status_field rfl rfl, bit _ rfl,
      status_field rfl rfl, status_field rfl rfl, status_field rfl rfl, status_field rfl rfl, status_field rfl rfl,
      status_field rfl rfl, status_field rfl rfl, fun e he => ⟨fun g hg => ?_, fun beyond => ?_⟩, fun x hx => ?_⟩
    · exact status_field rfl (by cases s.motion.state <;> rfl)
    · exact status_field rfl (by cases s.latch.state <;> rfl)
    · exact status_field rfl (by cases s.chords.attention <;> rfl)
    · have place {off n : Nat} (h : off + n ≤ 4) : f (0x30 + (4 * e + off)) n = _ := status_place he h
      rw [hg] at place
      refine ⟨(place (off := 0) (by decide)).trans (fieldAt_layout rfl rfl), ?_⟩
      rw [show 0x32 + 4 * e = 0x30 + (4 * e + 2) by omega, place (by decide)]
      exact fieldAt_layout rfl (by cases g.val.status <;> rfl)
    · have place := status_place (s := s) (x := 0) (n := 4) he (by decide)
      rw [List.getElem?_eq_none beyond] at place
      exact place.trans (fieldAt_zero_field (by decide) [])
    · rw [getD_eq_zero_iff]
      rcases hx with rfl | rfl | ⟨low, high⟩ | ⟨e, he, rfl⟩ | ⟨low, high⟩
      · exact status_field (n := 1) (v := 0) rfl rfl
      · exact status_field (n := 1) (v := 0) rfl rfl
      · obtain ⟨k, rfl⟩ : ∃ k, x = 0x2C + k := ⟨x - 0x2C, by omega⟩
        exact status_unnamed (by omega)
      · rw [show 0x33 + 4 * e = 0x30 + (4 * e + 3) by omega, status_place he (by decide)]
        exact signalPlace_unnamed _
      · obtain ⟨k, rfl⟩ : ∃ k, x = 0x48 + k := ⟨x - 0x48, by omega⟩
        exact status_rest (by omega)

end Sys2Proof.Proofs
end

section
/-! The request unit: an examination (R186), completion (R187), the sweep and the requests that need no owner. -/

namespace Sys2Proof.Machine

open Sys2Proof.Claims

/-! ### An examination of the cells (R186) -/

section
variable {s : State}

theorem examine_idle (h : s.req.current.isSome = true ∨ s.link = .down) : examine s = s := by
  have idle : (s.req.current.isSome || s.link == .down) = true := by simpa using h
  rw [examine, if_pos idle]

theorem postedCell_none (h : ∀ k < 8, s.mem.read (cellBase ((s.req.pointer + 1 + k) % 8)) ≠ 1) : postedCell s = none := by
  refine List.find?_eq_none.2 fun n hn posted => ?_
  obtain ⟨k, hk, rfl⟩ := List.mem_map.1 hn
  exact h k (List.mem_range.1 hk) (by simpa [statusPosted] using posted)

/-- The first POSTED cell after the last one taken, round through all 8. -/
theorem postedCell_first {k : Nat} (hk : k < 8) (posted : s.mem.read (cellBase ((s.req.pointer + 1 + k) % 8)) = 1)
    (first : ∀ j < k, s.mem.read (cellBase ((s.req.pointer + 1 + j) % 8)) ≠ 1) :
    postedCell s = some ((s.req.pointer + 1 + k) % 8) := by
  have found : (List.range 8).find? ((fun n => s.mem.read (cellBase n) == statusPosted) ∘
      fun k => (s.req.pointer + 1 + k) % 8) = some k := by
    refine List.find?_range_eq_some.2 ⟨by simpa [statusPosted] using posted, List.mem_range.2 hk, fun j hj => ?_⟩
    simpa [statusPosted] using first j hj
  rw [postedCell, searchOrder, List.find?_map, found]
  rfl

theorem examine_none (h : postedCell s = none) : examine s = s := by
  rw [examine, h]
  exact ite_self _

theorem examine_takes {n : Nat} (current : s.req.current = none) (up : s.link ≠ .down) (h : postedCell s = some n) :
    examine s = takeCell n s := by
  have free : (s.req.current.isSome || s.link == .down) ≠ true := by simp [current, up]
  rw [examine, if_neg free, h]

end

theorem cellRequest_eq (m : Memory) (n : Nat) :
    cellRequest m n =
      { kind := m.readLe (cellBase n + 2) 2
        count := (m.read (cellBase n + 4)).toNat
        params := (List.range (min (m.read (cellBase n + 4)).toNat 12)).map fun i =>
          BitVec.ofNat 32 (m.readLe (cellBase n + 0x10 + 4 * i) 4)
        notify := m.read (cellBase n + 1) != 0
        mark := false } := by
  rw [cellRequest, Memory.fields, List.map_map]
  rfl

/-! ### Completion (R187, R189) -/

theorem read_writeReply (n : Nat) (r : Reply) (m : Memory) (x : Nat) :
    (writeReply n r m).read x =
      if x = cellBase n then 3
      else if cellBase n + 0x40 ≤ x ∧ x < cellBase n + 0x50 then (resultBytes r.words).getD (x - (cellBase n + 0x40)) 0
      else if cellBase n + 8 ≤ x ∧ x < cellBase n + 10 then (leBytes 2 r.code.number).getD (x - (cellBase n + 8)) 0
      else m.read x := by
  have size : (resultBytes r.words).length = 16 := by simp [resultBytes]
  rw [writeReply, Memory.read_write, Memory.read_writeBytes, Memory.read_writeBytes, size, leBytes_length]
  rfl

/-- Where exchange memory holds a run of bytes, its fields are the run's. -/
theorem readLe_eq_fieldAt {m : Memory} {a off n : Nat} {bytes : List Byte}
    (h : ∀ j < bytes.length, m.read (a + j) = bytes.getD j 0) (inside : off + n ≤ bytes.length) :
    m.readLe (a + off) n = fieldAt bytes off n := by
  have run : m.readBytes (a + off) n = (bytes.drop off).take n := by
    refine List.ext_getElem (by simp [Memory.readBytes]; omega) fun k hk hk' => ?_
    rw [List.length_take, List.length_drop] at hk'
    simp only [Memory.readBytes, List.getElem_map, List.getElem_range, List.getElem_take, List.getElem_drop]
    rw [Nat.add_assoc, h (off + k) (by omega), List.getD_eq_getElem]
  rw [Memory.readLe, run, fieldAt]

theorem resultBytes_eq (words : List Nat) :
    resultBytes words = layout [(4, words.getD 0 0), (4, words.getD 1 0), (4, words.getD 2 0), (4, words.getD 3 0)] := by
  simp [resultBytes, layout]

section
variable {n : Nat} {r : Reply} {m : Memory}

theorem writeReply_status : (writeReply n r m).read (cellBase n) = 3 := by rw [read_writeReply, if_pos rfl]

theorem writeReply_code : (writeReply n r m).readLe (cellBase n + 8) 2 = r.code.number := by
  rw [Memory.readLe_of_bytes (v := r.code.number) fun k hk => ?_]
  · cases r.code <;> rfl
  · rw [read_writeReply, if_neg (by omega), if_neg (by omega), if_pos (by omega), Nat.add_sub_cancel_left]

theorem writeReply_word {i : Nat} (hi : i < 4) :
    (writeReply n r m).readLe (cellBase n + 0x40 + 4 * i) 4 = r.words.getD i 0 % 2 ^ 32 := by
  have size : (resultBytes r.words).length = 16 := by simp [resultBytes]
  have held (j : Nat) (hj : j < (resultBytes r.words).length) :
      (writeReply n r m).read (cellBase n + 0x40 + j) = (resultBytes r.words).getD j 0 := by
    rw [read_writeReply, if_neg (by omega), if_pos (by omega), Nat.add_sub_cancel_left]
  rw [readLe_eq_fieldAt held (by omega), resultBytes_eq]
  obtain rfl | rfl | rfl | rfl : i = 0 ∨ i = 1 ∨ i = 2 ∨ i = 3 := by omega
  all_goals exact fieldAt_layout rfl rfl

theorem writeReply_other {x : Nat} (status : x ≠ cellBase n) (code : ¬(cellBase n + 8 ≤ x ∧ x < cellBase n + 10))
    (words : ¬(cellBase n + 0x40 ≤ x ∧ x < cellBase n + 0x50)) : (writeReply n r m).read x = m.read x := by
  rw [read_writeReply, if_neg status, if_neg words, if_neg code]

end

section
variable {q : Request} (r : Reply) (s : State)

/-- A marked request writes nothing (R189). -/
theorem complete_marked (h : q.mark = true) :
    complete q r s = examine { s with req := { s.req with current := none } } := by
  unfold complete
  dsimp only
  rw [if_pos h]
  rfl

theorem complete_unmarked (h : q.mark = false) :
    complete q r s =
      examine
        (let u := if q.notify then raiseCause .request { s with mem := writeReply s.req.pointer r s.mem }
          else { s with mem := writeReply s.req.pointer r s.mem }
         { u with req := { s.req with current := none } }) := by
  unfold complete
  dsimp only
  rw [h, if_neg (by decide)]
  split
  · have req : (raiseCause .request (s.setMem (writeReply s.req.pointer r s.mem))).req = s.req :=
      (raiseCause_frame _ _).req (by decide)
    rw [req]
    rfl
  · rfl

end

/-! ### Requests by their kind and count (R187) -/

/-- Every row of the catalogue is the execution of a request of its kind and count. -/
theorem exec_catalogue {c : Instr} {k n : Nat} (h : catalogue c = some (k, n)) :
    ∃ body : Body, ∀ s, exec c s = event (request k n body) s := by
  cases c with
  | nop | setScan | setFilter | clearQuarantine | resetKeypath | loadKeymap | loadSteering | lockPolicy | armChord
  | ackAttention | setAttention | setRepeat | setWake | logFlush | setLog | snapshot | setVehicleBus | loadSignals
  | setMotion | latchAnswer | undockStart | setLatch | loadLegends | setIndicators | setLightLevels | setLightLimits
  | loadLightTable | setSupply =>
    cases h
    exact ⟨_, fun _ => rfl⟩
  | _ => cases h

section
variable {k n : Nat} {body : Body} {s : State} {q : Request}

theorem request_wrong_count (h : s.req.current = some q) (kind : q.kind = k) (count : q.count ≠ n) :
    request k n body s = complete q { code := .errCount } s := by
  simp only [request, h, kind, count, if_true, if_false]

theorem request_other_kind (h : s.req.current = some q) (kind : q.kind ≠ k) : request k n body s = s := by
  simp only [request, h, kind, if_false]

theorem request_none (h : s.req.current = none) : request k n body s = s := by
  simp only [request, h]

end

theorem exec_sweep {s : State} {e : Time} (hr : s.inReset = false) (h : s.req.sweep = some e) (d : due e s.ms = true) :
    exec .sweepTimerExpiry s = .next (endEvent (examine { s with req := { s.req with sweep := some (e + 20) } })) := by
  dsimp only [exec, execSweepTimerExpiry]
  rw [event_next hr, h]
  dsimp only
  rw [if_pos d]
  rfl

theorem exec_unknownKind_eq {s : State} {q : Request} (hr : s.inReset = false) (h : s.req.current = some q)
    (k : 27 < q.kind) : exec .unknownKind s = .next (answered q .errKind [] s) := by
  dsimp only [exec, execUnknownKind]
  rw [event_next hr, h]
  dsimp only
  rw [if_pos k]
  rfl

end Sys2Proof.Machine

namespace Sys2Proof.Proofs

open Sys2Proof.Machine Sys2Proof.Claims

/-- Settles O25: the numbers of the result codes, and the cell that a completion writes. -/
theorem completionWritesTheCell : Obligations.CompletionWritesTheCell := by
  refine ⟨rfl, fun q r s _ => ⟨complete_marked r s, fun unmarked => ?_⟩⟩
  exact ⟨writeReply s.req.pointer r s.mem, complete_unmarked r s unmarked, writeReply_status, writeReply_code,
    fun i hi => writeReply_word hi, fun x status code words => writeReply_other status code words⟩

/-- Settles O26: no examination, none that finds a POSTED cell, and the first that is found. -/
theorem examinationTakesTheNextPostedCell : Obligations.ExaminationTakesTheNextPostedCell := by
  intro s cell posted
  refine ⟨examine_idle, fun none => examine_none (postedCell_none none), fun k hk current up here first => ?_⟩
  rw [examine_takes current up (postedCell_first hk here first), takeCell, cellRequest_eq]
  rfl

/-- Settles O27: the sweep, the two requests without an owner, and a request by its kind and count. -/
theorem requestsWithoutAnOwner : Obligations.RequestsWithoutAnOwner := by
  refine ⟨fun s q e hr => ⟨exec_sweep hr, fun hq => event_request hq _, exec_unknownKind_eq hr⟩, ?_⟩
  intro c k n s q row hr
  obtain ⟨body, answer⟩ := exec_catalogue row
  rw [answer, event_next hr]
  refine ⟨fun current kind count => ?_, fun current kind => ?_, fun current => ?_⟩
  · rw [request_wrong_count current kind count]
    rfl
  · rw [request_other_kind current kind]
  · rw [request_none current]

end Sys2Proof.Proofs
end

section
/-! SNAPSHOT (R190) and its layout (11.6.5). -/

namespace Sys2Proof.Machine

open Sys2Proof.Claims

/-! ### The sections of a snapshot (11.6.5) -/

/-- The key entries. -/
def keySection (s : State) : List (Nat × Nat) := (List.range 144).flatMap fun p => keyFields (s.entry p)

/-- The chord entries. -/
def chordSection (s : State) : List (Nat × Nat) := (List.range 4).flatMap fun i => chordFields (s.chords.entries.getD i [])

/-- The section count and the sections of a snapshot, in their order. -/
def snapshotSections (s : State) : List (List (Nat × Nat)) :=
  [[(4, 8)], keySection s, chordSection s, attentionFields s, busFields s, motionFields s, latchFields s, lightFields s,
    logFields s, counterFields s]

theorem snapshotFields_eq (s : State) : snapshotFields s = (snapshotSections s).flatten := by
  simp only [snapshotFields, snapshotSections, List.flatten_cons, List.flatten_nil, List.append_nil, List.append_assoc,
    keySection, chordSection]

theorem keyFields_width (e : KeyEntry) : layoutWidth (keyFields e) = 12 := by
  unfold keyFields
  cases e.cond <;> rfl

theorem keySection_width (s : State) : layoutWidth (keySection s) = 1728 :=
  layoutWidth_blocks (fun _ => keyFields_width _) 144

theorem chordFields_width (codes : List Nat) : layoutWidth (chordFields codes) = 12 := by simp [chordFields, layoutWidth]

theorem chordSection_width (s : State) : layoutWidth (chordSection s) = 48 :=
  layoutWidth_blocks (fun _ => chordFields_width _) 4

theorem signalFields_width (s : State) (off : Nat) (g : Option Signal) : layoutWidth (signalFields s off g) = 40 := by
  cases g <;> simp [signalFields, layoutWidth]

theorem busFields_width (s : State) : layoutWidth (busFields s) = 244 := by
  rw [busFields, layoutWidth_append, layoutWidth_blocks (fun _ => signalFields_width _ _ _)]
  rfl

theorem lightFields_width (s : State) : layoutWidth (lightFields s) = 76 := by
  simp [layoutWidth, lightFields, List.range_succ]

theorem snapshotSections_width (s : State) :
    (snapshotSections s).map layoutWidth = [4, 1728, 48, 12, 244, 20, 20, 76, 12, 36] := by
  simp only [snapshotSections, List.map_cons, List.map_nil, keySection_width, chordSection_width, busFields_width,
    lightFields_width]
  simp [layoutWidth, attentionFields, motionFields, latchFields, logFields, counterFields]

theorem layoutWidth_flatten (L : List (List (Nat × Nat))) : layoutWidth L.flatten = (L.map layoutWidth).sum := by
  induction L with
  | nil => rfl
  | cons A L ih => rw [List.flatten_cons, layoutWidth_append, ih, List.map_cons, List.sum_cons]

theorem snapshotBytes_length (s : State) : (snapshotBytes s).length = 2200 := by
  rw [snapshotBytes, layout_length_eq, snapshotFields_eq, layoutWidth_flatten, snapshotSections_width]
  rfl

theorem findField_append {A : List (Nat × Nat)} {off : Nat} {x : Nat × Nat} (h : findField A off = some x)
    (B : List (Nat × Nat)) : findField (A ++ B) off = some x := by
  induction A generalizing off with
  | nil => cases h
  | cons f A ih =>
    simp only [List.cons_append, findField] at h ⊢
    split_ifs at h ⊢
    · exact h
    · exact ih h

section
variable {s : State} {base : Nat} {B : List (Nat × Nat)}

/-- Section `j` begins where the sections before it end. -/
theorem snapshot_section (j : Nat) (hB : (snapshotSections s)[j]? = some B)
    (start : ([4, 1728, 48, 12, 244, 20, 20, 76, 12, 36].take j).sum = base) (off n : Nat) :
    fieldAt (snapshotBytes s) (base + off) n =
      fieldAt (layout (B ++ ((snapshotSections s).drop (j + 1)).flatten)) off n := by
  obtain ⟨inside, rfl⟩ := List.getElem?_eq_some_iff.1 hB
  have split : snapshotFields s =
      ((snapshotSections s).take j).flatten ++
        ((snapshotSections s)[j] ++ ((snapshotSections s).drop (j + 1)).flatten) := by
    rw [snapshotFields_eq, ← List.flatten_cons, ← List.drop_eq_getElem_cons inside, ← List.flatten_append,
      List.take_append_drop]
  have width : layoutWidth ((snapshotSections s).take j).flatten = base := by
    rw [layoutWidth_flatten, List.map_take, snapshotSections_width, start]
  rw [snapshotBytes, split, fieldAt_layout_right width]

theorem snapshot_part (j : Nat) (hB : (snapshotSections s)[j]? = some B)
    (start : ([4, 1728, 48, 12, 244, 20, 20, 76, 12, 36].take j).sum = base) {off n : Nat}
    (inside : off + n ≤ layoutWidth B) : fieldAt (snapshotBytes s) (base + off) n = fieldAt (layout B) off n := by
  rw [snapshot_section j hB start, fieldAt_layout_left inside]

theorem snapshot_field (j : Nat) (hB : (snapshotSections s)[j]? = some B)
    (start : ([4, 1728, 48, 12, 244, 20, 20, 76, 12, 36].take j).sum = base) {off n v w : Nat}
    (h : findField B off = some (n, v)) (hv : v % 256 ^ n = w) : fieldAt (snapshotBytes s) (base + off) n = w := by
  rw [snapshot_section j hB start, fieldAt_layout (findField_append h _) hv]

end

/-! ### The fields of the other sections -/

section
variable {s : State} {v w : Nat} (off n : Nat)

theorem snapshot_attention (h : findField (attentionFields s) off = some (n, v)) (hv : v % 256 ^ n = w) :
    fieldAt (snapshotBytes s) (0x6F4 + off) n = w := snapshot_field 3 rfl rfl h hv

theorem snapshot_bus (h : findField (busFields s) off = some (n, v)) (hv : v % 256 ^ n = w) :
    fieldAt (snapshotBytes s) (0x700 + off) n = w := snapshot_field 4 rfl rfl h hv

theorem snapshot_motion (h : findField (motionFields s) off = some (n, v)) (hv : v % 256 ^ n = w) :
    fieldAt (snapshotBytes s) (0x7F4 + off) n = w := snapshot_field 5 rfl rfl h hv

theorem snapshot_latch (h : findField (latchFields s) off = some (n, v)) (hv : v % 256 ^ n = w) :
    fieldAt (snapshotBytes s) (0x808 + off) n = w := snapshot_field 6 rfl rfl h hv

theorem snapshot_light (h : findField (lightFields s) off = some (n, v)) (hv : v % 256 ^ n = w) :
    fieldAt (snapshotBytes s) (0x81C + off) n = w := snapshot_field 7 rfl rfl h hv

theorem snapshot_log (h : findField (logFields s) off = some (n, v)) (hv : v % 256 ^ n = w) :
    fieldAt (snapshotBytes s) (0x868 + off) n = w := snapshot_field 8 rfl rfl h hv

theorem snapshot_counter (h : findField (counterFields s) off = some (n, v)) (hv : v % 256 ^ n = w) :
    fieldAt (snapshotBytes s) (0x874 + off) n = w := snapshot_field 9 rfl rfl h hv

end

/-! ### Rows of entries -/

section
variable {s : State} {off n : Nat}

/-- A field of the entry of position `p`. -/
theorem snapshot_key {p : Nat} (hp : p < 144) (h : off + n ≤ 12) :
    fieldAt (snapshotBytes s) (4 + 12 * p + off) n = fieldAt (layout (keyFields (s.entry p))) off n := by
  rw [Nat.add_assoc, snapshot_part (base := 4) 1 rfl rfl (by rw [keySection_width]; omega)]
  exact fieldAt_block (fun _ => keyFields_width _) hp h

/-- A field of chord entry `i`. -/
theorem snapshot_chord {i : Nat} (hi : i < 4) (h : off + n ≤ 12) :
    fieldAt (snapshotBytes s) (0x6C4 + 12 * i + off) n =
      fieldAt (layout (chordFields (s.chords.entries.getD i []))) off n := by
  rw [Nat.add_assoc, snapshot_part (base := 0x6C4) 2 rfl rfl (by rw [chordSection_width]; omega)]
  exact fieldAt_block (fun _ => chordFields_width _) hi h

/-- A field of the place of signal entry `i`. -/
theorem snapshot_signal {i : Nat} (hi : i < 6) (h : off + n ≤ 40) :
    fieldAt (snapshotBytes s) (0x704 + 40 * i + off) n =
      fieldAt (layout (signalFields s (0x704 + 40 * i) s.bus.signals[i]?)) off n := by
  rw [show 0x704 + 40 * i + off = 0x700 + (4 + (40 * i + off)) by omega,
    snapshot_part (base := 0x700) 4 rfl rfl (by rw [busFields_width]; omega), busFields, fieldAt_layout_right (w := 4) rfl]
  exact fieldAt_block (fun _ => signalFields_width _ _ _) hi h

end

/-- A key entry that is not DOWN has zeros for its latched part. -/
theorem layout_keyFields_up {e : KeyEntry} (h : ∀ l, e.cond ≠ .down l) :
    layout (keyFields e) =
      layout [(1, e.cond.code), (1, boolBit e.pressed), (1, e.filter), (1, e.score), (8, 0)] := by
  unfold keyFields
  cases hc : e.cond with
  | down l => exact absurd hc (h l)
  | _ => rfl

theorem keyFields_down {e : KeyEntry} {l : Latched} (h : e.cond = .down l) :
    keyFields e =
      [(1, e.cond.code), (1, boolBit e.pressed), (1, e.filter), (1, e.score), (2, l.code), (1, l.layer.code),
        (1, l.routeSum), (4, l.pressTime.toNat)] := by
  rw [keyFields, h]
  rfl

theorem boolBit_le (b : Bool) : boolBit b ≤ 1 := by cases b <;> decide

theorem routeSum_mod (l : Latched) : l.routeSum % 256 ^ 1 = l.routeSum := by
  have := boolBit_le l.route.forward
  have := boolBit_le l.route.dock
  have := boolBit_le l.route.hold
  have := boolBit_le l.route.chord
  have := boolBit_le l.orphaned
  refine Nat.mod_eq_of_lt ?_
  unfold Latched.routeSum
  omega

theorem expiryWord_mod (e : Option Time) : expiryWord e % 256 ^ 4 = expiryWord e := by
  cases e with
  | none => rfl
  | some t => exact word_mod t

theorem chordFields_code (codes : List Nat) {j : Nat} (h : j < 4) :
    findField (chordFields codes) (2 + 2 * j) = some (2, codes.getD j 0) := by
  interval_cases j <;> rfl

theorem lightFields_level (s : State) {i : Nat} (h : i < 16) :
    findField (lightFields s) (0x14 + 2 * i) = some (2, s.light.levels.getD i 0) := by
  interval_cases i <;> rfl

theorem lightFields_levels_width (s : State) : layoutWidth ((lightFields s).take 29) = 0x34 := by
  simp [layoutWidth, lightFields, List.range_succ]

/-- A field of the lighting section past the 16 levels. -/
theorem snapshot_limit {s : State} {v w : Nat} (off n : Nat) (h : findField ((lightFields s).drop 29) off = some (n, v))
    (hv : v % 256 ^ n = w) : fieldAt (snapshotBytes s) (0x850 + off) n = w := by
  have past := snapshot_section (s := s) (base := 0x81C) 7 rfl rfl (0x34 + off) n
  rw [← List.take_append_drop 29 (lightFields s), List.append_assoc, fieldAt_layout_right (lightFields_levels_width s),
    fieldAt_layout (findField_append h _) hv, ← Nat.add_assoc] at past
  exact past

/-- A signed field holds its value modulo its size. -/
theorem ofInt_half_mod (v : Int) : (((BitVec.ofInt 16 v).toNat % 256 ^ 2 : Nat) : Int) = v % 65536 := by
  rw [half_mod, BitVec.toNat_ofInt]
  omega

/-! ### The request (R190) -/

section
variable {s : State} {ps : List Word}

theorem takeSnapshot_outside (h : param ps 1 < 0x8000 ∨ 0xC000 < param ps 1 + 2200) :
    takeSnapshot ps s = refuse .errRange s := by
  unfold takeSnapshot
  dsimp only
  exact if_neg (by unfold snapshotSize; omega)

theorem takeSnapshot_inside (low : 0x8000 ≤ param ps 1) (high : param ps 1 + 2200 ≤ 0xC000) :
    takeSnapshot ps s =
      ({ s with mem := s.mem.writeBytes (param ps 1) (snapshotBytes s), freeCount := s.freeCount + 1 },
        { code := .ok, words := [2200, s.ms.toNat] }) := by
  have inside : 0x8000 ≤ param ps 1 ∧ param ps 1 + snapshotSize ≤ 0xC000 := ⟨low, high⟩
  unfold takeSnapshot
  dsimp only
  rw [if_pos inside]
  simp only [snapshotSize, State.setMem, State.setFreeCount]

end

end Sys2Proof.Machine

namespace Sys2Proof.Proofs

open Sys2Proof.Machine Sys2Proof.Claims

/-- Settles O46: the request by its area, then each section of the layout, field by field. -/
theorem snapshotRule : Obligations.SnapshotRule := by
  refine ⟨?_, ?_⟩
  · intro s q hq a
    have answer : exec .snapshot s = _ := event_request hq takeSnapshot
    rw [answer]
    refine ⟨fun outside => by rw [takeSnapshot_outside outside]; rfl, fun low high => ?_⟩
    rw [takeSnapshot_inside low high]
    refine ⟨s.mem.writeBytes a (snapshotBytes s), rfl, fun k hk => ?_, fun x hx => ?_⟩
    · rw [Memory.read_writeBytes, snapshotBytes_length, if_pos (by omega), Nat.add_sub_cancel_left]
    · exact Memory.read_writeBytes_other _ _ _ _ (by rwa [snapshotBytes_length])
  · intro s f
    refine ⟨snapshotBytes_length s, snapshot_field (base := 0) (off := 0) 0 rfl rfl rfl rfl, ?_⟩
    intro b expiry
    have timer (e : Option Time) : expiryWord e % 256 ^ 4 = expiry e := (expiryWord_mod e).trans (by cases e <;> rfl)
    refine ⟨?keys, ?chords, ?attention, snapshot_bus 0 2 rfl rfl, snapshot_bus 2 1 rfl rfl, snapshot_bus 3 1 rfl rfl,
      ?signals, ?motion, ?latch, ?light, ?log, ?counters⟩
    case keys =>
      intro p hp k e
      have key {off n : Nat} (h : off + n ≤ 12) : f (k + off) n = fieldAt (layout (keyFields e)) off n := snapshot_key hp h
      have first {off n v w : Nat} (inside : off + n ≤ 12) (h : findField (keyFields e) off = some (n, v))
          (hv : v % 256 ^ n = w) : f (k + off) n = w := (key inside).trans (fieldAt_layout h hv)
      refine ⟨first (off := 0) (by decide) rfl ?_, first (by decide) rfl (boolBit_mod _), first (by decide) rfl rfl,
        first (by decide) rfl rfl, fun l down => ?_, fun up => ?_⟩
      · cases e.cond <;> rfl
      · rw [keyFields_down down] at first
        refine ⟨first (by decide) rfl rfl, first (by decide) rfl ?_, first (by decide) rfl (routeSum_mod l),
          first (by decide) rfl (word_mod _)⟩
        cases l.layer <;> rfl
      · rw [key (by decide), layout_keyFields_up up]
        exact fieldAt_layout rfl rfl
    case chords =>
      intro i hi k codes
      have chord {off n v w : Nat} (inside : off + n ≤ 12) (h : findField (chordFields codes) off = some (n, v))
          (hv : v % 256 ^ n = w) : f (k + off) n = w := (snapshot_chord hi inside).trans (fieldAt_layout h hv)
      refine ⟨chord (off := 0) (by decide) rfl rfl, chord (by decide) rfl rfl, fun j hj => ?_, chord (by decide) rfl rfl⟩
      rw [Nat.add_assoc]
      exact chord (by omega) (chordFields_code codes hj) rfl
    case attention =>
      refine ⟨snapshot_attention 0 1 rfl (boolBit_mod _), snapshot_attention 2 2 rfl rfl, fun a active => ?_,
        fun idle => ?_⟩
      · refine ⟨snapshot_attention 1 1 rfl ?_, snapshot_attention 4 4 rfl ?_, snapshot_attention 8 4 rfl ?_⟩
        all_goals rw [active]
        · rfl
        · exact word_mod _
        · exact word_mod _
      · refine snapshot_attention 8 4 rfl ?_
        rw [idle]
        rfl
    case signals =>
      intro i hi k
      refine ⟨fun beyond x hx => ?_, ?_⟩
      · rw [show f (k + x) 1 = _ from snapshot_signal hi (by omega), List.getElem?_eq_none beyond]
        exact fieldAt_zero_field (by omega) []
      · intro g hg d
        have signal {off n v w : Nat} (inside : off + n ≤ 40)
            (h : findField (signalFields s (0x704 + 40 * i) (some g)) off = some (n, v)) (hv : v % 256 ^ n = w) :
            f (k + off) n = w := by
          rw [show f (k + off) n = _ from snapshot_signal hi inside, hg]
          exact fieldAt_layout h hv
        refine ⟨signal (off := 0) (by decide) rfl ?_, signal (by decide) rfl (boolBit_mod _),
          signal (by decide) rfl (boolBit_mod _), signal (by decide) rfl rfl, signal (by decide) rfl rfl,
          signal (by decide) rfl rfl, signal (by decide) rfl rfl, signal (by decide) rfl (word_mod _),
          signal (by decide) rfl (word_mod _), signal (by decide) rfl rfl, ?_, signal (by decide) rfl rfl,
          signal (by decide) rfl rfl, signal (by decide) rfl rfl, signal (by decide) rfl ?_,
          signal (by decide) rfl (boolBit_mod _), fun v reported => signal (by decide) rfl ?_, signal (by decide) rfl rfl,
          fun t arrival => signal (by decide) rfl ?_, signal (by decide) rfl (timer _)⟩
        · cases g.desc.role <;> rfl
        · rw [signal (off := 0x12) (by decide) rfl rfl]
          exact ofInt_half_mod _
        · cases g.val.status <;> rfl
        · rw [reported]
          rfl
        · rw [arrival]
          exact word_mod t
    case motion =>
      intro m
      refine ⟨snapshot_motion 0 2 rfl rfl, snapshot_motion 2 2 rfl rfl, snapshot_motion 4 2 rfl rfl,
        snapshot_motion 6 2 rfl rfl, snapshot_motion 8 1 rfl (boolBit_mod _), snapshot_motion 9 1 rfl (boolBit_mod _),
        snapshot_motion 10 1 rfl ?_, snapshot_motion 11 1 rfl (boolBit_mod _), snapshot_motion 12 1 rfl (boolBit_mod _),
        snapshot_motion 13 3 rfl rfl, fun t run => snapshot_motion 16 4 rfl ?_⟩
      · cases s.motion.state <;> rfl
      · rw [show s.motion.run = some t from run]
        exact word_mod t
    case latch =>
      intro g
      refine ⟨snapshot_latch 0 1 rfl ?_, snapshot_latch 1 1 rfl (boolBit_mod _), snapshot_latch 2 1 rfl (boolBit_mod _),
        snapshot_latch 3 1 rfl (boolBit_mod _), snapshot_latch 4 1 rfl ?_, snapshot_latch 5 1 rfl (boolBit_mod _),
        snapshot_latch 6 1 rfl rfl, snapshot_latch 7 1 rfl rfl, snapshot_latch 8 4 rfl ?_, snapshot_latch 12 4 rfl ?_,
        snapshot_latch 16 4 rfl (timer _)⟩
      · cases s.latch.state <;> rfl
      · rcases s.latch.heldPress with _ | _ | _ <;> rfl
      · cases s.latch.state with
        | asked e => exact word_mod e
        | _ => rfl
      · cases s.latch.state with
        | releasing e => exact word_mod e
        | _ => rfl
    case light =>
      intro l n
      refine ⟨snapshot_light 0 1 rfl rfl, snapshot_light 1 1 rfl rfl, snapshot_light 2 1 rfl rfl,
        snapshot_light 3 1 rfl ?_, snapshot_light 4 1 rfl (boolBit_mod _), snapshot_light 5 1 rfl (boolBit_mod _),
        snapshot_light 6 2 rfl rfl, snapshot_light 8 2 rfl rfl, snapshot_light 10 2 rfl rfl, snapshot_light 12 2 rfl rfl,
        snapshot_light 14 2 rfl rfl, snapshot_light 16 2 rfl rfl, snapshot_light 18 2 rfl rfl, fun i hi => ?_,
        snapshot_limit 0 2 rfl rfl, snapshot_limit 2 2 rfl rfl, snapshot_limit 4 2 rfl rfl,
        snapshot_limit 6 2 rfl rfl, snapshot_limit 8 2 rfl rfl, snapshot_limit 10 2 rfl rfl,
        snapshot_limit 12 2 rfl rfl, snapshot_limit 14 2 rfl rfl, snapshot_limit 18 1 rfl (boolBit_mod _),
        snapshot_limit 19 1 rfl rfl, fun d dip => ⟨snapshot_limit 16 2 rfl ?_, snapshot_limit 20 4 rfl ?_⟩⟩
      · cases s.light.mode <;> rfl
      · rw [show 0x830 + 2 * i = 0x81C + (0x14 + 2 * i) by omega]
        exact snapshot_light _ 2 (lightFields_level s hi) rfl
      · rw [dip]
        rfl
      · rw [dip]
        exact word_mod _
    case log =>
      refine ⟨snapshot_log 0 1 rfl (boolBit_mod _), snapshot_log 1 1 rfl ?_, snapshot_log 2 1 rfl rfl,
        snapshot_log 3 1 rfl (boolBit_mod _), snapshot_log 4 2 rfl rfl, snapshot_log 6 2 rfl (half_mod _),
        snapshot_log 8 1 rfl rfl, snapshot_log 9 3 rfl rfl⟩
      cases s.log.page <;> rfl
    case counters =>
      refine ⟨snapshot_counter 0 2 rfl rfl, snapshot_counter 2 2 rfl rfl, snapshot_counter 4 2 rfl rfl,
        snapshot_counter 6 2 rfl rfl, snapshot_counter 8 1 rfl rfl, snapshot_counter 9 1 rfl rfl,
        snapshot_counter 10 1 rfl ?_, snapshot_counter 11 1 rfl rfl, snapshot_counter 12 4 rfl ?_,
        snapshot_counter 16 2 rfl rfl, snapshot_counter 18 1 rfl rfl, snapshot_counter 19 1 rfl rfl,
        snapshot_counter 20 1 rfl rfl, snapshot_counter 21 1 rfl rfl, snapshot_counter 22 1 rfl (boolBit_mod _),
        snapshot_counter 23 1 rfl (boolBit_mod _), snapshot_counter 24 2 rfl rfl, snapshot_counter 26 2 rfl rfl,
        snapshot_counter 28 2 rfl rfl, snapshot_counter 30 1 rfl (boolBit_mod _), snapshot_counter 31 1 rfl ?_,
        snapshot_counter 32 4 rfl (word_mod _)⟩
      · cases s.scan.mode <;> rfl
      · exact Nat.mod_eq_of_lt (s.scan.settings.mask.isLt.trans (by decide))
      · cases s.link <;> rfl

end Sys2Proof.Proofs
end

section
/-! The machine as a whole: what a step does with the queue, and what a command leaves of queue and clock (log entries 1, 2
and 31). -/

namespace Sys2Proof.Machine

/-! ### A step, by the queue -/

theorem step_of_front {c : Instr} {rest : List Instr} {s : State} (h : s.pending = c :: rest) :
    step s = exec c (s.setPending rest) := by
  rw [step, h]

theorem step_of_empty {s : State} (h : s.pending = []) : step s = .next (tick s) := by
  rw [step, h]

/-! ### What a command leaves of the queue and the clock -/

/-- Queue and counter are not among the fields that the changes of an event may touch. -/
theorem Event.queue_clock_eq {s t : State} (h : Event s t) : t.pending = s.pending ∧ t.ms = s.ms :=
  ⟨h.runFields.pending (by decide), h.runFields.ms (by decide)⟩

/-- The release starts its timers by the counter and leaves the counter where it stands. -/
theorem releaseReset_queue_clock_eq (p l b : Bool) (a : Nat) (s : State) :
    (releaseReset p l b a s).pending = s.pending ∧ (releaseReset p l b a s).ms = s.ms :=
  have frame := releaseReset_frame p l b a s
  ⟨frame.pending (by decide), frame.ms (by decide)⟩

/-- Of the four things that a command can do, only a power reset moves the counter, and it too keeps the queue (log entry
31). -/
theorem exec_queue_clock {c : Instr} {s t : State} (h : exec c s = .next t) :
    t.pending = s.pending ∧ (t.ms = s.ms ∨ t = powerReset s) := by
  rcases exec_cases h with rfl | rfl | ⟨_, p, l, b, a, rfl⟩ | ⟨_, changes⟩
  · exact ⟨rfl, .inl rfl⟩
  · exact ⟨State.setPending_pending _ _, .inr rfl⟩
  · exact (releaseReset_queue_clock_eq p l b a s).imp_right .inl
  · exact changes.queue_clock_eq.imp_right .inl

end Sys2Proof.Machine

namespace Sys2Proof.Proofs

open Sys2Proof.Machine

/-- Settles O1: the front of the queue decides the step. -/
theorem stepRunsTheFrontCommand : Obligations.StepRunsTheFrontCommand :=
  fun _ _ _ front => step_of_front front

/-- Settles O2: an empty queue leaves a step the millisecond alone, and a command does one of four things, none of which
touches the queue. -/
theorem clockAndQueue : Obligations.ClockAndQueue :=
  ⟨fun _ empty => step_of_empty empty, fun _ _ _ answer => exec_queue_clock answer⟩

end Sys2Proof.Proofs
end
